-- ==== Sys2Proof/Word.lean ====
section
/-! DEFINITION. The word types of the block: bytes, 32-bit times and counts, 16-bit port coordinates. -/

namespace Sys2Proof

/-- A byte of the framebuffer, of a command table or of a wire frame (20_memory.md R57). -/
abbrev Byte := BitVec 8

/-- A 32-bit register: times (10_state.md R25, R26), the update counter (R28), the byte cursor (R34). -/
abbrev Word32 := BitVec 32

/-- A 16-bit two's-complement pixel coordinate as the port carries it (30_encoding.md R82). -/
abbrev Coord := BitVec 16

end Sys2Proof
end

