-- ==== Sys2Proof/Config.lean ====
section
/-! DEFINITION. The implementation parameters of 00_scope.md R5 to R18 as one configuration record, fixed when the
block is built. -/

namespace Sys2Proof

/-- `FORCED_MODE` (00_scope.md R11): `NONE`, `FULL` or `PARTIAL`; no other value exists (60_exceptions.md R188.4). -/
inductive ForcedMode where
  | cadence        -- NONE: the cadence rule decides
  | alwaysFull     -- FULL
  | alwaysPartial  -- PARTIAL
  deriving DecidableEq, Repr

/-- The six command tables by name (00_scope.md R16), in the order of `seq_sel`'s codes 0 to 5 (10_state.md R38); the
codes 6 and 7 are never written (30_encoding.md R86). -/
inductive TableSel where
  | initSeq | prepareSeq | fullRefreshSeq | partialRefreshSeq | sleepSeq | secondaryPrepareSeq
  deriving DecidableEq, Repr

/-- The configuration record. The time parameters are 32-bit unsigned by their type (60_exceptions.md R188.9). -/
structure Config where
  /-- `W`, native width in pixels (R5). -/
  width : Nat
  /-- `H`, native height in pixels (R5). -/
  height : Nat
  /-- `TARGETS` (R7). -/
  targets : Nat
  /-- `ROTATION` in degrees; any integer is a legal configuration (R8). -/
  rotation : Int
  /-- `MIRROR_X` (R9). -/
  mirrorX : Bool
  /-- `FULL_UPDATE_EVERY` (R10). -/
  fullUpdateEvery : Nat
  /-- `FORCED_MODE` (R11). -/
  forcedMode : ForcedMode
  /-- `T_RST_PRE_MS` (R12). -/
  tRstPreMs : Word32
  /-- `T_RST_LOW_MS` (R12). -/
  tRstLowMs : Word32
  /-- `T_RST_POST_MS` (R12). -/
  tRstPostMs : Word32
  /-- `INIT_IDLE_TIMEOUT_MS` (R13). -/
  initIdleTimeoutMs : Word32
  /-- `UPDATE_IDLE_TIMEOUT_MS` (R13). -/
  updateIdleTimeoutMs : Word32
  /-- `CHUNK_BYTES` (R14). -/
  chunkBytes : Nat
  /-- `CHUNK_ROWS` (R14). -/
  chunkRows : Nat
  /-- `HAS_RESET_PIN` (R15). -/
  hasResetPin : Bool
  /-- `HAS_BUSY_PIN` (R15). -/
  hasBusyPin : Bool
  /-- `HAS_DRAW_CB` (R15). -/
  hasDrawCb : Bool
  /-- `INIT_SEQ` (R16). -/
  initSeq : List Byte
  /-- `PREPARE_SEQ` (R16). -/
  prepareSeq : List Byte
  /-- `FULL_REFRESH_SEQ` (R16). -/
  fullRefreshSeq : List Byte
  /-- `PARTIAL_REFRESH_SEQ` (R16). -/
  partialRefreshSeq : List Byte
  /-- `SLEEP_SEQ` (R16). -/
  sleepSeq : List Byte
  /-- `SECONDARY_PREPARE_SEQ`, given when `TARGETS = 2` (R16). -/
  secondaryPrepareSeq : Option (List Byte)
  /-- `BUSY_ACTIVE_LEVEL` (R17). -/
  busyActiveLevel : Nat
  /-- `CS_ACTIVE_LEVEL` (R17). -/
  csActiveLevel : Nat
  /-- `ENC_STEP_CYCLES` (R18). -/
  encStepCycles : Nat
  deriving DecidableEq, Repr

/-- The bytes of a command table; a secondary table that is not given has none (R16). -/
def Config.table (c : Config) : TableSel → List Byte
  | .initSeq => c.initSeq
  | .prepareSeq => c.prepareSeq
  | .fullRefreshSeq => c.fullRefreshSeq
  | .partialRefreshSeq => c.partialRefreshSeq
  | .sleepSeq => c.sleepSeq
  | .secondaryPrepareSeq => c.secondaryPrepareSeq.getD []

/-- The configuration `c` with another table at a selector. -/
def Config.withTable (c : Config) (sel : TableSel) (t : List Byte) : Config :=
  match sel with
  | .initSeq => { c with initSeq := t }
  | .prepareSeq => { c with prepareSeq := t }
  | .fullRefreshSeq => { c with fullRefreshSeq := t }
  | .partialRefreshSeq => { c with partialRefreshSeq := t }
  | .sleepSeq => { c with sleepSeq := t }
  | .secondaryPrepareSeq => { c with secondaryPrepareSeq := some t }

/-- A command table that holds only the end marker (42_sequence_interpreter.md R120). -/
def emptyTable : List Byte := [0xFF, 0xFF]

/-- The configuration `State.reset` is built with. The values R9, R12, R13 and R17 give this hardware are taken. The spec
gives the others no value: W, H, CHUNK_BYTES, CHUNK_ROWS, ENC_STEP_CYCLES and FULL_UPDATE_EVERY have the values of
spec/95_test_vectors.md's own vectors (W and H of V1 to V6, CHUNK_BYTES and the cadence of P2, CHUNK_ROWS of V32,
ENC_STEP_CYCLES of V13); TARGETS is 1 (R7), ROTATION 0 (R8), FORCED_MODE NONE (R11); HAS_RESET_PIN, HAS_BUSY_PIN and
HAS_DRAW_CB are true (R15); every table holds only its end marker (R16). DESIGN CHOICE (log entry 2,
unsafe for a claim about this one configuration); no statement rests on it, since `cfg` is a field of every state. -/
def Config.reference : Config where
  width := 16
  height := 8
  targets := 1
  rotation := 0
  mirrorX := true
  fullUpdateEvery := 10
  forcedMode := .cadence
  tRstPreMs := 100
  tRstLowMs := 10
  tRstPostMs := 10
  initIdleTimeoutMs := 1000
  updateIdleTimeoutMs := 60000
  chunkBytes := 3
  chunkRows := 1
  hasResetPin := true
  hasBusyPin := true
  hasDrawCb := true
  initSeq := emptyTable
  prepareSeq := emptyTable
  fullRefreshSeq := emptyTable
  partialRefreshSeq := emptyTable
  sleepSeq := emptyTable
  secondaryPrepareSeq := none
  busyActiveLevel := 1
  csActiveLevel := 0
  encStepCycles := 2

end Sys2Proof
end

