-- ==== Sys2Proof/Syntax.lean ====
section
/-! DEFINITION. The instructions: one constructor for each row of spec/opcode_table.json. -/

namespace Sys2Proof

/-- The 33 operations of the opcode table, in its order: the steps of a command sequence (format SEQ), the encoder's
frames (FRAME), a command byte with its cascade target (TAG), the host ports (PORT), the framebuffer fill (INTERNAL) and
the state actions with the two transfer routines (STATE). -/
inductive Instr where
  /-- `FF FF` at a step position (30_encoding.md R76). -/
  | seqEnd
  /-- `FF` and a count byte that is not `FF` at a step position (30_encoding.md R78). -/
  | seqIllegalFF (cnt : Byte)
  /-- A step without delay: command byte and arguments (30_encoding.md R72). -/
  | seqStep (cmd : Byte) (args : List Byte)
  /-- A step with delay: command byte, delay in ms, arguments (30_encoding.md R72). -/
  | seqStepDelay (cmd : Byte) (dly : Byte) (args : List Byte)
  /-- `SendCommand(b)` (41_serial_encoder.md R108). -/
  | sendCommand (b : Byte)
  /-- `SendData(b)` (41_serial_encoder.md R109). -/
  | sendData (b : Byte)
  /-- A command byte for the primary controller, tag 0 (30_encoding.md R80). -/
  | cmdTagPrimary (opcode : BitVec 7)
  /-- A command byte for the secondary controller, tag 1 (30_encoding.md R80). -/
  | cmdTagSecondary (opcode : BitVec 7)
  /-- A pixel write at the port (30_encoding.md R82). -/
  | pixelSet (x y : Coord) (black : Bool)
  /-- `FILL(black)` (40_framebuffer.md R92). -/
  | fbFill (black : Bool)
  /-- The `tick` strobe (43_display_controller.md R133). -/
  | hostTick
  /-- The `request_update` strobe (43_display_controller.md R160). -/
  | hostRequestUpdate
  /-- The `sleep_request` strobe (43_display_controller.md R161). -/
  | hostSleepRequest
  /-- The `draw_done` strobe (43_display_controller.md R147). -/
  | hostDrawDone
  | stateInitStart
  | stateInitReset
  | stateInitWaitReset
  | stateInitWaitResetLow
  | stateInitWaitResetHigh
  | stateInitSendCommands
  | stateInitWaitBusy
  | stateInitDone
  | stateIdle
  | stateUpdateStart
  | stateUpdateWaitBusy
  | stateUpdatePrepare
  | stateUpdateSendingData
  | stateUpdateRefresh
  | stateUpdateWaitRefresh
  | stateUpdateDone
  | stateDeepSleep
  /-- `TransferChunk1()`, one tick of the transfer when `TARGETS = 1` (44_data_transfer.md R174). -/
  | transferChunk1
  /-- `TransferChunk2()`, one tick of the transfer when `TARGETS = 2` (44_data_transfer.md R178). -/
  | transferChunk2
  deriving DecidableEq, Repr

end Sys2Proof
end

