-- ==== Sys2Proof/WellFormed.lean ====
section
/-! DEFINITION. Well-formed instructions, and the names of the conditions of 60_exceptions.md R188 a configuration can
break (the checks themselves are in Machine/Configure.lean). -/

namespace Sys2Proof

/-- What an operand must satisfy for the encoding to hold it: a step's command byte is not `FF` (30_encoding.md R78, R79)
and its argument count fits seven bits (R73); the illegal head is `FF` with a count byte that is not `FF` (R78). Every
other operand is legal at every value of its type (R79, R81, R82, R85). -/
def Instr.wf : Instr → Bool
  | .seqIllegalFF cnt => cnt != 0xFF
  | .seqStep cmd args => cmd != 0xFF && decide (args.length ≤ 127)
  | .seqStepDelay cmd _ args => cmd != 0xFF && decide (args.length ≤ 127)
  | .seqEnd | .sendCommand _ | .sendData _ | .cmdTagPrimary _ | .cmdTagSecondary _ | .pixelSet _ _ _ | .fbFill _
  | .hostTick | .hostRequestUpdate | .hostSleepRequest | .hostDrawDone
  | .stateInitStart | .stateInitReset | .stateInitWaitReset | .stateInitWaitResetLow | .stateInitWaitResetHigh
  | .stateInitSendCommands | .stateInitWaitBusy | .stateInitDone | .stateIdle | .stateUpdateStart
  | .stateUpdateWaitBusy | .stateUpdatePrepare | .stateUpdateSendingData | .stateUpdateRefresh
  | .stateUpdateWaitRefresh | .stateUpdateDone | .stateDeepSleep | .transferChunk1 | .transferChunk2 => true

/-- The conditions of 60_exceptions.md R188 a configuration can break; the number is R188's. Conditions 4 and 9 hold by
the types of their fields. -/
inductive ConfigError where
  /-- 1: `1 <= W <= 32767`, `1 <= H <= 32767`, `W mod 8 = 0`. -/
  | geometry
  /-- 2: `TARGETS` is 1 or 2. -/
  | targets
  /-- 3: `FULL_UPDATE_EVERY >= 1` when `FORCED_MODE = NONE`. -/
  | cadencePeriod
  /-- 5: `CHUNK_BYTES >= 1` when `TARGETS = 1`, `CHUNK_ROWS >= 1` when `TARGETS = 2`. -/
  | chunk
  /-- 6: a table in use is ill formed, too long or not given. -/
  | table
  /-- 7: `BUSY_ACTIVE_LEVEL` is 0 or 1 and `CS_ACTIVE_LEVEL = 0`. -/
  | levels
  /-- 8: `ENC_STEP_CYCLES >= 1`. -/
  | encoder
  deriving DecidableEq, Repr

end Sys2Proof
end

