-- ==== Sys2Proof/Decode.lean ====
section
/-! DEFINITION. The decoder of the four formats of 30_encoding.md, total and rejecting by name, the encoder, the
well-formed tables of 42_sequence_interpreter.md R127 and the table notation of 30_encoding.md R88 and R89. -/

namespace Sys2Proof

/-- Why a word is no instruction. -/
inductive DecodeError where
  /-- No two bytes are left where a step head must stand (42_sequence_interpreter.md R127). -/
  | noStepHead
  /-- The delay or the arguments of a step run off the table (42_sequence_interpreter.md R127). -/
  | stepRunsOff
  /-- A state code `0x11` to `0x1F` (30_encoding.md R86). -/
  | reservedState
  /-- A transfer routine is named by the state code `0x0C` and by `TARGETS` 1 or 2 only (44_data_transfer.md R170). -/
  | noTransfer
  /-- No strobe of the host input vector is 1 (30_encoding.md R83). -/
  | noStrobe
  /-- Several strobes are 1: the vector names several operations, in the order of `decodeHiv` (30_encoding.md R83). -/
  | severalStrobes
  deriving DecidableEq, Repr

/-! ### The fields of a step (30_encoding.md R73) -/

/-- `D = CNT[7]`, the delay flag. -/
def cntDelay (k : Byte) : Bool := k.getLsbD 7

/-- `N = CNT[6:0]`, the argument count. -/
def cntArgs (k : Byte) : Nat := (k.extractLsb' 0 7).toNat

/-- `{D, N}`, the count byte of a step with `n` arguments. -/
def countByte (delay : Bool) (n : Nat) : Byte := BitVec.ofBool delay ++ BitVec.ofNat 7 n

/-! ### Command sequences -/

/-- A decoded step position of a command table (30_encoding.md R77). -/
inductive SeqOp where
  | finish                                          -- SEQ_END
  | illegal (cnt : Byte)                            -- SEQ_ILLEGAL_FF
  | step (cmd : Byte) (args : List Byte)            -- SEQ_STEP
  | stepDelay (cmd dly : Byte) (args : List Byte)   -- SEQ_STEP_DELAY
  deriving DecidableEq, Repr

/-- The instruction a step position stands for. -/
def SeqOp.instr : SeqOp → Instr
  | .finish => .seqEnd
  | .illegal cnt => .seqIllegalFF cnt
  | .step cmd args => .seqStep cmd args
  | .stepDelay cmd dly args => .seqStepDelay cmd dly args

/-- `n` argument bytes and what follows them. -/
def takeArgs (n : Nat) (bytes : List Byte) : Option (List Byte × List Byte) :=
  if bytes.length < n then none else some (bytes.take n, bytes.drop n)

/-- Decoding at a step position, the first case that holds deciding (30_encoding.md R77), with the bytes after the
step (R75, R76). -/
def decodeSeq : List Byte → Except DecodeError (SeqOp × List Byte)
  | c :: k :: rest =>
    if c = 0xFF then
      if k = 0xFF then .ok (.finish, rest) else .ok (.illegal k, rest)
    else if cntDelay k then
      match rest with
      | d :: rest' =>
        match takeArgs (cntArgs k) rest' with
        | some (args, after) => .ok (.stepDelay c d args, after)
        | none => .error .stepRunsOff
      | [] => .error .stepRunsOff
    else
      match takeArgs (cntArgs k) rest with
      | some (args, after) => .ok (.step c args, after)
      | none => .error .stepRunsOff
  | _ => .error .noStepHead

/-- The walk of 42_sequence_interpreter.md R127 over the bytes that are left; the first argument bounds the number of
steps, each of which takes at least two bytes (30_encoding.md R75). -/
def wfWalk : Nat → List Byte → Bool
  | 0, _ => false
  | n + 1, bytes =>
    match bytes with
    | c :: k :: rest =>
      if c = 0xFF then decide (k = 0xFF)
      else if rest.length < (cntDelay k).toNat + cntArgs k then false
      else wfWalk n (rest.drop ((cntDelay k).toNat + cntArgs k))
    | _ => false

/-- `WF(T)` (42_sequence_interpreter.md R127). -/
def wfTable (t : List Byte) : Bool := wfWalk (t.length + 1) t

/-! ### State codes (10_state.md R24, 43_display_controller.md R132) -/

/-- The state action a code of `st` names. -/
def decodeState (code : BitVec 5) : Except DecodeError Instr :=
  match code.toNat with
  | 0 => .ok .stateInitStart
  | 1 => .ok .stateInitReset
  | 2 => .ok .stateInitWaitReset
  | 3 => .ok .stateInitWaitResetLow
  | 4 => .ok .stateInitWaitResetHigh
  | 5 => .ok .stateInitSendCommands
  | 6 => .ok .stateInitWaitBusy
  | 7 => .ok .stateInitDone
  | 8 => .ok .stateIdle
  | 9 => .ok .stateUpdateStart
  | 10 => .ok .stateUpdateWaitBusy
  | 11 => .ok .stateUpdatePrepare
  | 12 => .ok .stateUpdateSendingData
  | 13 => .ok .stateUpdateRefresh
  | 14 => .ok .stateUpdateWaitRefresh
  | 15 => .ok .stateUpdateDone
  | 16 => .ok .stateDeepSleep
  | _ => .error .reservedState

/-! ### Host input vector (30_encoding.md R83) -/

/-- The operations a host input vector names, in the order in which one edge performs them (43_display_controller.md
R162, R147): the request strobes first, so that a tick of the same edge sees their flags; the pixel write before
`draw_done`, so that the write of the closing cycle is accepted; the tick last. -/
def decodeHiv (hiv : BitVec 5) (x y : Coord) (black : Bool) : List Instr :=
  (if hiv.getLsbD 1 then [.hostRequestUpdate] else [])
    ++ (if hiv.getLsbD 2 then [.hostSleepRequest] else [])
    ++ (if hiv.getLsbD 4 then [.pixelSet x y black] else [])
    ++ (if hiv.getLsbD 3 then [.hostDrawDone] else [])
    ++ (if hiv.getLsbD 0 then [.hostTick] else [])

/-! ### All formats -/

/-- An encoded operation in the format of its table row (30_encoding.md R70). -/
inductive Code where
  /-- Bytes of a command table from a step position on (R72). -/
  | seq (bytes : List Byte)
  /-- `{mode, byte}` (R81). -/
  | frame (word : BitVec 9)
  /-- A command byte with its target tag (R80). -/
  | tag (byte : Byte)
  /-- The host input vector and the pixel tuple (R82, R83). -/
  | port (hiv : BitVec 5) (x y : Coord) (black : Bool)
  /-- `FILL`'s operand; the operation has no port (40_framebuffer.md R92). -/
  | fill (black : Bool)
  /-- A code of `st` (10_state.md R24). -/
  | state (code : BitVec 5)
  /-- A code of `st` with the panel's `TARGETS`, which together name a transfer routine (43_display_controller.md R150). -/
  | transfer (code : BitVec 5) (targets : Nat)
  deriving DecidableEq, Repr

/-- The operation an encoded word stands for. -/
def decode : Code → Except DecodeError Instr
  | .seq bytes =>
    match decodeSeq bytes with
    | .ok (op, _) => .ok op.instr
    | .error e => .error e
  | .frame word =>
    .ok (if word.getLsbD 8 then .sendData (word.extractLsb' 0 8) else .sendCommand (word.extractLsb' 0 8))
  | .tag byte =>
    .ok (if byte.getLsbD 7 then .cmdTagSecondary (byte.extractLsb' 0 7) else .cmdTagPrimary (byte.extractLsb' 0 7))
  | .port hiv x y black =>
    match decodeHiv hiv x y black with
    | [i] => .ok i
    | [] => .error .noStrobe
    | _ => .error .severalStrobes
  | .fill black => .ok (.fbFill black)
  | .state code => decodeState code
  | .transfer code targets =>
    if code = 0x0C ∧ targets = 1 then .ok .transferChunk1
    else if code = 0x0C ∧ targets = 2 then .ok .transferChunk2
    else .error .noTransfer

/-! ### Encoder -/

/-- The bytes of a step (30_encoding.md R72): command, count, delay if any, arguments. -/
def stepBytes (cmd : Byte) (args : List Byte) : List Byte := cmd :: countByte false args.length :: args

/-- The bytes of a step with delay (30_encoding.md R72). -/
def stepDelayBytes (cmd dly : Byte) (args : List Byte) : List Byte := cmd :: countByte true args.length :: dly :: args

/-- The bytes a step position takes (30_encoding.md R72, R76). -/
def SeqOp.bytes : SeqOp → List Byte
  | .finish => [0xFF, 0xFF]
  | .illegal cnt => [0xFF, cnt]
  | .step cmd args => stepBytes cmd args
  | .stepDelay cmd dly args => stepDelayBytes cmd dly args

/-- The encoding of an operation, in the format of its table row; a strobe's word has its own bit of the host input
vector alone (30_encoding.md R83), and a strobe without operands leaves the pixel tuple 0. -/
def encode : Instr → Code
  | .seqEnd => .seq [0xFF, 0xFF]
  | .seqIllegalFF cnt => .seq [0xFF, cnt]
  | .seqStep cmd args => .seq (stepBytes cmd args)
  | .seqStepDelay cmd dly args => .seq (stepDelayBytes cmd dly args)
  | .sendCommand b => .frame (0#1 ++ b)
  | .sendData b => .frame (1#1 ++ b)
  | .cmdTagPrimary op => .tag (0#1 ++ op)
  | .cmdTagSecondary op => .tag (1#1 ++ op)
  | .pixelSet x y black => .port 0b10000 x y black
  | .fbFill black => .fill black
  | .hostTick => .port 0b00001 0 0 false
  | .hostRequestUpdate => .port 0b00010 0 0 false
  | .hostSleepRequest => .port 0b00100 0 0 false
  | .hostDrawDone => .port 0b01000 0 0 false
  | .stateInitStart => .state 0x00
  | .stateInitReset => .state 0x01
  | .stateInitWaitReset => .state 0x02
  | .stateInitWaitResetLow => .state 0x03
  | .stateInitWaitResetHigh => .state 0x04
  | .stateInitSendCommands => .state 0x05
  | .stateInitWaitBusy => .state 0x06
  | .stateInitDone => .state 0x07
  | .stateIdle => .state 0x08
  | .stateUpdateStart => .state 0x09
  | .stateUpdateWaitBusy => .state 0x0A
  | .stateUpdatePrepare => .state 0x0B
  | .stateUpdateSendingData => .state 0x0C
  | .stateUpdateRefresh => .state 0x0D
  | .stateUpdateWaitRefresh => .state 0x0E
  | .stateUpdateDone => .state 0x0F
  | .stateDeepSleep => .state 0x10
  | .transferChunk1 => .transfer 0x0C 1
  | .transferChunk2 => .transfer 0x0C 2

/-! ### The steps of a table (42_sequence_interpreter.md R128) -/

/-- The steps of a byte list before its end marker; the first argument bounds their number. -/
def seqOps : Nat → List Byte → List SeqOp
  | 0, _ => []
  | n + 1, bytes =>
    match decodeSeq bytes with
    | .ok (.step cmd args, rest) => .step cmd args :: seqOps n rest
    | .ok (.stepDelay cmd dly args, rest) => .stepDelay cmd dly args :: seqOps n rest
    | .ok (.finish, _) | .ok (.illegal _, _) | .error _ => []

/-- The steps of a table before its end marker (R128). -/
def tableOps (t : List Byte) : List SeqOp := seqOps (t.length + 1) t

/-- The sum over the waits of a table of `d + 1` for each wait with `d > 0` (43_display_controller.md R134). -/
def waitSum : List SeqOp → Nat
  | [] => 0
  | .stepDelay _ dly _ :: ops => (if dly = 0 then 0 else dly.toNat + 1) + waitSum ops
  | .step _ _ :: ops | .finish :: ops | .illegal _ :: ops => waitSum ops

/-! ### Table notation (30_encoding.md R88, R89) -/

/-- A line of the table notation, the pseudo-steps of R89 among them. -/
inductive AsmLine where
  | step (cmd : Byte) (args : List Byte)
  | stepd (cmd dly : Byte) (args : List Byte)
  | finish                                                        -- end
  | cmd (cmd : Byte)
  | wait (cmd dly : Byte)
  | taggedStep (secondary : Bool) (op : Byte) (args : List Byte)
  deriving DecidableEq, Repr

/-- A pseudo-step's expansion (30_encoding.md R89); a tagged opcode has bit 7 clear. -/
def AsmLine.expand : AsmLine → Option AsmLine
  | .cmd c => some (.step c [])
  | .wait c d => some (.stepd c d [])
  | .taggedStep secondary op args =>
    if op.getLsbD 7 then none else some (.step (op + (if secondary then 0x80 else 0)) args)
  | .step c args => some (.step c args)
  | .stepd c d args => some (.stepd c d args)
  | .finish => some .finish

/-- The bytes of one line; `none` where the assembler refuses it: a command byte `FF` or more than 127 arguments
(30_encoding.md R88). -/
def AsmLine.bytes (l : AsmLine) : Option (List Byte) :=
  match l.expand with
  | some (.step c args) => if (Instr.seqStep c args).wf then some (stepBytes c args) else none
  | some (.stepd c d args) => if (Instr.seqStepDelay c d args).wf then some (stepDelayBytes c d args) else none
  | some .finish => some [0xFF, 0xFF]
  | _ => none

/-- The bytes of a table written in the notation (30_encoding.md R88). -/
def assemble : List AsmLine → Option (List Byte)
  | [] => some []
  | l :: ls =>
    match l.bytes, assemble ls with
    | some b, some bs => some (b ++ bs)
    | _, _ => none

/-! ### The opcode table's words, for the host's probe -/

/-- The encoded word a table row's bits stand for. The formats are separate code spaces whose words coincide, and a bare
word does not say its format; this function reads a word of one byte as a PORT vector when exactly one strobe is 1, as a
TAG when bit 7 is 1, as a STATE code up to `0x10`, and otherwise as a TAG; a word of more bytes whose bits 15 to 8 are
`0x01` as a FRAME of mode 1, and otherwise as the head `{byte p, byte p+1}` of a SEQ step whose further bytes are 0.
DESIGN CHOICE (log entry 10; safe: the machine itself reads every word where its format stands). -/
def tableCode (nbits w : Nat) : Code :=
  if nbits ≤ 8 then
    let b := BitVec.ofNat 8 w
    if w = 0x01 ∨ w = 0x02 ∨ w = 0x04 ∨ w = 0x08 ∨ w = 0x10 then .port (BitVec.ofNat 5 w) 0 0 false
    else if b.getLsbD 7 then .tag b
    else if w ≤ 0x10 then .state (BitVec.ofNat 5 w)
    else .tag b
  else if w / 0x100 = 1 then .frame (BitVec.ofNat 9 w)
  else .seq (BitVec.ofNat 8 (w / 0x100) :: BitVec.ofNat 8 w :: List.replicate 128 0)

/-- The instruction the decoder reads from a word numbered as spec/opcode_table.json numbers it. -/
def decodeTableWord (nbits w : Nat) : Option Instr :=
  match decode (tableCode nbits w) with
  | .ok i => some i
  | .error _ => none

end Sys2Proof
end

