-- ==== Sys2Proof/Machine/Configure.lean ====
section
/-! DEFINITION. The configuration checks of 60_exceptions.md R188. -/

namespace Sys2Proof

/-- A table the configuration may use: well formed and within the reach of the 16-bit `seq_ptr`
(R188.6, 20_memory.md R55). -/
def tableOk (t : List Byte) : Bool := wfTable t && decide (t.length ≤ 65535)

/-- R188.1. -/
def Config.geometryOk (c : Config) : Bool :=
  decide (1 ≤ c.width ∧ c.width ≤ 32767 ∧ 1 ≤ c.height ∧ c.height ≤ 32767 ∧ c.width % 8 = 0)

/-- R188.2. -/
def Config.targetsOk (c : Config) : Bool := decide (c.targets = 1 ∨ c.targets = 2)

/-- R188.3. -/
def Config.cadenceOk (c : Config) : Bool := decide (c.forcedMode = .cadence → 1 ≤ c.fullUpdateEvery)

/-- R188.5. -/
def Config.chunkOk (c : Config) : Bool :=
  decide ((c.targets = 1 → 1 ≤ c.chunkBytes) ∧ (c.targets = 2 → 1 ≤ c.chunkRows))

/-- R188.6: the five tables of every panel, and the secondary one of a cascade panel. -/
def Config.tablesOk (c : Config) : Bool :=
  tableOk c.initSeq && tableOk c.prepareSeq && tableOk c.fullRefreshSeq && tableOk c.partialRefreshSeq
    && tableOk c.sleepSeq && (decide (c.targets ≠ 2) || tableOk (c.table .secondaryPrepareSeq))

/-- R188.7. -/
def Config.levelsOk (c : Config) : Bool := decide (c.busyActiveLevel ≤ 1 ∧ c.csActiveLevel = 0)

/-- R188.8. -/
def Config.encoderOk (c : Config) : Bool := decide (1 ≤ c.encStepCycles)

/-- The first condition of R188 the configuration breaks, in R188's order. -/
def Config.check (c : Config) : Option ConfigError :=
  if !c.geometryOk then some .geometry
  else if !c.targetsOk then some .targets
  else if !c.cadenceOk then some .cadencePeriod
  else if !c.chunkOk then some .chunk
  else if !c.tablesOk then some .table
  else if !c.levelsOk then some .levels
  else if !c.encoderOk then some .encoder
  else none

/-- The configuration passes R188: the block is defined for it. -/
def Config.valid (c : Config) : Bool :=
  c.geometryOk && c.targetsOk && c.cadenceOk && c.chunkOk && c.tablesOk && c.levelsOk && c.encoderOk

end Sys2Proof
end

