-- ==== Sys2Proof/Machine/State.lean ====
section
/-! DEFINITION. The state of the block: every register of 10_state.md R24 to R38, the framebuffer, the configuration, the
pin trace, the environment's inputs, and the state after reset. Plain data. -/

namespace Sys2Proof.Machine

/-! ### Names the registers hold -/

/-- The 17 states of the display refresh controller (10_state.md R24); the reserved codes are left out, which
30_encoding.md R86 allows. -/
inductive DState where
  | initStart | initReset | initWaitReset | initWaitResetLow | initWaitResetHigh | initSendCommands | initWaitBusy
  | initDone | idle | updateStart | updateWaitBusy | updatePrepare | updateSendingData | updateRefresh
  | updateWaitRefresh | updateDone | deepSleep
  deriving DecidableEq, Repr

/-- The five output pins driven by the encoder and by the controller (10_state.md R30). -/
inductive Pin where
  | dc | csN | sclk | sdin | panelRst
  deriving DecidableEq, Repr

/-- One event of the pin trace (10_state.md R30). -/
inductive TraceEvent where
  /-- `Pin(p) <- v`. -/
  | pin (p : Pin) (v : Bool)
  /-- `Wait(d)`, one per blocking delay. -/
  | wait (d : Byte)
  /-- `BusySample(level)`, one per read of `busy_in`. -/
  | busySample (level : Bool)
  deriving DecidableEq, Repr

/-- The levels of the five pins in one clock cycle (10_state.md R30). -/
structure PinLevels where
  sclk : Bool
  sdin : Bool
  csN : Bool
  dc : Bool
  panelRst : Bool
  deriving DecidableEq, Repr

/-! ### The environment's inputs (10_state.md R22, R45) -/

/-- A pixel write of the drawing collaborator (30_encoding.md R82). -/
structure PixelWrite where
  x : Coord
  y : Coord
  black : Bool
  deriving DecidableEq, Repr

/-- The levels of the input ports at a rising edge with `rst = 0` (10_state.md R22): the host input vector
`HIV[4:0]` (30_encoding.md R83), the pixel tuple, the millisecond count and the busy line. -/
structure Ports where
  hiv : BitVec 5
  px : PixelWrite
  nowMs : Word32
  busyIn : Bool
  deriving DecidableEq, Repr

/-- What the environment draws for a tick at the transaction level: how much time passes outside the waits, before each wait
with `d > 0` begins and then before the `goto` (42_sequence_interpreter.md R125, R126, 43_display_controller.md R134), each 0
when the list has ended and each cut to what R134 leaves (log entry 4); and the pixel writes of the drawing window when the
collaborator asserts `draw_done` within the tick, `none` when the window stays open for later edges
(43_display_controller.md R147). -/
structure Draws where
  lapses : List Nat
  window : Option (List PixelWrite)
  deriving DecidableEq, Repr

/-- One input of the block, which one step takes (10_state.md R21, R45). -/
inductive Input where
  /-- A rising edge with `rst = 1` (70_reset_and_hazards.md R200); the bytes are the environment's draw of the
  framebuffer's contents after it, from address 0 on (10_state.md R46). -/
  | reset (fb : List Byte)
  /-- A rising edge with `rst = 0` at the transaction level: a tick it starts is performed as one atomic transition. -/
  | edge (p : Ports) (d : Draws)
  /-- A rising edge with `rst = 0` at the cycle level; `actions` is the draw of how many control actions this clock cycle
  performs (42_sequence_interpreter.md R126, 44_data_transfer.md R184). -/
  | clock (p : Ports) (actions : Nat)
  deriving DecidableEq, Repr

/-- What a tick in progress has still to do, at the cycle level; the model's own (log entry 7). -/
inductive Task where
  /-- The action of the state in `st` (43_display_controller.md R132). -/
  | action
  /-- `RunSeq(T)` (42_sequence_interpreter.md R122). -/
  | run (sel : TableSel)
  /-- The interpreter at a step position. -/
  | seqHead
  /-- After a step's command frame: `seq_left <- k[6:0]; seq_ptr <- seq_ptr + 2` (42_sequence_interpreter.md R122). -/
  | seqTake (left : BitVec 7)
  /-- The interpreter at the delay byte of a step. -/
  | seqDelay
  /-- A blocking wait that has begun (42_sequence_interpreter.md R125). -/
  | seqHold
  /-- The interpreter at the arguments of a step, `seq_left` of them. -/
  | seqArgs
  /-- After an argument's frame: `seq_ptr <- seq_ptr + 1; seq_left <- seq_left - 1` (42_sequence_interpreter.md R122). -/
  | argSent
  /-- The caller of a frame waits for `enc_busy = 0` (41_serial_encoder.md R106). -/
  | frame
  /-- Send the framebuffer bytes `a` to `a + n - 1` (44_data_transfer.md R174). -/
  | sendFb (a n : Nat)
  /-- Advance `idx` by `n` and leave the state when the image is sent (44_data_transfer.md R174). -/
  | endChunk1 (n : Nat)
  /-- Send `r` rows of the current window, from column `col` of the row `row` on (44_data_transfer.md R178). -/
  | rows (r : Nat)
  /-- After a window byte's frame: `col <- col + 1` (44_data_transfer.md R178). -/
  | colSent
  /-- The end of a cascade tick: switch the target or leave the state after the last row (44_data_transfer.md R178). -/
  | endChunk2
  /-- `tgt <- 1; row <- 0` after the switch table (44_data_transfer.md R178). -/
  | switchTarget
  /-- The drawing window is open until `draw_done` (43_display_controller.md R147). -/
  | window
  /-- `sleep_done <- 1` after the sleep table (43_display_controller.md R154). -/
  | sleepDone
  /-- `goto S` (43_display_controller.md R134). -/
  | goto (s : DState)
  deriving DecidableEq, Repr

/-! ### Stops -/

/-- Why the machine stops. The block itself raises no exception (60_exceptions.md R185); these are the stuck cases of
93_implementation_defined.md and an unreachable one. -/
inductive Fault where
  /-- Raised by `step` when the environment gives no further input and nothing is in progress: no tick ever arrives
  (93_implementation_defined.md I18). Safe: the block makes no transition without a tick. -/
  | stuckNoTick
  /-- Raised by `step` when the environment gives no further input while the drawing window is open: `draw_done` never
  comes (93_implementation_defined.md I17, 70_reset_and_hazards.md R213). Safe. -/
  | stuckDrawDone
  /-- Raised by `step` when the environment gives no further input during a blocking wait: `now_ms` stops
  (93_implementation_defined.md I16, 70_reset_and_hazards.md R212). Safe. -/
  | stuckNowMs
  /-- Raised by the transfer when `idx > L` or `row > H`, which no run reaches (44_data_transfer.md R174, R181) and for
  which the spec gives no meaning. Safe (log entry 14). -/
  | cursorPastEnd
  deriving DecidableEq, Repr

/-- Why a step has no meaning. -/
inductive Refusal where
  /-- An instruction whose arm is still rejected by name. Safe. -/
  | notModelled (mnemonic : String)
  /-- Raised by `step` in a state whose configuration breaks 60_exceptions.md R188: no run is defined for it. Safe. -/
  | configuration (e : ConfigError)
  /-- Raised by SEQ_ILLEGAL_FF and by a run of a table that is not well formed (42_sequence_interpreter.md R121, R127):
  `refuse IllFormedSequence`. Safe. -/
  | illFormedSequence
  deriving DecidableEq, Repr

/-! ### The state -/

/-- The state of the block. -/
structure State where
  /-- The configuration record, fixed when the block is built (00_scope.md section 3). -/
  cfg : Config
  /-- `st` (R24). -/
  st : DState
  /-- `t_entry` (R25). -/
  tEntry : Word32
  /-- `upd_cnt` (R28). -/
  updCnt : Word32
  /-- `pending` (R29). -/
  pending : Bool
  /-- `sleep_pending` (R31). -/
  sleepPending : Bool
  /-- `is_full` (R32). -/
  isFull : Bool
  /-- `sleep_done` (R33). -/
  sleepDone : Bool
  /-- `idx`, the byte cursor (R34). -/
  idx : Word32
  /-- `row`, the row cursor (R34). -/
  row : BitVec 16
  /-- `tgt`: false primary, true secondary (R34). -/
  tgt : Bool
  /-- `col`, the column counter of the cascade transfer (R34, 44_data_transfer.md R178). -/
  col : BitVec 16
  /-- `draw_req` (R35). -/
  drawReq : Bool
  /-- `ready` (R36). -/
  ready : Bool
  /-- `sclk` (R30). -/
  sclk : Bool
  /-- `sdin` (R30). -/
  sdin : Bool
  /-- `cs_n` (R30). -/
  csN : Bool
  /-- `dc` (R30). -/
  dc : Bool
  /-- `panel_rst` (R30). -/
  panelRst : Bool
  /-- `enc_busy` (R37). -/
  encBusy : Bool
  /-- `enc_step` (R37). -/
  encStep : BitVec 5
  /-- `enc_byte` (R37). -/
  encByte : Byte
  /-- `enc_mode` (R37). -/
  encMode : Bool
  /-- `enc_hold` (R37). -/
  encHold : Nat
  /-- `seq_sel` (R38). -/
  seqSel : TableSel
  /-- `seq_ptr` (R38). -/
  seqPtr : BitVec 16
  /-- `seq_left` (R38). -/
  seqLeft : BitVec 7
  /-- `wait_t0` (R38). -/
  waitT0 : Word32
  /-- `wait_d` (R38). -/
  waitD : Byte
  /-- `FB` (R39), in the canonical form of Machine/Memory.lean. -/
  fb : List Host.Cell
  /-- The pin trace's events, oldest first (R30). -/
  trace : List TraceEvent
  /-- The pin trace's levels, one entry per clock edge of the cycle level, oldest first (R30). -/
  wave : List PinLevels
  /-- The level on the port `now_ms` (R26), the model's own. -/
  now : Word32
  /-- The level on the port `busy_in` (R22), the model's own. -/
  busyIn : Bool
  /-- The tick's draws of time not yet taken (`Draws.lapses`), the model's own. -/
  lapses : List Nat
  /-- The tick's draw of its drawing window (`Draws.window`), the model's own. -/
  window : Option (List PixelWrite)
  /-- What the tick in progress has still to do, the model's own. -/
  work : List Task
  /-- The environment's inputs not yet taken, oldest first (R45), the model's own. -/
  inputs : List Input
  deriving DecidableEq, Repr

/-- The state right after reset of a block built with the configuration `c` (10_state.md R44, R46). The framebuffer lists
nothing (log entry 3); `col` and the model's own fields are log entries 18 and 24. -/
def State.ofConfig (c : Config) : State where
  cfg := c
  st := .initStart
  tEntry := 0
  updCnt := 0
  pending := false
  sleepPending := false
  isFull := false
  sleepDone := false
  idx := 0
  row := 0
  tgt := false
  col := 0
  drawReq := false
  ready := true
  sclk := false
  sdin := false
  csN := true
  dc := false
  panelRst := true
  encBusy := false
  encStep := 0
  encByte := 0
  encMode := false
  encHold := 0
  seqSel := .initSeq
  seqPtr := 0
  seqLeft := 0
  waitT0 := 0
  waitD := 0
  fb := []
  trace := []
  wave := []
  now := 0
  busyIn := false
  lapses := []
  window := none
  work := []
  inputs := []

/-- The machine right after reset, built with `Config.reference` (log entry 2). -/
def State.reset : State := State.ofConfig Config.reference

end Sys2Proof.Machine
end

