-- ==== Sys2Proof/Machine/Operands.lean ====
section
/-! DEFINITION. Operand forms: the quantities derived from the configuration, coordinates, the pixel address generator of
40_framebuffer.md R94 to R98, the cascade windows of 44_data_transfer.md R176, the state codes. -/

namespace Sys2Proof

/-- `L = W * H / 8`, the framebuffer length in bytes (00_scope.md R6). -/
def Config.fbLen (c : Config) : Nat := c.width * c.height / 8

/-- `WB = W / 8`, the bytes of one native row (00_scope.md R6, 44_data_transfer.md R171). -/
def Config.rowBytes (c : Config) : Nat := c.width / 8

/-- `P_END = (WB + 1) div 2`, the end of the primary window (44_data_transfer.md R171). -/
def Config.primaryEnd (c : Config) : Nat := (c.rowBytes + 1) / 2

/-- `S_BEGIN = WB div 2`, the begin of the secondary window (44_data_transfer.md R171). -/
def Config.secondaryBegin (c : Config) : Nat := c.rowBytes / 2

/-- The window `[c0, c1)` of byte columns of a target (44_data_transfer.md R176): false primary, true secondary. -/
def Config.columns (c : Config) (tgt : Bool) : Nat × Nat :=
  if tgt then (c.secondaryBegin, c.rowBytes) else (0, c.primaryEnd)

/-- `sext_16` (30_encoding.md R84). -/
def sext16 (v : Coord) : Int := v.toInt

/-- `bitval(black)`: the stored bit of a colour (40_framebuffer.md R90). -/
def bitval (black : Bool) : Bool := !black

/-- Rotation: logical to native coordinates (40_framebuffer.md R94); `none` for an invalid rotation (R97). -/
def Config.rotate (c : Config) (x y : Int) : Option (Int × Int) :=
  if c.rotation = 0 then some (x, y)
  else if c.rotation = 90 then some (y, c.width - 1 - x)
  else if c.rotation = 180 then some (c.width - 1 - x, c.height - 1 - y)
  else if c.rotation = 270 then some (c.height - 1 - y, x)
  else none

/-- The native pixel a logical pixel is: rotation, bounds check, mirror (40_framebuffer.md R94 to R97). -/
def Config.nativePixel (c : Config) (x y : Int) : Option (Nat × Nat) :=
  match c.rotate x y with
  | none => none
  | some (u, v) =>
    if u < 0 ∨ (c.width : Int) ≤ u ∨ v < 0 ∨ (c.height : Int) ≤ v then none
    else some (if c.mirrorX then c.width - 1 - u.toNat else u.toNat, v.toNat)

/-- `PixelAddr(x, y)`: byte `a` and bit `k` of a logical pixel (40_framebuffer.md R98). -/
def Config.pixelAddr (c : Config) (x y : Int) : Option (Nat × Nat) :=
  match c.nativePixel x y with
  | none => none
  | some (u, v) => some ((v * c.width + u) / 8, 7 - u % 8)

/-- `b[k] <- v`. -/
def setBit (b : Byte) (k : Nat) (v : Bool) : Byte :=
  if v then b ||| (1#8 <<< k) else b &&& ~~~(1#8 <<< k)

namespace Machine

/-- The code of a state (10_state.md R24). -/
def DState.code : DState → BitVec 5
  | .initStart => 0x00
  | .initReset => 0x01
  | .initWaitReset => 0x02
  | .initWaitResetLow => 0x03
  | .initWaitResetHigh => 0x04
  | .initSendCommands => 0x05
  | .initWaitBusy => 0x06
  | .initDone => 0x07
  | .idle => 0x08
  | .updateStart => 0x09
  | .updateWaitBusy => 0x0A
  | .updatePrepare => 0x0B
  | .updateSendingData => 0x0C
  | .updateRefresh => 0x0D
  | .updateWaitRefresh => 0x0E
  | .updateDone => 0x0F
  | .deepSleep => 0x10

/-- The state a code names; `none` for a reserved code (30_encoding.md R86). -/
def DState.ofCode (code : BitVec 5) : Option DState :=
  [.initStart, .initReset, .initWaitReset, .initWaitResetLow, .initWaitResetHigh, .initSendCommands, .initWaitBusy,
    .initDone, .idle, .updateStart, .updateWaitBusy, .updatePrepare, .updateSendingData, .updateRefresh,
    .updateWaitRefresh, .updateDone, .deepSleep].find? (fun d => d.code = code)

/-- The code of a table selector in `seq_sel` (10_state.md R38). -/
def seqSelCode : TableSel → BitVec 3
  | .initSeq => 0
  | .prepareSeq => 1
  | .fullRefreshSeq => 2
  | .partialRefreshSeq => 3
  | .sleepSeq => 4
  | .secondaryPrepareSeq => 5

/-- `elapsed = wrap32(now_ms - t_entry)` (10_state.md R27). -/
def State.elapsed (s : State) : Word32 := s.now - s.tEntry

/-- The table the interpreter runs (10_state.md R38). -/
def State.seqTable (s : State) : List Byte := s.cfg.table s.seqSel

/-- The bytes of that table from `seq_ptr` on. -/
def State.seqBytes (s : State) : List Byte := s.seqTable.drop s.seqPtr.toNat

/-- `RomRead(T, seq_ptr)` (00_scope.md R19); a read past the table, which a well-formed table never makes
(42_sequence_interpreter.md R127), gives nothing. -/
def State.romByte? (s : State) : Option Byte := s.seqTable[s.seqPtr.toNat]?

end Machine

end Sys2Proof
end

