-- ==== Sys2Proof/Machine/Flags.lean ====
section
/-! DEFINITION. The block's six 1-bit flags (10_state.md R41) and the conditions the state actions test. There are no
arithmetic flags. -/

namespace Sys2Proof.Machine

/-- `CadenceFull(n)`: is update number `n` full (43_display_controller.md R156). -/
def cadenceFull (c : Config) (n : Word32) : Bool :=
  match c.forcedMode with
  | .alwaysFull => true
  | .alwaysPartial => false
  | .cadence => decide (n = 1 ∨ n.toNat % c.fullUpdateEvery = 0)

/-- "after T ms", "elapsed > T" (43_display_controller.md R136): the strict unsigned comparison. -/
def State.timeUp (s : State) (t : Word32) : Bool := decide (t.toNat < s.elapsed.toNat)

/-- `pending <- v` (10_state.md R29). -/
def State.setPending (v : Bool) (s : State) : State := { s with pending := v }

/-- `sleep_pending <- v` (10_state.md R31). -/
def State.setSleepPending (v : Bool) (s : State) : State := { s with sleepPending := v }

/-- `is_full <- v` (10_state.md R32). -/
def State.setIsFull (v : Bool) (s : State) : State := { s with isFull := v }

/-- `sleep_done <- v` (10_state.md R33). -/
def State.setSleepDone (v : Bool) (s : State) : State := { s with sleepDone := v }

/-- `draw_req <- v` (10_state.md R35). -/
def State.setDrawReq (v : Bool) (s : State) : State := { s with drawReq := v }

/-- `ready <- v` (10_state.md R36). -/
def State.setReady (v : Bool) (s : State) : State := { s with ready := v }

end Sys2Proof.Machine
end

