-- ==== Sys2Proof/Machine/Memory.lean ====
section
/-! DEFINITION. The framebuffer memory as data: a list of (address, byte) pairs in one canonical form, addresses strictly
rising and no entry equal to what an unlisted address reads as. -/

namespace Sys2Proof.Machine

/-- What an address nothing has written reads as. The spec leaves the contents after reset unspecified (10_state.md R46,
93_implementation_defined.md I9). DESIGN CHOICE (log entry 3, unsafe). -/
def Memory.blank : Byte := 0xFF

/-- The canonical form. -/
abbrev Memory.wf (m : List Host.Cell) : Prop :=
  m.Pairwise (fun p q => p.1 < q.1) ∧ ∀ p ∈ m, p.2 ≠ Memory.blank

/-- `MemRead(FB, a, 1)` (00_scope.md R19). -/
def Memory.read : List Host.Cell → Nat → Byte
  | [], _ => Memory.blank
  | (k, b) :: m, a => if k = a then b else Memory.read m a

/-- Put a byte in front of a memory; a blank byte is not listed. -/
def Memory.put (a : Nat) (v : Byte) (m : List Host.Cell) : List Host.Cell :=
  if v = Memory.blank then m else (a, v) :: m

/-- `MemWrite(FB, a, 1, v)` (00_scope.md R19). -/
def Memory.write : List Host.Cell → Nat → Byte → List Host.Cell
  | [], a, v => Memory.put a v []
  | (k, b) :: m, a, v =>
    if a < k then Memory.put a v ((k, b) :: m)
    else if a = k then Memory.put a v m
    else (k, b) :: Memory.write m a v

/-- The memory that holds `v` at the `n` addresses from `a` on and nothing else. -/
def Memory.constFrom (v : Byte) : Nat → Nat → List Host.Cell
  | _, 0 => []
  | a, n + 1 => Memory.put a v (Memory.constFrom v (a + 1) n)

/-- The memory that holds the bytes from address `a` on and nothing else. -/
def Memory.ofBytesFrom : Nat → List Byte → List Host.Cell
  | _, [] => []
  | a, b :: bs => Memory.put a b (Memory.ofBytesFrom (a + 1) bs)

end Sys2Proof.Machine
end

