-- ==== Sys2Proof/Machine/Ops.lean ====
section
/-! DEFINITION. The named operations over the state: sequencing of outcomes, the pin trace, the framebuffer, time, `goto`,
the busy line, reset. The block has no exception entry and no return (60_exceptions.md R191, R192): there is none here. -/

namespace Sys2Proof.Machine

/-- Go on from a next state; a stop stops. -/
def andThen (o : Host.Outcome State Fault Refusal) (f : State → Host.Outcome State Fault Refusal) :
    Host.Outcome State Fault Refusal :=
  match o with
  | .next s => f s
  | .fault r => .fault r
  | .refused r => .refused r

/-! ### Pins and the trace (10_state.md R30) -/

/-- Record an event. -/
def State.emit (e : TraceEvent) (s : State) : State := { s with trace := s.trace ++ [e] }

/-- Drive a pin's register without recording it. -/
def State.drive (p : Pin) (v : Bool) (s : State) : State :=
  match p with
  | .dc => { s with dc := v }
  | .csN => { s with csN := v }
  | .sclk => { s with sclk := v }
  | .sdin => { s with sdin := v }
  | .panelRst => { s with panelRst := v }

/-- `Pin(p) <- v` (00_scope.md R19). -/
def State.setPin (p : Pin) (v : Bool) (s : State) : State := (s.drive p v).emit (.pin p v)

/-- The levels of the five pins. -/
def State.levels (s : State) : PinLevels :=
  { sclk := s.sclk, sdin := s.sdin, csN := s.csN, dc := s.dc, panelRst := s.panelRst }

/-! ### The framebuffer -/

/-- `FILL(black)`: every byte, 0 to L - 1 (40_framebuffer.md R92). -/
def State.fill (black : Bool) (s : State) : State :=
  { s with fb := Memory.constFrom (if black then 0x00 else 0xFF) 0 s.cfg.fbLen }

/-- `SET_PIXEL(x, y, black)`: one bit of one byte, or nothing (40_framebuffer.md R93). -/
def State.setPixel (x y : Int) (black : Bool) (s : State) : State :=
  match s.cfg.pixelAddr x y with
  | none => s
  | some (a, k) => { s with fb := Memory.write s.fb a (setBit (Memory.read s.fb a) k (bitval black)) }

/-- The pixel write of the port (30_encoding.md R84). -/
def State.writePixel (s : State) (w : PixelWrite) : State := s.setPixel (sext16 w.x) (sext16 w.y) w.black

/-! ### Time -/

/-- The next draw of time, 0 when the draws have ended (log entry 4). -/
def State.lapse (s : State) : Nat := s.lapses.headD 0

/-- Let `n` milliseconds pass on `now_ms` (10_state.md R26). -/
def State.advance (n : Nat) (s : State) : State := { s with now := s.now + BitVec.ofNat 32 n }

/-- Take a draw of time. -/
def State.dropLapse (s : State) : State := { s with lapses := s.lapses.tail }

/-- Draws cut, from the first on, to a total of at most `room` (log entry 4). -/
def capDraws : Nat → List Nat → List Nat
  | _, [] => []
  | room, x :: xs => min x room :: capDraws (room - min x room) xs

/-- `goto S`: `st <- S; t_entry <- now_ms`, with `now_ms` as it stands when the write is made (43_display_controller.md
R134). -/
def State.goto (d : DState) (s : State) : State :=
  let s1 := (s.advance s.lapse).dropLapse
  { s1 with st := d, tEntry := s1.now }

/-- A wait of `d > 0` ms begins, and ends at the first `now_ms` with `wrap32(now_ms - wait_t0) > d`: when the time has
advanced by `d + 1` counts (42_sequence_interpreter.md R125, R131). -/
def State.hold (d : Byte) (s : State) : State := { s with waitT0 := s.now }.advance (d.toNat + 1)

/-- `WaitMs(d)` at the transaction level (42_sequence_interpreter.md R125): the event, and for `d > 0` the wait. The draw is
the time that has passed outside the waits when it begins (log entry 4). -/
def State.waitMs (d : Byte) (s : State) : State :=
  let s1 := s.emit (.wait d)
  if d = 0 then s1 else (s1.advance s1.lapse).dropLapse.hold d

/-- The level of the busy line means idle (43_display_controller.md R135, 00_scope.md R17). -/
def State.busyLineIdle (s : State) : Bool := !s.cfg.hasBusyPin || decide (s.busyIn.toNat ≠ s.cfg.busyActiveLevel)

/-- The busy sample of `BusyIdle()`: one event when there is a busy pin (43_display_controller.md R135). -/
def State.sampleBusy (s : State) : State :=
  if s.cfg.hasBusyPin then s.emit (.busySample s.busyIn) else s

/-! ### Reset -/

/-- A rising edge with `rst = 1` (70_reset_and_hazards.md R200): every register takes its reset value whatever the block
was doing; the framebuffer holds what the environment draws (10_state.md R46); configuration, inputs not yet taken, the
level of `now_ms` and `busy_in` and the record of the pins go on (log entry 17). -/
def State.resetEdge (fb : List Byte) (s : State) : State :=
  let s1 := State.ofConfig s.cfg
  { s1 with
    fb := Memory.ofBytesFrom 0 (fb.take s.cfg.fbLen)
    trace := s.trace
    wave := s.wave ++ [s1.levels]
    now := s.now
    busyIn := s.busyIn
    inputs := s.inputs }

end Sys2Proof.Machine
end

