-- ==== Sys2Proof/Machine/Encoder.lean ====
section
/-! DEFINITION. The serial bit encoder (41_serial_encoder.md) and the tagged command bytes (30_encoding.md R80): the frame,
SEND_COMMAND, SEND_DATA, CMD_TAG_PRIMARY, CMD_TAG_SECONDARY, and the encoder's clock cycle. -/

namespace Sys2Proof.Machine

/-- The last micro-step of a frame (41_serial_encoder.md R107). -/
def lastMicroStep : Nat := 26

/-- The pin change of micro-step `i` of `Frame(m, b)` (41_serial_encoder.md R107). -/
def microStep (m : Bool) (b : Byte) (i : Nat) : Pin × Bool :=
  if i = 0 then (.dc, m)
  else if i = 1 then (.csN, false)
  else if i = lastMicroStep then (.csN, true)
  else if (i - 2) % 3 = 0 then (.sclk, false)
  else if (i - 2) % 3 = 1 then (.sdin, b.getLsbD (7 - (i - 2) / 3))
  else (.sclk, true)

/-- `Frame(m, b)` as the list of its 27 events (41_serial_encoder.md R107, 10_state.md R30). -/
def frameEvents (m : Bool) (b : Byte) : List TraceEvent :=
  (List.range 27).map (fun i => .pin (microStep m b i).1 (microStep m b i).2)

/-- Make the pin changes of the micro-steps in the list. -/
def State.microSteps (m : Bool) (b : Byte) (steps : List Nat) (s : State) : State :=
  steps.foldl (fun t i => t.setPin (microStep m b i).1 (microStep m b i).2) s

/-- The encoder's registers when a frame has ended (41_serial_encoder.md R106; log entry 8). -/
def State.frameEnded (m : Bool) (b : Byte) (s : State) : State :=
  { s with encMode := m, encByte := b, encStep := 26, encHold := s.cfg.encStepCycles, encBusy := false }

/-- A whole frame, atomic for its caller (41_serial_encoder.md R105, R107, R112). -/
def State.sendFrame (m : Bool) (b : Byte) (s : State) : State :=
  (s.microSteps m b (List.range 27)).frameEnded m b

/-- Data bytes in order, one frame each (41_serial_encoder.md R116). -/
def State.sendBytes (bytes : List Byte) (s : State) : State := bytes.foldl (fun t b => t.sendFrame true b) s

/-! ### The cycle level (41_serial_encoder.md R106) -/

/-- The start edge of a frame. -/
def State.startFrame (m : Bool) (b : Byte) (s : State) : State :=
  { s with encMode := m, encByte := b, encStep := 0, encHold := 0, encBusy := true }

/-- One clock cycle of the encoder: `enc_hold` counts the cycles the current micro-step has held its levels, 0 before the
first one, so micro-step `i` falls on edge `e0 + 1 + i * ENC_STEP_CYCLES` and the end on
`e0 + 1 + 27 * ENC_STEP_CYCLES`. -/
def State.encoderEdge (s : State) : State :=
  if !s.encBusy then s
  else if s.encHold = 0 then
    { s.setPin (microStep s.encMode s.encByte s.encStep.toNat).1 (microStep s.encMode s.encByte s.encStep.toNat).2 with
      encHold := 1 }
  else if s.encHold < s.cfg.encStepCycles then { s with encHold := s.encHold + 1 }
  else if lastMicroStep ≤ s.encStep.toNat then { s with encBusy := false }
  else
    let i := s.encStep.toNat + 1
    { s.setPin (microStep s.encMode s.encByte i).1 (microStep s.encMode s.encByte i).2 with
      encStep := s.encStep + 1, encHold := 1 }

/-- The first micro-step of the frame in progress that has not been made. -/
def State.nextMicroStep (s : State) : Nat := if s.encHold = 0 then s.encStep.toNat else s.encStep.toNat + 1

/-- Carry the frame in progress to its end. -/
def State.finishFrame (s : State) : State :=
  if s.encBusy then
    (s.microSteps s.encMode s.encByte (List.range' s.nextMicroStep (27 - s.nextMicroStep))).frameEnded s.encMode s.encByte
  else s

/-! ### The instructions -/

/-- SEND_COMMAND (41_serial_encoder.md R108). -/
def execSendCommand (b : Byte) (s : State) : Host.Outcome State Fault Refusal := .next (s.sendFrame false b)

/-- SEND_DATA (41_serial_encoder.md R109). -/
def execSendData (b : Byte) (s : State) : Host.Outcome State Fault Refusal := .next (s.sendFrame true b)

/-- CMD_TAG_PRIMARY: the command byte `opcode + 0x00`, sent as it stands (30_encoding.md R80; log entry 11). -/
def execCmdTagPrimary (opcode : BitVec 7) (s : State) : Host.Outcome State Fault Refusal :=
  .next (s.sendFrame false (0#1 ++ opcode))

/-- CMD_TAG_SECONDARY: the command byte `opcode + 0x80`, sent as it stands (30_encoding.md R80; log entry 11). -/
def execCmdTagSecondary (opcode : BitVec 7) (s : State) : Host.Outcome State Fault Refusal :=
  .next (s.sendFrame false (1#1 ++ opcode))

end Sys2Proof.Machine
end

