-- ==== Sys2Proof/Machine/Interpreter.lean ====
section
/-! DEFINITION. The command sequence interpreter (42_sequence_interpreter.md): SEQ_STEP, SEQ_STEP_DELAY, SEQ_END,
SEQ_ILLEGAL_FF and the run of a table. -/

namespace Sys2Proof.Machine

/-- Let `seq_ptr` advance by `n` bytes. -/
def State.advanceSeqPtr (n : Nat) (s : State) : State := { s with seqPtr := s.seqPtr + BitVec.ofNat 16 n }

/-- `seq_left <- n`. -/
def State.setSeqLeft (n : Nat) (s : State) : State := { s with seqLeft := BitVec.ofNat 7 n }

/-- `wait_d <- d; WaitMs(d)` (42_sequence_interpreter.md R122, R125). -/
def State.delayStep (d : Byte) (s : State) : State := { s with waitD := d }.waitMs d

/-! ### The instructions -/

/-- SEQ_STEP (42_sequence_interpreter.md R118). -/
def execSeqStep (cmd : Byte) (args : List Byte) (s : State) : Host.Outcome State Fault Refusal :=
  .next ((((s.sendFrame false cmd).sendBytes args).advanceSeqPtr (2 + args.length)).setSeqLeft 0)

/-- SEQ_STEP_DELAY: the wait is after the command frame and before the first argument frame (42_sequence_interpreter.md
R119). -/
def execSeqStepDelay (cmd dly : Byte) (args : List Byte) (s : State) : Host.Outcome State Fault Refusal :=
  .next (((((s.sendFrame false cmd).delayStep dly).sendBytes args).advanceSeqPtr (3 + args.length)).setSeqLeft 0)

/-- SEQ_END: the run of the table ends; no frame, no wait (42_sequence_interpreter.md R120). -/
def execSeqEnd (s : State) : Host.Outcome State Fault Refusal := .next s

/-- SEQ_ILLEGAL_FF: `refuse IllFormedSequence`, whatever the count byte (42_sequence_interpreter.md R121). -/
def execSeqIllegalFF (_cnt : Byte) (_s : State) : Host.Outcome State Fault Refusal := .refused .illFormedSequence

/-! ### The run of a table -/

/-- The steps from `seq_ptr` on, to the end marker (42_sequence_interpreter.md R122); the first argument bounds the number
of steps. A table that is not well formed is refused (R127). -/
def runSteps : Nat → State → Host.Outcome State Fault Refusal
  | 0, _ => .refused .illFormedSequence
  | n + 1, s =>
    match decodeSeq s.seqBytes with
    | .error _ => .refused .illFormedSequence
    | .ok (op, _) =>
      match op with
      | .finish => execSeqEnd s
      | .illegal cnt => execSeqIllegalFF cnt s
      | .step cmd args => andThen (execSeqStep cmd args s) (runSteps n)
      | .stepDelay cmd dly args => andThen (execSeqStepDelay cmd dly args s) (runSteps n)

/-- The draws of a tick with these steps still to run leave room for the waits: from here to the tick's
`goto` fewer than 2^32 counts pass, so `wrap32(t_goto - t_start)` is at least the sum of `d + 1` over the waits
(43_display_controller.md R134; log entry 4). -/
def State.boundDraws (ops : List SeqOp) (s : State) : State :=
  { s with lapses := capDraws (2 ^ 32 - 1 - waitSum ops) s.lapses }

/-- The rest of a run from `seq_ptr` on: a step takes at least two bytes (30_encoding.md R75), so the table's length bounds
the steps. -/
def runRest (s : State) : Host.Outcome State Fault Refusal :=
  runSteps (s.seqTable.length + 1) (s.boundDraws (tableOps s.seqBytes))

/-- Select a table and its first byte. -/
def State.selectTable (sel : TableSel) (s : State) : State := { s with seqSel := sel, seqPtr := 0 }

/-- `RunSeq(T)` (42_sequence_interpreter.md R122). -/
def runSeq (sel : TableSel) (s : State) : Host.Outcome State Fault Refusal := runRest (s.selectTable sel)

end Sys2Proof.Machine
end

