-- ==== Sys2Proof/Machine/Transfer.lean ====
section
/-! DEFINITION. The data transfer of UPDATE_SENDING_DATA (44_data_transfer.md): TRANSFER_CHUNK1 for a single controller,
TRANSFER_CHUNK2 for a cascade panel. -/

namespace Sys2Proof.Machine

/-- The framebuffer bytes at `n` addresses from `a` on, sent in address order, one data frame each
(44_data_transfer.md R173, R174). -/
def State.sendFbBytes (a n : Nat) (s : State) : State := s.sendBytes ((List.range' a n).map (Memory.read s.fb))

/-- The first framebuffer address of a row's byte column (20_memory.md R51). -/
def State.rowAddr (s : State) (row col : Nat) : Nat := row * s.cfg.rowBytes + col

/-- The byte columns `[c0, c1)` of one row, in increasing order (44_data_transfer.md R177). -/
def State.sendRow (row c0 c1 : Nat) (s : State) : State := s.sendFbBytes (s.rowAddr row c0) (c1 - c0)

/-- The window's columns of `r` rows from `row` on (44_data_transfer.md R178). -/
def State.sendRows (c0 c1 : Nat) : Nat → Nat → State → State
  | _, 0, s => s
  | row, r + 1, s => State.sendRows c0 c1 (row + 1) r (s.sendRow row c0 c1)

/-- `idx <- idx + n`. -/
def State.advanceIdx (n : Nat) (s : State) : State := { s with idx := s.idx + BitVec.ofNat 32 n }

/-- `row <- row + r; col <- 0`. -/
def State.advanceRow (r : Nat) (s : State) : State := { s with row := s.row + BitVec.ofNat 16 r, col := 0 }

/-- `tgt <- 1; row <- 0`: the switch to the secondary controller (44_data_transfer.md R178). -/
def State.toSecondary (s : State) : State := { s with tgt := true, row := 0 }

/-- The bytes one tick sends when `TARGETS = 1`: `min(CHUNK_BYTES, L - idx)` (44_data_transfer.md R174). -/
def State.chunkLen (s : State) : Nat := min s.cfg.chunkBytes (s.cfg.fbLen - s.idx.toNat)

/-- The rows one tick sends when `TARGETS = 2`: `min(CHUNK_ROWS, H - row)` (44_data_transfer.md R178). -/
def State.chunkRowCount (s : State) : Nat := min s.cfg.chunkRows (s.cfg.height - s.row.toNat)

/-- The end of a single-controller tick (44_data_transfer.md R174). -/
def endChunk1 (n : Nat) (s : State) : Host.Outcome State Fault Refusal :=
  let s1 := s.advanceIdx n
  .next (if s1.idx.toNat = s1.cfg.fbLen then s1.goto .updateRefresh else s1)

/-- The end of a cascade tick: nothing while rows of the window are left; the switch after the primary's last row; the
`goto` after the secondary's (44_data_transfer.md R178). -/
def endChunk2 (s : State) : Host.Outcome State Fault Refusal :=
  if s.row.toNat = s.cfg.height then
    if s.tgt then .next (s.goto .updateRefresh)
    else andThen (runSeq .secondaryPrepareSeq s) (fun t => .next t.toSecondary)
  else .next s

/-- One tick of the single-controller transfer (44_data_transfer.md R174). -/
def chunk1 (s : State) : Host.Outcome State Fault Refusal :=
  if s.cfg.fbLen < s.idx.toNat then .fault .cursorPastEnd
  else endChunk1 s.chunkLen (s.sendFbBytes s.idx.toNat s.chunkLen)

/-- One tick of the cascade transfer (44_data_transfer.md R178). -/
def chunk2 (s : State) : Host.Outcome State Fault Refusal :=
  if s.cfg.height < s.row.toNat then .fault .cursorPastEnd
  else
    endChunk2 ((s.sendRows (s.cfg.columns s.tgt).1 (s.cfg.columns s.tgt).2 s.row.toNat s.chunkRowCount).advanceRow
      s.chunkRowCount)

/-- TRANSFER_CHUNK1 (44_data_transfer.md R174). -/
def execTransferChunk1 (s : State) : Host.Outcome State Fault Refusal := chunk1 s

/-- TRANSFER_CHUNK2 (44_data_transfer.md R178). -/
def execTransferChunk2 (s : State) : Host.Outcome State Fault Refusal := chunk2 s

end Sys2Proof.Machine
end

