-- ==== Sys2Proof/Machine/Controller.lean ====
section
/-! DEFINITION. The display refresh controller (43_display_controller.md): the 17 state actions and the tick. -/

namespace Sys2Proof.Machine

/-! ### Initialisation (R137 to R144) -/

/-- STATE_INIT_START (R137). -/
def execStateInitStart (s : State) : Host.Outcome State Fault Refusal := .next (s.goto .initReset)

/-- STATE_INIT_RESET (R138). -/
def execStateInitReset (s : State) : Host.Outcome State Fault Refusal :=
  .next (if s.cfg.hasResetPin then (s.setPin .panelRst true).goto .initWaitReset else s.goto .initSendCommands)

/-- STATE_INIT_WAIT_RESET (R139). -/
def execStateInitWaitReset (s : State) : Host.Outcome State Fault Refusal :=
  .next (if s.timeUp s.cfg.tRstPreMs then (s.setPin .panelRst false).goto .initWaitResetLow else s)

/-- STATE_INIT_WAIT_RESET_LOW (R140). -/
def execStateInitWaitResetLow (s : State) : Host.Outcome State Fault Refusal :=
  .next (if s.timeUp s.cfg.tRstLowMs then (s.setPin .panelRst true).goto .initWaitResetHigh else s)

/-- STATE_INIT_WAIT_RESET_HIGH (R141). -/
def execStateInitWaitResetHigh (s : State) : Host.Outcome State Fault Refusal :=
  .next (if s.timeUp s.cfg.tRstPostMs then s.goto .initSendCommands else s)

/-- STATE_INIT_SEND_COMMANDS: the whole table in this tick, then the `goto` (R142). -/
def execStateInitSendCommands (s : State) : Host.Outcome State Fault Refusal :=
  andThen (runSeq .initSeq s) (fun t => .next (t.goto .initWaitBusy))

/-- A wait state: the busy line is sampled once, and the state is left when the line is idle or the timeout is over
(R143, R148, R152, R158). -/
def waitBusy (timeout : Word32) (exit : DState) (s : State) : State :=
  if s.busyLineIdle || s.timeUp timeout then s.sampleBusy.goto exit else s.sampleBusy

/-- STATE_INIT_WAIT_BUSY (R143). -/
def execStateInitWaitBusy (s : State) : Host.Outcome State Fault Refusal :=
  .next (waitBusy s.cfg.initIdleTimeoutMs .initDone s)

/-- STATE_INIT_DONE (R144). -/
def execStateInitDone (s : State) : Host.Outcome State Fault Refusal := .next ({ s with updCnt := 0 }.goto .idle)

/-! ### The update cycle (R145 to R153) -/

/-- STATE_IDLE: an update before a sleep (R145). -/
def execStateIdle (s : State) : Host.Outcome State Fault Refusal :=
  .next
    (if s.pending then ({ s with updCnt := s.updCnt + 1 }.setPending false).goto .updateStart
     else if s.sleepPending then (s.setSleepPending false).goto .deepSleep
     else s)

/-- `DrawWindow()` (R147): the window opens; when the collaborator's writes and its `draw_done` are the tick's draw they are
applied in order and the window closes, otherwise it stays open and the rest of the tick waits for `draw_done`. -/
def drawWindow (s : State) : State :=
  match s.window with
  | some writes => ((writes.foldl State.writePixel (s.setDrawReq true)).setDrawReq false).goto .updateWaitBusy
  | none => { s.setDrawReq true with work := [.window, .goto .updateWaitBusy] ++ s.work }

/-- STATE_UPDATE_START (R146). -/
def execStateUpdateStart (s : State) : Host.Outcome State Fault Refusal :=
  let s1 := (s.setIsFull (cadenceFull s.cfg s.updCnt)).fill false
  .next (if s.cfg.hasDrawCb then drawWindow s1 else s1.goto .updateWaitBusy)

/-- STATE_UPDATE_WAIT_BUSY (R148). -/
def execStateUpdateWaitBusy (s : State) : Host.Outcome State Fault Refusal :=
  .next (waitBusy s.cfg.updateIdleTimeoutMs .updatePrepare s)

/-- The Transfer Cursor to its start (R149). -/
def State.resetCursor (s : State) : State := { s with idx := 0, row := 0, tgt := false }

/-- STATE_UPDATE_PREPARE (R149). -/
def execStateUpdatePrepare (s : State) : Host.Outcome State Fault Refusal :=
  andThen (runSeq .prepareSeq s.resetCursor) (fun t => .next (t.goto .updateSendingData))

/-- STATE_UPDATE_SENDING_DATA (R150). -/
def execStateUpdateSendingData (s : State) : Host.Outcome State Fault Refusal :=
  if s.cfg.targets = 1 then chunk1 s else chunk2 s

/-- The refresh table of the mode latched at UPDATE_START (R151). -/
def State.refreshTable (s : State) : TableSel := if s.isFull then .fullRefreshSeq else .partialRefreshSeq

/-- STATE_UPDATE_REFRESH (R151). -/
def execStateUpdateRefresh (s : State) : Host.Outcome State Fault Refusal :=
  andThen (runSeq s.refreshTable s) (fun t => .next (t.goto .updateWaitRefresh))

/-- STATE_UPDATE_WAIT_REFRESH (R152). -/
def execStateUpdateWaitRefresh (s : State) : Host.Outcome State Fault Refusal :=
  .next (waitBusy s.cfg.updateIdleTimeoutMs .updateDone s)

/-- STATE_UPDATE_DONE (R153). -/
def execStateUpdateDone (s : State) : Host.Outcome State Fault Refusal := .next (s.goto .idle)

/-! ### Deep sleep (R154) -/

/-- STATE_DEEP_SLEEP: the sleep table once, and no `goto` (R154). -/
def execStateDeepSleep (s : State) : Host.Outcome State Fault Refusal :=
  if s.sleepDone then .next s else andThen (runSeq .sleepSeq s) (fun t => .next (t.setSleepDone true))

/-! ### The tick (R132, R133) -/

/-- `Tick()`: the action of the current state, once (R132). -/
def tickAction (s : State) : Host.Outcome State Fault Refusal :=
  match s.st with
  | .initStart => execStateInitStart s
  | .initReset => execStateInitReset s
  | .initWaitReset => execStateInitWaitReset s
  | .initWaitResetLow => execStateInitWaitResetLow s
  | .initWaitResetHigh => execStateInitWaitResetHigh s
  | .initSendCommands => execStateInitSendCommands s
  | .initWaitBusy => execStateInitWaitBusy s
  | .initDone => execStateInitDone s
  | .idle => execStateIdle s
  | .updateStart => execStateUpdateStart s
  | .updateWaitBusy => execStateUpdateWaitBusy s
  | .updatePrepare => execStateUpdatePrepare s
  | .updateSendingData => execStateUpdateSendingData s
  | .updateRefresh => execStateUpdateRefresh s
  | .updateWaitRefresh => execStateUpdateWaitRefresh s
  | .updateDone => execStateUpdateDone s
  | .deepSleep => execStateDeepSleep s

/-- The end of a tick: `ready <- 1` when nothing is left to do (10_state.md R36). -/
def State.endTick (s : State) : State := if s.work = [] then s.setReady true else s

/-- HOST_TICK: accepted while `ready = 1`, dropped otherwise (43_display_controller.md R133). -/
def execHostTick (s : State) : Host.Outcome State Fault Refusal :=
  if s.ready then andThen (tickAction (s.setReady false)) (fun t => .next t.endTick) else .next s

end Sys2Proof.Machine
end

