-- ==== Sys2Proof/Machine/Framebuffer.lean ====
section
/-! DEFINITION. The framebuffer's two operations and its observation (40_framebuffer.md): FB_FILL, PIXEL_SET, PixelAt. -/

namespace Sys2Proof.Machine

/-- FB_FILL (40_framebuffer.md R92). -/
def execFbFill (black : Bool) (s : State) : Host.Outcome State Fault Refusal := .next (s.fill black)

/-- PIXEL_SET: accepted while `draw_req = 1`, ignored otherwise (40_framebuffer.md R93, R99). -/
def execPixelSet (x y : Coord) (black : Bool) (s : State) : Host.Outcome State Fault Refusal :=
  .next (if s.drawReq then s.writePixel { x := x, y := y, black := black } else s)

/-- `PixelAt(x, y)`: the stored bit of a logical pixel, undefined where the pixel has none (40_framebuffer.md R91). -/
def State.pixelAt (s : State) (x y : Int) : Option Bool :=
  match s.cfg.pixelAddr x y with
  | none => none
  | some (a, k) => some ((Memory.read s.fb a).getLsbD k)

end Sys2Proof.Machine
end

