-- ==== Sys2Proof/Machine/HostPort.lean ====
section
/-! DEFINITION. The host strobes but for the tick (43_display_controller.md section 7): HOST_REQUEST_UPDATE,
HOST_SLEEP_REQUEST, HOST_DRAW_DONE; and the block's output ports (10_state.md R23, R42). -/

namespace Sys2Proof.Machine

/-- HOST_REQUEST_UPDATE, in any state (43_display_controller.md R160). -/
def execHostRequestUpdate (s : State) : Host.Outcome State Fault Refusal := .next (s.setPending true)

/-- HOST_SLEEP_REQUEST, in any state (43_display_controller.md R161). -/
def execHostSleepRequest (s : State) : Host.Outcome State Fault Refusal := .next (s.setSleepPending true)

/-- HOST_DRAW_DONE: closes the drawing window; not looked at while `draw_req = 0` (43_display_controller.md R147). -/
def execHostDrawDone (s : State) : Host.Outcome State Fault Refusal :=
  .next (if s.drawReq then s.setDrawReq false else s)

/-- The output ports (10_state.md R23). -/
structure Outputs where
  sclk : Bool
  sdin : Bool
  csN : Bool
  dc : Bool
  /-- Present when `HAS_RESET_PIN`. -/
  panelRst : Option Bool
  ready : Bool
  drawReq : Bool
  stOut : BitVec 5
  updCntOut : Word32
  isFullOut : Bool
  tgtOut : Bool
  deriving DecidableEq, Repr

/-- Every output is driven from the register of its name (10_state.md R23, R42). -/
def State.outputs (s : State) : Outputs where
  sclk := s.sclk
  sdin := s.sdin
  csN := s.csN
  dc := s.dc
  panelRst := if s.cfg.hasResetPin then some s.panelRst else none
  ready := s.ready
  drawReq := s.drawReq
  stOut := s.st.code
  updCntOut := s.updCnt
  isFullOut := s.isFull
  tgtOut := s.tgt

end Sys2Proof.Machine
end

