-- ==== Sys2Proof/Machine/Dispatch.lean ====
section
/-! DEFINITION. The dispatch: one arm for each instruction, each a direct call of its meaning. -/

namespace Sys2Proof.Machine

def exec (i : Instr) (s : State) : Host.Outcome State Fault Refusal :=
  match i with
  | .seqEnd => Sys2Proof.Machine.execSeqEnd s
  | .seqIllegalFF cnt => Sys2Proof.Machine.execSeqIllegalFF cnt s
  | .seqStep cmd args => Sys2Proof.Machine.execSeqStep cmd args s
  | .seqStepDelay cmd dly args => Sys2Proof.Machine.execSeqStepDelay cmd dly args s
  | .sendCommand b => Sys2Proof.Machine.execSendCommand b s
  | .sendData b => Sys2Proof.Machine.execSendData b s
  | .cmdTagPrimary opcode => Sys2Proof.Machine.execCmdTagPrimary opcode s
  | .cmdTagSecondary opcode => Sys2Proof.Machine.execCmdTagSecondary opcode s
  | .pixelSet x y black => Sys2Proof.Machine.execPixelSet x y black s
  | .fbFill black => Sys2Proof.Machine.execFbFill black s
  | .hostTick => Sys2Proof.Machine.execHostTick s
  | .hostRequestUpdate => Sys2Proof.Machine.execHostRequestUpdate s
  | .hostSleepRequest => Sys2Proof.Machine.execHostSleepRequest s
  | .hostDrawDone => Sys2Proof.Machine.execHostDrawDone s
  | .stateInitStart => Sys2Proof.Machine.execStateInitStart s
  | .stateInitReset => Sys2Proof.Machine.execStateInitReset s
  | .stateInitWaitReset => Sys2Proof.Machine.execStateInitWaitReset s
  | .stateInitWaitResetLow => Sys2Proof.Machine.execStateInitWaitResetLow s
  | .stateInitWaitResetHigh => Sys2Proof.Machine.execStateInitWaitResetHigh s
  | .stateInitSendCommands => Sys2Proof.Machine.execStateInitSendCommands s
  | .stateInitWaitBusy => Sys2Proof.Machine.execStateInitWaitBusy s
  | .stateInitDone => Sys2Proof.Machine.execStateInitDone s
  | .stateIdle => Sys2Proof.Machine.execStateIdle s
  | .stateUpdateStart => Sys2Proof.Machine.execStateUpdateStart s
  | .stateUpdateWaitBusy => Sys2Proof.Machine.execStateUpdateWaitBusy s
  | .stateUpdatePrepare => Sys2Proof.Machine.execStateUpdatePrepare s
  | .stateUpdateSendingData => Sys2Proof.Machine.execStateUpdateSendingData s
  | .stateUpdateRefresh => Sys2Proof.Machine.execStateUpdateRefresh s
  | .stateUpdateWaitRefresh => Sys2Proof.Machine.execStateUpdateWaitRefresh s
  | .stateUpdateDone => Sys2Proof.Machine.execStateUpdateDone s
  | .stateDeepSleep => Sys2Proof.Machine.execStateDeepSleep s
  | .transferChunk1 => Sys2Proof.Machine.execTransferChunk1 s
  | .transferChunk2 => Sys2Proof.Machine.execTransferChunk2 s

end Sys2Proof.Machine
end

