-- ==== Sys2Proof/Machine/Work.lean ====
section
/-! DEFINITION. What a tick in progress has still to do, carried to its end at once: the whole meaning of each task, and
`drain`, which the transaction level uses for the part of a tick that is left. -/

namespace Sys2Proof.Machine

/-- A blocking wait is over: `wrap32(now_ms - wait_t0) > wait_d` (42_sequence_interpreter.md R125). -/
def State.holdOver (s : State) : Bool := decide (s.waitD.toNat < (s.now - s.waitT0).toNat)

/-- Carry a wait that has begun to its end: the first `now_ms` with `wrap32(now_ms - wait_t0) > wait_d`
(42_sequence_interpreter.md R125, R131). -/
def State.finishHold (s : State) : State :=
  if s.holdOver then s else { s with now := s.waitT0 }.hold s.waitD

/-- A step's counts are taken, after its command frame (42_sequence_interpreter.md R122). -/
def State.takeCounts (left : BitVec 7) (s : State) : State := (s.setSeqLeft left.toNat).advanceSeqPtr 2

/-- An argument is behind the interpreter, after its frame (42_sequence_interpreter.md R122). -/
def State.passArg (s : State) : State := (s.advanceSeqPtr 1).setSeqLeft (s.seqLeft.toNat - 1)

/-- A byte of the window is behind the transfer, after its frame: `col <- col + 1` (44_data_transfer.md R178). -/
def State.passByte (s : State) : State := { s with col := s.col + 1 }

/-- The delay byte of a step: read it and wait (42_sequence_interpreter.md R122). -/
def readDelay (s : State) : Host.Outcome State Fault Refusal :=
  match s.romByte? with
  | some d => .next ((s.delayStep d).advanceSeqPtr 1)
  | none => .refused .illFormedSequence

/-- The arguments of a step that are still to send (42_sequence_interpreter.md R122). -/
def sendRestArgs (s : State) : Host.Outcome State Fault Refusal :=
  match takeArgs s.seqLeft.toNat s.seqBytes with
  | some (args, _) => .next (((s.sendBytes args).advanceSeqPtr args.length).setSeqLeft 0)
  | none => .refused .illFormedSequence

/-- The rest of `r` rows of the current window, the first of them from column `col` on (44_data_transfer.md R178). -/
def State.finishRows (r : Nat) (s : State) : State :=
  match r with
  | 0 => s.advanceRow 0
  | r' + 1 =>
    (State.sendRows (s.cfg.columns s.tgt).1 (s.cfg.columns s.tgt).2 (s.row.toNat + 1) r'
      (s.sendRow s.row.toNat s.col.toNat (s.cfg.columns s.tgt).2)).advanceRow (r' + 1)

/-- The whole meaning of a task. An open drawing window stays in hand (43_display_controller.md R147). -/
def performTask (t : Task) (s : State) : Host.Outcome State Fault Refusal :=
  match t with
  | .action => tickAction s
  | .run sel => runSeq sel s
  | .seqHead => runRest s
  | .seqTake left => .next (s.takeCounts left)
  | .seqDelay => readDelay s
  | .seqHold => .next s.finishHold
  | .seqArgs => sendRestArgs s
  | .argSent => .next s.passArg
  | .frame => .next s.finishFrame
  | .sendFb a n => .next (s.sendFbBytes a n)
  | .endChunk1 n => endChunk1 n s
  | .rows r => .next (s.finishRows r)
  | .colSent => .next s.passByte
  | .endChunk2 => endChunk2 s
  | .switchTarget => .next s.toSecondary
  | .window => .next (if s.drawReq then { s with work := [.window] } else s)
  | .sleepDone => .next (s.setSleepDone true)
  | .goto d => .next (s.goto d)

/-- Carry the tasks out in order; stop where a task stays in hand; when nothing is left the tick has ended and
`ready <- 1` (10_state.md R36). -/
def drainTasks : List Task → State → Host.Outcome State Fault Refusal
  | [], s => .next ({ s with work := [] }.setReady true)
  | t :: ts, s =>
    andThen (performTask t { s with work := [] }) (fun u =>
      if u.work = [] then drainTasks ts u else .next { u with work := u.work ++ ts })

/-- Carry the rest of the tick to its end, or to its open drawing window. -/
def drain (s : State) : Host.Outcome State Fault Refusal := drainTasks s.work s

end Sys2Proof.Machine
end

