-- ==== Sys2Proof/Machine/Cycle.lean ====
section
/-! DEFINITION. The cycle level (10_state.md R21, R36; 41_serial_encoder.md R106; 42_sequence_interpreter.md R126;
44_data_transfer.md R184): the control actions of a tick in progress, the sampling of the ports, one rising edge. -/

namespace Sys2Proof.Machine

/-- Put tasks in front of the work in hand. -/
def State.push (ts : List Task) (s : State) : State := { s with work := ts ++ s.work }

/-! ### Control actions -/

/-- The first byte column of the window, when a row is still to send: `col <- c0` (44_data_transfer.md R178). -/
def State.startRow (r : Nat) (s : State) : State :=
  if r = 0 then s else { s with col := BitVec.ofNat 16 (s.cfg.columns s.tgt).1 }

/-- The start of a transfer tick: how many bytes or rows it sends (44_data_transfer.md R174, R178). -/
def beginTransfer (s : State) : Host.Outcome State Fault Refusal :=
  if s.cfg.targets = 1 then
    if s.cfg.fbLen < s.idx.toNat then .fault .cursorPastEnd
    else .next (s.push [.sendFb s.idx.toNat s.chunkLen, .endChunk1 s.chunkLen])
  else if s.cfg.height < s.row.toNat then .fault .cursorPastEnd
  else .next ((s.startRow s.chunkRowCount).push [.rows s.chunkRowCount, .endChunk2])

/-- The start of a state action: the actions that send frames or wait become tasks; the others are one control action. -/
def beginAction (s : State) : Host.Outcome State Fault Refusal :=
  match s.st with
  | .initSendCommands => .next (s.push [.run .initSeq, .goto .initWaitBusy])
  | .updatePrepare => .next (s.resetCursor.push [.run .prepareSeq, .goto .updateSendingData])
  | .updateSendingData => beginTransfer s
  | .updateRefresh => .next (s.push [.run s.refreshTable, .goto .updateWaitRefresh])
  | .deepSleep => .next (if s.sleepDone then s else s.push [.run .sleepSeq, .sleepDone])
  | .initStart | .initReset | .initWaitReset | .initWaitResetLow | .initWaitResetHigh | .initWaitBusy | .initDone
  | .idle | .updateStart | .updateWaitBusy | .updateWaitRefresh | .updateDone => tickAction s

/-- The interpreter at a step position (42_sequence_interpreter.md R122): the command frame starts; the registers take the
step's counts when the frame has ended, since a caller waits for that before it does anything else
(41_serial_encoder.md R106). -/
def beginStep (s : State) : Host.Outcome State Fault Refusal :=
  match decodeSeq s.seqBytes with
  | .error _ => .refused .illFormedSequence
  | .ok (op, _) =>
    match op with
    | .finish => execSeqEnd s
    | .illegal cnt => execSeqIllegalFF cnt s
    | .step cmd args =>
      .next ((s.startFrame false cmd).push [.frame, .seqTake (BitVec.ofNat 7 args.length), .seqArgs, .seqHead])
    | .stepDelay cmd _ args =>
      .next ((s.startFrame false cmd).push
        [.frame, .seqTake (BitVec.ofNat 7 args.length), .seqDelay, .seqArgs, .seqHead])

/-- The interpreter at a delay byte: the wait begins (42_sequence_interpreter.md R122, R125). -/
def beginDelay (s : State) : Host.Outcome State Fault Refusal :=
  match s.romByte? with
  | none => .refused .illFormedSequence
  | some d =>
    let s1 := ({ s with waitD := d }.advanceSeqPtr 1).emit (.wait d)
    .next (if d = 0 then s1 else { s1 with waitT0 := s1.now }.push [.seqHold])

/-- The interpreter at the arguments: the next one's frame starts, and the registers pass it when the frame has ended
(42_sequence_interpreter.md R122). -/
def beginArg (s : State) : Host.Outcome State Fault Refusal :=
  if s.seqLeft = 0 then .next s
  else
    match s.romByte? with
    | none => .refused .illFormedSequence
    | some b => .next ((s.startFrame true b).push [.frame, .argSent, .seqArgs])

/-- The next framebuffer byte's frame starts (44_data_transfer.md R174). -/
def beginFbByte (a n : Nat) (s : State) : State :=
  match n with
  | 0 => s
  | n' + 1 => (s.startFrame true (Memory.read s.fb a)).push [.frame, .sendFb (a + 1) n']

/-- The next byte of the window, or its next row, or the end of its rows (44_data_transfer.md R178). -/
def beginRowByte (r : Nat) (s : State) : State :=
  match r with
  | 0 => s.advanceRow 0
  | r' + 1 =>
    if s.col.toNat < (s.cfg.columns s.tgt).2 then
      (s.startFrame true (Memory.read s.fb (s.rowAddr s.row.toNat s.col.toNat))).push [.frame, .colSent, .rows (r' + 1)]
    else ({ s with row := s.row + 1 }.startRow r').push [.rows r']

/-- The end of a cascade tick: the switch table or the `goto` is put in hand (44_data_transfer.md R178). -/
def beginEndChunk2 (s : State) : State :=
  if s.row.toNat = s.cfg.height then
    if s.tgt then s.push [.goto .updateRefresh] else s.push [.run .secondaryPrepareSeq, .switchTarget]
  else s

/-- One control action: the task that was in front, taken off the work in hand. -/
def taskAction (t : Task) (s : State) : Host.Outcome State Fault Refusal :=
  match t with
  | .action => beginAction s
  | .run sel => .next ((s.selectTable sel).push [.seqHead])
  | .seqHead => beginStep s
  | .seqTake left => .next (s.takeCounts left)
  | .seqDelay => beginDelay s
  | .seqHold => .next (if s.holdOver then s else s.push [.seqHold])
  | .seqArgs => beginArg s
  | .argSent => .next s.passArg
  | .frame => .next (if s.encBusy then s.push [.frame] else s)
  | .sendFb a n => .next (beginFbByte a n s)
  | .endChunk1 n => endChunk1 n s
  | .rows r => .next (beginRowByte r s)
  | .colSent => .next s.passByte
  | .endChunk2 => .next (beginEndChunk2 s)
  | .switchTarget => .next s.toSecondary
  | .window => .next (if s.drawReq then s.push [.window] else s)
  | .sleepDone => .next (s.setSleepDone true)
  | .goto d => .next (s.goto d)

/-- One control action of the tick in progress; none when nothing is in hand. -/
def controlAction (s : State) : Host.Outcome State Fault Refusal :=
  match s.work with
  | [] => .next s
  | t :: ts => taskAction t { s with work := ts }

/-- The control actions of one clock cycle (log entry 7). -/
def controlActions : Nat → State → Host.Outcome State Fault Refusal
  | 0, s => .next s
  | n + 1, s => andThen (controlAction s) (controlActions n)

/-- A blocking wait ends at the first edge that finds its time over, whatever else the edge does
(42_sequence_interpreter.md R125, R131). -/
def State.endHold (s : State) : State :=
  match s.work with
  | .seqHold :: ts => if s.holdOver then { s with work := ts } else s
  | _ => s

/-- The control's part of a rising edge: it waits while a frame is in progress (41_serial_encoder.md R106); a wait whose time
is over ends; the edge after the tick's last action writes `ready <- 1` (10_state.md R36). -/
def controlEdge (n : Nat) (s : State) : Host.Outcome State Fault Refusal :=
  if s.encBusy then .next s
  else if s.work = [] then .next (s.setReady true)
  else controlActions n s.endHold

/-! ### Ports -/

/-- The strobes an edge takes, by the registers as they stand before it: the pixel port and `draw_done` while
`draw_req = 1`, the requests always, the tick while `ready = 1` (43_display_controller.md R133, R147, R162,
40_framebuffer.md R99). -/
def State.gate (s : State) : BitVec 5 :=
  BitVec.ofBool s.drawReq ++ BitVec.ofBool s.drawReq ++ 1#1 ++ 1#1 ++ BitVec.ofBool s.ready

/-- The operations the ports of an edge start in a state, in the order of 43_display_controller.md R162. -/
def State.portOps (s : State) (p : Ports) : List Instr :=
  decodeHiv (p.hiv &&& s.gate) p.px.x p.px.y p.px.black

/-- The same but for the tick. -/
def State.strobeOps (s : State) (p : Ports) : List Instr :=
  decodeHiv (p.hiv &&& s.gate &&& 0b11110) p.px.x p.px.y p.px.black

/-- The levels of `now_ms` and `busy_in` as the edge samples them, and the environment's draws. -/
def State.sample (p : Ports) (d : Draws) (s : State) : State :=
  { s with now := p.nowMs, busyIn := p.busyIn, lapses := d.lapses, window := d.window }

/-- Forget the draws a tick has not taken. -/
def State.dropDraws (s : State) : State := { s with lapses := [], window := none }

/-- Operations in order, each by its meaning. -/
def execAll : List Instr → State → Host.Outcome State Fault Refusal
  | [], s => .next s
  | i :: is, s => andThen (exec i s) (execAll is)

/-- A tick accepted at the cycle level (10_state.md R36, 43_display_controller.md R133). -/
def State.acceptTick (s : State) : State := { s.setReady false with work := [.action] }

/-- Record the five levels of this clock cycle (10_state.md R30). -/
def State.recordLevels (s : State) : State := { s with wave := s.wave ++ [s.levels] }

/-! ### Edges -/

/-- A rising edge at the transaction level: the operations of its ports by their meanings, a tick as one atomic transition,
and what an earlier edge left in hand carried to its end (10_state.md R21). -/
def transactionEdge (p : Ports) (d : Draws) (s : State) : Host.Outcome State Fault Refusal :=
  andThen (andThen (execAll (s.portOps p) (s.sample p d)) drain) (fun t => .next t.dropDraws)

/-- A rising edge at the cycle level: the encoder's cycle, the control's actions, then the strobes, which win over a clear
of the same edge (43_display_controller.md R162), then the tick. -/
def clockEdge (p : Ports) (actions : Nat) (s : State) : Host.Outcome State Fault Refusal :=
  let s0 := s.sample p { lapses := [], window := none }
  let control := if s.encBusy then .next s0.encoderEdge else controlEdge actions s0
  andThen (andThen control (execAll (s.strobeOps p))) (fun t =>
    .next (if p.hiv.getLsbD 0 && s.ready then t.acceptTick else t).recordLevels)

/-- The input the machine takes next. -/
def takeInput (i : Input) (s : State) : Host.Outcome State Fault Refusal :=
  match i with
  | .reset fb => .next (s.resetEdge fb)
  | .edge p d => transactionEdge p d s
  | .clock p n => clockEdge p n s

/-- Which of the stuck cases it is when the environment gives no further input (93_implementation_defined.md I16 to
I18). -/
def noInputFault (s : State) : Fault :=
  if s.drawReq then .stuckDrawDone else if s.work.head? = some .seqHold then .stuckNowMs else .stuckNoTick

/-! ### Placing an instruction where it is fetched -/

/-- The bytes of the step at the front of a byte list. -/
def stepAt (bytes : List Byte) : List Byte :=
  match decodeSeq bytes with
  | .ok (_, after) => bytes.take (bytes.length - after.length)
  | .error _ => bytes

/-- An edge at the transaction level with the given strobes and pixel tuple, at the present levels of the other ports. -/
def State.edgeNow (s : State) (hiv : BitVec 5) (px : PixelWrite) : Input :=
  .edge { hiv := hiv, px := px, nowMs := s.now, busyIn := s.busyIn } { lapses := [], window := none }

/-- The pixel tuple of an edge that writes no pixel. -/
def noPixel : PixelWrite := { x := 0, y := 0, black := false }

/-- An encoded operation placed where the machine reads it, with the edge that makes it run (log entries 1 and 10): a
step of a command sequence at the start of the running table, a frame in the encoder's registers, port levels on the
ports, a state code in `st` with a tick. -/
def State.place (s : State) (c : Code) : State :=
  match c with
  | .seq bytes =>
    { s with
      cfg := { s.cfg with initSeq := stepAt bytes ++ emptyTable }
      seqSel := .initSeq, seqPtr := 0, ready := false, work := [.seqHead]
      inputs := s.edgeNow 0 noPixel :: s.inputs }
  | .frame word =>
    { s.startFrame (word.getLsbD 8) (word.extractLsb' 0 8) with
      ready := false, work := [.frame], inputs := s.edgeNow 0 noPixel :: s.inputs }
  | .tag byte =>
    { s.startFrame false byte with ready := false, work := [.frame], inputs := s.edgeNow 0 noPixel :: s.inputs }
  | .port hiv x y black => { s with inputs := s.edgeNow hiv { x := x, y := y, black := black } :: s.inputs }
  | .fill _ => s
  | .state code | .transfer code _ =>
    match DState.ofCode code with
    | some d => { s with st := d, ready := true, work := [], inputs := s.edgeNow 0b00001 noPixel :: s.inputs }
    | none => s

end Sys2Proof.Machine
end

