-- ==== Sys2Proof/Machine/Step.lean ====
section
/-! DEFINITION. One step of the machine: it takes the next input of the environment. -/

namespace Sys2Proof.Machine

/-- One step: a configuration that breaks 60_exceptions.md R188 is refused; otherwise the next input is taken, and the
machine is stuck when there is none (93_implementation_defined.md I16 to I18). -/
def step (s : State) : Host.Outcome State Fault Refusal :=
  match s.cfg.check with
  | some e => .refused (.configuration e)
  | none =>
    match s.inputs with
    | [] => .fault (noInputFault s)
    | i :: is => takeInput i { s with inputs := is }

/-- The state with the instruction of a table word placed where the next step reads it. -/
def State.withFetchWord (s : State) (nbits w : Nat) : State := s.place (tableCode nbits w)

end Sys2Proof.Machine
end

