-- ==== Sys2Proof/Safety.lean ====
section
/-! DEFINITION. The terms claims about runs of the block are stated in: the events a command table stands for, the
transition relation, the states a run can be in. -/

namespace Sys2Proof.Machine

/-! ### What a command table stands for (42_sequence_interpreter.md R123, R128) -/

/-- Data frames, one a byte (41_serial_encoder.md R116). -/
def dataEvents (bytes : List Byte) : List TraceEvent := bytes.flatMap (frameEvents true)

/-- The events of one step in wire order: the command frame, the wait if the step has one, one data frame per argument
(42_sequence_interpreter.md R123). -/
def opEvents : SeqOp → List TraceEvent
  | .step cmd args => frameEvents false cmd ++ dataEvents args
  | .stepDelay cmd dly args => frameEvents false cmd ++ [.wait dly] ++ dataEvents args
  | .finish | .illegal _ => []

/-- The events of a run of a table. -/
def tableEvents (t : List Byte) : List TraceEvent := (tableOps t).flatMap opEvents

/-- The bytes of a step (30_encoding.md R75). -/
def opLen : SeqOp → Nat
  | .step _ args => 2 + args.length
  | .stepDelay _ _ args => 3 + args.length
  | .finish | .illegal _ => 2

/-- The address of a table's end marker: the sum of its steps' lengths (42_sequence_interpreter.md R128). -/
def endAddr (t : List Byte) : Nat := ((tableOps t).map opLen).sum

/-- The number of waits of a table with `d > 0`, each of which takes one draw of the environment. -/
def waitCount : List SeqOp → Nat
  | [] => 0
  | .stepDelay _ dly _ :: ops => (if dly = 0 then 0 else 1) + waitCount ops
  | .step _ _ :: ops | .finish :: ops | .illegal _ :: ops => waitCount ops

/-! ### What a frame, a run and a transfer may write -/

/-- The state `s` with the fields a frame writes taken from `t`: the bus pins, the encoder's registers, the trace
(41_serial_encoder.md R107, R106). -/
def State.withWire (s t : State) : State :=
  { s with
    dc := t.dc, csN := t.csN, sclk := t.sclk, sdin := t.sdin
    encMode := t.encMode, encByte := t.encByte, encStep := t.encStep, encHold := t.encHold, encBusy := t.encBusy
    trace := t.trace }

/-- The state `s` with the fields a run of a table writes taken from `t`: those of a frame, the interpreter's registers
(42_sequence_interpreter.md R122), the time. -/
def State.withRun (s t : State) : State :=
  { s.withWire t with
    seqSel := t.seqSel, seqPtr := t.seqPtr, seqLeft := t.seqLeft, waitT0 := t.waitT0, waitD := t.waitD
    now := t.now, lapses := t.lapses }

/-- The state `s` after `goto d` (43_display_controller.md R134): the time that passes before the write is the
environment's draw, and `t_entry` is the time of the write. -/
def State.entered (d : DState) (s : State) : State :=
  { s with
    st := d
    now := s.now + BitVec.ofNat 32 (s.lapses.headD 0)
    tEntry := s.now + BitVec.ofNat 32 (s.lapses.headD 0)
    lapses := s.lapses.tail }

/-- The state `s` after a blocking wait of `d` ms (42_sequence_interpreter.md R125): one event; for `d > 0` the wait begins
after the time the environment draws and ends when `now_ms` has advanced by `d + 1` counts (R131). -/
def State.waited (d : Byte) (s : State) : State :=
  { s with
    trace := s.trace ++ [.wait d]
    waitT0 := if d = 0 then s.waitT0 else s.now + BitVec.ofNat 32 (s.lapses.headD 0)
    now := if d = 0 then s.now else s.now + BitVec.ofNat 32 (s.lapses.headD 0) + BitVec.ofNat 32 (d.toNat + 1)
    lapses := if d = 0 then s.lapses else s.lapses.tail }

/-- The framebuffer bytes from address `a` on, `n` of them. -/
def fbBytes (s : State) (a n : Nat) : List Byte := (List.range' a n).map (Memory.read s.fb)

/-- The bytes of `r` rows from `row` on in the byte columns of a target, rows outer, columns inner
(44_data_transfer.md R176, R177). -/
def windowBytes (s : State) (tgt : Bool) (row r : Nat) : List Byte :=
  (List.range' row r).flatMap (fun v =>
    fbBytes s (v * s.cfg.rowBytes + (s.cfg.columns tgt).1) ((s.cfg.columns tgt).2 - (s.cfg.columns tgt).1))

/-- `n` ticks of UPDATE_SENDING_DATA in a row. -/
def sendTicks : Nat → State → Host.Outcome State Fault Refusal
  | 0, s => .next s
  | n + 1, s => andThen (exec .stateUpdateSendingData s) (sendTicks n)

/-- An event of the bus pins, which only a frame makes (41_serial_encoder.md R112). -/
def isBusEvent : TraceEvent → Bool
  | .pin .panelRst _ | .wait _ | .busySample _ => false
  | .pin .dc _ | .pin .csN _ | .pin .sclk _ | .pin .sdin _ => true

/-! ### The transition relation (43_display_controller.md R155) -/

/-- The pairs of states R155's table lists, with the part of each condition that the configuration decides. -/
def transition (c : Config) : DState → DState → Bool
  | .initStart, .initReset => true
  | .initReset, .initWaitReset => c.hasResetPin
  | .initReset, .initSendCommands => !c.hasResetPin
  | .initWaitReset, .initWaitResetLow => true
  | .initWaitResetLow, .initWaitResetHigh => true
  | .initWaitResetHigh, .initSendCommands => true
  | .initSendCommands, .initWaitBusy => true
  | .initWaitBusy, .initDone => true
  | .initDone, .idle => true
  | .idle, .updateStart => true
  | .idle, .deepSleep => true
  | .updateStart, .updateWaitBusy => true
  | .updateWaitBusy, .updatePrepare => true
  | .updatePrepare, .updateSendingData => true
  | .updateSendingData, .updateRefresh => true
  | .updateRefresh, .updateWaitRefresh => true
  | .updateWaitRefresh, .updateDone => true
  | .updateDone, .idle => true
  | _, _ => false

/-! ### The states of a run -/

/-- The tasks a tick found in state `d` can have in hand. -/
def taskFits (c : Config) (d : DState) : Task → Bool
  | .action => true
  | .run sel =>
    match d with
    | .initSendCommands => sel == .initSeq
    | .updatePrepare => sel == .prepareSeq
    | .updateSendingData => sel == .secondaryPrepareSeq
    | .updateRefresh => sel == .fullRefreshSeq || sel == .partialRefreshSeq
    | .deepSleep => sel == .sleepSeq
    | _ => false
  | .seqHead | .seqTake _ | .seqDelay | .seqHold | .seqArgs | .argSent =>
    d == .initSendCommands || d == .updatePrepare || d == .updateSendingData || d == .updateRefresh || d == .deepSleep
  | .frame =>
    d == .initSendCommands || d == .updatePrepare || d == .updateSendingData || d == .updateRefresh || d == .deepSleep
  | .sendFb _ _ | .endChunk1 _ | .rows _ | .colSent | .endChunk2 | .switchTarget => d == .updateSendingData
  | .window => d == .updateStart
  | .sleepDone => d == .deepSleep
  | .goto e =>
    (d == .initSendCommands || d == .updateStart || d == .updatePrepare || d == .updateSendingData
      || d == .updateRefresh) && transition c d e

/-- A task that may end the state's action, and so stands last. -/
def taskEnds : Task → Bool
  | .action | .goto _ | .endChunk1 _ | .endChunk2 => true
  | .run _ | .seqHead | .seqTake _ | .seqDelay | .seqHold | .seqArgs | .argSent | .frame | .sendFb _ _ | .rows _ | .colSent
  | .switchTarget | .window | .sleepDone => false

/-- The work in hand fits the state: each task does, and what ends the action stands last. -/
def workFits (c : Config) (d : DState) : List Task → Bool
  | [] => true
  | [t] => taskFits c d t
  | t :: ts => taskFits c d t && !taskEnds t && workFits c d ts

/-- The control of the block is consistent: between ticks nothing is in hand and no window or frame is open; the work in
hand fits the state; a window is open, and a frame in progress, only with its task in front. -/
def State.controlOk (s : State) : Bool :=
  workFits s.cfg s.st s.work && (!s.ready || (s.work.isEmpty && !s.encBusy && !s.drawReq))
    && (!s.drawReq || s.work.head? == some .window) && (!s.encBusy || s.work.head? == some .frame)

/-- The framebuffer is in canonical form and lists addresses `0` to `L - 1` only (20_memory.md R50). -/
def State.fbOk (s : State) : Prop := Memory.wf s.fb ∧ ∀ p ∈ s.fb, p.1 < s.cfg.fbLen

/-- The panel's reset pulse: the line is low only in INIT_WAIT_RESET_LOW (43_display_controller.md R139, R140). -/
def State.pulseOk (s : State) : Prop := s.panelRst = false → s.st = .initWaitResetLow

/-- The bytes `n` after `seq_ptr` on are a well-formed walk to the end marker (42_sequence_interpreter.md R127). -/
def State.headAfter (s : State) (n : Nat) : Bool := wfTable (s.seqBytes.drop n)

/-- What may stand after the run of a table. -/
def afterRun : Task → Bool
  | .goto _ | .switchTarget | .sleepDone => true
  | .action | .run _ | .seqHead | .seqTake _ | .seqDelay | .seqHold | .seqArgs | .argSent | .frame | .sendFb _ _
  | .endChunk1 _ | .rows _ | .colSent | .endChunk2 | .window => false

/-- The work in hand stands where it can go on: the interpreter's pointer at a place from which the rest of its step, and
then the rest of its table, can be read (42_sequence_interpreter.md R127); the transfer's tasks within the image
(44_data_transfer.md R181). -/
def State.workPlaced (s : State) : List Task → Bool
  | .frame :: ts => s.workPlaced ts
  | [.run sel, t] => afterRun t && tableOk (s.cfg.table sel)
  | [.seqHead, t] => afterRun t && s.headAfter 0
  | [.seqTake n, .seqArgs, .seqHead, t] => afterRun t && s.headAfter (2 + n.toNat)
  | [.seqTake n, .seqDelay, .seqArgs, .seqHead, t] => afterRun t && s.headAfter (3 + n.toNat)
  | [.seqDelay, .seqArgs, .seqHead, t] => afterRun t && s.headAfter (1 + s.seqLeft.toNat)
  | [.seqHold, .seqArgs, .seqHead, t] | [.seqArgs, .seqHead, t] => afterRun t && s.headAfter s.seqLeft.toNat
  | [.argSent, .seqArgs, .seqHead, t] => afterRun t && decide (1 ≤ s.seqLeft.toNat) && s.headAfter s.seqLeft.toNat
  | [.sendFb a n, .endChunk1 m] => decide (a + n = s.idx.toNat + m ∧ a + n ≤ s.cfg.fbLen)
  | [.endChunk1 m] => decide (s.idx.toNat + m ≤ s.cfg.fbLen)
  | [.rows r, .endChunk2] =>
    decide (s.cfg.targets = 2 ∧ s.row.toNat + r ≤ s.cfg.height ∧
      (r = 0 ∨ (s.cfg.columns s.tgt).1 ≤ s.col.toNat ∧ s.col.toNat ≤ (s.cfg.columns s.tgt).2))
  | [.colSent, .rows r, .endChunk2] =>
    decide (s.cfg.targets = 2 ∧ 1 ≤ r ∧ s.row.toNat + r ≤ s.cfg.height ∧
      (s.cfg.columns s.tgt).1 ≤ s.col.toNat ∧ s.col.toNat < (s.cfg.columns s.tgt).2)
  | [] | [.action] | [.goto _] | [.switchTarget] | [.sleepDone] | [.window, .goto _] => true
  | [.endChunk2] => decide (s.cfg.targets = 2)
  | _ => false

/-- The Transfer Cursor is within the image (44_data_transfer.md R174, R181). -/
def State.cursorOk (s : State) : Bool :=
  decide ((s.cfg.targets = 1 → s.idx.toNat ≤ s.cfg.fbLen) ∧ (s.cfg.targets = 2 → s.row.toNat ≤ s.cfg.height))

/-- Everything in the block stands in its range: the work in hand, the Transfer Cursor, the encoder's counters
(10_state.md R37); the running table is in the reach of the 16-bit `seq_ptr` (20_memory.md R55). -/
def State.placesOk (s : State) : Bool :=
  s.workPlaced s.work && s.cursorOk
    && decide (s.encStep.toNat ≤ 26 ∧ s.encHold ≤ s.cfg.encStepCycles ∧ s.seqTable.length ≤ 65535)

/-- A safe state of a run: a valid configuration, a consistent control, everything in its range, a framebuffer inside its
bounds, the panel's reset line low only in its pulse. -/
def State.safe (s : State) : Prop :=
  s.cfg.valid = true ∧ s.controlOk = true ∧ s.placesOk = true ∧ s.fbOk ∧ s.pulseOk

end Sys2Proof.Machine
end

