-- ==== Sys2Proof/Certificates/Slice0/Obligations.lean ====
section
/-! DEFINITION. The statements for the provers, each from the numbered rules of spec/ that OBLIGATIONS.json cites. A statement
about a result gives the whole next state: the fields it names, and by the record update every other field unchanged. -/

open Sys2Proof Sys2Proof.Machine

/-! ### Encodings (30_encoding.md, 10_state.md R24, 42_sequence_interpreter.md R127) -/

/-- Every well-formed instruction is read back from its encoding, at every value of its operands. -/
def Obligations.DecodeOfEncode : Prop :=
  ∀ i : Instr, i.wf = true → decode (encode i) = .ok i

/-- R72, R73, R75: the layout and the length of a step, and that the decoder reads both kinds back, whatever follows. -/
def Obligations.StepBytesReadBack : Prop :=
  ∀ (cmd dly : Byte) (args rest : List Byte), cmd ≠ 0xFF → args.length ≤ 127 →
    decodeSeq (stepBytes cmd args ++ rest) = .ok (.step cmd args, rest) ∧
    decodeSeq (stepDelayBytes cmd dly args ++ rest) = .ok (.stepDelay cmd dly args, rest) ∧
    stepBytes cmd args = cmd :: BitVec.ofNat 8 args.length :: args ∧
    stepDelayBytes cmd dly args = cmd :: BitVec.ofNat 8 (128 + args.length) :: dly :: args ∧
    (stepBytes cmd args).length = 2 + args.length ∧ (stepDelayBytes cmd dly args).length = 3 + args.length ∧
    2 ≤ (stepBytes cmd args).length ∧ (stepDelayBytes cmd dly args).length ≤ 130

/-- Words of the spec's examples and tables (R80, R81, R83, R88, R24), read by the decoder. -/
def Obligations.SpecWordsDecode : Prop :=
  decodeSeq [0xCC, 0b00000000, 0xFF] = .ok (.step 0xCC [], [0xFF]) ∧
  decodeSeq [0xCC, 0b00000010, 0xA0, 0xA1] = .ok (.step 0xCC [0xA0, 0xA1], []) ∧
  decodeSeq [0xCC, 0b10000000, 0x0A] = .ok (.stepDelay 0xCC 0x0A [], []) ∧
  decodeSeq [0xCC, 0b10000001, 0x0A, 0xA0] = .ok (.stepDelay 0xCC 0x0A [0xA0], []) ∧
  decodeSeq [0b11111111, 0b11111111, 0x12] = .ok (.finish, [0x12]) ∧
  decodeSeq [0b11111111, 0b00000000, 0xFF, 0xFF] = .ok (.illegal 0x00, [0xFF, 0xFF]) ∧
  decode (.frame 0b000010010) = .ok (.sendCommand 0x12) ∧
  decode (.frame 0b110100101) = .ok (.sendData 0xA5) ∧
  decode (.tag 0b00100100) = .ok (.cmdTagPrimary 0x24) ∧
  decode (.tag 0b10100100) = .ok (.cmdTagSecondary 0x24) ∧
  decode (.port 0b10000 0xFFFF 0x0003 true) = .ok (.pixelSet 0xFFFF 0x0003 true) ∧
  decode (.port 0b00001 0 0 false) = .ok .hostTick ∧
  decode (.port 0b00010 0 0 false) = .ok .hostRequestUpdate ∧
  decode (.port 0b00100 0 0 false) = .ok .hostSleepRequest ∧
  decode (.port 0b01000 0 0 false) = .ok .hostDrawDone ∧
  decode (.state 0b01000) = .ok .stateIdle ∧
  decode (.state 0b10000) = .ok .stateDeepSleep ∧
  decode (.state 0b10001) = .error .reservedState ∧
  decode (.transfer 0b01100 1) = .ok .transferChunk1 ∧
  decode (.transfer 0b01100 2) = .ok .transferChunk2

/-- R77: what the first two bytes of a step position decide. -/
def Obligations.StepHeadDecides : Prop :=
  ∀ (c k : Byte) (rest : List Byte),
    (c = 0xFF → k = 0xFF → decodeSeq (c :: k :: rest) = .ok (.finish, rest)) ∧
    (c = 0xFF → k ≠ 0xFF → decodeSeq (c :: k :: rest) = .ok (.illegal k, rest)) ∧
    (c ≠ 0xFF → k.getLsbD 7 = false →
      ∀ args after, rest = args ++ after → args.length = k.toNat % 128 →
        decodeSeq (c :: k :: rest) = .ok (.step c args, after)) ∧
    (c ≠ 0xFF → k.getLsbD 7 = true →
      ∀ d args after, rest = d :: args ++ after → args.length = k.toNat % 128 →
        decodeSeq (c :: k :: rest) = .ok (.stepDelay c d args, after))

/-- R88, R89: the table notation, its pseudo-steps, and what an assembler refuses. -/
def Obligations.TableNotation : Prop :=
  ∀ (c d op : Byte) (args : List Byte),
    (c ≠ 0xFF → args.length ≤ 127 →
      (AsmLine.step c args).bytes = some (c :: BitVec.ofNat 8 args.length :: args) ∧
      (AsmLine.stepd c d args).bytes = some (c :: BitVec.ofNat 8 (128 + args.length) :: d :: args)) ∧
    (c = 0xFF ∨ 127 < args.length →
      (AsmLine.step c args).bytes = none ∧ (AsmLine.stepd c d args).bytes = none) ∧
    AsmLine.finish.bytes = some [0xFF, 0xFF] ∧
    (AsmLine.cmd c).bytes = (AsmLine.step c []).bytes ∧
    (AsmLine.wait c d).bytes = (AsmLine.stepd c d []).bytes ∧
    (op.toNat < 0x80 →
      (AsmLine.taggedStep false op args).bytes = (AsmLine.step op args).bytes ∧
      (AsmLine.taggedStep true op args).bytes = (AsmLine.step (op + 0x80) args).bytes)

/-- R24: the codes of the 17 states; the other codes name no state and no state action. `st_out` shows the code of `st`, and
every other output its register (R23, R42). -/
def Obligations.StateCodes : Prop :=
  [DState.initStart, .initReset, .initWaitReset, .initWaitResetLow, .initWaitResetHigh, .initSendCommands,
      .initWaitBusy, .initDone, .idle, .updateStart, .updateWaitBusy, .updatePrepare, .updateSendingData,
      .updateRefresh, .updateWaitRefresh, .updateDone, .deepSleep].map DState.code =
    [0x00, 0x01, 0x02, 0x03, 0x04, 0x05, 0x06, 0x07, 0x08, 0x09, 0x0A, 0x0B, 0x0C, 0x0D, 0x0E, 0x0F, 0x10] ∧
  (∀ d : DState, DState.ofCode d.code = some d) ∧
  (∀ code : BitVec 5, DState.ofCode code = none ↔ 0x11 ≤ code.toNat) ∧
  (∀ code : BitVec 5, decodeState code = .error .reservedState ↔ 0x11 ≤ code.toNat) ∧
  ∀ s : State, s.outputs =
    { sclk := s.sclk, sdin := s.sdin, csN := s.csN, dc := s.dc
      panelRst := if s.cfg.hasResetPin then some s.panelRst else none
      ready := s.ready, drawReq := s.drawReq
      stOut := s.st.code, updCntOut := s.updCnt, isFullOut := s.isFull, tgtOut := s.tgt }

/-- R127: a table is well formed exactly when it is a list of steps and an end marker, whatever follows; those are then the
steps the interpreter reads. -/
def Obligations.WellFormedTableShape : Prop :=
  ∀ t : List Byte,
    (wfTable t = true ↔
      ∃ (ops : List SeqOp) (junk : List Byte),
        (∀ op ∈ ops, op ≠ .finish ∧ (∀ k, op ≠ .illegal k) ∧ op.instr.wf = true) ∧
        t = ops.flatMap SeqOp.bytes ++ 0xFF :: 0xFF :: junk) ∧
    (∀ (ops : List SeqOp) (junk : List Byte),
      (∀ op ∈ ops, op ≠ .finish ∧ (∀ k, op ≠ .illegal k) ∧ op.instr.wf = true) →
      t = ops.flatMap SeqOp.bytes ++ 0xFF :: 0xFF :: junk → tableOps t = ops)

/-! ### A step runs what it reads -/

/-- A rising edge at the transaction level whose ports, under the gates of R99, R133 and R147, name one operation runs that
operation on the sampled inputs; what is left open is a drawing window, otherwise the block is ready again. With any
combination of strobes (R162, R190) the requests set their flags, then the pixel is written, then the window closes, and the
tick sees what they leave. -/
def Obligations.StepRunsPortOperation : Prop :=
  ∀ (s : State) (p : Ports) (d : Draws) (rest : List Input),
    s.cfg.valid = true → s.inputs = .edge p d :: rest → s.work = [] →
    let s0 : State :=
      { s with inputs := rest, now := p.nowMs, busyIn := p.busyIn, lapses := d.lapses, window := d.window }
    let done : State → State := fun t =>
      if t.work = [] then { t with ready := true, lapses := [], window := none }
      else { t with lapses := [], window := none }
    let s1 : State :=
      { s0 with pending := p.hiv.getLsbD 1 || s.pending, sleepPending := p.hiv.getLsbD 2 || s.sleepPending }
    let s2 : State :=
      if s.drawReq && p.hiv.getLsbD 4 then s1.setPixel p.px.x.toInt p.px.y.toInt p.px.black else s1
    let s3 : State := if p.hiv.getLsbD 3 then { s2 with drawReq := false } else s2
    (∀ i, decodeHiv (p.hiv &&& s.gate) p.px.x p.px.y p.px.black = [i] →
      step s = andThen (exec i s0) (fun t => .next (done t))) ∧
    (s.ready = true → p.hiv.getLsbD 0 = true → step s = andThen (exec .hostTick s3) (fun t => .next (done t))) ∧
    (s.ready = false ∨ p.hiv.getLsbD 0 = false → step s = .next (done s3))

/-- R132: a tick runs the action that the code in `st` decodes to, once, with `ready = 0`; `ready` returns to 1 when nothing
is left to do. -/
def Obligations.TickRunsDecodedState : Prop :=
  ∀ (s : State) (i : Instr), s.ready = true → decodeState s.st.code = .ok i →
    exec .hostTick s =
      match exec i { s with ready := false } with
      | .next t => .next (if t.work = [] then { t with ready := true } else t)
      | .fault r => .fault r
      | .refused r => .refused r

/-- A step of the machine that finds the interpreter at a step position runs the step decoded there, then the rest of the
table, then what the tick has left. The draws are cut to what R134 leaves for the waits ahead (log entry 4). -/
def Obligations.StepRunsTableStep : Prop :=
  ∀ (s : State) (p : Ports) (d : Draws) (rest : List Input) (ts : List Task) (op : SeqOp) (after : List Byte),
    s.cfg.valid = true → s.inputs = .edge p d :: rest → s.work = .seqHead :: ts → p.hiv &&& s.gate = 0 →
    s.seqTable.length ≤ 65535 → decodeSeq s.seqBytes = .ok (op, after) →
    step s =
      andThen (exec op.instr { s with
          inputs := rest, now := p.nowMs, busyIn := p.busyIn, window := d.window, work := []
          lapses := capDraws (2 ^ 32 - 1 - waitSum (tableOps s.seqBytes)) d.lapses })
        (fun t => andThen (if op = .finish then .next t else runRest t)
          (fun u => andThen (drainTasks ts u)
            (fun v => .next { v with lapses := [], window := none })))

/-- A step of the machine that finds the encoder at the start of a frame runs the operation the frame's word decodes to,
then what the tick has left. -/
def Obligations.StepRunsRequestedFrame : Prop :=
  ∀ (s : State) (p : Ports) (d : Draws) (rest : List Input) (ts : List Task) (i : Instr),
    s.cfg.valid = true → s.inputs = .edge p d :: rest → s.work = .frame :: ts → p.hiv &&& s.gate = 0 →
    s.encBusy = true → s.encStep = 0 → s.encHold = 0 →
    decode (.frame (BitVec.ofBool s.encMode ++ s.encByte)) = .ok i →
    step s =
      andThen (exec i { s with
          inputs := rest, now := p.nowMs, busyIn := p.busyIn, lapses := d.lapses, window := d.window, work := [] })
        (fun t => andThen (drainTasks ts t) (fun u => .next { u with lapses := [], window := none }))

/-- R188: a configuration that breaks a condition has no run, and no other has this refusal. Conditions 4 and 9 hold by the
types of the parameters. -/
def Obligations.ConfigurationRefused : Prop :=
  ∀ s : State,
    let c := s.cfg
    let ok : Prop :=
      (1 ≤ c.width ∧ c.width ≤ 32767 ∧ 1 ≤ c.height ∧ c.height ≤ 32767 ∧ c.width % 8 = 0) ∧
      (c.targets = 1 ∨ c.targets = 2) ∧
      (c.forcedMode = .cadence → 1 ≤ c.fullUpdateEvery) ∧
      (c.targets = 1 → 1 ≤ c.chunkBytes) ∧ (c.targets = 2 → 1 ≤ c.chunkRows) ∧
      (∀ t ∈ [c.initSeq, c.prepareSeq, c.fullRefreshSeq, c.partialRefreshSeq, c.sleepSeq],
        wfTable t = true ∧ t.length ≤ 65535) ∧
      (c.targets = 2 → ∃ t, c.secondaryPrepareSeq = some t ∧ wfTable t = true ∧ t.length ≤ 65535) ∧
      (c.busyActiveLevel = 0 ∨ c.busyActiveLevel = 1) ∧ c.csActiveLevel = 0 ∧ 1 ≤ c.encStepCycles
    (¬ok → ∃ e, step s = .refused (.configuration e)) ∧ (ok → ∀ e, step s ≠ .refused (.configuration e))

/-- The model's stops: 93_implementation_defined.md I16 to I18 when the environment gives no further input, and a transfer
cursor already past its end, which no run reaches (log entries 14 and 15: the model's choice of fault). There is no other: in
a consistent state of a valid configuration every input, an edge of either level or a reset, is answered with a next state. -/
def Obligations.SilentEnvironmentStops : Prop :=
  ∀ s : State,
    (s.cfg.valid = true → s.controlOk = true → s.placesOk = true → ∀ i rest, s.inputs = i :: rest →
      ∃ t, step s = .next t) ∧
    (s.cfg.valid = true → s.inputs = [] →
      step s = .fault (if s.drawReq then .stuckDrawDone
        else if s.work.head? = some .seqHold then .stuckNowMs else .stuckNoTick)) ∧
    (s.cfg.fbLen < s.idx.toNat → exec .transferChunk1 s = .fault .cursorPastEnd) ∧
    (s.cfg.height < s.row.toNat → exec .transferChunk2 s = .fault .cursorPastEnd)

/-! ### The serial bit encoder (41_serial_encoder.md) -/

/-- R106, R113: after its start edge a frame makes micro-step `i` at edge `1 + i * ENC_STEP_CYCLES`, ends at edge
`1 + 27 * ENC_STEP_CYCLES`, and has then done what SEND_COMMAND or SEND_DATA does at the transaction level. (That `enc_step`
and `enc_hold` agree after it too is log entry 8.) -/
def Obligations.EncoderCycleTiming : Prop :=
  ∀ (s : State) (m : Bool) (b : Byte), 1 ≤ s.cfg.encStepCycles → s.encBusy = false →
    let at' := fun n : Nat => (State.encoderEdge^[n]) (s.startFrame m b)
    ((at' 0).trace = s.trace ∧ (at' 0).encBusy = true) ∧
    (∀ i n : Nat, i ≤ 26 → 1 + i * s.cfg.encStepCycles ≤ n → n < 1 + (i + 1) * s.cfg.encStepCycles →
      (at' n).trace = s.trace ++ (frameEvents m b).take (i + 1) ∧ (at' n).encBusy = true) ∧
    (∀ n : Nat, 1 + 27 * s.cfg.encStepCycles ≤ n →
      (at' n).encBusy = false ∧ exec (if m then .sendData b else .sendCommand b) s = .next (at' n))

/-- R112: at every clock edge, whatever the ports carry, the bus pins and their events are those of the encoder's own cycle,
and a frame in progress is not changed by anything else. The edge adds one entry to the trace of levels: the five levels
after it (R30). -/
def Obligations.BusPinsOnlyByEncoder : Prop :=
  ∀ (s t : State) (p : Ports) (n : Nat), clockEdge p n s = .next t →
    (t.dc = s.encoderEdge.dc ∧ t.csN = s.encoderEdge.csN ∧ t.sclk = s.encoderEdge.sclk ∧ t.sdin = s.encoderEdge.sdin) ∧
    t.trace.filter isBusEvent = s.encoderEdge.trace.filter isBusEvent ∧
    t.wave = s.wave ++ [{ sclk := t.sclk, sdin := t.sdin, csN := t.csN, dc := t.dc, panelRst := t.panelRst }] ∧
    (s.encBusy = true →
      t.encMode = s.encMode ∧ t.encByte = s.encByte ∧ t.encStep = s.encoderEdge.encStep ∧
      t.encHold = s.encoderEdge.encHold ∧ t.encBusy = s.encoderEdge.encBusy ∧ t.trace = s.encoderEdge.trace)

/-- R107: the 27 micro-steps of a frame, in order. -/
def Obligations.FrameMicroSteps : Prop :=
  ∀ (m : Bool) (b : Byte),
    frameEvents m b =
      [.pin .dc m, .pin .csN false,
       .pin .sclk false, .pin .sdin (b.getLsbD 7), .pin .sclk true,
       .pin .sclk false, .pin .sdin (b.getLsbD 6), .pin .sclk true,
       .pin .sclk false, .pin .sdin (b.getLsbD 5), .pin .sclk true,
       .pin .sclk false, .pin .sdin (b.getLsbD 4), .pin .sclk true,
       .pin .sclk false, .pin .sdin (b.getLsbD 3), .pin .sclk true,
       .pin .sclk false, .pin .sdin (b.getLsbD 2), .pin .sclk true,
       .pin .sclk false, .pin .sdin (b.getLsbD 1), .pin .sclk true,
       .pin .sclk false, .pin .sdin (b.getLsbD 0), .pin .sclk true,
       .pin .csN true]

/-- R110: in a frame `sclk` rises eight times, the `j`-th time with `sdin` at bit `7 - j`, and falls eight times, or seven
when it was 0 at the frame's start; `dc` has its level before `cs_n` falls and keeps it. -/
def Obligations.FrameClockEdges : Prop :=
  ∀ (s : State) (m : Bool) (b : Byte),
    let after := fun i : Nat => s.microSteps m b (List.range i)
    ((List.range 27).filter (fun i => !(after i).sclk && (after (i + 1)).sclk)).map (fun i => (i, (after i).sdin)) =
      (List.range 8).map (fun j => (4 + 3 * j, b.getLsbD (7 - j))) ∧
    ((List.range 27).filter (fun i => (after i).sclk && !(after (i + 1)).sclk)).length = (if s.sclk then 8 else 7) ∧
    (∀ i, 1 ≤ i → i ≤ 27 → (after i).dc = m) ∧
    (∀ i, 2 ≤ i → i ≤ 26 → (after i).csN = false) ∧ (after 27).csN = true

/-- R108, R109: SEND_COMMAND and SEND_DATA send one frame, leave the bus pins at its levels and write nothing but them, the
encoder's own registers and the trace. -/
def Obligations.SendByteResults : Prop :=
  ∀ (s : State) (b : Byte),
    (∃ t, exec (.sendCommand b) s = .next t ∧ t.trace = s.trace ++ frameEvents false b ∧
      t.dc = false ∧ t.csN = true ∧ t.sclk = true ∧ t.sdin = b.getLsbD 0 ∧ t.encBusy = false ∧ t = s.withWire t) ∧
    (∃ t, exec (.sendData b) s = .next t ∧ t.trace = s.trace ++ frameEvents true b ∧
      t.dc = true ∧ t.csN = true ∧ t.sclk = true ∧ t.sdin = b.getLsbD 0 ∧ t.encBusy = false ∧ t = s.withWire t)

/-- R80: the tagged byte is `opcode + TAG`, which is `opcode | TAG`, and it is sent as a command byte as it stands. That a
TAG word alone means this frame is log entry 11, the model's reading. -/
def Obligations.TaggedCommandBytes : Prop :=
  ∀ (s : State) (op : BitVec 7),
    (∃ t, exec (.cmdTagPrimary op) s = .next t ∧ exec (.sendCommand (op.setWidth 8)) s = .next t ∧
      t.trace = s.trace ++ frameEvents false (op.setWidth 8 + 0x00) ∧ t = s.withWire t) ∧
    (∃ t, exec (.cmdTagSecondary op) s = .next t ∧ exec (.sendCommand (op.setWidth 8 ||| 0x80)) s = .next t ∧
      t.trace = s.trace ++ frameEvents false (op.setWidth 8 + 0x80) ∧ t = s.withWire t)

/-! ### The command sequence interpreter (42_sequence_interpreter.md) -/

/-- R118. -/
def Obligations.SeqStepResult : Prop :=
  ∀ (s : State) (cmd : Byte) (args : List Byte),
    ∃ t, exec (.seqStep cmd args) s = .next t ∧
      t.trace = s.trace ++ frameEvents false cmd ++ dataEvents args ∧
      t.seqPtr = s.seqPtr + BitVec.ofNat 16 (2 + args.length) ∧
      t = { s.withWire t with seqPtr := t.seqPtr, seqLeft := 0 }

/-- R119: the wait is after the command frame and before the first argument frame. -/
def Obligations.SeqStepDelayResult : Prop :=
  ∀ (s : State) (cmd dly : Byte) (args : List Byte),
    ∃ t, exec (.seqStepDelay cmd dly args) s = .next t ∧
      t.trace = s.trace ++ frameEvents false cmd ++ [.wait dly] ++ dataEvents args ∧
      t.seqPtr = s.seqPtr + BitVec.ofNat 16 (3 + args.length) ∧
      t = { (s.waited dly).withWire t with seqPtr := t.seqPtr, seqLeft := 0, waitD := dly }

/-- R120: the end marker sends nothing and waits for nothing; it is read at a step position, whatever follows; inside an
argument list, or as a delay byte and the argument after it, the same two bytes are data. (A run cuts draws of time that come
to 2^32 ms or more, log entry 4; between steps there are none.) -/
def Obligations.SeqEndResult : Prop :=
  ∀ (s : State) (after : List Byte),
    exec .seqEnd s = .next s ∧ decodeSeq (0xFF :: 0xFF :: after) = .ok (.finish, after) ∧
    (s.seqBytes = 0xFF :: 0xFF :: after → s.lapses.sum < 2 ^ 32 → runRest s = .next s) ∧
    ∀ (c : Byte) (pre post : List Byte), c ≠ 0xFF → pre.length + post.length ≤ 125 →
      decodeSeq (stepBytes c (pre ++ 0xFF :: 0xFF :: post) ++ after) = .ok (.step c (pre ++ 0xFF :: 0xFF :: post), after) ∧
      decodeSeq (stepDelayBytes c 0xFF (0xFF :: post) ++ after) = .ok (.stepDelay c 0xFF (0xFF :: post), after)

/-- R121: a step whose first byte is FF and whose second is not is refused; a table with one on its walk is not well formed,
and no step is made with a configuration that holds it. -/
def Obligations.SeqIllegalRefused : Prop :=
  ∀ (s : State) (cnt : Byte) (ops : List SeqOp) (after : List Byte), cnt ≠ 0xFF →
    (∀ op ∈ ops, op ≠ .finish ∧ (∀ k, op ≠ .illegal k) ∧ op.instr.wf = true) →
    exec (.seqIllegalFF cnt) s = .refused .illFormedSequence ∧
    decodeSeq (0xFF :: cnt :: after) = .ok (.illegal cnt, after) ∧
    wfTable (ops.flatMap SeqOp.bytes ++ 0xFF :: cnt :: after) = false ∧
    ∀ sel : TableSel, (sel = .secondaryPrepareSeq → s.cfg.targets = 2) →
      s.cfg.table sel = ops.flatMap SeqOp.bytes ++ 0xFF :: cnt :: after → ∃ e, step s = .refused (.configuration e)

/-- R122, R123: a run of a well-formed table sends, step by step, the command frame, the wait if there is one and one data
frame per argument, ends at the end marker, and writes nothing else. -/
def Obligations.TableRunEvents : Prop :=
  ∀ (s : State) (sel : TableSel), tableOk (s.cfg.table sel) = true →
    ∃ t, runSeq sel s = .next t ∧
      t.trace = s.trace ++ (tableOps (s.cfg.table sel)).flatMap opEvents ∧
      t.seqSel = sel ∧ t.seqPtr = BitVec.ofNat 16 (endAddr (s.cfg.table sel)) ∧
      t = s.withRun t

/-- R128: a run makes a command frame for each step, a data frame for each argument, a wait for each step with delay (the mode
line is set once a frame, R107), in the order of R123; the bytes read are those up to the end marker: with other bytes after
it, or none, the run is the same. -/
def Obligations.TableRunCounts : Prop :=
  ∀ (s : State) (sel : TableSel), tableOk (s.cfg.table sel) = true →
    let tbl := s.cfg.table sel
    let ops := tableOps tbl
    ∃ t gained, runSeq sel s = .next t ∧ t.trace = s.trace ++ gained ∧ gained = ops.flatMap opEvents ∧
      gained.count (.pin .dc false) = ops.length ∧
      gained.count (.pin .dc true) =
        (ops.map (fun op => match op with | .step _ a | .stepDelay _ _ a => a.length | _ => 0)).sum ∧
      gained.countP (fun e => match e with | .wait _ => true | _ => false) =
        ops.countP (fun op => match op with | .stepDelay _ _ _ => true | _ => false) ∧
      tbl[endAddr tbl]? = some 0xFF ∧ tbl[endAddr tbl + 1]? = some 0xFF ∧
      ∀ junk : List Byte,
        let cfg' := s.cfg.withTable sel (tbl.take (endAddr tbl + 2) ++ junk)
        runSeq sel { s with cfg := cfg' } = .next { t with cfg := cfg' }

/-- R125: a wait is one event and, for `d > 0`, lasts until `wrap32(now_ms - wait_t0) > d`; no pin changes. That this is exactly
`d + 1` counts whatever the environment draws, and at the cycle level the first edge that finds the time over, whether or not
the edge performs an action, is R131 with log entry 4 (DEDUCED). -/
def Obligations.WaitLasts : Prop :=
  ∀ (s : State) (d : Byte),
    s.waitMs d = s.waited d ∧
    (d ≠ 0 → ((s.waitMs d).now - (s.waitMs d).waitT0).toNat = d.toNat + 1) ∧
    (∀ ts, s.work = .seqHold :: ts →
      controlAction s = .next (if s.waitD.toNat < (s.now - s.waitT0).toNat then { s with work := ts } else s) ∧
      ∀ p : Ports, p.hiv = 0 → s.encBusy = false → s.ready = false →
        clockEdge p 0 s = .next
          { s with
            now := p.nowMs, busyIn := p.busyIn, lapses := [], window := none, wave := s.wave ++ [s.levels]
            work := if s.waitD.toNat < (p.nowMs - s.waitT0).toNat then ts else .seqHold :: ts })

/-- R134: the time a run of a table takes is the sum over its waits of `d + 1` for each wait with `d > 0`, and the draws of
the environment for the time outside the waits, cut so that, with the draw of the `goto` after it, fewer than 2^32 ms pass; so
the `goto` stamps a time at least that sum after the start, modulo 2^32 (log entry 4). R131: the table bounds the command
frames, the data frames and the waits, each of at most 256 counts. -/
def Obligations.RunTimeSpansWaits : Prop :=
  ∀ (s : State) (sel : TableSel), tableOk (s.cfg.table sel) = true →
    let ops := tableOps (s.cfg.table sel)
    let draws := capDraws (2 ^ 32 - 1 - waitSum ops) s.lapses
    ∃ t, runSeq sel s = .next t ∧
      t.now = s.now + BitVec.ofNat 32 (waitSum ops + (draws.take (waitCount ops)).sum) ∧
      t.lapses = draws.drop (waitCount ops) ∧ waitSum ops + draws.sum < 2 ^ 32 ∧
      (waitSum ops + s.lapses.sum < 2 ^ 32 → draws = s.lapses) ∧
      waitSum ops ≤ (t.now - s.now).toNat ∧
      ops.length ≤ (s.cfg.table sel).length / 2 ∧
      (ops.map (fun op => match op with | .step _ a | .stepDelay _ _ a => a.length | _ => 0)).sum ≤
        (s.cfg.table sel).length - 4 ∧
      waitCount ops ≤ ops.length ∧ waitSum ops ≤ 256 * waitCount ops ∧
      ∀ d : DState, waitSum ops ≤ ((t.entered d).tEntry - s.now).toNat

/-- R127: a table that is not well formed has no run, in any state that would run it. -/
def Obligations.IllFormedRunRefused : Prop :=
  ∀ (s : State) (sel : TableSel), wfTable (s.cfg.table sel) = false → (s.cfg.table sel).length ≤ 65535 →
    runSeq sel s = .refused .illFormedSequence ∧
    (sel = .initSeq → exec .stateInitSendCommands s = .refused .illFormedSequence) ∧
    (sel = .prepareSeq → exec .stateUpdatePrepare s = .refused .illFormedSequence) ∧
    (sel = (if s.isFull then .fullRefreshSeq else .partialRefreshSeq) →
      exec .stateUpdateRefresh s = .refused .illFormedSequence) ∧
    (sel = .sleepSeq → s.sleepDone = false → exec .stateDeepSleep s = .refused .illFormedSequence) ∧
    (sel = .secondaryPrepareSeq → s.cfg.height ≤ 65535 → s.row.toNat ≤ s.cfg.height →
      s.cfg.height ≤ s.row.toNat + s.cfg.chunkRows → s.tgt = false →
      exec .transferChunk2 s = .refused .illFormedSequence ∧
      (s.cfg.targets = 2 → exec .stateUpdateSendingData s = .refused .illFormedSequence))

/-! ### The framebuffer (40_framebuffer.md) -/

/-- R92, R103: FILL writes every byte, nothing else, and leaves nothing of what was there. -/
def Obligations.FillResult : Prop :=
  ∀ (s : State) (black : Bool),
    ∃ t, exec (.fbFill black) s = .next t ∧ t = { s with fb := t.fb } ∧
      (∀ a, a < s.cfg.fbLen → Memory.read t.fb a = if black then 0x00 else 0xFF) ∧
      (s.fbOk → ∀ a, s.cfg.fbLen ≤ a → Memory.read t.fb a = Memory.read s.fb a) ∧
      exec (.fbFill black) t = .next t ∧
      (∀ other u, exec (.fbFill other) s = .next u → exec (.fbFill black) u = .next t)

/-- R93, R99: inside the drawing window a pixel write changes one bit of one byte of the framebuffer, or nothing when the
address generator gives no pixel; outside the window it is ignored. -/
def Obligations.PixelSetResult : Prop :=
  ∀ (s : State) (x y : Coord) (black : Bool), s.cfg.geometryOk = true → Memory.wf s.fb →
    (s.drawReq = false → exec (.pixelSet x y black) s = .next s) ∧
    (s.drawReq = true → s.cfg.pixelAddr x.toInt y.toInt = none → exec (.pixelSet x y black) s = .next s) ∧
    (s.drawReq = true → ∀ a k, s.cfg.pixelAddr x.toInt y.toInt = some (a, k) →
      a < s.cfg.fbLen ∧ k ≤ 7 ∧
      ∃ t, exec (.pixelSet x y black) s = .next t ∧ t = { s with fb := t.fb } ∧
        (Memory.read t.fb a).getLsbD k = !black ∧
        (∀ j, j ≠ k → (Memory.read t.fb a).getLsbD j = (Memory.read s.fb a).getLsbD j) ∧
        ∀ a', a' ≠ a → Memory.read t.fb a' = Memory.read s.fb a')

/-- R101: the address generator is injective on the logical pixels it maps; a pixel write is read back, changes no other
pixel, and changes nothing out of range. -/
def Obligations.PixelReadBack : Prop :=
  ∀ (s : State) (x y : Int) (black : Bool), s.cfg.geometryOk = true → Memory.wf s.fb →
    (∀ x' y', s.cfg.pixelAddr x y ≠ none → s.cfg.pixelAddr x' y' = s.cfg.pixelAddr x y → x' = x ∧ y' = y) ∧
    (s.cfg.pixelAddr x y ≠ none →
      (s.setPixel x y black).pixelAt x y = some (bitval black) ∧
      ∀ x' y', ¬(x' = x ∧ y' = y) → (s.setPixel x y black).pixelAt x' y' = s.pixelAt x' y') ∧
    (s.cfg.pixelAddr x y = none → (s.setPixel x y black).fb = s.fb)

/-- R94 to R98, R102: the address generator's formulas, with the bounds check and the mirror; which logical pixels the 90 and
270 degree formulas reach, and that each native pixel is reached by exactly one; that an invalid rotation reaches none, so
that a pixel write does nothing. -/
def Obligations.PixelAddressGenerator : Prop :=
  ∀ c : Config,
    (∀ x y u v : Int,
      c.rotation = 0 ∧ u = x ∧ v = y ∨
      c.rotation = 90 ∧ u = y ∧ v = c.width - 1 - x ∨
      c.rotation = 180 ∧ u = c.width - 1 - x ∧ v = c.height - 1 - y ∨
      c.rotation = 270 ∧ u = c.height - 1 - y ∧ v = x →
      c.pixelAddr x y =
        if 0 ≤ u ∧ u < c.width ∧ 0 ≤ v ∧ v < c.height then
          let m : Int := if c.mirrorX then c.width - 1 - u else u
          some (((v * c.width + m) / 8).toNat, (7 - m % 8).toNat)
        else none) ∧
    (c.rotation = 90 → ∀ x y : Int, c.pixelAddr x y ≠ none ↔
      0 ≤ y ∧ y < c.width ∧ (c.width : Int) - c.height ≤ x ∧ x ≤ c.width - 1) ∧
    (c.rotation = 270 → ∀ x y : Int, c.pixelAddr x y ≠ none ↔
      0 ≤ x ∧ x < c.height ∧ (c.height : Int) - c.width ≤ y ∧ y ≤ c.height - 1) ∧
    (c.rotation = 0 ∨ c.rotation = 90 ∨ c.rotation = 180 ∨ c.rotation = 270 →
      ∀ u v : Nat, u < c.width → v < c.height → ∃! q : Int × Int, c.nativePixel q.1 q.2 = some (u, v)) ∧
    (c.rotation ≠ 0 → c.rotation ≠ 90 → c.rotation ≠ 180 → c.rotation ≠ 270 →
      (∀ x y : Int, c.pixelAddr x y = none) ∧
      ∀ (s : State) (x y : Coord) (black : Bool), s.cfg = c → exec (.pixelSet x y black) s = .next s)

/-- R64, R104, R146: after UPDATE_START each logical pixel holds the colour of the last write to it in the drawing window,
or white. -/
def Obligations.UpdateStartImage : Prop :=
  ∀ (s : State) (ws : List PixelWrite), s.cfg.geometryOk = true → s.cfg.hasDrawCb = true → s.window = some ws →
    ∃ t, exec .stateUpdateStart s = .next t ∧ t.cfg = s.cfg ∧
      ∀ x y : Int, s.cfg.pixelAddr x y ≠ none →
        t.pixelAt x y =
          some (match ws.reverse.find? (fun w => w.x.toInt = x ∧ w.y.toInt = y) with
            | some w => bitval w.black
            | none => true)

/-! ### The display refresh controller (43_display_controller.md) -/

/-- R137, R138. -/
def Obligations.InitStartAndReset : Prop :=
  ∀ s : State,
    exec .stateInitStart s = .next (s.entered .initReset) ∧
    (s.cfg.hasResetPin = true → exec .stateInitReset s =
      .next ({ s with panelRst := true, trace := s.trace ++ [TraceEvent.pin .panelRst true] }.entered .initWaitReset)) ∧
    (s.cfg.hasResetPin = false → exec .stateInitReset s = .next (s.entered .initSendCommands))

/-- R139, R140, R141: the three timed states of the panel's reset pulse, left by the tick that finds the time over. -/
def Obligations.ResetPulseTimed : Prop :=
  ∀ s : State,
    exec .stateInitWaitReset s = .next
      (if s.cfg.tRstPreMs.toNat < (s.now - s.tEntry).toNat then
        { s with panelRst := false, trace := s.trace ++ [TraceEvent.pin .panelRst false] }.entered .initWaitResetLow else s) ∧
    exec .stateInitWaitResetLow s = .next
      (if s.cfg.tRstLowMs.toNat < (s.now - s.tEntry).toNat then
        { s with panelRst := true, trace := s.trace ++ [TraceEvent.pin .panelRst true] }.entered .initWaitResetHigh else s) ∧
    exec .stateInitWaitResetHigh s = .next
      (if s.cfg.tRstPostMs.toNat < (s.now - s.tEntry).toNat then s.entered .initSendCommands else s)

/-- R142, R149, R151: the states that run one table and go on in the same tick, with `t_entry` the time after the run, at
least the sum of the table's waits after the tick's start (R134). -/
def Obligations.TableStatesRunTheirTable : Prop :=
  ∀ s : State,
    (tableOk s.cfg.initSeq = true →
      ∃ t, exec .stateInitSendCommands s = .next t ∧ t.trace = s.trace ++ tableEvents s.cfg.initSeq ∧
        t.tEntry = t.now ∧ waitSum (tableOps s.cfg.initSeq) ≤ (t.tEntry - s.now).toNat ∧
        t = { s.withRun t with st := .initWaitBusy, tEntry := t.tEntry }) ∧
    (tableOk s.cfg.prepareSeq = true →
      ∃ t, exec .stateUpdatePrepare s = .next t ∧ t.trace = s.trace ++ tableEvents s.cfg.prepareSeq ∧
        t.tEntry = t.now ∧ waitSum (tableOps s.cfg.prepareSeq) ≤ (t.tEntry - s.now).toNat ∧
        t = { s.withRun t with st := .updateSendingData, tEntry := t.tEntry, idx := 0, row := 0, tgt := false }) ∧
    (s.isFull = true → tableOk s.cfg.fullRefreshSeq = true →
      ∃ t, exec .stateUpdateRefresh s = .next t ∧ t.trace = s.trace ++ tableEvents s.cfg.fullRefreshSeq ∧
        t.tEntry = t.now ∧ waitSum (tableOps s.cfg.fullRefreshSeq) ≤ (t.tEntry - s.now).toNat ∧
        t = { s.withRun t with st := .updateWaitRefresh, tEntry := t.tEntry }) ∧
    (s.isFull = false → tableOk s.cfg.partialRefreshSeq = true →
      ∃ t, exec .stateUpdateRefresh s = .next t ∧ t.trace = s.trace ++ tableEvents s.cfg.partialRefreshSeq ∧
        t.tEntry = t.now ∧ waitSum (tableOps s.cfg.partialRefreshSeq) ≤ (t.tEntry - s.now).toNat ∧
        t = { s.withRun t with st := .updateWaitRefresh, tEntry := t.tEntry })

/-- R143, R148, R152, R158: the wait states sample the busy line on every tick when there is one, and are left, to the same
state, when it is idle or the timeout is over. -/
def Obligations.WaitStatesPollBusy : Prop :=
  ∀ s : State,
    let sampled : State :=
      { s with trace := s.trace ++ (if s.cfg.hasBusyPin then [.busySample s.busyIn] else []) }
    let idle : Bool := !s.cfg.hasBusyPin || decide (s.busyIn.toNat ≠ s.cfg.busyActiveLevel)
    exec .stateInitWaitBusy s = .next
      (if idle = true ∨ s.cfg.initIdleTimeoutMs.toNat < (s.now - s.tEntry).toNat then sampled.entered .initDone
       else sampled) ∧
    exec .stateUpdateWaitBusy s = .next
      (if idle = true ∨ s.cfg.updateIdleTimeoutMs.toNat < (s.now - s.tEntry).toNat then sampled.entered .updatePrepare
       else sampled) ∧
    exec .stateUpdateWaitRefresh s = .next
      (if idle = true ∨ s.cfg.updateIdleTimeoutMs.toNat < (s.now - s.tEntry).toNat then sampled.entered .updateDone
       else sampled)

/-- R144, R153. -/
def Obligations.DoneStatesEnterIdle : Prop :=
  ∀ s : State,
    exec .stateInitDone s = .next ({ s with updCnt := 0 }.entered .idle) ∧
    exec .stateUpdateDone s = .next (s.entered .idle)

/-- R145: IDLE takes an update before a sleep. -/
def Obligations.IdleTakesRequests : Prop :=
  ∀ s : State,
    (s.pending = true →
      exec .stateIdle s = .next ({ s with updCnt := s.updCnt + 1, pending := false }.entered .updateStart)) ∧
    (s.pending = false → s.sleepPending = true →
      exec .stateIdle s = .next ({ s with sleepPending := false }.entered .deepSleep)) ∧
    (s.pending = false → s.sleepPending = false → exec .stateIdle s = .next s)

/-- R146: UPDATE_START latches the mode, fills the framebuffer with white, opens the drawing window if there is a drawing
callback, and goes on. The window's writes and its `draw_done` are the tick's draw, or come at later edges (log entry 6). -/
def Obligations.UpdateStartFillsAndDraws : Prop :=
  ∀ s : State, ∃ u,
    exec (.fbFill false) { s with isFull := cadenceFull s.cfg s.updCnt } = .next u ∧
    (s.cfg.hasDrawCb = false → exec .stateUpdateStart s = .next (u.entered .updateWaitBusy)) ∧
    (s.cfg.hasDrawCb = true → ∀ ws, s.window = some ws →
      exec .stateUpdateStart s =
        .next ({ ws.foldl State.writePixel { u with drawReq := true } with drawReq := false }.entered .updateWaitBusy)) ∧
    (s.cfg.hasDrawCb = true → s.window = none →
      exec .stateUpdateStart s = .next { u with drawReq := true, work := [.window, .goto .updateWaitBusy] ++ s.work })

/-- R147, R190: an open drawing window at a later edge. The pixel write of the edge is applied, that of the edge with
`draw_done` too; then the window closes, and the tick goes on (at the cycle level in a later action); a tick strobe is
dropped. And for a clock edge in any state (R99, R133, R147, R162): what it does with strobes is what it does without them,
then the strobes by `draw_req` and `ready` as they stand before it, with the same entry in the trace of levels. -/
def Obligations.DrawWindowServed : Prop :=
  ∀ (s : State) (p : Ports) (rest : List Input),
    let requests : State → State := fun u =>
      { u with pending := p.hiv.getLsbD 1 || u.pending, sleepPending := p.hiv.getLsbD 2 || u.sleepPending }
    let pixel : State → State := fun u =>
      if p.hiv.getLsbD 4 then u.setPixel p.px.x.toInt p.px.y.toInt p.px.black else u
    (s.cfg.valid = true → s.work = [.window, .goto .updateWaitBusy] → s.drawReq = true → s.ready = false →
      (∀ d : Draws, s.inputs = .edge p d :: rest →
        let s1 := pixel (requests { s with
          inputs := rest, now := p.nowMs, busyIn := p.busyIn, lapses := d.lapses, window := d.window })
        step s = .next
          (if p.hiv.getLsbD 3 then
            { { s1 with drawReq := false }.entered .updateWaitBusy with
              work := [], ready := true, lapses := [], window := none }
           else { s1 with lapses := [], window := none })) ∧
      (∀ n : Nat, s.inputs = .clock p n :: rest → s.encBusy = false →
        let s1 := pixel (requests { s with
          inputs := rest, now := p.nowMs, busyIn := p.busyIn, lapses := [], window := none
          wave := s.wave ++ [s.levels] })
        step s = .next (if p.hiv.getLsbD 3 then { s1 with drawReq := false } else s1))) ∧
    ∀ (n : Nat) (u : State), clockEdge { p with hiv := 0 } n s = .next u →
      let u1 := if s.drawReq then pixel (requests u) else requests u
      let u2 : State := if s.drawReq && p.hiv.getLsbD 3 then { u1 with drawReq := false } else u1
      clockEdge p n s = .next
        (if s.ready && p.hiv.getLsbD 0 then { u2 with ready := false, work := [.action] } else u2)

/-- R156: the cadence rule. -/
def Obligations.CadenceRule : Prop :=
  ∀ (c : Config) (n : Word32),
    (c.forcedMode = .alwaysFull → cadenceFull c n = true) ∧
    (c.forcedMode = .alwaysPartial → cadenceFull c n = false) ∧
    (c.forcedMode = .cadence → (cadenceFull c n = true ↔ n.toNat = 1 ∨ n.toNat % c.fullUpdateEvery = 0))

/-- R154: the sleep table once; afterwards a tick does nothing. No `goto` is made. -/
def Obligations.DeepSleepRunsTableOnce : Prop :=
  ∀ s : State,
    (s.sleepDone = true → exec .stateDeepSleep s = .next s) ∧
    (s.sleepDone = false → tableOk s.cfg.sleepSeq = true →
      ∃ t, exec .stateDeepSleep s = .next t ∧ t.trace = s.trace ++ tableEvents s.cfg.sleepSeq ∧
        t = { s.withRun t with sleepDone := true } ∧ exec .stateDeepSleep t = .next t)

/-! ### The data transfer (44_data_transfer.md) -/

/-- R174, R150: one tick of the single-controller transfer. -/
def Obligations.SingleTransferTick : Prop :=
  ∀ s : State, s.cfg.geometryOk = true → s.idx.toNat ≤ s.cfg.fbLen →
    let n := min s.cfg.chunkBytes (s.cfg.fbLen - s.idx.toNat)
    ∃ t, exec .transferChunk1 s = .next t ∧
      (s.cfg.targets = 1 → exec .stateUpdateSendingData s = .next t) ∧
      t.trace = s.trace ++ dataEvents (fbBytes s s.idx.toNat n) ∧
      t.idx.toNat = s.idx.toNat + n ∧
      (s.idx.toNat + n = s.cfg.fbLen → t = { (s.entered .updateRefresh).withWire t with idx := t.idx }) ∧
      (s.idx.toNat + n ≠ s.cfg.fbLen → t = { s.withWire t with idx := t.idx })

/-- R178, R150: one tick of the cascade transfer. -/
def Obligations.CascadeTransferTick : Prop :=
  ∀ s : State, s.cfg.geometryOk = true → s.row.toNat ≤ s.cfg.height →
    tableOk (s.cfg.table .secondaryPrepareSeq) = true →
    let r := min s.cfg.chunkRows (s.cfg.height - s.row.toNat)
    let sent := dataEvents (windowBytes s s.tgt s.row.toNat r)
    ∃ t, exec .transferChunk2 s = .next t ∧
      (s.cfg.targets = 2 → exec .stateUpdateSendingData s = .next t) ∧
      (s.row.toNat + r ≠ s.cfg.height →
        t.trace = s.trace ++ sent ∧ t.row.toNat = s.row.toNat + r ∧ t = { s.withWire t with row := t.row, col := 0 }) ∧
      (s.row.toNat + r = s.cfg.height → s.tgt = false →
        t.trace = s.trace ++ sent ++ tableEvents (s.cfg.table .secondaryPrepareSeq) ∧
        t = { s.withRun t with row := 0, col := 0, tgt := true }) ∧
      (s.row.toNat + r = s.cfg.height → s.tgt = true →
        t.trace = s.trace ++ sent ∧ t.row.toNat = s.cfg.height ∧
        t = { (s.entered .updateRefresh).withWire t with row := t.row, col := 0 })

/-- R181: every tick of a transfer that has something left advances the cursor, and never past the image; no address outside
the framebuffer is read. -/
def Obligations.TransferProgress : Prop :=
  ∀ s t : State, s.cfg.valid = true → exec .stateUpdateSendingData s = .next t →
    (s.cfg.targets = 1 → s.idx.toNat < s.cfg.fbLen → s.idx.toNat < t.idx.toNat ∧ t.idx.toNat ≤ s.cfg.fbLen) ∧
    (s.cfg.targets = 2 → s.row.toNat < s.cfg.height →
      s.tgt.toNat * s.cfg.height + s.row.toNat < t.tgt.toNat * s.cfg.height + t.row.toNat ∧
      t.tgt.toNat * s.cfg.height + t.row.toNat ≤ 2 * s.cfg.height) ∧
    (∀ (tgt : Bool) (v c : Nat), v < s.cfg.height → c < (s.cfg.columns tgt).2 →
      v * s.cfg.rowBytes + c < s.cfg.fbLen)

/-- R175: a whole single-controller transfer, tick by tick. -/
def Obligations.WholeSingleTransfer : Prop :=
  ∀ s : State, s.cfg.valid = true → s.cfg.targets = 1 → s.st = .updateSendingData → s.idx = 0 →
    let n := (s.cfg.fbLen + s.cfg.chunkBytes - 1) / s.cfg.chunkBytes
    (fbBytes s 0 s.cfg.fbLen).length = s.cfg.fbLen ∧
    (∃ t, sendTicks n s = .next t ∧ t.trace = s.trace ++ dataEvents (fbBytes s 0 s.cfg.fbLen) ∧ t.st = .updateRefresh) ∧
    ∀ k, k < n → ∃ t, sendTicks k s = .next t ∧ t.st = .updateSendingData ∧
      t.trace = s.trace ++ dataEvents (fbBytes s 0 (k * s.cfg.chunkBytes))

/-- R179, R177: a whole cascade transfer: the primary's window, the switch table, the secondary's window. -/
def Obligations.WholeCascadeTransfer : Prop :=
  ∀ s : State, s.cfg.valid = true → s.cfg.targets = 2 → s.st = .updateSendingData → s.row = 0 → s.tgt = false →
    let n := 2 * ((s.cfg.height + s.cfg.chunkRows - 1) / s.cfg.chunkRows)
    (windowBytes s false 0 s.cfg.height).length = s.cfg.height * s.cfg.primaryEnd ∧
    (windowBytes s true 0 s.cfg.height).length = s.cfg.height * (s.cfg.rowBytes - s.cfg.secondaryBegin) ∧
    (s.cfg.rowBytes % 2 = 1 → s.cfg.secondaryBegin + 1 = s.cfg.primaryEnd) ∧
    (s.cfg.rowBytes % 2 = 0 → s.cfg.secondaryBegin = s.cfg.primaryEnd) ∧
    (∃ t, sendTicks n s = .next t ∧ t.st = .updateRefresh ∧
      t.trace = s.trace ++ dataEvents (windowBytes s false 0 s.cfg.height)
        ++ tableEvents (s.cfg.table .secondaryPrepareSeq) ++ dataEvents (windowBytes s true 0 s.cfg.height)) ∧
    ∀ k, k < n → ∃ t, sendTicks k s = .next t ∧ t.st = .updateSendingData

/-! ### The host's strobes (43_display_controller.md) -/

/-- R133: a tick is accepted while `ready = 1` and completes, whatever the state of the controller; a tick while `ready = 0`
changes nothing. At a clock edge the acceptance writes `ready <- 0`, and `ready <- 1` is the edge after the last action. -/
def Obligations.TickAcceptance : Prop :=
  ∀ s : State,
    (s.ready = false → exec .hostTick s = .next s) ∧
    (s.cfg.valid = true → s.ready = true → s.work = [] →
      (s.cfg.targets = 1 → s.idx.toNat ≤ s.cfg.fbLen) → (s.cfg.targets = 2 → s.row.toNat ≤ s.cfg.height) →
      ∃ i t, decodeState s.st.code = .ok i ∧ exec i { s with ready := false } = .next t ∧
        exec .hostTick s = .next (if t.work = [] then { t with ready := true } else t)) ∧
    (∀ (p : Ports) (n : Nat) (t : State), clockEdge p n s = .next t →
      (s.ready = true → p.hiv.getLsbD 0 = true → t.ready = false ∧ t.work = [.action]) ∧
      (s.ready = false → (t.ready = true ↔ s.encBusy = false ∧ s.work = [])))

/-- R160, R161, R147: the request strobes set their flags in any state, and a second request changes nothing; `draw_done`
closes an open drawing window and does nothing otherwise. -/
def Obligations.StrobesSetFlags : Prop :=
  ∀ s : State,
    exec .hostRequestUpdate s = .next { s with pending := true } ∧
    exec .hostSleepRequest s = .next { s with sleepPending := true } ∧
    (s.pending = true → exec .hostRequestUpdate s = .next s) ∧
    (s.sleepPending = true → exec .hostSleepRequest s = .next s) ∧
    (s.drawReq = true → exec .hostDrawDone s = .next { s with drawReq := false }) ∧
    (s.drawReq = false → exec .hostDrawDone s = .next s)

/-- R162: no request is lost. At a clock edge a request's flag is set whatever the edge clears; a flag that is set stays until
IDLE takes it; at the transaction level the same but that the edge's own tick may take it. -/
def Obligations.RequestsNeverLost : Prop :=
  ∀ (s t : State) (p : Ports) (rest : List Input), s.controlOk = true → step s = .next t →
    (∀ n, s.inputs = .clock p n :: rest →
      (p.hiv.getLsbD 1 = true → t.pending = true) ∧
      (p.hiv.getLsbD 2 = true → t.sleepPending = true) ∧
      (s.pending = true → t.pending = true ∨ s.st = .idle ∧ t.st = .updateStart) ∧
      (s.sleepPending = true → t.sleepPending = true ∨ s.st = .idle ∧ t.st = .deepSleep)) ∧
    (∀ d, s.inputs = .edge p d :: rest →
      (p.hiv.getLsbD 1 = true ∨ s.pending = true →
        t.pending = true ∨ s.st = .idle ∧ t.st = .updateStart ∧ t.updCnt = s.updCnt + 1) ∧
      (p.hiv.getLsbD 2 = true ∨ s.sleepPending = true →
        t.sleepPending = true ∨ s.st = .idle ∧ t.st = .deepSleep))

/-! ### Whole-machine rules -/

/-- The control of the block stays consistent in every step, and so does the place of everything in it: the interpreter's
pointer, the Transfer Cursor within the image (R181), the encoder's counters. -/
def Obligations.ControlConsistencyKept : Prop :=
  ∀ s t : State, s.controlOk = true → step s = .next t →
    t.controlOk = true ∧ (s.placesOk = true → t.placesOk = true ∧
      (t.cfg.targets = 1 → t.idx.toNat ≤ t.cfg.fbLen) ∧ (t.cfg.targets = 2 → t.row.toNat ≤ t.cfg.height))

/-- R155: a step makes at most one transition, one of the table's; only reset enters INIT_START otherwise. -/
def Obligations.StepFollowsTransitions : Prop :=
  ∀ s t : State, s.controlOk = true → step s = .next t →
    t.st = s.st ∨ transition s.cfg s.st t.st = true ∨ (t.st = .initStart ∧ ∃ fb, s.inputs.head? = some (.reset fb))

/-- The state after reset is safe, for every valid configuration. -/
def Obligations.ResetStateSafe : Prop :=
  (∀ c : Config, c.valid = true → (State.ofConfig c).safe) ∧ State.reset.safe

/-- R42, R50: no step writes the configuration or leaves the framebuffer's bounds and canonical form. -/
def Obligations.FramebufferFormKept : Prop :=
  ∀ s t : State, s.fbOk → step s = .next t → t.fbOk ∧ t.cfg = s.cfg

/-- R207, R139, R140: the panel's reset line is low only in INIT_WAIT_RESET_LOW; no frame is sent while it is, nor in any
state before INIT_SEND_COMMANDS, which is entered only after the pulse or where there is no reset pin. -/
def Obligations.NoFrameInResetPulse : Prop :=
  ∀ s t : State, s.controlOk = true → s.pulseOk → step s = .next t →
    t.pulseOk ∧
    (s.panelRst = false → t.trace.filter isBusEvent = s.trace.filter isBusEvent) ∧
    (s.st = .initStart ∨ s.st = .initReset ∨ s.st = .initWaitReset ∨ s.st = .initWaitResetLow ∨
        s.st = .initWaitResetHigh → t.trace.filter isBusEvent = s.trace.filter isBusEvent) ∧
    (t.st = .initSendCommands → s.st ≠ .initSendCommands →
      s.st = .initWaitResetHigh ∨ s.st = .initReset ∧ s.cfg.hasResetPin = false)

/-- R154, R198: nothing but reset leaves DEEP_SLEEP; once its table has run, a step sends nothing, samples nothing and keeps
every register but the request flags and the tick's own acceptance. -/
def Obligations.DeepSleepKept : Prop :=
  ∀ s t : State, s.controlOk = true → s.st = .deepSleep → step s = .next t →
    (∀ fb, s.inputs.head? ≠ some (.reset fb)) →
    t.st = .deepSleep ∧ t.tEntry = s.tEntry ∧ t.fb = s.fb ∧
    (s.sleepDone = true → s.work = [] ∨ s.work = [.action] →
      (t.work = [] ∨ t.work = [.action]) ∧
      t = { s with
        pending := t.pending, sleepPending := t.sleepPending, ready := t.ready, work := t.work
        now := t.now, busyIn := t.busyIn, lapses := t.lapses, window := t.window
        inputs := t.inputs, wave := t.wave })

/-- R59, R172: outside UPDATE_START no step but a reset writes the framebuffer. -/
def Obligations.FramebufferWrittenInUpdateStart : Prop :=
  ∀ s t : State, s.controlOk = true → s.st ≠ .updateStart → step s = .next t →
    (∀ fb, s.inputs.head? ≠ some (.reset fb)) → t.fb = s.fb

/-- R21: the cycle level refines the transaction level, edge by edge. A clock edge without strobes, inside a frame or outside,
with any number of control actions, leaves what the rest of the tick comes to at the time of the edge, when the rest is
carried out at once, as it was but for the recorded levels; a clock edge that accepts a tick leaves what HOST_TICK does. -/
def Obligations.ControlActionRefines : Prop :=
  ∀ (s t : State) (p : Ports) (n : Nat), s.cfg.valid = true → s.controlOk = true → s.placesOk = true →
    clockEdge p n s = .next t →
    let sampled : State :=
      { s with now := p.nowMs, busyIn := p.busyIn, lapses := [], window := none, wave := s.wave ++ [t.levels] }
    (p.hiv = 0 → drain t = drain sampled) ∧
    (p.hiv = 1 → s.ready = true → drain t = exec .hostTick sampled)

/-- R44: the reset values the spec gives, after a rising edge with `rst = 1` in any state, and in the state the block is built
in; what the output ports show then (R42), and the entry the edge adds to the trace of levels (R30, R202). (`col` and the model's own fields are log entries 18 and 24 and are not stated.) -/
def Obligations.ResetValues : Prop :=
  ∀ (s : State) (fb : List Byte) (rest : List Input), s.cfg.valid = true → s.inputs = .reset fb :: rest →
    ∃ t, step s = .next t ∧ t.cfg = s.cfg ∧
      t.wave = s.wave ++ [{ sclk := false, sdin := false, csN := true, dc := false, panelRst := true }] ∧
      ∀ u, u = t ∨ u = State.ofConfig s.cfg →
        u.st = .initStart ∧ u.st.code = 0x00 ∧ u.tEntry = 0 ∧ u.updCnt = 0 ∧ u.pending = false ∧
        u.sleepPending = false ∧ u.isFull = false ∧ u.sleepDone = false ∧ u.idx = 0 ∧ u.row = 0 ∧ u.tgt = false ∧
        u.drawReq = false ∧ u.ready = true ∧ u.sclk = false ∧ u.sdin = false ∧ u.dc = false ∧ u.csN = true ∧
        u.panelRst = true ∧ u.encBusy = false ∧ u.encStep = 0 ∧ u.encByte = 0 ∧ u.encMode = false ∧ u.encHold = 0 ∧
        seqSelCode u.seqSel = 0 ∧ u.seqPtr = 0 ∧ u.seqLeft = 0 ∧ u.waitT0 = 0 ∧ u.waitD = 0 ∧
        u.outputs =
          { sclk := false, sdin := false, csN := true, dc := false
            panelRst := if s.cfg.hasResetPin then some true else none
            ready := true, drawReq := false, stOut := 0x00, updCntOut := 0, isFullOut := false, tgtOut := false }
end

