-- ==== Sys2Proof/Laws/Config.lean ====
section
/-! SUPPORT. The configuration checks and what they say of the derived quantities. -/

namespace Sys2Proof

/-- No condition of R188 is broken exactly where the configuration is valid. -/
theorem Config.check_eq_none (c : Config) : c.check = none ↔ c.valid = true := by
  unfold Config.check Config.valid
  cases c.geometryOk <;> cases c.targetsOk <;> cases c.cadenceOk <;> cases c.chunkOk <;> cases c.tablesOk <;>
    cases c.levelsOk <;> cases c.encoderOk <;> simp

/-- A valid configuration passes each check. -/
theorem Config.valid_iff (c : Config) :
    c.valid = true ↔ c.geometryOk = true ∧ c.targetsOk = true ∧ c.cadenceOk = true ∧ c.chunkOk = true ∧
      c.tablesOk = true ∧ c.levelsOk = true ∧ c.encoderOk = true := by
  simp [Config.valid, and_assoc]

/-- The panel's dimensions are in range and its width is whole bytes (00_scope.md R5). -/
theorem Config.geometry_of_ok {c : Config} (h : c.geometryOk = true) :
    1 ≤ c.width ∧ c.width ≤ 32767 ∧ 1 ≤ c.height ∧ c.height ≤ 32767 ∧ c.width % 8 = 0 := by
  simpa [Config.geometryOk] using h

/-- A row has `W / 8` bytes, eight pixels each (44_data_transfer.md R171). -/
theorem Config.width_eq {c : Config} (h : c.geometryOk = true) : c.width = 8 * c.rowBytes := by
  have := (Config.geometry_of_ok h).2.2.2.2
  unfold Config.rowBytes
  omega

/-- `L = WB * H` (44_data_transfer.md R171). -/
theorem Config.fbLen_eq {c : Config} (h : c.geometryOk = true) : c.fbLen = c.rowBytes * c.height := by
  have hw := Config.width_eq h
  unfold Config.fbLen
  rw [hw, Nat.mul_assoc, Nat.mul_div_cancel_left _ (by decide)]

/-- A row has between 1 and 4095 bytes. -/
theorem Config.rowBytes_range {c : Config} (h : c.geometryOk = true) : 1 ≤ c.rowBytes ∧ c.rowBytes ≤ 4095 := by
  have hg := Config.geometry_of_ok h
  have hw := Config.width_eq h
  omega

/-- The framebuffer's length fits the 32-bit cursor. -/
theorem Config.fbLen_lt {c : Config} (h : c.geometryOk = true) : c.fbLen < 2 ^ 32 := by
  have hg := Config.geometry_of_ok h
  have hr := Config.rowBytes_range h
  rw [Config.fbLen_eq h]
  calc c.rowBytes * c.height ≤ 4095 * 32767 := Nat.mul_le_mul hr.2 hg.2.2.2.1
    _ < 2 ^ 32 := by decide

/-- The framebuffer has a byte. -/
theorem Config.fbLen_pos {c : Config} (h : c.geometryOk = true) : 0 < c.fbLen := by
  have hg := Config.geometry_of_ok h
  have hr := Config.rowBytes_range h
  rw [Config.fbLen_eq h]
  exact Nat.mul_pos hr.1 hg.2.2.1

/-- Both windows lie in the row and hold a column (44_data_transfer.md R176). -/
theorem Config.columns_range {c : Config} (h : c.geometryOk = true) (tgt : Bool) :
    (c.columns tgt).1 < (c.columns tgt).2 ∧ (c.columns tgt).2 ≤ c.rowBytes := by
  have hr := Config.rowBytes_range h
  cases tgt <;> simp [Config.columns, Config.primaryEnd, Config.secondaryBegin] <;> omega

end Sys2Proof
end

