-- ==== Sys2Proof/Laws/Decode.lean ====
section
/-! SUPPORT. What the decoder reads at a step position, and the walk of a well-formed table. -/

namespace Sys2Proof

/-! ### The count byte -/

theorem cntArgs_le (k : Byte) : cntArgs k ≤ 127 := by
  have : (k.extractLsb' 0 7).toNat < 2 ^ 7 := (k.extractLsb' 0 7).isLt
  unfold cntArgs
  omega

/-- A count byte is made of its two fields (30_encoding.md R73). -/
theorem countByte_fields (k : Byte) : countByte (cntDelay k) (cntArgs k) = k := by
  revert k
  decide

theorem cntDelay_countByte (d : Bool) (n : Nat) : cntDelay (countByte d n) = d := by
  unfold cntDelay countByte
  rw [BitVec.getLsbD_append]
  cases d <;> rfl

theorem cntArgs_countByte (d : Bool) {n : Nat} (h : n ≤ 127) : cntArgs (countByte d n) = n := by
  have : (countByte d n).extractLsb' 0 7 = BitVec.ofNat 7 n := by
    ext i hi
    rw [BitVec.getElem_extractLsb', Nat.zero_add, countByte, BitVec.getLsbD_append, if_pos hi, BitVec.getLsbD_eq_getElem hi]
  rw [cntArgs, this, BitVec.toNat_ofNat]
  omega

/-! ### One step position -/

theorem takeArgs_some {n : Nat} {bytes args after : List Byte} :
    takeArgs n bytes = some (args, after) ↔ args.length = n ∧ bytes = args ++ after := by
  unfold takeArgs
  split
  · simp only [reduceCtorEq, false_iff, not_and]
    rintro h rfl
    simp at *
    omega
  · simp only [Option.some.injEq, Prod.mk.injEq]
    constructor
    · rintro ⟨rfl, rfl⟩
      exact ⟨by simp; omega, (List.take_append_drop n bytes).symm⟩
    · rintro ⟨rfl, rfl⟩
      simp

/-- What a decoded step position says of the bytes: they are the step's, then the rest; the step is well formed. -/
theorem decodeSeq_ok {bytes rest : List Byte} {op : SeqOp} (h : decodeSeq bytes = .ok (op, rest)) :
    bytes = op.bytes ++ rest ∧ op.instr.wf = true := by
  unfold decodeSeq at h
  split at h
  · rename_i c k tail
    split at h
    · rename_i hc
      split at h
      · rename_i hk
        cases h
        exact ⟨by simp [SeqOp.bytes, hc, hk], rfl⟩
      · rename_i hk
        cases h
        exact ⟨by simp [SeqOp.bytes, hc], by simpa [SeqOp.instr, Instr.wf] using hk⟩
    · rename_i hc
      have hc' : c ≠ 255#8 := hc
      split at h
      · rename_i hd
        split at h
        · rename_i d tail'
          split at h
          · rename_i args after ha
            cases h
            obtain ⟨hl, rfl⟩ := takeArgs_some.1 ha
            refine ⟨?_, ?_⟩
            · have : countByte true args.length = k := by rw [← hd, hl, countByte_fields]
              simp [SeqOp.bytes, stepDelayBytes, this]
            · have := cntArgs_le k
              simp [SeqOp.instr, Instr.wf, hc', hl, this]
          · cases h
        · cases h
      · rename_i hd
        split at h
        · rename_i args after ha
          cases h
          obtain ⟨hl, rfl⟩ := takeArgs_some.1 ha
          refine ⟨?_, ?_⟩
          · have hd' : cntDelay k = false := by simpa using hd
            have : countByte false args.length = k := by rw [← hd', hl, countByte_fields]
            simp [SeqOp.bytes, stepBytes, this]
          · have := cntArgs_le k
            simp [SeqOp.instr, Instr.wf, hc', hl, this]
        · cases h
  · cases h

/-- A step's length is `2 + D + N`, at least 2 (30_encoding.md R75). -/
theorem SeqOp.length_bytes (op : SeqOp) : op.bytes.length = Machine.opLen op := by
  cases op
  · rfl
  · rfl
  · simp only [SeqOp.bytes, Machine.opLen, stepBytes, List.length_cons]
    omega
  · simp only [SeqOp.bytes, Machine.opLen, stepDelayBytes, List.length_cons]
    omega

theorem two_le_opLen (op : SeqOp) : 2 ≤ Machine.opLen op := by
  cases op
  · exact Nat.le_refl 2
  · exact Nat.le_refl 2
  · exact Nat.le_add_right 2 _
  · exact Nat.le_trans (by decide : 2 ≤ 3) (Nat.le_add_right 3 _)

/-! ### The walk -/

/-- A well-formed walk decodes: the end marker, or a step and a well-formed rest (42_sequence_interpreter.md R127). -/
theorem wfWalk_decode {n : Nat} {bytes : List Byte} (h : wfWalk (n + 1) bytes = true) :
    (∃ rest, decodeSeq bytes = .ok (.finish, rest)) ∨
      (∃ cmd args rest, decodeSeq bytes = .ok (.step cmd args, rest) ∧ wfWalk n rest = true) ∨
      (∃ cmd dly args rest, decodeSeq bytes = .ok (.stepDelay cmd dly args, rest) ∧ wfWalk n rest = true) := by
  unfold wfWalk at h
  split at h
  · rename_i c k tail
    split at h
    · rename_i hc
      have hk : k = 0xFF := by simpa using h
      exact .inl ⟨tail, by simp [decodeSeq, hc, hk]⟩
    · rename_i hc
      have hc' : c ≠ 255#8 := hc
      split at h
      · cases h
      · rename_i hlen
        cases hd : cntDelay k with
        | false =>
          simp only [hd, Bool.toNat_false, Nat.zero_add, Nat.not_lt] at hlen h
          refine .inr (.inl ⟨c, tail.take (cntArgs k), tail.drop (cntArgs k), ?_, h⟩)
          have ht : takeArgs (cntArgs k) tail = some (tail.take (cntArgs k), tail.drop (cntArgs k)) :=
            takeArgs_some.2 ⟨by simpa using hlen, (List.take_append_drop _ _).symm⟩
          simp [decodeSeq, hc', hd, ht]
        | true =>
          simp only [hd, Bool.toNat_true, Nat.not_lt] at hlen h
          cases tail with
          | nil => simp at hlen
          | cons d tail' =>
            refine .inr (.inr ⟨c, d, tail'.take (cntArgs k), tail'.drop (cntArgs k), ?_, ?_⟩)
            · have ht : takeArgs (cntArgs k) tail' = some (tail'.take (cntArgs k), tail'.drop (cntArgs k)) :=
                takeArgs_some.2 ⟨by simp at hlen ⊢; omega, (List.take_append_drop _ _).symm⟩
              simp [decodeSeq, hc', hd, ht]
            · rw [Nat.add_comm, List.drop_succ_cons] at h
              exact h
  · cases h

end Sys2Proof
end

