-- ==== Sys2Proof/Laws/State.lean ====
section
/-! SUPPORT. One lemma for each field and each update of the state, true by rfl: what the update makes of the field. -/

namespace Sys2Proof.Machine

/-! ### `State.emit` -/

@[simp] theorem State.emit_cfg (s : State) (e : TraceEvent) : (s.emit e).cfg = s.cfg := rfl
@[simp] theorem State.emit_st (s : State) (e : TraceEvent) : (s.emit e).st = s.st := rfl
@[simp] theorem State.emit_tEntry (s : State) (e : TraceEvent) : (s.emit e).tEntry = s.tEntry := rfl
@[simp] theorem State.emit_updCnt (s : State) (e : TraceEvent) : (s.emit e).updCnt = s.updCnt := rfl
@[simp] theorem State.emit_pending (s : State) (e : TraceEvent) : (s.emit e).pending = s.pending := rfl
@[simp] theorem State.emit_sleepPending (s : State) (e : TraceEvent) : (s.emit e).sleepPending = s.sleepPending := rfl
@[simp] theorem State.emit_isFull (s : State) (e : TraceEvent) : (s.emit e).isFull = s.isFull := rfl
@[simp] theorem State.emit_sleepDone (s : State) (e : TraceEvent) : (s.emit e).sleepDone = s.sleepDone := rfl
@[simp] theorem State.emit_idx (s : State) (e : TraceEvent) : (s.emit e).idx = s.idx := rfl
@[simp] theorem State.emit_row (s : State) (e : TraceEvent) : (s.emit e).row = s.row := rfl
@[simp] theorem State.emit_tgt (s : State) (e : TraceEvent) : (s.emit e).tgt = s.tgt := rfl
@[simp] theorem State.emit_col (s : State) (e : TraceEvent) : (s.emit e).col = s.col := rfl
@[simp] theorem State.emit_drawReq (s : State) (e : TraceEvent) : (s.emit e).drawReq = s.drawReq := rfl
@[simp] theorem State.emit_ready (s : State) (e : TraceEvent) : (s.emit e).ready = s.ready := rfl
@[simp] theorem State.emit_sclk (s : State) (e : TraceEvent) : (s.emit e).sclk = s.sclk := rfl
@[simp] theorem State.emit_sdin (s : State) (e : TraceEvent) : (s.emit e).sdin = s.sdin := rfl
@[simp] theorem State.emit_csN (s : State) (e : TraceEvent) : (s.emit e).csN = s.csN := rfl
@[simp] theorem State.emit_dc (s : State) (e : TraceEvent) : (s.emit e).dc = s.dc := rfl
@[simp] theorem State.emit_panelRst (s : State) (e : TraceEvent) : (s.emit e).panelRst = s.panelRst := rfl
@[simp] theorem State.emit_encBusy (s : State) (e : TraceEvent) : (s.emit e).encBusy = s.encBusy := rfl
@[simp] theorem State.emit_encStep (s : State) (e : TraceEvent) : (s.emit e).encStep = s.encStep := rfl
@[simp] theorem State.emit_encByte (s : State) (e : TraceEvent) : (s.emit e).encByte = s.encByte := rfl
@[simp] theorem State.emit_encMode (s : State) (e : TraceEvent) : (s.emit e).encMode = s.encMode := rfl
@[simp] theorem State.emit_encHold (s : State) (e : TraceEvent) : (s.emit e).encHold = s.encHold := rfl
@[simp] theorem State.emit_seqSel (s : State) (e : TraceEvent) : (s.emit e).seqSel = s.seqSel := rfl
@[simp] theorem State.emit_seqPtr (s : State) (e : TraceEvent) : (s.emit e).seqPtr = s.seqPtr := rfl
@[simp] theorem State.emit_seqLeft (s : State) (e : TraceEvent) : (s.emit e).seqLeft = s.seqLeft := rfl
@[simp] theorem State.emit_waitT0 (s : State) (e : TraceEvent) : (s.emit e).waitT0 = s.waitT0 := rfl
@[simp] theorem State.emit_waitD (s : State) (e : TraceEvent) : (s.emit e).waitD = s.waitD := rfl
@[simp] theorem State.emit_fb (s : State) (e : TraceEvent) : (s.emit e).fb = s.fb := rfl
@[simp] theorem State.emit_trace (s : State) (e : TraceEvent) : (s.emit e).trace = s.trace ++ [e] := rfl
@[simp] theorem State.emit_wave (s : State) (e : TraceEvent) : (s.emit e).wave = s.wave := rfl
@[simp] theorem State.emit_now (s : State) (e : TraceEvent) : (s.emit e).now = s.now := rfl
@[simp] theorem State.emit_busyIn (s : State) (e : TraceEvent) : (s.emit e).busyIn = s.busyIn := rfl
@[simp] theorem State.emit_lapses (s : State) (e : TraceEvent) : (s.emit e).lapses = s.lapses := rfl
@[simp] theorem State.emit_window (s : State) (e : TraceEvent) : (s.emit e).window = s.window := rfl
@[simp] theorem State.emit_work (s : State) (e : TraceEvent) : (s.emit e).work = s.work := rfl
@[simp] theorem State.emit_inputs (s : State) (e : TraceEvent) : (s.emit e).inputs = s.inputs := rfl

/-! ### `State.setPending` -/

@[simp] theorem State.setPending_cfg (s : State) (v : Bool) : (s.setPending v).cfg = s.cfg := rfl
@[simp] theorem State.setPending_st (s : State) (v : Bool) : (s.setPending v).st = s.st := rfl
@[simp] theorem State.setPending_tEntry (s : State) (v : Bool) : (s.setPending v).tEntry = s.tEntry := rfl
@[simp] theorem State.setPending_updCnt (s : State) (v : Bool) : (s.setPending v).updCnt = s.updCnt := rfl
@[simp] theorem State.setPending_pending (s : State) (v : Bool) : (s.setPending v).pending = v := rfl
@[simp] theorem State.setPending_sleepPending (s : State) (v : Bool) : (s.setPending v).sleepPending = s.sleepPending := rfl
@[simp] theorem State.setPending_isFull (s : State) (v : Bool) : (s.setPending v).isFull = s.isFull := rfl
@[simp] theorem State.setPending_sleepDone (s : State) (v : Bool) : (s.setPending v).sleepDone = s.sleepDone := rfl
@[simp] theorem State.setPending_idx (s : State) (v : Bool) : (s.setPending v).idx = s.idx := rfl
@[simp] theorem State.setPending_row (s : State) (v : Bool) : (s.setPending v).row = s.row := rfl
@[simp] theorem State.setPending_tgt (s : State) (v : Bool) : (s.setPending v).tgt = s.tgt := rfl
@[simp] theorem State.setPending_col (s : State) (v : Bool) : (s.setPending v).col = s.col := rfl
@[simp] theorem State.setPending_drawReq (s : State) (v : Bool) : (s.setPending v).drawReq = s.drawReq := rfl
@[simp] theorem State.setPending_ready (s : State) (v : Bool) : (s.setPending v).ready = s.ready := rfl
@[simp] theorem State.setPending_sclk (s : State) (v : Bool) : (s.setPending v).sclk = s.sclk := rfl
@[simp] theorem State.setPending_sdin (s : State) (v : Bool) : (s.setPending v).sdin = s.sdin := rfl
@[simp] theorem State.setPending_csN (s : State) (v : Bool) : (s.setPending v).csN = s.csN := rfl
@[simp] theorem State.setPending_dc (s : State) (v : Bool) : (s.setPending v).dc = s.dc := rfl
@[simp] theorem State.setPending_panelRst (s : State) (v : Bool) : (s.setPending v).panelRst = s.panelRst := rfl
@[simp] theorem State.setPending_encBusy (s : State) (v : Bool) : (s.setPending v).encBusy = s.encBusy := rfl
@[simp] theorem State.setPending_encStep (s : State) (v : Bool) : (s.setPending v).encStep = s.encStep := rfl
@[simp] theorem State.setPending_encByte (s : State) (v : Bool) : (s.setPending v).encByte = s.encByte := rfl
@[simp] theorem State.setPending_encMode (s : State) (v : Bool) : (s.setPending v).encMode = s.encMode := rfl
@[simp] theorem State.setPending_encHold (s : State) (v : Bool) : (s.setPending v).encHold = s.encHold := rfl
@[simp] theorem State.setPending_seqSel (s : State) (v : Bool) : (s.setPending v).seqSel = s.seqSel := rfl
@[simp] theorem State.setPending_seqPtr (s : State) (v : Bool) : (s.setPending v).seqPtr = s.seqPtr := rfl
@[simp] theorem State.setPending_seqLeft (s : State) (v : Bool) : (s.setPending v).seqLeft = s.seqLeft := rfl
@[simp] theorem State.setPending_waitT0 (s : State) (v : Bool) : (s.setPending v).waitT0 = s.waitT0 := rfl
@[simp] theorem State.setPending_waitD (s : State) (v : Bool) : (s.setPending v).waitD = s.waitD := rfl
@[simp] theorem State.setPending_fb (s : State) (v : Bool) : (s.setPending v).fb = s.fb := rfl
@[simp] theorem State.setPending_trace (s : State) (v : Bool) : (s.setPending v).trace = s.trace := rfl
@[simp] theorem State.setPending_wave (s : State) (v : Bool) : (s.setPending v).wave = s.wave := rfl
@[simp] theorem State.setPending_now (s : State) (v : Bool) : (s.setPending v).now = s.now := rfl
@[simp] theorem State.setPending_busyIn (s : State) (v : Bool) : (s.setPending v).busyIn = s.busyIn := rfl
@[simp] theorem State.setPending_lapses (s : State) (v : Bool) : (s.setPending v).lapses = s.lapses := rfl
@[simp] theorem State.setPending_window (s : State) (v : Bool) : (s.setPending v).window = s.window := rfl
@[simp] theorem State.setPending_work (s : State) (v : Bool) : (s.setPending v).work = s.work := rfl
@[simp] theorem State.setPending_inputs (s : State) (v : Bool) : (s.setPending v).inputs = s.inputs := rfl

/-! ### `State.setSleepPending` -/

@[simp] theorem State.setSleepPending_cfg (s : State) (v : Bool) : (s.setSleepPending v).cfg = s.cfg := rfl
@[simp] theorem State.setSleepPending_st (s : State) (v : Bool) : (s.setSleepPending v).st = s.st := rfl
@[simp] theorem State.setSleepPending_tEntry (s : State) (v : Bool) : (s.setSleepPending v).tEntry = s.tEntry := rfl
@[simp] theorem State.setSleepPending_updCnt (s : State) (v : Bool) : (s.setSleepPending v).updCnt = s.updCnt := rfl
@[simp] theorem State.setSleepPending_pending (s : State) (v : Bool) : (s.setSleepPending v).pending = s.pending := rfl
@[simp] theorem State.setSleepPending_sleepPending (s : State) (v : Bool) : (s.setSleepPending v).sleepPending = v := rfl
@[simp] theorem State.setSleepPending_isFull (s : State) (v : Bool) : (s.setSleepPending v).isFull = s.isFull := rfl
@[simp] theorem State.setSleepPending_sleepDone (s : State) (v : Bool) : (s.setSleepPending v).sleepDone = s.sleepDone := rfl
@[simp] theorem State.setSleepPending_idx (s : State) (v : Bool) : (s.setSleepPending v).idx = s.idx := rfl
@[simp] theorem State.setSleepPending_row (s : State) (v : Bool) : (s.setSleepPending v).row = s.row := rfl
@[simp] theorem State.setSleepPending_tgt (s : State) (v : Bool) : (s.setSleepPending v).tgt = s.tgt := rfl
@[simp] theorem State.setSleepPending_col (s : State) (v : Bool) : (s.setSleepPending v).col = s.col := rfl
@[simp] theorem State.setSleepPending_drawReq (s : State) (v : Bool) : (s.setSleepPending v).drawReq = s.drawReq := rfl
@[simp] theorem State.setSleepPending_ready (s : State) (v : Bool) : (s.setSleepPending v).ready = s.ready := rfl
@[simp] theorem State.setSleepPending_sclk (s : State) (v : Bool) : (s.setSleepPending v).sclk = s.sclk := rfl
@[simp] theorem State.setSleepPending_sdin (s : State) (v : Bool) : (s.setSleepPending v).sdin = s.sdin := rfl
@[simp] theorem State.setSleepPending_csN (s : State) (v : Bool) : (s.setSleepPending v).csN = s.csN := rfl
@[simp] theorem State.setSleepPending_dc (s : State) (v : Bool) : (s.setSleepPending v).dc = s.dc := rfl
@[simp] theorem State.setSleepPending_panelRst (s : State) (v : Bool) : (s.setSleepPending v).panelRst = s.panelRst := rfl
@[simp] theorem State.setSleepPending_encBusy (s : State) (v : Bool) : (s.setSleepPending v).encBusy = s.encBusy := rfl
@[simp] theorem State.setSleepPending_encStep (s : State) (v : Bool) : (s.setSleepPending v).encStep = s.encStep := rfl
@[simp] theorem State.setSleepPending_encByte (s : State) (v : Bool) : (s.setSleepPending v).encByte = s.encByte := rfl
@[simp] theorem State.setSleepPending_encMode (s : State) (v : Bool) : (s.setSleepPending v).encMode = s.encMode := rfl
@[simp] theorem State.setSleepPending_encHold (s : State) (v : Bool) : (s.setSleepPending v).encHold = s.encHold := rfl
@[simp] theorem State.setSleepPending_seqSel (s : State) (v : Bool) : (s.setSleepPending v).seqSel = s.seqSel := rfl
@[simp] theorem State.setSleepPending_seqPtr (s : State) (v : Bool) : (s.setSleepPending v).seqPtr = s.seqPtr := rfl
@[simp] theorem State.setSleepPending_seqLeft (s : State) (v : Bool) : (s.setSleepPending v).seqLeft = s.seqLeft := rfl
@[simp] theorem State.setSleepPending_waitT0 (s : State) (v : Bool) : (s.setSleepPending v).waitT0 = s.waitT0 := rfl
@[simp] theorem State.setSleepPending_waitD (s : State) (v : Bool) : (s.setSleepPending v).waitD = s.waitD := rfl
@[simp] theorem State.setSleepPending_fb (s : State) (v : Bool) : (s.setSleepPending v).fb = s.fb := rfl
@[simp] theorem State.setSleepPending_trace (s : State) (v : Bool) : (s.setSleepPending v).trace = s.trace := rfl
@[simp] theorem State.setSleepPending_wave (s : State) (v : Bool) : (s.setSleepPending v).wave = s.wave := rfl
@[simp] theorem State.setSleepPending_now (s : State) (v : Bool) : (s.setSleepPending v).now = s.now := rfl
@[simp] theorem State.setSleepPending_busyIn (s : State) (v : Bool) : (s.setSleepPending v).busyIn = s.busyIn := rfl
@[simp] theorem State.setSleepPending_lapses (s : State) (v : Bool) : (s.setSleepPending v).lapses = s.lapses := rfl
@[simp] theorem State.setSleepPending_window (s : State) (v : Bool) : (s.setSleepPending v).window = s.window := rfl
@[simp] theorem State.setSleepPending_work (s : State) (v : Bool) : (s.setSleepPending v).work = s.work := rfl
@[simp] theorem State.setSleepPending_inputs (s : State) (v : Bool) : (s.setSleepPending v).inputs = s.inputs := rfl

/-! ### `State.setIsFull` -/

@[simp] theorem State.setIsFull_cfg (s : State) (v : Bool) : (s.setIsFull v).cfg = s.cfg := rfl
@[simp] theorem State.setIsFull_st (s : State) (v : Bool) : (s.setIsFull v).st = s.st := rfl
@[simp] theorem State.setIsFull_tEntry (s : State) (v : Bool) : (s.setIsFull v).tEntry = s.tEntry := rfl
@[simp] theorem State.setIsFull_updCnt (s : State) (v : Bool) : (s.setIsFull v).updCnt = s.updCnt := rfl
@[simp] theorem State.setIsFull_pending (s : State) (v : Bool) : (s.setIsFull v).pending = s.pending := rfl
@[simp] theorem State.setIsFull_sleepPending (s : State) (v : Bool) : (s.setIsFull v).sleepPending = s.sleepPending := rfl
@[simp] theorem State.setIsFull_isFull (s : State) (v : Bool) : (s.setIsFull v).isFull = v := rfl
@[simp] theorem State.setIsFull_sleepDone (s : State) (v : Bool) : (s.setIsFull v).sleepDone = s.sleepDone := rfl
@[simp] theorem State.setIsFull_idx (s : State) (v : Bool) : (s.setIsFull v).idx = s.idx := rfl
@[simp] theorem State.setIsFull_row (s : State) (v : Bool) : (s.setIsFull v).row = s.row := rfl
@[simp] theorem State.setIsFull_tgt (s : State) (v : Bool) : (s.setIsFull v).tgt = s.tgt := rfl
@[simp] theorem State.setIsFull_col (s : State) (v : Bool) : (s.setIsFull v).col = s.col := rfl
@[simp] theorem State.setIsFull_drawReq (s : State) (v : Bool) : (s.setIsFull v).drawReq = s.drawReq := rfl
@[simp] theorem State.setIsFull_ready (s : State) (v : Bool) : (s.setIsFull v).ready = s.ready := rfl
@[simp] theorem State.setIsFull_sclk (s : State) (v : Bool) : (s.setIsFull v).sclk = s.sclk := rfl
@[simp] theorem State.setIsFull_sdin (s : State) (v : Bool) : (s.setIsFull v).sdin = s.sdin := rfl
@[simp] theorem State.setIsFull_csN (s : State) (v : Bool) : (s.setIsFull v).csN = s.csN := rfl
@[simp] theorem State.setIsFull_dc (s : State) (v : Bool) : (s.setIsFull v).dc = s.dc := rfl
@[simp] theorem State.setIsFull_panelRst (s : State) (v : Bool) : (s.setIsFull v).panelRst = s.panelRst := rfl
@[simp] theorem State.setIsFull_encBusy (s : State) (v : Bool) : (s.setIsFull v).encBusy = s.encBusy := rfl
@[simp] theorem State.setIsFull_encStep (s : State) (v : Bool) : (s.setIsFull v).encStep = s.encStep := rfl
@[simp] theorem State.setIsFull_encByte (s : State) (v : Bool) : (s.setIsFull v).encByte = s.encByte := rfl
@[simp] theorem State.setIsFull_encMode (s : State) (v : Bool) : (s.setIsFull v).encMode = s.encMode := rfl
@[simp] theorem State.setIsFull_encHold (s : State) (v : Bool) : (s.setIsFull v).encHold = s.encHold := rfl
@[simp] theorem State.setIsFull_seqSel (s : State) (v : Bool) : (s.setIsFull v).seqSel = s.seqSel := rfl
@[simp] theorem State.setIsFull_seqPtr (s : State) (v : Bool) : (s.setIsFull v).seqPtr = s.seqPtr := rfl
@[simp] theorem State.setIsFull_seqLeft (s : State) (v : Bool) : (s.setIsFull v).seqLeft = s.seqLeft := rfl
@[simp] theorem State.setIsFull_waitT0 (s : State) (v : Bool) : (s.setIsFull v).waitT0 = s.waitT0 := rfl
@[simp] theorem State.setIsFull_waitD (s : State) (v : Bool) : (s.setIsFull v).waitD = s.waitD := rfl
@[simp] theorem State.setIsFull_fb (s : State) (v : Bool) : (s.setIsFull v).fb = s.fb := rfl
@[simp] theorem State.setIsFull_trace (s : State) (v : Bool) : (s.setIsFull v).trace = s.trace := rfl
@[simp] theorem State.setIsFull_wave (s : State) (v : Bool) : (s.setIsFull v).wave = s.wave := rfl
@[simp] theorem State.setIsFull_now (s : State) (v : Bool) : (s.setIsFull v).now = s.now := rfl
@[simp] theorem State.setIsFull_busyIn (s : State) (v : Bool) : (s.setIsFull v).busyIn = s.busyIn := rfl
@[simp] theorem State.setIsFull_lapses (s : State) (v : Bool) : (s.setIsFull v).lapses = s.lapses := rfl
@[simp] theorem State.setIsFull_window (s : State) (v : Bool) : (s.setIsFull v).window = s.window := rfl
@[simp] theorem State.setIsFull_work (s : State) (v : Bool) : (s.setIsFull v).work = s.work := rfl
@[simp] theorem State.setIsFull_inputs (s : State) (v : Bool) : (s.setIsFull v).inputs = s.inputs := rfl

/-! ### `State.setSleepDone` -/

@[simp] theorem State.setSleepDone_cfg (s : State) (v : Bool) : (s.setSleepDone v).cfg = s.cfg := rfl
@[simp] theorem State.setSleepDone_st (s : State) (v : Bool) : (s.setSleepDone v).st = s.st := rfl
@[simp] theorem State.setSleepDone_tEntry (s : State) (v : Bool) : (s.setSleepDone v).tEntry = s.tEntry := rfl
@[simp] theorem State.setSleepDone_updCnt (s : State) (v : Bool) : (s.setSleepDone v).updCnt = s.updCnt := rfl
@[simp] theorem State.setSleepDone_pending (s : State) (v : Bool) : (s.setSleepDone v).pending = s.pending := rfl
@[simp] theorem State.setSleepDone_sleepPending (s : State) (v : Bool) : (s.setSleepDone v).sleepPending = s.sleepPending := rfl
@[simp] theorem State.setSleepDone_isFull (s : State) (v : Bool) : (s.setSleepDone v).isFull = s.isFull := rfl
@[simp] theorem State.setSleepDone_sleepDone (s : State) (v : Bool) : (s.setSleepDone v).sleepDone = v := rfl
@[simp] theorem State.setSleepDone_idx (s : State) (v : Bool) : (s.setSleepDone v).idx = s.idx := rfl
@[simp] theorem State.setSleepDone_row (s : State) (v : Bool) : (s.setSleepDone v).row = s.row := rfl
@[simp] theorem State.setSleepDone_tgt (s : State) (v : Bool) : (s.setSleepDone v).tgt = s.tgt := rfl
@[simp] theorem State.setSleepDone_col (s : State) (v : Bool) : (s.setSleepDone v).col = s.col := rfl
@[simp] theorem State.setSleepDone_drawReq (s : State) (v : Bool) : (s.setSleepDone v).drawReq = s.drawReq := rfl
@[simp] theorem State.setSleepDone_ready (s : State) (v : Bool) : (s.setSleepDone v).ready = s.ready := rfl
@[simp] theorem State.setSleepDone_sclk (s : State) (v : Bool) : (s.setSleepDone v).sclk = s.sclk := rfl
@[simp] theorem State.setSleepDone_sdin (s : State) (v : Bool) : (s.setSleepDone v).sdin = s.sdin := rfl
@[simp] theorem State.setSleepDone_csN (s : State) (v : Bool) : (s.setSleepDone v).csN = s.csN := rfl
@[simp] theorem State.setSleepDone_dc (s : State) (v : Bool) : (s.setSleepDone v).dc = s.dc := rfl
@[simp] theorem State.setSleepDone_panelRst (s : State) (v : Bool) : (s.setSleepDone v).panelRst = s.panelRst := rfl
@[simp] theorem State.setSleepDone_encBusy (s : State) (v : Bool) : (s.setSleepDone v).encBusy = s.encBusy := rfl
@[simp] theorem State.setSleepDone_encStep (s : State) (v : Bool) : (s.setSleepDone v).encStep = s.encStep := rfl
@[simp] theorem State.setSleepDone_encByte (s : State) (v : Bool) : (s.setSleepDone v).encByte = s.encByte := rfl
@[simp] theorem State.setSleepDone_encMode (s : State) (v : Bool) : (s.setSleepDone v).encMode = s.encMode := rfl
@[simp] theorem State.setSleepDone_encHold (s : State) (v : Bool) : (s.setSleepDone v).encHold = s.encHold := rfl
@[simp] theorem State.setSleepDone_seqSel (s : State) (v : Bool) : (s.setSleepDone v).seqSel = s.seqSel := rfl
@[simp] theorem State.setSleepDone_seqPtr (s : State) (v : Bool) : (s.setSleepDone v).seqPtr = s.seqPtr := rfl
@[simp] theorem State.setSleepDone_seqLeft (s : State) (v : Bool) : (s.setSleepDone v).seqLeft = s.seqLeft := rfl
@[simp] theorem State.setSleepDone_waitT0 (s : State) (v : Bool) : (s.setSleepDone v).waitT0 = s.waitT0 := rfl
@[simp] theorem State.setSleepDone_waitD (s : State) (v : Bool) : (s.setSleepDone v).waitD = s.waitD := rfl
@[simp] theorem State.setSleepDone_fb (s : State) (v : Bool) : (s.setSleepDone v).fb = s.fb := rfl
@[simp] theorem State.setSleepDone_trace (s : State) (v : Bool) : (s.setSleepDone v).trace = s.trace := rfl
@[simp] theorem State.setSleepDone_wave (s : State) (v : Bool) : (s.setSleepDone v).wave = s.wave := rfl
@[simp] theorem State.setSleepDone_now (s : State) (v : Bool) : (s.setSleepDone v).now = s.now := rfl
@[simp] theorem State.setSleepDone_busyIn (s : State) (v : Bool) : (s.setSleepDone v).busyIn = s.busyIn := rfl
@[simp] theorem State.setSleepDone_lapses (s : State) (v : Bool) : (s.setSleepDone v).lapses = s.lapses := rfl
@[simp] theorem State.setSleepDone_window (s : State) (v : Bool) : (s.setSleepDone v).window = s.window := rfl
@[simp] theorem State.setSleepDone_work (s : State) (v : Bool) : (s.setSleepDone v).work = s.work := rfl
@[simp] theorem State.setSleepDone_inputs (s : State) (v : Bool) : (s.setSleepDone v).inputs = s.inputs := rfl

/-! ### `State.setDrawReq` -/

@[simp] theorem State.setDrawReq_cfg (s : State) (v : Bool) : (s.setDrawReq v).cfg = s.cfg := rfl
@[simp] theorem State.setDrawReq_st (s : State) (v : Bool) : (s.setDrawReq v).st = s.st := rfl
@[simp] theorem State.setDrawReq_tEntry (s : State) (v : Bool) : (s.setDrawReq v).tEntry = s.tEntry := rfl
@[simp] theorem State.setDrawReq_updCnt (s : State) (v : Bool) : (s.setDrawReq v).updCnt = s.updCnt := rfl
@[simp] theorem State.setDrawReq_pending (s : State) (v : Bool) : (s.setDrawReq v).pending = s.pending := rfl
@[simp] theorem State.setDrawReq_sleepPending (s : State) (v : Bool) : (s.setDrawReq v).sleepPending = s.sleepPending := rfl
@[simp] theorem State.setDrawReq_isFull (s : State) (v : Bool) : (s.setDrawReq v).isFull = s.isFull := rfl
@[simp] theorem State.setDrawReq_sleepDone (s : State) (v : Bool) : (s.setDrawReq v).sleepDone = s.sleepDone := rfl
@[simp] theorem State.setDrawReq_idx (s : State) (v : Bool) : (s.setDrawReq v).idx = s.idx := rfl
@[simp] theorem State.setDrawReq_row (s : State) (v : Bool) : (s.setDrawReq v).row = s.row := rfl
@[simp] theorem State.setDrawReq_tgt (s : State) (v : Bool) : (s.setDrawReq v).tgt = s.tgt := rfl
@[simp] theorem State.setDrawReq_col (s : State) (v : Bool) : (s.setDrawReq v).col = s.col := rfl
@[simp] theorem State.setDrawReq_drawReq (s : State) (v : Bool) : (s.setDrawReq v).drawReq = v := rfl
@[simp] theorem State.setDrawReq_ready (s : State) (v : Bool) : (s.setDrawReq v).ready = s.ready := rfl
@[simp] theorem State.setDrawReq_sclk (s : State) (v : Bool) : (s.setDrawReq v).sclk = s.sclk := rfl
@[simp] theorem State.setDrawReq_sdin (s : State) (v : Bool) : (s.setDrawReq v).sdin = s.sdin := rfl
@[simp] theorem State.setDrawReq_csN (s : State) (v : Bool) : (s.setDrawReq v).csN = s.csN := rfl
@[simp] theorem State.setDrawReq_dc (s : State) (v : Bool) : (s.setDrawReq v).dc = s.dc := rfl
@[simp] theorem State.setDrawReq_panelRst (s : State) (v : Bool) : (s.setDrawReq v).panelRst = s.panelRst := rfl
@[simp] theorem State.setDrawReq_encBusy (s : State) (v : Bool) : (s.setDrawReq v).encBusy = s.encBusy := rfl
@[simp] theorem State.setDrawReq_encStep (s : State) (v : Bool) : (s.setDrawReq v).encStep = s.encStep := rfl
@[simp] theorem State.setDrawReq_encByte (s : State) (v : Bool) : (s.setDrawReq v).encByte = s.encByte := rfl
@[simp] theorem State.setDrawReq_encMode (s : State) (v : Bool) : (s.setDrawReq v).encMode = s.encMode := rfl
@[simp] theorem State.setDrawReq_encHold (s : State) (v : Bool) : (s.setDrawReq v).encHold = s.encHold := rfl
@[simp] theorem State.setDrawReq_seqSel (s : State) (v : Bool) : (s.setDrawReq v).seqSel = s.seqSel := rfl
@[simp] theorem State.setDrawReq_seqPtr (s : State) (v : Bool) : (s.setDrawReq v).seqPtr = s.seqPtr := rfl
@[simp] theorem State.setDrawReq_seqLeft (s : State) (v : Bool) : (s.setDrawReq v).seqLeft = s.seqLeft := rfl
@[simp] theorem State.setDrawReq_waitT0 (s : State) (v : Bool) : (s.setDrawReq v).waitT0 = s.waitT0 := rfl
@[simp] theorem State.setDrawReq_waitD (s : State) (v : Bool) : (s.setDrawReq v).waitD = s.waitD := rfl
@[simp] theorem State.setDrawReq_fb (s : State) (v : Bool) : (s.setDrawReq v).fb = s.fb := rfl
@[simp] theorem State.setDrawReq_trace (s : State) (v : Bool) : (s.setDrawReq v).trace = s.trace := rfl
@[simp] theorem State.setDrawReq_wave (s : State) (v : Bool) : (s.setDrawReq v).wave = s.wave := rfl
@[simp] theorem State.setDrawReq_now (s : State) (v : Bool) : (s.setDrawReq v).now = s.now := rfl
@[simp] theorem State.setDrawReq_busyIn (s : State) (v : Bool) : (s.setDrawReq v).busyIn = s.busyIn := rfl
@[simp] theorem State.setDrawReq_lapses (s : State) (v : Bool) : (s.setDrawReq v).lapses = s.lapses := rfl
@[simp] theorem State.setDrawReq_window (s : State) (v : Bool) : (s.setDrawReq v).window = s.window := rfl
@[simp] theorem State.setDrawReq_work (s : State) (v : Bool) : (s.setDrawReq v).work = s.work := rfl
@[simp] theorem State.setDrawReq_inputs (s : State) (v : Bool) : (s.setDrawReq v).inputs = s.inputs := rfl

/-! ### `State.setReady` -/

@[simp] theorem State.setReady_cfg (s : State) (v : Bool) : (s.setReady v).cfg = s.cfg := rfl
@[simp] theorem State.setReady_st (s : State) (v : Bool) : (s.setReady v).st = s.st := rfl
@[simp] theorem State.setReady_tEntry (s : State) (v : Bool) : (s.setReady v).tEntry = s.tEntry := rfl
@[simp] theorem State.setReady_updCnt (s : State) (v : Bool) : (s.setReady v).updCnt = s.updCnt := rfl
@[simp] theorem State.setReady_pending (s : State) (v : Bool) : (s.setReady v).pending = s.pending := rfl
@[simp] theorem State.setReady_sleepPending (s : State) (v : Bool) : (s.setReady v).sleepPending = s.sleepPending := rfl
@[simp] theorem State.setReady_isFull (s : State) (v : Bool) : (s.setReady v).isFull = s.isFull := rfl
@[simp] theorem State.setReady_sleepDone (s : State) (v : Bool) : (s.setReady v).sleepDone = s.sleepDone := rfl
@[simp] theorem State.setReady_idx (s : State) (v : Bool) : (s.setReady v).idx = s.idx := rfl
@[simp] theorem State.setReady_row (s : State) (v : Bool) : (s.setReady v).row = s.row := rfl
@[simp] theorem State.setReady_tgt (s : State) (v : Bool) : (s.setReady v).tgt = s.tgt := rfl
@[simp] theorem State.setReady_col (s : State) (v : Bool) : (s.setReady v).col = s.col := rfl
@[simp] theorem State.setReady_drawReq (s : State) (v : Bool) : (s.setReady v).drawReq = s.drawReq := rfl
@[simp] theorem State.setReady_ready (s : State) (v : Bool) : (s.setReady v).ready = v := rfl
@[simp] theorem State.setReady_sclk (s : State) (v : Bool) : (s.setReady v).sclk = s.sclk := rfl
@[simp] theorem State.setReady_sdin (s : State) (v : Bool) : (s.setReady v).sdin = s.sdin := rfl
@[simp] theorem State.setReady_csN (s : State) (v : Bool) : (s.setReady v).csN = s.csN := rfl
@[simp] theorem State.setReady_dc (s : State) (v : Bool) : (s.setReady v).dc = s.dc := rfl
@[simp] theorem State.setReady_panelRst (s : State) (v : Bool) : (s.setReady v).panelRst = s.panelRst := rfl
@[simp] theorem State.setReady_encBusy (s : State) (v : Bool) : (s.setReady v).encBusy = s.encBusy := rfl
@[simp] theorem State.setReady_encStep (s : State) (v : Bool) : (s.setReady v).encStep = s.encStep := rfl
@[simp] theorem State.setReady_encByte (s : State) (v : Bool) : (s.setReady v).encByte = s.encByte := rfl
@[simp] theorem State.setReady_encMode (s : State) (v : Bool) : (s.setReady v).encMode = s.encMode := rfl
@[simp] theorem State.setReady_encHold (s : State) (v : Bool) : (s.setReady v).encHold = s.encHold := rfl
@[simp] theorem State.setReady_seqSel (s : State) (v : Bool) : (s.setReady v).seqSel = s.seqSel := rfl
@[simp] theorem State.setReady_seqPtr (s : State) (v : Bool) : (s.setReady v).seqPtr = s.seqPtr := rfl
@[simp] theorem State.setReady_seqLeft (s : State) (v : Bool) : (s.setReady v).seqLeft = s.seqLeft := rfl
@[simp] theorem State.setReady_waitT0 (s : State) (v : Bool) : (s.setReady v).waitT0 = s.waitT0 := rfl
@[simp] theorem State.setReady_waitD (s : State) (v : Bool) : (s.setReady v).waitD = s.waitD := rfl
@[simp] theorem State.setReady_fb (s : State) (v : Bool) : (s.setReady v).fb = s.fb := rfl
@[simp] theorem State.setReady_trace (s : State) (v : Bool) : (s.setReady v).trace = s.trace := rfl
@[simp] theorem State.setReady_wave (s : State) (v : Bool) : (s.setReady v).wave = s.wave := rfl
@[simp] theorem State.setReady_now (s : State) (v : Bool) : (s.setReady v).now = s.now := rfl
@[simp] theorem State.setReady_busyIn (s : State) (v : Bool) : (s.setReady v).busyIn = s.busyIn := rfl
@[simp] theorem State.setReady_lapses (s : State) (v : Bool) : (s.setReady v).lapses = s.lapses := rfl
@[simp] theorem State.setReady_window (s : State) (v : Bool) : (s.setReady v).window = s.window := rfl
@[simp] theorem State.setReady_work (s : State) (v : Bool) : (s.setReady v).work = s.work := rfl
@[simp] theorem State.setReady_inputs (s : State) (v : Bool) : (s.setReady v).inputs = s.inputs := rfl

/-! ### `State.fill` -/

@[simp] theorem State.fill_cfg (s : State) (b : Bool) : (s.fill b).cfg = s.cfg := rfl
@[simp] theorem State.fill_st (s : State) (b : Bool) : (s.fill b).st = s.st := rfl
@[simp] theorem State.fill_tEntry (s : State) (b : Bool) : (s.fill b).tEntry = s.tEntry := rfl
@[simp] theorem State.fill_updCnt (s : State) (b : Bool) : (s.fill b).updCnt = s.updCnt := rfl
@[simp] theorem State.fill_pending (s : State) (b : Bool) : (s.fill b).pending = s.pending := rfl
@[simp] theorem State.fill_sleepPending (s : State) (b : Bool) : (s.fill b).sleepPending = s.sleepPending := rfl
@[simp] theorem State.fill_isFull (s : State) (b : Bool) : (s.fill b).isFull = s.isFull := rfl
@[simp] theorem State.fill_sleepDone (s : State) (b : Bool) : (s.fill b).sleepDone = s.sleepDone := rfl
@[simp] theorem State.fill_idx (s : State) (b : Bool) : (s.fill b).idx = s.idx := rfl
@[simp] theorem State.fill_row (s : State) (b : Bool) : (s.fill b).row = s.row := rfl
@[simp] theorem State.fill_tgt (s : State) (b : Bool) : (s.fill b).tgt = s.tgt := rfl
@[simp] theorem State.fill_col (s : State) (b : Bool) : (s.fill b).col = s.col := rfl
@[simp] theorem State.fill_drawReq (s : State) (b : Bool) : (s.fill b).drawReq = s.drawReq := rfl
@[simp] theorem State.fill_ready (s : State) (b : Bool) : (s.fill b).ready = s.ready := rfl
@[simp] theorem State.fill_sclk (s : State) (b : Bool) : (s.fill b).sclk = s.sclk := rfl
@[simp] theorem State.fill_sdin (s : State) (b : Bool) : (s.fill b).sdin = s.sdin := rfl
@[simp] theorem State.fill_csN (s : State) (b : Bool) : (s.fill b).csN = s.csN := rfl
@[simp] theorem State.fill_dc (s : State) (b : Bool) : (s.fill b).dc = s.dc := rfl
@[simp] theorem State.fill_panelRst (s : State) (b : Bool) : (s.fill b).panelRst = s.panelRst := rfl
@[simp] theorem State.fill_encBusy (s : State) (b : Bool) : (s.fill b).encBusy = s.encBusy := rfl
@[simp] theorem State.fill_encStep (s : State) (b : Bool) : (s.fill b).encStep = s.encStep := rfl
@[simp] theorem State.fill_encByte (s : State) (b : Bool) : (s.fill b).encByte = s.encByte := rfl
@[simp] theorem State.fill_encMode (s : State) (b : Bool) : (s.fill b).encMode = s.encMode := rfl
@[simp] theorem State.fill_encHold (s : State) (b : Bool) : (s.fill b).encHold = s.encHold := rfl
@[simp] theorem State.fill_seqSel (s : State) (b : Bool) : (s.fill b).seqSel = s.seqSel := rfl
@[simp] theorem State.fill_seqPtr (s : State) (b : Bool) : (s.fill b).seqPtr = s.seqPtr := rfl
@[simp] theorem State.fill_seqLeft (s : State) (b : Bool) : (s.fill b).seqLeft = s.seqLeft := rfl
@[simp] theorem State.fill_waitT0 (s : State) (b : Bool) : (s.fill b).waitT0 = s.waitT0 := rfl
@[simp] theorem State.fill_waitD (s : State) (b : Bool) : (s.fill b).waitD = s.waitD := rfl
@[simp] theorem State.fill_fb (s : State) (b : Bool) : (s.fill b).fb = Memory.constFrom (if b then 0x00 else 0xFF) 0 s.cfg.fbLen := rfl
@[simp] theorem State.fill_trace (s : State) (b : Bool) : (s.fill b).trace = s.trace := rfl
@[simp] theorem State.fill_wave (s : State) (b : Bool) : (s.fill b).wave = s.wave := rfl
@[simp] theorem State.fill_now (s : State) (b : Bool) : (s.fill b).now = s.now := rfl
@[simp] theorem State.fill_busyIn (s : State) (b : Bool) : (s.fill b).busyIn = s.busyIn := rfl
@[simp] theorem State.fill_lapses (s : State) (b : Bool) : (s.fill b).lapses = s.lapses := rfl
@[simp] theorem State.fill_window (s : State) (b : Bool) : (s.fill b).window = s.window := rfl
@[simp] theorem State.fill_work (s : State) (b : Bool) : (s.fill b).work = s.work := rfl
@[simp] theorem State.fill_inputs (s : State) (b : Bool) : (s.fill b).inputs = s.inputs := rfl

/-! ### `State.advance` -/

@[simp] theorem State.advance_cfg (s : State) (n : Nat) : (s.advance n).cfg = s.cfg := rfl
@[simp] theorem State.advance_st (s : State) (n : Nat) : (s.advance n).st = s.st := rfl
@[simp] theorem State.advance_tEntry (s : State) (n : Nat) : (s.advance n).tEntry = s.tEntry := rfl
@[simp] theorem State.advance_updCnt (s : State) (n : Nat) : (s.advance n).updCnt = s.updCnt := rfl
@[simp] theorem State.advance_pending (s : State) (n : Nat) : (s.advance n).pending = s.pending := rfl
@[simp] theorem State.advance_sleepPending (s : State) (n : Nat) : (s.advance n).sleepPending = s.sleepPending := rfl
@[simp] theorem State.advance_isFull (s : State) (n : Nat) : (s.advance n).isFull = s.isFull := rfl
@[simp] theorem State.advance_sleepDone (s : State) (n : Nat) : (s.advance n).sleepDone = s.sleepDone := rfl
@[simp] theorem State.advance_idx (s : State) (n : Nat) : (s.advance n).idx = s.idx := rfl
@[simp] theorem State.advance_row (s : State) (n : Nat) : (s.advance n).row = s.row := rfl
@[simp] theorem State.advance_tgt (s : State) (n : Nat) : (s.advance n).tgt = s.tgt := rfl
@[simp] theorem State.advance_col (s : State) (n : Nat) : (s.advance n).col = s.col := rfl
@[simp] theorem State.advance_drawReq (s : State) (n : Nat) : (s.advance n).drawReq = s.drawReq := rfl
@[simp] theorem State.advance_ready (s : State) (n : Nat) : (s.advance n).ready = s.ready := rfl
@[simp] theorem State.advance_sclk (s : State) (n : Nat) : (s.advance n).sclk = s.sclk := rfl
@[simp] theorem State.advance_sdin (s : State) (n : Nat) : (s.advance n).sdin = s.sdin := rfl
@[simp] theorem State.advance_csN (s : State) (n : Nat) : (s.advance n).csN = s.csN := rfl
@[simp] theorem State.advance_dc (s : State) (n : Nat) : (s.advance n).dc = s.dc := rfl
@[simp] theorem State.advance_panelRst (s : State) (n : Nat) : (s.advance n).panelRst = s.panelRst := rfl
@[simp] theorem State.advance_encBusy (s : State) (n : Nat) : (s.advance n).encBusy = s.encBusy := rfl
@[simp] theorem State.advance_encStep (s : State) (n : Nat) : (s.advance n).encStep = s.encStep := rfl
@[simp] theorem State.advance_encByte (s : State) (n : Nat) : (s.advance n).encByte = s.encByte := rfl
@[simp] theorem State.advance_encMode (s : State) (n : Nat) : (s.advance n).encMode = s.encMode := rfl
@[simp] theorem State.advance_encHold (s : State) (n : Nat) : (s.advance n).encHold = s.encHold := rfl
@[simp] theorem State.advance_seqSel (s : State) (n : Nat) : (s.advance n).seqSel = s.seqSel := rfl
@[simp] theorem State.advance_seqPtr (s : State) (n : Nat) : (s.advance n).seqPtr = s.seqPtr := rfl
@[simp] theorem State.advance_seqLeft (s : State) (n : Nat) : (s.advance n).seqLeft = s.seqLeft := rfl
@[simp] theorem State.advance_waitT0 (s : State) (n : Nat) : (s.advance n).waitT0 = s.waitT0 := rfl
@[simp] theorem State.advance_waitD (s : State) (n : Nat) : (s.advance n).waitD = s.waitD := rfl
@[simp] theorem State.advance_fb (s : State) (n : Nat) : (s.advance n).fb = s.fb := rfl
@[simp] theorem State.advance_trace (s : State) (n : Nat) : (s.advance n).trace = s.trace := rfl
@[simp] theorem State.advance_wave (s : State) (n : Nat) : (s.advance n).wave = s.wave := rfl
@[simp] theorem State.advance_now (s : State) (n : Nat) : (s.advance n).now = s.now + BitVec.ofNat 32 n := rfl
@[simp] theorem State.advance_busyIn (s : State) (n : Nat) : (s.advance n).busyIn = s.busyIn := rfl
@[simp] theorem State.advance_lapses (s : State) (n : Nat) : (s.advance n).lapses = s.lapses := rfl
@[simp] theorem State.advance_window (s : State) (n : Nat) : (s.advance n).window = s.window := rfl
@[simp] theorem State.advance_work (s : State) (n : Nat) : (s.advance n).work = s.work := rfl
@[simp] theorem State.advance_inputs (s : State) (n : Nat) : (s.advance n).inputs = s.inputs := rfl

/-! ### `State.dropLapse` -/

@[simp] theorem State.dropLapse_cfg (s : State) : (s.dropLapse).cfg = s.cfg := rfl
@[simp] theorem State.dropLapse_st (s : State) : (s.dropLapse).st = s.st := rfl
@[simp] theorem State.dropLapse_tEntry (s : State) : (s.dropLapse).tEntry = s.tEntry := rfl
@[simp] theorem State.dropLapse_updCnt (s : State) : (s.dropLapse).updCnt = s.updCnt := rfl
@[simp] theorem State.dropLapse_pending (s : State) : (s.dropLapse).pending = s.pending := rfl
@[simp] theorem State.dropLapse_sleepPending (s : State) : (s.dropLapse).sleepPending = s.sleepPending := rfl
@[simp] theorem State.dropLapse_isFull (s : State) : (s.dropLapse).isFull = s.isFull := rfl
@[simp] theorem State.dropLapse_sleepDone (s : State) : (s.dropLapse).sleepDone = s.sleepDone := rfl
@[simp] theorem State.dropLapse_idx (s : State) : (s.dropLapse).idx = s.idx := rfl
@[simp] theorem State.dropLapse_row (s : State) : (s.dropLapse).row = s.row := rfl
@[simp] theorem State.dropLapse_tgt (s : State) : (s.dropLapse).tgt = s.tgt := rfl
@[simp] theorem State.dropLapse_col (s : State) : (s.dropLapse).col = s.col := rfl
@[simp] theorem State.dropLapse_drawReq (s : State) : (s.dropLapse).drawReq = s.drawReq := rfl
@[simp] theorem State.dropLapse_ready (s : State) : (s.dropLapse).ready = s.ready := rfl
@[simp] theorem State.dropLapse_sclk (s : State) : (s.dropLapse).sclk = s.sclk := rfl
@[simp] theorem State.dropLapse_sdin (s : State) : (s.dropLapse).sdin = s.sdin := rfl
@[simp] theorem State.dropLapse_csN (s : State) : (s.dropLapse).csN = s.csN := rfl
@[simp] theorem State.dropLapse_dc (s : State) : (s.dropLapse).dc = s.dc := rfl
@[simp] theorem State.dropLapse_panelRst (s : State) : (s.dropLapse).panelRst = s.panelRst := rfl
@[simp] theorem State.dropLapse_encBusy (s : State) : (s.dropLapse).encBusy = s.encBusy := rfl
@[simp] theorem State.dropLapse_encStep (s : State) : (s.dropLapse).encStep = s.encStep := rfl
@[simp] theorem State.dropLapse_encByte (s : State) : (s.dropLapse).encByte = s.encByte := rfl
@[simp] theorem State.dropLapse_encMode (s : State) : (s.dropLapse).encMode = s.encMode := rfl
@[simp] theorem State.dropLapse_encHold (s : State) : (s.dropLapse).encHold = s.encHold := rfl
@[simp] theorem State.dropLapse_seqSel (s : State) : (s.dropLapse).seqSel = s.seqSel := rfl
@[simp] theorem State.dropLapse_seqPtr (s : State) : (s.dropLapse).seqPtr = s.seqPtr := rfl
@[simp] theorem State.dropLapse_seqLeft (s : State) : (s.dropLapse).seqLeft = s.seqLeft := rfl
@[simp] theorem State.dropLapse_waitT0 (s : State) : (s.dropLapse).waitT0 = s.waitT0 := rfl
@[simp] theorem State.dropLapse_waitD (s : State) : (s.dropLapse).waitD = s.waitD := rfl
@[simp] theorem State.dropLapse_fb (s : State) : (s.dropLapse).fb = s.fb := rfl
@[simp] theorem State.dropLapse_trace (s : State) : (s.dropLapse).trace = s.trace := rfl
@[simp] theorem State.dropLapse_wave (s : State) : (s.dropLapse).wave = s.wave := rfl
@[simp] theorem State.dropLapse_now (s : State) : (s.dropLapse).now = s.now := rfl
@[simp] theorem State.dropLapse_busyIn (s : State) : (s.dropLapse).busyIn = s.busyIn := rfl
@[simp] theorem State.dropLapse_lapses (s : State) : (s.dropLapse).lapses = s.lapses.tail := rfl
@[simp] theorem State.dropLapse_window (s : State) : (s.dropLapse).window = s.window := rfl
@[simp] theorem State.dropLapse_work (s : State) : (s.dropLapse).work = s.work := rfl
@[simp] theorem State.dropLapse_inputs (s : State) : (s.dropLapse).inputs = s.inputs := rfl

/-! ### `State.hold` -/

@[simp] theorem State.hold_cfg (s : State) (d : Byte) : (s.hold d).cfg = s.cfg := rfl
@[simp] theorem State.hold_st (s : State) (d : Byte) : (s.hold d).st = s.st := rfl
@[simp] theorem State.hold_tEntry (s : State) (d : Byte) : (s.hold d).tEntry = s.tEntry := rfl
@[simp] theorem State.hold_updCnt (s : State) (d : Byte) : (s.hold d).updCnt = s.updCnt := rfl
@[simp] theorem State.hold_pending (s : State) (d : Byte) : (s.hold d).pending = s.pending := rfl
@[simp] theorem State.hold_sleepPending (s : State) (d : Byte) : (s.hold d).sleepPending = s.sleepPending := rfl
@[simp] theorem State.hold_isFull (s : State) (d : Byte) : (s.hold d).isFull = s.isFull := rfl
@[simp] theorem State.hold_sleepDone (s : State) (d : Byte) : (s.hold d).sleepDone = s.sleepDone := rfl
@[simp] theorem State.hold_idx (s : State) (d : Byte) : (s.hold d).idx = s.idx := rfl
@[simp] theorem State.hold_row (s : State) (d : Byte) : (s.hold d).row = s.row := rfl
@[simp] theorem State.hold_tgt (s : State) (d : Byte) : (s.hold d).tgt = s.tgt := rfl
@[simp] theorem State.hold_col (s : State) (d : Byte) : (s.hold d).col = s.col := rfl
@[simp] theorem State.hold_drawReq (s : State) (d : Byte) : (s.hold d).drawReq = s.drawReq := rfl
@[simp] theorem State.hold_ready (s : State) (d : Byte) : (s.hold d).ready = s.ready := rfl
@[simp] theorem State.hold_sclk (s : State) (d : Byte) : (s.hold d).sclk = s.sclk := rfl
@[simp] theorem State.hold_sdin (s : State) (d : Byte) : (s.hold d).sdin = s.sdin := rfl
@[simp] theorem State.hold_csN (s : State) (d : Byte) : (s.hold d).csN = s.csN := rfl
@[simp] theorem State.hold_dc (s : State) (d : Byte) : (s.hold d).dc = s.dc := rfl
@[simp] theorem State.hold_panelRst (s : State) (d : Byte) : (s.hold d).panelRst = s.panelRst := rfl
@[simp] theorem State.hold_encBusy (s : State) (d : Byte) : (s.hold d).encBusy = s.encBusy := rfl
@[simp] theorem State.hold_encStep (s : State) (d : Byte) : (s.hold d).encStep = s.encStep := rfl
@[simp] theorem State.hold_encByte (s : State) (d : Byte) : (s.hold d).encByte = s.encByte := rfl
@[simp] theorem State.hold_encMode (s : State) (d : Byte) : (s.hold d).encMode = s.encMode := rfl
@[simp] theorem State.hold_encHold (s : State) (d : Byte) : (s.hold d).encHold = s.encHold := rfl
@[simp] theorem State.hold_seqSel (s : State) (d : Byte) : (s.hold d).seqSel = s.seqSel := rfl
@[simp] theorem State.hold_seqPtr (s : State) (d : Byte) : (s.hold d).seqPtr = s.seqPtr := rfl
@[simp] theorem State.hold_seqLeft (s : State) (d : Byte) : (s.hold d).seqLeft = s.seqLeft := rfl
@[simp] theorem State.hold_waitT0 (s : State) (d : Byte) : (s.hold d).waitT0 = s.now := rfl
@[simp] theorem State.hold_waitD (s : State) (d : Byte) : (s.hold d).waitD = s.waitD := rfl
@[simp] theorem State.hold_fb (s : State) (d : Byte) : (s.hold d).fb = s.fb := rfl
@[simp] theorem State.hold_trace (s : State) (d : Byte) : (s.hold d).trace = s.trace := rfl
@[simp] theorem State.hold_wave (s : State) (d : Byte) : (s.hold d).wave = s.wave := rfl
@[simp] theorem State.hold_now (s : State) (d : Byte) : (s.hold d).now = s.now + BitVec.ofNat 32 (d.toNat + 1) := rfl
@[simp] theorem State.hold_busyIn (s : State) (d : Byte) : (s.hold d).busyIn = s.busyIn := rfl
@[simp] theorem State.hold_lapses (s : State) (d : Byte) : (s.hold d).lapses = s.lapses := rfl
@[simp] theorem State.hold_window (s : State) (d : Byte) : (s.hold d).window = s.window := rfl
@[simp] theorem State.hold_work (s : State) (d : Byte) : (s.hold d).work = s.work := rfl
@[simp] theorem State.hold_inputs (s : State) (d : Byte) : (s.hold d).inputs = s.inputs := rfl

/-! ### `State.goto` -/

@[simp] theorem State.goto_cfg (s : State) (d : DState) : (s.goto d).cfg = s.cfg := rfl
@[simp] theorem State.goto_st (s : State) (d : DState) : (s.goto d).st = d := rfl
@[simp] theorem State.goto_tEntry (s : State) (d : DState) : (s.goto d).tEntry = s.now + BitVec.ofNat 32 s.lapse := rfl
@[simp] theorem State.goto_updCnt (s : State) (d : DState) : (s.goto d).updCnt = s.updCnt := rfl
@[simp] theorem State.goto_pending (s : State) (d : DState) : (s.goto d).pending = s.pending := rfl
@[simp] theorem State.goto_sleepPending (s : State) (d : DState) : (s.goto d).sleepPending = s.sleepPending := rfl
@[simp] theorem State.goto_isFull (s : State) (d : DState) : (s.goto d).isFull = s.isFull := rfl
@[simp] theorem State.goto_sleepDone (s : State) (d : DState) : (s.goto d).sleepDone = s.sleepDone := rfl
@[simp] theorem State.goto_idx (s : State) (d : DState) : (s.goto d).idx = s.idx := rfl
@[simp] theorem State.goto_row (s : State) (d : DState) : (s.goto d).row = s.row := rfl
@[simp] theorem State.goto_tgt (s : State) (d : DState) : (s.goto d).tgt = s.tgt := rfl
@[simp] theorem State.goto_col (s : State) (d : DState) : (s.goto d).col = s.col := rfl
@[simp] theorem State.goto_drawReq (s : State) (d : DState) : (s.goto d).drawReq = s.drawReq := rfl
@[simp] theorem State.goto_ready (s : State) (d : DState) : (s.goto d).ready = s.ready := rfl
@[simp] theorem State.goto_sclk (s : State) (d : DState) : (s.goto d).sclk = s.sclk := rfl
@[simp] theorem State.goto_sdin (s : State) (d : DState) : (s.goto d).sdin = s.sdin := rfl
@[simp] theorem State.goto_csN (s : State) (d : DState) : (s.goto d).csN = s.csN := rfl
@[simp] theorem State.goto_dc (s : State) (d : DState) : (s.goto d).dc = s.dc := rfl
@[simp] theorem State.goto_panelRst (s : State) (d : DState) : (s.goto d).panelRst = s.panelRst := rfl
@[simp] theorem State.goto_encBusy (s : State) (d : DState) : (s.goto d).encBusy = s.encBusy := rfl
@[simp] theorem State.goto_encStep (s : State) (d : DState) : (s.goto d).encStep = s.encStep := rfl
@[simp] theorem State.goto_encByte (s : State) (d : DState) : (s.goto d).encByte = s.encByte := rfl
@[simp] theorem State.goto_encMode (s : State) (d : DState) : (s.goto d).encMode = s.encMode := rfl
@[simp] theorem State.goto_encHold (s : State) (d : DState) : (s.goto d).encHold = s.encHold := rfl
@[simp] theorem State.goto_seqSel (s : State) (d : DState) : (s.goto d).seqSel = s.seqSel := rfl
@[simp] theorem State.goto_seqPtr (s : State) (d : DState) : (s.goto d).seqPtr = s.seqPtr := rfl
@[simp] theorem State.goto_seqLeft (s : State) (d : DState) : (s.goto d).seqLeft = s.seqLeft := rfl
@[simp] theorem State.goto_waitT0 (s : State) (d : DState) : (s.goto d).waitT0 = s.waitT0 := rfl
@[simp] theorem State.goto_waitD (s : State) (d : DState) : (s.goto d).waitD = s.waitD := rfl
@[simp] theorem State.goto_fb (s : State) (d : DState) : (s.goto d).fb = s.fb := rfl
@[simp] theorem State.goto_trace (s : State) (d : DState) : (s.goto d).trace = s.trace := rfl
@[simp] theorem State.goto_wave (s : State) (d : DState) : (s.goto d).wave = s.wave := rfl
@[simp] theorem State.goto_now (s : State) (d : DState) : (s.goto d).now = s.now + BitVec.ofNat 32 s.lapse := rfl
@[simp] theorem State.goto_busyIn (s : State) (d : DState) : (s.goto d).busyIn = s.busyIn := rfl
@[simp] theorem State.goto_lapses (s : State) (d : DState) : (s.goto d).lapses = s.lapses.tail := rfl
@[simp] theorem State.goto_window (s : State) (d : DState) : (s.goto d).window = s.window := rfl
@[simp] theorem State.goto_work (s : State) (d : DState) : (s.goto d).work = s.work := rfl
@[simp] theorem State.goto_inputs (s : State) (d : DState) : (s.goto d).inputs = s.inputs := rfl

/-! ### `State.frameEnded` -/

@[simp] theorem State.frameEnded_cfg (s : State) (m : Bool) (b : Byte) : (s.frameEnded m b).cfg = s.cfg := rfl
@[simp] theorem State.frameEnded_st (s : State) (m : Bool) (b : Byte) : (s.frameEnded m b).st = s.st := rfl
@[simp] theorem State.frameEnded_tEntry (s : State) (m : Bool) (b : Byte) : (s.frameEnded m b).tEntry = s.tEntry := rfl
@[simp] theorem State.frameEnded_updCnt (s : State) (m : Bool) (b : Byte) : (s.frameEnded m b).updCnt = s.updCnt := rfl
@[simp] theorem State.frameEnded_pending (s : State) (m : Bool) (b : Byte) : (s.frameEnded m b).pending = s.pending := rfl
@[simp] theorem State.frameEnded_sleepPending (s : State) (m : Bool) (b : Byte) : (s.frameEnded m b).sleepPending = s.sleepPending := rfl
@[simp] theorem State.frameEnded_isFull (s : State) (m : Bool) (b : Byte) : (s.frameEnded m b).isFull = s.isFull := rfl
@[simp] theorem State.frameEnded_sleepDone (s : State) (m : Bool) (b : Byte) : (s.frameEnded m b).sleepDone = s.sleepDone := rfl
@[simp] theorem State.frameEnded_idx (s : State) (m : Bool) (b : Byte) : (s.frameEnded m b).idx = s.idx := rfl
@[simp] theorem State.frameEnded_row (s : State) (m : Bool) (b : Byte) : (s.frameEnded m b).row = s.row := rfl
@[simp] theorem State.frameEnded_tgt (s : State) (m : Bool) (b : Byte) : (s.frameEnded m b).tgt = s.tgt := rfl
@[simp] theorem State.frameEnded_col (s : State) (m : Bool) (b : Byte) : (s.frameEnded m b).col = s.col := rfl
@[simp] theorem State.frameEnded_drawReq (s : State) (m : Bool) (b : Byte) : (s.frameEnded m b).drawReq = s.drawReq := rfl
@[simp] theorem State.frameEnded_ready (s : State) (m : Bool) (b : Byte) : (s.frameEnded m b).ready = s.ready := rfl
@[simp] theorem State.frameEnded_sclk (s : State) (m : Bool) (b : Byte) : (s.frameEnded m b).sclk = s.sclk := rfl
@[simp] theorem State.frameEnded_sdin (s : State) (m : Bool) (b : Byte) : (s.frameEnded m b).sdin = s.sdin := rfl
@[simp] theorem State.frameEnded_csN (s : State) (m : Bool) (b : Byte) : (s.frameEnded m b).csN = s.csN := rfl
@[simp] theorem State.frameEnded_dc (s : State) (m : Bool) (b : Byte) : (s.frameEnded m b).dc = s.dc := rfl
@[simp] theorem State.frameEnded_panelRst (s : State) (m : Bool) (b : Byte) : (s.frameEnded m b).panelRst = s.panelRst := rfl
@[simp] theorem State.frameEnded_encBusy (s : State) (m : Bool) (b : Byte) : (s.frameEnded m b).encBusy = false := rfl
@[simp] theorem State.frameEnded_encStep (s : State) (m : Bool) (b : Byte) : (s.frameEnded m b).encStep = 26 := rfl
@[simp] theorem State.frameEnded_encByte (s : State) (m : Bool) (b : Byte) : (s.frameEnded m b).encByte = b := rfl
@[simp] theorem State.frameEnded_encMode (s : State) (m : Bool) (b : Byte) : (s.frameEnded m b).encMode = m := rfl
@[simp] theorem State.frameEnded_encHold (s : State) (m : Bool) (b : Byte) : (s.frameEnded m b).encHold = s.cfg.encStepCycles := rfl
@[simp] theorem State.frameEnded_seqSel (s : State) (m : Bool) (b : Byte) : (s.frameEnded m b).seqSel = s.seqSel := rfl
@[simp] theorem State.frameEnded_seqPtr (s : State) (m : Bool) (b : Byte) : (s.frameEnded m b).seqPtr = s.seqPtr := rfl
@[simp] theorem State.frameEnded_seqLeft (s : State) (m : Bool) (b : Byte) : (s.frameEnded m b).seqLeft = s.seqLeft := rfl
@[simp] theorem State.frameEnded_waitT0 (s : State) (m : Bool) (b : Byte) : (s.frameEnded m b).waitT0 = s.waitT0 := rfl
@[simp] theorem State.frameEnded_waitD (s : State) (m : Bool) (b : Byte) : (s.frameEnded m b).waitD = s.waitD := rfl
@[simp] theorem State.frameEnded_fb (s : State) (m : Bool) (b : Byte) : (s.frameEnded m b).fb = s.fb := rfl
@[simp] theorem State.frameEnded_trace (s : State) (m : Bool) (b : Byte) : (s.frameEnded m b).trace = s.trace := rfl
@[simp] theorem State.frameEnded_wave (s : State) (m : Bool) (b : Byte) : (s.frameEnded m b).wave = s.wave := rfl
@[simp] theorem State.frameEnded_now (s : State) (m : Bool) (b : Byte) : (s.frameEnded m b).now = s.now := rfl
@[simp] theorem State.frameEnded_busyIn (s : State) (m : Bool) (b : Byte) : (s.frameEnded m b).busyIn = s.busyIn := rfl
@[simp] theorem State.frameEnded_lapses (s : State) (m : Bool) (b : Byte) : (s.frameEnded m b).lapses = s.lapses := rfl
@[simp] theorem State.frameEnded_window (s : State) (m : Bool) (b : Byte) : (s.frameEnded m b).window = s.window := rfl
@[simp] theorem State.frameEnded_work (s : State) (m : Bool) (b : Byte) : (s.frameEnded m b).work = s.work := rfl
@[simp] theorem State.frameEnded_inputs (s : State) (m : Bool) (b : Byte) : (s.frameEnded m b).inputs = s.inputs := rfl

/-! ### `State.startFrame` -/

@[simp] theorem State.startFrame_cfg (s : State) (m : Bool) (b : Byte) : (s.startFrame m b).cfg = s.cfg := rfl
@[simp] theorem State.startFrame_st (s : State) (m : Bool) (b : Byte) : (s.startFrame m b).st = s.st := rfl
@[simp] theorem State.startFrame_tEntry (s : State) (m : Bool) (b : Byte) : (s.startFrame m b).tEntry = s.tEntry := rfl
@[simp] theorem State.startFrame_updCnt (s : State) (m : Bool) (b : Byte) : (s.startFrame m b).updCnt = s.updCnt := rfl
@[simp] theorem State.startFrame_pending (s : State) (m : Bool) (b : Byte) : (s.startFrame m b).pending = s.pending := rfl
@[simp] theorem State.startFrame_sleepPending (s : State) (m : Bool) (b : Byte) : (s.startFrame m b).sleepPending = s.sleepPending := rfl
@[simp] theorem State.startFrame_isFull (s : State) (m : Bool) (b : Byte) : (s.startFrame m b).isFull = s.isFull := rfl
@[simp] theorem State.startFrame_sleepDone (s : State) (m : Bool) (b : Byte) : (s.startFrame m b).sleepDone = s.sleepDone := rfl
@[simp] theorem State.startFrame_idx (s : State) (m : Bool) (b : Byte) : (s.startFrame m b).idx = s.idx := rfl
@[simp] theorem State.startFrame_row (s : State) (m : Bool) (b : Byte) : (s.startFrame m b).row = s.row := rfl
@[simp] theorem State.startFrame_tgt (s : State) (m : Bool) (b : Byte) : (s.startFrame m b).tgt = s.tgt := rfl
@[simp] theorem State.startFrame_col (s : State) (m : Bool) (b : Byte) : (s.startFrame m b).col = s.col := rfl
@[simp] theorem State.startFrame_drawReq (s : State) (m : Bool) (b : Byte) : (s.startFrame m b).drawReq = s.drawReq := rfl
@[simp] theorem State.startFrame_ready (s : State) (m : Bool) (b : Byte) : (s.startFrame m b).ready = s.ready := rfl
@[simp] theorem State.startFrame_sclk (s : State) (m : Bool) (b : Byte) : (s.startFrame m b).sclk = s.sclk := rfl
@[simp] theorem State.startFrame_sdin (s : State) (m : Bool) (b : Byte) : (s.startFrame m b).sdin = s.sdin := rfl
@[simp] theorem State.startFrame_csN (s : State) (m : Bool) (b : Byte) : (s.startFrame m b).csN = s.csN := rfl
@[simp] theorem State.startFrame_dc (s : State) (m : Bool) (b : Byte) : (s.startFrame m b).dc = s.dc := rfl
@[simp] theorem State.startFrame_panelRst (s : State) (m : Bool) (b : Byte) : (s.startFrame m b).panelRst = s.panelRst := rfl
@[simp] theorem State.startFrame_encBusy (s : State) (m : Bool) (b : Byte) : (s.startFrame m b).encBusy = true := rfl
@[simp] theorem State.startFrame_encStep (s : State) (m : Bool) (b : Byte) : (s.startFrame m b).encStep = 0 := rfl
@[simp] theorem State.startFrame_encByte (s : State) (m : Bool) (b : Byte) : (s.startFrame m b).encByte = b := rfl
@[simp] theorem State.startFrame_encMode (s : State) (m : Bool) (b : Byte) : (s.startFrame m b).encMode = m := rfl
@[simp] theorem State.startFrame_encHold (s : State) (m : Bool) (b : Byte) : (s.startFrame m b).encHold = 0 := rfl
@[simp] theorem State.startFrame_seqSel (s : State) (m : Bool) (b : Byte) : (s.startFrame m b).seqSel = s.seqSel := rfl
@[simp] theorem State.startFrame_seqPtr (s : State) (m : Bool) (b : Byte) : (s.startFrame m b).seqPtr = s.seqPtr := rfl
@[simp] theorem State.startFrame_seqLeft (s : State) (m : Bool) (b : Byte) : (s.startFrame m b).seqLeft = s.seqLeft := rfl
@[simp] theorem State.startFrame_waitT0 (s : State) (m : Bool) (b : Byte) : (s.startFrame m b).waitT0 = s.waitT0 := rfl
@[simp] theorem State.startFrame_waitD (s : State) (m : Bool) (b : Byte) : (s.startFrame m b).waitD = s.waitD := rfl
@[simp] theorem State.startFrame_fb (s : State) (m : Bool) (b : Byte) : (s.startFrame m b).fb = s.fb := rfl
@[simp] theorem State.startFrame_trace (s : State) (m : Bool) (b : Byte) : (s.startFrame m b).trace = s.trace := rfl
@[simp] theorem State.startFrame_wave (s : State) (m : Bool) (b : Byte) : (s.startFrame m b).wave = s.wave := rfl
@[simp] theorem State.startFrame_now (s : State) (m : Bool) (b : Byte) : (s.startFrame m b).now = s.now := rfl
@[simp] theorem State.startFrame_busyIn (s : State) (m : Bool) (b : Byte) : (s.startFrame m b).busyIn = s.busyIn := rfl
@[simp] theorem State.startFrame_lapses (s : State) (m : Bool) (b : Byte) : (s.startFrame m b).lapses = s.lapses := rfl
@[simp] theorem State.startFrame_window (s : State) (m : Bool) (b : Byte) : (s.startFrame m b).window = s.window := rfl
@[simp] theorem State.startFrame_work (s : State) (m : Bool) (b : Byte) : (s.startFrame m b).work = s.work := rfl
@[simp] theorem State.startFrame_inputs (s : State) (m : Bool) (b : Byte) : (s.startFrame m b).inputs = s.inputs := rfl

/-! ### `State.advanceSeqPtr` -/

@[simp] theorem State.advanceSeqPtr_cfg (s : State) (n : Nat) : (s.advanceSeqPtr n).cfg = s.cfg := rfl
@[simp] theorem State.advanceSeqPtr_st (s : State) (n : Nat) : (s.advanceSeqPtr n).st = s.st := rfl
@[simp] theorem State.advanceSeqPtr_tEntry (s : State) (n : Nat) : (s.advanceSeqPtr n).tEntry = s.tEntry := rfl
@[simp] theorem State.advanceSeqPtr_updCnt (s : State) (n : Nat) : (s.advanceSeqPtr n).updCnt = s.updCnt := rfl
@[simp] theorem State.advanceSeqPtr_pending (s : State) (n : Nat) : (s.advanceSeqPtr n).pending = s.pending := rfl
@[simp] theorem State.advanceSeqPtr_sleepPending (s : State) (n : Nat) : (s.advanceSeqPtr n).sleepPending = s.sleepPending := rfl
@[simp] theorem State.advanceSeqPtr_isFull (s : State) (n : Nat) : (s.advanceSeqPtr n).isFull = s.isFull := rfl
@[simp] theorem State.advanceSeqPtr_sleepDone (s : State) (n : Nat) : (s.advanceSeqPtr n).sleepDone = s.sleepDone := rfl
@[simp] theorem State.advanceSeqPtr_idx (s : State) (n : Nat) : (s.advanceSeqPtr n).idx = s.idx := rfl
@[simp] theorem State.advanceSeqPtr_row (s : State) (n : Nat) : (s.advanceSeqPtr n).row = s.row := rfl
@[simp] theorem State.advanceSeqPtr_tgt (s : State) (n : Nat) : (s.advanceSeqPtr n).tgt = s.tgt := rfl
@[simp] theorem State.advanceSeqPtr_col (s : State) (n : Nat) : (s.advanceSeqPtr n).col = s.col := rfl
@[simp] theorem State.advanceSeqPtr_drawReq (s : State) (n : Nat) : (s.advanceSeqPtr n).drawReq = s.drawReq := rfl
@[simp] theorem State.advanceSeqPtr_ready (s : State) (n : Nat) : (s.advanceSeqPtr n).ready = s.ready := rfl
@[simp] theorem State.advanceSeqPtr_sclk (s : State) (n : Nat) : (s.advanceSeqPtr n).sclk = s.sclk := rfl
@[simp] theorem State.advanceSeqPtr_sdin (s : State) (n : Nat) : (s.advanceSeqPtr n).sdin = s.sdin := rfl
@[simp] theorem State.advanceSeqPtr_csN (s : State) (n : Nat) : (s.advanceSeqPtr n).csN = s.csN := rfl
@[simp] theorem State.advanceSeqPtr_dc (s : State) (n : Nat) : (s.advanceSeqPtr n).dc = s.dc := rfl
@[simp] theorem State.advanceSeqPtr_panelRst (s : State) (n : Nat) : (s.advanceSeqPtr n).panelRst = s.panelRst := rfl
@[simp] theorem State.advanceSeqPtr_encBusy (s : State) (n : Nat) : (s.advanceSeqPtr n).encBusy = s.encBusy := rfl
@[simp] theorem State.advanceSeqPtr_encStep (s : State) (n : Nat) : (s.advanceSeqPtr n).encStep = s.encStep := rfl
@[simp] theorem State.advanceSeqPtr_encByte (s : State) (n : Nat) : (s.advanceSeqPtr n).encByte = s.encByte := rfl
@[simp] theorem State.advanceSeqPtr_encMode (s : State) (n : Nat) : (s.advanceSeqPtr n).encMode = s.encMode := rfl
@[simp] theorem State.advanceSeqPtr_encHold (s : State) (n : Nat) : (s.advanceSeqPtr n).encHold = s.encHold := rfl
@[simp] theorem State.advanceSeqPtr_seqSel (s : State) (n : Nat) : (s.advanceSeqPtr n).seqSel = s.seqSel := rfl
@[simp] theorem State.advanceSeqPtr_seqPtr (s : State) (n : Nat) : (s.advanceSeqPtr n).seqPtr = s.seqPtr + BitVec.ofNat 16 n := rfl
@[simp] theorem State.advanceSeqPtr_seqLeft (s : State) (n : Nat) : (s.advanceSeqPtr n).seqLeft = s.seqLeft := rfl
@[simp] theorem State.advanceSeqPtr_waitT0 (s : State) (n : Nat) : (s.advanceSeqPtr n).waitT0 = s.waitT0 := rfl
@[simp] theorem State.advanceSeqPtr_waitD (s : State) (n : Nat) : (s.advanceSeqPtr n).waitD = s.waitD := rfl
@[simp] theorem State.advanceSeqPtr_fb (s : State) (n : Nat) : (s.advanceSeqPtr n).fb = s.fb := rfl
@[simp] theorem State.advanceSeqPtr_trace (s : State) (n : Nat) : (s.advanceSeqPtr n).trace = s.trace := rfl
@[simp] theorem State.advanceSeqPtr_wave (s : State) (n : Nat) : (s.advanceSeqPtr n).wave = s.wave := rfl
@[simp] theorem State.advanceSeqPtr_now (s : State) (n : Nat) : (s.advanceSeqPtr n).now = s.now := rfl
@[simp] theorem State.advanceSeqPtr_busyIn (s : State) (n : Nat) : (s.advanceSeqPtr n).busyIn = s.busyIn := rfl
@[simp] theorem State.advanceSeqPtr_lapses (s : State) (n : Nat) : (s.advanceSeqPtr n).lapses = s.lapses := rfl
@[simp] theorem State.advanceSeqPtr_window (s : State) (n : Nat) : (s.advanceSeqPtr n).window = s.window := rfl
@[simp] theorem State.advanceSeqPtr_work (s : State) (n : Nat) : (s.advanceSeqPtr n).work = s.work := rfl
@[simp] theorem State.advanceSeqPtr_inputs (s : State) (n : Nat) : (s.advanceSeqPtr n).inputs = s.inputs := rfl

/-! ### `State.setSeqLeft` -/

@[simp] theorem State.setSeqLeft_cfg (s : State) (n : Nat) : (s.setSeqLeft n).cfg = s.cfg := rfl
@[simp] theorem State.setSeqLeft_st (s : State) (n : Nat) : (s.setSeqLeft n).st = s.st := rfl
@[simp] theorem State.setSeqLeft_tEntry (s : State) (n : Nat) : (s.setSeqLeft n).tEntry = s.tEntry := rfl
@[simp] theorem State.setSeqLeft_updCnt (s : State) (n : Nat) : (s.setSeqLeft n).updCnt = s.updCnt := rfl
@[simp] theorem State.setSeqLeft_pending (s : State) (n : Nat) : (s.setSeqLeft n).pending = s.pending := rfl
@[simp] theorem State.setSeqLeft_sleepPending (s : State) (n : Nat) : (s.setSeqLeft n).sleepPending = s.sleepPending := rfl
@[simp] theorem State.setSeqLeft_isFull (s : State) (n : Nat) : (s.setSeqLeft n).isFull = s.isFull := rfl
@[simp] theorem State.setSeqLeft_sleepDone (s : State) (n : Nat) : (s.setSeqLeft n).sleepDone = s.sleepDone := rfl
@[simp] theorem State.setSeqLeft_idx (s : State) (n : Nat) : (s.setSeqLeft n).idx = s.idx := rfl
@[simp] theorem State.setSeqLeft_row (s : State) (n : Nat) : (s.setSeqLeft n).row = s.row := rfl
@[simp] theorem State.setSeqLeft_tgt (s : State) (n : Nat) : (s.setSeqLeft n).tgt = s.tgt := rfl
@[simp] theorem State.setSeqLeft_col (s : State) (n : Nat) : (s.setSeqLeft n).col = s.col := rfl
@[simp] theorem State.setSeqLeft_drawReq (s : State) (n : Nat) : (s.setSeqLeft n).drawReq = s.drawReq := rfl
@[simp] theorem State.setSeqLeft_ready (s : State) (n : Nat) : (s.setSeqLeft n).ready = s.ready := rfl
@[simp] theorem State.setSeqLeft_sclk (s : State) (n : Nat) : (s.setSeqLeft n).sclk = s.sclk := rfl
@[simp] theorem State.setSeqLeft_sdin (s : State) (n : Nat) : (s.setSeqLeft n).sdin = s.sdin := rfl
@[simp] theorem State.setSeqLeft_csN (s : State) (n : Nat) : (s.setSeqLeft n).csN = s.csN := rfl
@[simp] theorem State.setSeqLeft_dc (s : State) (n : Nat) : (s.setSeqLeft n).dc = s.dc := rfl
@[simp] theorem State.setSeqLeft_panelRst (s : State) (n : Nat) : (s.setSeqLeft n).panelRst = s.panelRst := rfl
@[simp] theorem State.setSeqLeft_encBusy (s : State) (n : Nat) : (s.setSeqLeft n).encBusy = s.encBusy := rfl
@[simp] theorem State.setSeqLeft_encStep (s : State) (n : Nat) : (s.setSeqLeft n).encStep = s.encStep := rfl
@[simp] theorem State.setSeqLeft_encByte (s : State) (n : Nat) : (s.setSeqLeft n).encByte = s.encByte := rfl
@[simp] theorem State.setSeqLeft_encMode (s : State) (n : Nat) : (s.setSeqLeft n).encMode = s.encMode := rfl
@[simp] theorem State.setSeqLeft_encHold (s : State) (n : Nat) : (s.setSeqLeft n).encHold = s.encHold := rfl
@[simp] theorem State.setSeqLeft_seqSel (s : State) (n : Nat) : (s.setSeqLeft n).seqSel = s.seqSel := rfl
@[simp] theorem State.setSeqLeft_seqPtr (s : State) (n : Nat) : (s.setSeqLeft n).seqPtr = s.seqPtr := rfl
@[simp] theorem State.setSeqLeft_seqLeft (s : State) (n : Nat) : (s.setSeqLeft n).seqLeft = BitVec.ofNat 7 n := rfl
@[simp] theorem State.setSeqLeft_waitT0 (s : State) (n : Nat) : (s.setSeqLeft n).waitT0 = s.waitT0 := rfl
@[simp] theorem State.setSeqLeft_waitD (s : State) (n : Nat) : (s.setSeqLeft n).waitD = s.waitD := rfl
@[simp] theorem State.setSeqLeft_fb (s : State) (n : Nat) : (s.setSeqLeft n).fb = s.fb := rfl
@[simp] theorem State.setSeqLeft_trace (s : State) (n : Nat) : (s.setSeqLeft n).trace = s.trace := rfl
@[simp] theorem State.setSeqLeft_wave (s : State) (n : Nat) : (s.setSeqLeft n).wave = s.wave := rfl
@[simp] theorem State.setSeqLeft_now (s : State) (n : Nat) : (s.setSeqLeft n).now = s.now := rfl
@[simp] theorem State.setSeqLeft_busyIn (s : State) (n : Nat) : (s.setSeqLeft n).busyIn = s.busyIn := rfl
@[simp] theorem State.setSeqLeft_lapses (s : State) (n : Nat) : (s.setSeqLeft n).lapses = s.lapses := rfl
@[simp] theorem State.setSeqLeft_window (s : State) (n : Nat) : (s.setSeqLeft n).window = s.window := rfl
@[simp] theorem State.setSeqLeft_work (s : State) (n : Nat) : (s.setSeqLeft n).work = s.work := rfl
@[simp] theorem State.setSeqLeft_inputs (s : State) (n : Nat) : (s.setSeqLeft n).inputs = s.inputs := rfl

/-! ### `State.selectTable` -/

@[simp] theorem State.selectTable_cfg (s : State) (sel : TableSel) : (s.selectTable sel).cfg = s.cfg := rfl
@[simp] theorem State.selectTable_st (s : State) (sel : TableSel) : (s.selectTable sel).st = s.st := rfl
@[simp] theorem State.selectTable_tEntry (s : State) (sel : TableSel) : (s.selectTable sel).tEntry = s.tEntry := rfl
@[simp] theorem State.selectTable_updCnt (s : State) (sel : TableSel) : (s.selectTable sel).updCnt = s.updCnt := rfl
@[simp] theorem State.selectTable_pending (s : State) (sel : TableSel) : (s.selectTable sel).pending = s.pending := rfl
@[simp] theorem State.selectTable_sleepPending (s : State) (sel : TableSel) : (s.selectTable sel).sleepPending = s.sleepPending := rfl
@[simp] theorem State.selectTable_isFull (s : State) (sel : TableSel) : (s.selectTable sel).isFull = s.isFull := rfl
@[simp] theorem State.selectTable_sleepDone (s : State) (sel : TableSel) : (s.selectTable sel).sleepDone = s.sleepDone := rfl
@[simp] theorem State.selectTable_idx (s : State) (sel : TableSel) : (s.selectTable sel).idx = s.idx := rfl
@[simp] theorem State.selectTable_row (s : State) (sel : TableSel) : (s.selectTable sel).row = s.row := rfl
@[simp] theorem State.selectTable_tgt (s : State) (sel : TableSel) : (s.selectTable sel).tgt = s.tgt := rfl
@[simp] theorem State.selectTable_col (s : State) (sel : TableSel) : (s.selectTable sel).col = s.col := rfl
@[simp] theorem State.selectTable_drawReq (s : State) (sel : TableSel) : (s.selectTable sel).drawReq = s.drawReq := rfl
@[simp] theorem State.selectTable_ready (s : State) (sel : TableSel) : (s.selectTable sel).ready = s.ready := rfl
@[simp] theorem State.selectTable_sclk (s : State) (sel : TableSel) : (s.selectTable sel).sclk = s.sclk := rfl
@[simp] theorem State.selectTable_sdin (s : State) (sel : TableSel) : (s.selectTable sel).sdin = s.sdin := rfl
@[simp] theorem State.selectTable_csN (s : State) (sel : TableSel) : (s.selectTable sel).csN = s.csN := rfl
@[simp] theorem State.selectTable_dc (s : State) (sel : TableSel) : (s.selectTable sel).dc = s.dc := rfl
@[simp] theorem State.selectTable_panelRst (s : State) (sel : TableSel) : (s.selectTable sel).panelRst = s.panelRst := rfl
@[simp] theorem State.selectTable_encBusy (s : State) (sel : TableSel) : (s.selectTable sel).encBusy = s.encBusy := rfl
@[simp] theorem State.selectTable_encStep (s : State) (sel : TableSel) : (s.selectTable sel).encStep = s.encStep := rfl
@[simp] theorem State.selectTable_encByte (s : State) (sel : TableSel) : (s.selectTable sel).encByte = s.encByte := rfl
@[simp] theorem State.selectTable_encMode (s : State) (sel : TableSel) : (s.selectTable sel).encMode = s.encMode := rfl
@[simp] theorem State.selectTable_encHold (s : State) (sel : TableSel) : (s.selectTable sel).encHold = s.encHold := rfl
@[simp] theorem State.selectTable_seqSel (s : State) (sel : TableSel) : (s.selectTable sel).seqSel = sel := rfl
@[simp] theorem State.selectTable_seqPtr (s : State) (sel : TableSel) : (s.selectTable sel).seqPtr = 0 := rfl
@[simp] theorem State.selectTable_seqLeft (s : State) (sel : TableSel) : (s.selectTable sel).seqLeft = s.seqLeft := rfl
@[simp] theorem State.selectTable_waitT0 (s : State) (sel : TableSel) : (s.selectTable sel).waitT0 = s.waitT0 := rfl
@[simp] theorem State.selectTable_waitD (s : State) (sel : TableSel) : (s.selectTable sel).waitD = s.waitD := rfl
@[simp] theorem State.selectTable_fb (s : State) (sel : TableSel) : (s.selectTable sel).fb = s.fb := rfl
@[simp] theorem State.selectTable_trace (s : State) (sel : TableSel) : (s.selectTable sel).trace = s.trace := rfl
@[simp] theorem State.selectTable_wave (s : State) (sel : TableSel) : (s.selectTable sel).wave = s.wave := rfl
@[simp] theorem State.selectTable_now (s : State) (sel : TableSel) : (s.selectTable sel).now = s.now := rfl
@[simp] theorem State.selectTable_busyIn (s : State) (sel : TableSel) : (s.selectTable sel).busyIn = s.busyIn := rfl
@[simp] theorem State.selectTable_lapses (s : State) (sel : TableSel) : (s.selectTable sel).lapses = s.lapses := rfl
@[simp] theorem State.selectTable_window (s : State) (sel : TableSel) : (s.selectTable sel).window = s.window := rfl
@[simp] theorem State.selectTable_work (s : State) (sel : TableSel) : (s.selectTable sel).work = s.work := rfl
@[simp] theorem State.selectTable_inputs (s : State) (sel : TableSel) : (s.selectTable sel).inputs = s.inputs := rfl

/-! ### `State.advanceIdx` -/

@[simp] theorem State.advanceIdx_cfg (s : State) (n : Nat) : (s.advanceIdx n).cfg = s.cfg := rfl
@[simp] theorem State.advanceIdx_st (s : State) (n : Nat) : (s.advanceIdx n).st = s.st := rfl
@[simp] theorem State.advanceIdx_tEntry (s : State) (n : Nat) : (s.advanceIdx n).tEntry = s.tEntry := rfl
@[simp] theorem State.advanceIdx_updCnt (s : State) (n : Nat) : (s.advanceIdx n).updCnt = s.updCnt := rfl
@[simp] theorem State.advanceIdx_pending (s : State) (n : Nat) : (s.advanceIdx n).pending = s.pending := rfl
@[simp] theorem State.advanceIdx_sleepPending (s : State) (n : Nat) : (s.advanceIdx n).sleepPending = s.sleepPending := rfl
@[simp] theorem State.advanceIdx_isFull (s : State) (n : Nat) : (s.advanceIdx n).isFull = s.isFull := rfl
@[simp] theorem State.advanceIdx_sleepDone (s : State) (n : Nat) : (s.advanceIdx n).sleepDone = s.sleepDone := rfl
@[simp] theorem State.advanceIdx_idx (s : State) (n : Nat) : (s.advanceIdx n).idx = s.idx + BitVec.ofNat 32 n := rfl
@[simp] theorem State.advanceIdx_row (s : State) (n : Nat) : (s.advanceIdx n).row = s.row := rfl
@[simp] theorem State.advanceIdx_tgt (s : State) (n : Nat) : (s.advanceIdx n).tgt = s.tgt := rfl
@[simp] theorem State.advanceIdx_col (s : State) (n : Nat) : (s.advanceIdx n).col = s.col := rfl
@[simp] theorem State.advanceIdx_drawReq (s : State) (n : Nat) : (s.advanceIdx n).drawReq = s.drawReq := rfl
@[simp] theorem State.advanceIdx_ready (s : State) (n : Nat) : (s.advanceIdx n).ready = s.ready := rfl
@[simp] theorem State.advanceIdx_sclk (s : State) (n : Nat) : (s.advanceIdx n).sclk = s.sclk := rfl
@[simp] theorem State.advanceIdx_sdin (s : State) (n : Nat) : (s.advanceIdx n).sdin = s.sdin := rfl
@[simp] theorem State.advanceIdx_csN (s : State) (n : Nat) : (s.advanceIdx n).csN = s.csN := rfl
@[simp] theorem State.advanceIdx_dc (s : State) (n : Nat) : (s.advanceIdx n).dc = s.dc := rfl
@[simp] theorem State.advanceIdx_panelRst (s : State) (n : Nat) : (s.advanceIdx n).panelRst = s.panelRst := rfl
@[simp] theorem State.advanceIdx_encBusy (s : State) (n : Nat) : (s.advanceIdx n).encBusy = s.encBusy := rfl
@[simp] theorem State.advanceIdx_encStep (s : State) (n : Nat) : (s.advanceIdx n).encStep = s.encStep := rfl
@[simp] theorem State.advanceIdx_encByte (s : State) (n : Nat) : (s.advanceIdx n).encByte = s.encByte := rfl
@[simp] theorem State.advanceIdx_encMode (s : State) (n : Nat) : (s.advanceIdx n).encMode = s.encMode := rfl
@[simp] theorem State.advanceIdx_encHold (s : State) (n : Nat) : (s.advanceIdx n).encHold = s.encHold := rfl
@[simp] theorem State.advanceIdx_seqSel (s : State) (n : Nat) : (s.advanceIdx n).seqSel = s.seqSel := rfl
@[simp] theorem State.advanceIdx_seqPtr (s : State) (n : Nat) : (s.advanceIdx n).seqPtr = s.seqPtr := rfl
@[simp] theorem State.advanceIdx_seqLeft (s : State) (n : Nat) : (s.advanceIdx n).seqLeft = s.seqLeft := rfl
@[simp] theorem State.advanceIdx_waitT0 (s : State) (n : Nat) : (s.advanceIdx n).waitT0 = s.waitT0 := rfl
@[simp] theorem State.advanceIdx_waitD (s : State) (n : Nat) : (s.advanceIdx n).waitD = s.waitD := rfl
@[simp] theorem State.advanceIdx_fb (s : State) (n : Nat) : (s.advanceIdx n).fb = s.fb := rfl
@[simp] theorem State.advanceIdx_trace (s : State) (n : Nat) : (s.advanceIdx n).trace = s.trace := rfl
@[simp] theorem State.advanceIdx_wave (s : State) (n : Nat) : (s.advanceIdx n).wave = s.wave := rfl
@[simp] theorem State.advanceIdx_now (s : State) (n : Nat) : (s.advanceIdx n).now = s.now := rfl
@[simp] theorem State.advanceIdx_busyIn (s : State) (n : Nat) : (s.advanceIdx n).busyIn = s.busyIn := rfl
@[simp] theorem State.advanceIdx_lapses (s : State) (n : Nat) : (s.advanceIdx n).lapses = s.lapses := rfl
@[simp] theorem State.advanceIdx_window (s : State) (n : Nat) : (s.advanceIdx n).window = s.window := rfl
@[simp] theorem State.advanceIdx_work (s : State) (n : Nat) : (s.advanceIdx n).work = s.work := rfl
@[simp] theorem State.advanceIdx_inputs (s : State) (n : Nat) : (s.advanceIdx n).inputs = s.inputs := rfl

/-! ### `State.advanceRow` -/

@[simp] theorem State.advanceRow_cfg (s : State) (n : Nat) : (s.advanceRow n).cfg = s.cfg := rfl
@[simp] theorem State.advanceRow_st (s : State) (n : Nat) : (s.advanceRow n).st = s.st := rfl
@[simp] theorem State.advanceRow_tEntry (s : State) (n : Nat) : (s.advanceRow n).tEntry = s.tEntry := rfl
@[simp] theorem State.advanceRow_updCnt (s : State) (n : Nat) : (s.advanceRow n).updCnt = s.updCnt := rfl
@[simp] theorem State.advanceRow_pending (s : State) (n : Nat) : (s.advanceRow n).pending = s.pending := rfl
@[simp] theorem State.advanceRow_sleepPending (s : State) (n : Nat) : (s.advanceRow n).sleepPending = s.sleepPending := rfl
@[simp] theorem State.advanceRow_isFull (s : State) (n : Nat) : (s.advanceRow n).isFull = s.isFull := rfl
@[simp] theorem State.advanceRow_sleepDone (s : State) (n : Nat) : (s.advanceRow n).sleepDone = s.sleepDone := rfl
@[simp] theorem State.advanceRow_idx (s : State) (n : Nat) : (s.advanceRow n).idx = s.idx := rfl
@[simp] theorem State.advanceRow_row (s : State) (n : Nat) : (s.advanceRow n).row = s.row + BitVec.ofNat 16 n := rfl
@[simp] theorem State.advanceRow_tgt (s : State) (n : Nat) : (s.advanceRow n).tgt = s.tgt := rfl
@[simp] theorem State.advanceRow_col (s : State) (n : Nat) : (s.advanceRow n).col = 0 := rfl
@[simp] theorem State.advanceRow_drawReq (s : State) (n : Nat) : (s.advanceRow n).drawReq = s.drawReq := rfl
@[simp] theorem State.advanceRow_ready (s : State) (n : Nat) : (s.advanceRow n).ready = s.ready := rfl
@[simp] theorem State.advanceRow_sclk (s : State) (n : Nat) : (s.advanceRow n).sclk = s.sclk := rfl
@[simp] theorem State.advanceRow_sdin (s : State) (n : Nat) : (s.advanceRow n).sdin = s.sdin := rfl
@[simp] theorem State.advanceRow_csN (s : State) (n : Nat) : (s.advanceRow n).csN = s.csN := rfl
@[simp] theorem State.advanceRow_dc (s : State) (n : Nat) : (s.advanceRow n).dc = s.dc := rfl
@[simp] theorem State.advanceRow_panelRst (s : State) (n : Nat) : (s.advanceRow n).panelRst = s.panelRst := rfl
@[simp] theorem State.advanceRow_encBusy (s : State) (n : Nat) : (s.advanceRow n).encBusy = s.encBusy := rfl
@[simp] theorem State.advanceRow_encStep (s : State) (n : Nat) : (s.advanceRow n).encStep = s.encStep := rfl
@[simp] theorem State.advanceRow_encByte (s : State) (n : Nat) : (s.advanceRow n).encByte = s.encByte := rfl
@[simp] theorem State.advanceRow_encMode (s : State) (n : Nat) : (s.advanceRow n).encMode = s.encMode := rfl
@[simp] theorem State.advanceRow_encHold (s : State) (n : Nat) : (s.advanceRow n).encHold = s.encHold := rfl
@[simp] theorem State.advanceRow_seqSel (s : State) (n : Nat) : (s.advanceRow n).seqSel = s.seqSel := rfl
@[simp] theorem State.advanceRow_seqPtr (s : State) (n : Nat) : (s.advanceRow n).seqPtr = s.seqPtr := rfl
@[simp] theorem State.advanceRow_seqLeft (s : State) (n : Nat) : (s.advanceRow n).seqLeft = s.seqLeft := rfl
@[simp] theorem State.advanceRow_waitT0 (s : State) (n : Nat) : (s.advanceRow n).waitT0 = s.waitT0 := rfl
@[simp] theorem State.advanceRow_waitD (s : State) (n : Nat) : (s.advanceRow n).waitD = s.waitD := rfl
@[simp] theorem State.advanceRow_fb (s : State) (n : Nat) : (s.advanceRow n).fb = s.fb := rfl
@[simp] theorem State.advanceRow_trace (s : State) (n : Nat) : (s.advanceRow n).trace = s.trace := rfl
@[simp] theorem State.advanceRow_wave (s : State) (n : Nat) : (s.advanceRow n).wave = s.wave := rfl
@[simp] theorem State.advanceRow_now (s : State) (n : Nat) : (s.advanceRow n).now = s.now := rfl
@[simp] theorem State.advanceRow_busyIn (s : State) (n : Nat) : (s.advanceRow n).busyIn = s.busyIn := rfl
@[simp] theorem State.advanceRow_lapses (s : State) (n : Nat) : (s.advanceRow n).lapses = s.lapses := rfl
@[simp] theorem State.advanceRow_window (s : State) (n : Nat) : (s.advanceRow n).window = s.window := rfl
@[simp] theorem State.advanceRow_work (s : State) (n : Nat) : (s.advanceRow n).work = s.work := rfl
@[simp] theorem State.advanceRow_inputs (s : State) (n : Nat) : (s.advanceRow n).inputs = s.inputs := rfl

/-! ### `State.toSecondary` -/

@[simp] theorem State.toSecondary_cfg (s : State) : (s.toSecondary).cfg = s.cfg := rfl
@[simp] theorem State.toSecondary_st (s : State) : (s.toSecondary).st = s.st := rfl
@[simp] theorem State.toSecondary_tEntry (s : State) : (s.toSecondary).tEntry = s.tEntry := rfl
@[simp] theorem State.toSecondary_updCnt (s : State) : (s.toSecondary).updCnt = s.updCnt := rfl
@[simp] theorem State.toSecondary_pending (s : State) : (s.toSecondary).pending = s.pending := rfl
@[simp] theorem State.toSecondary_sleepPending (s : State) : (s.toSecondary).sleepPending = s.sleepPending := rfl
@[simp] theorem State.toSecondary_isFull (s : State) : (s.toSecondary).isFull = s.isFull := rfl
@[simp] theorem State.toSecondary_sleepDone (s : State) : (s.toSecondary).sleepDone = s.sleepDone := rfl
@[simp] theorem State.toSecondary_idx (s : State) : (s.toSecondary).idx = s.idx := rfl
@[simp] theorem State.toSecondary_row (s : State) : (s.toSecondary).row = 0 := rfl
@[simp] theorem State.toSecondary_tgt (s : State) : (s.toSecondary).tgt = true := rfl
@[simp] theorem State.toSecondary_col (s : State) : (s.toSecondary).col = s.col := rfl
@[simp] theorem State.toSecondary_drawReq (s : State) : (s.toSecondary).drawReq = s.drawReq := rfl
@[simp] theorem State.toSecondary_ready (s : State) : (s.toSecondary).ready = s.ready := rfl
@[simp] theorem State.toSecondary_sclk (s : State) : (s.toSecondary).sclk = s.sclk := rfl
@[simp] theorem State.toSecondary_sdin (s : State) : (s.toSecondary).sdin = s.sdin := rfl
@[simp] theorem State.toSecondary_csN (s : State) : (s.toSecondary).csN = s.csN := rfl
@[simp] theorem State.toSecondary_dc (s : State) : (s.toSecondary).dc = s.dc := rfl
@[simp] theorem State.toSecondary_panelRst (s : State) : (s.toSecondary).panelRst = s.panelRst := rfl
@[simp] theorem State.toSecondary_encBusy (s : State) : (s.toSecondary).encBusy = s.encBusy := rfl
@[simp] theorem State.toSecondary_encStep (s : State) : (s.toSecondary).encStep = s.encStep := rfl
@[simp] theorem State.toSecondary_encByte (s : State) : (s.toSecondary).encByte = s.encByte := rfl
@[simp] theorem State.toSecondary_encMode (s : State) : (s.toSecondary).encMode = s.encMode := rfl
@[simp] theorem State.toSecondary_encHold (s : State) : (s.toSecondary).encHold = s.encHold := rfl
@[simp] theorem State.toSecondary_seqSel (s : State) : (s.toSecondary).seqSel = s.seqSel := rfl
@[simp] theorem State.toSecondary_seqPtr (s : State) : (s.toSecondary).seqPtr = s.seqPtr := rfl
@[simp] theorem State.toSecondary_seqLeft (s : State) : (s.toSecondary).seqLeft = s.seqLeft := rfl
@[simp] theorem State.toSecondary_waitT0 (s : State) : (s.toSecondary).waitT0 = s.waitT0 := rfl
@[simp] theorem State.toSecondary_waitD (s : State) : (s.toSecondary).waitD = s.waitD := rfl
@[simp] theorem State.toSecondary_fb (s : State) : (s.toSecondary).fb = s.fb := rfl
@[simp] theorem State.toSecondary_trace (s : State) : (s.toSecondary).trace = s.trace := rfl
@[simp] theorem State.toSecondary_wave (s : State) : (s.toSecondary).wave = s.wave := rfl
@[simp] theorem State.toSecondary_now (s : State) : (s.toSecondary).now = s.now := rfl
@[simp] theorem State.toSecondary_busyIn (s : State) : (s.toSecondary).busyIn = s.busyIn := rfl
@[simp] theorem State.toSecondary_lapses (s : State) : (s.toSecondary).lapses = s.lapses := rfl
@[simp] theorem State.toSecondary_window (s : State) : (s.toSecondary).window = s.window := rfl
@[simp] theorem State.toSecondary_work (s : State) : (s.toSecondary).work = s.work := rfl
@[simp] theorem State.toSecondary_inputs (s : State) : (s.toSecondary).inputs = s.inputs := rfl

/-! ### `State.resetCursor` -/

@[simp] theorem State.resetCursor_cfg (s : State) : (s.resetCursor).cfg = s.cfg := rfl
@[simp] theorem State.resetCursor_st (s : State) : (s.resetCursor).st = s.st := rfl
@[simp] theorem State.resetCursor_tEntry (s : State) : (s.resetCursor).tEntry = s.tEntry := rfl
@[simp] theorem State.resetCursor_updCnt (s : State) : (s.resetCursor).updCnt = s.updCnt := rfl
@[simp] theorem State.resetCursor_pending (s : State) : (s.resetCursor).pending = s.pending := rfl
@[simp] theorem State.resetCursor_sleepPending (s : State) : (s.resetCursor).sleepPending = s.sleepPending := rfl
@[simp] theorem State.resetCursor_isFull (s : State) : (s.resetCursor).isFull = s.isFull := rfl
@[simp] theorem State.resetCursor_sleepDone (s : State) : (s.resetCursor).sleepDone = s.sleepDone := rfl
@[simp] theorem State.resetCursor_idx (s : State) : (s.resetCursor).idx = 0 := rfl
@[simp] theorem State.resetCursor_row (s : State) : (s.resetCursor).row = 0 := rfl
@[simp] theorem State.resetCursor_tgt (s : State) : (s.resetCursor).tgt = false := rfl
@[simp] theorem State.resetCursor_col (s : State) : (s.resetCursor).col = s.col := rfl
@[simp] theorem State.resetCursor_drawReq (s : State) : (s.resetCursor).drawReq = s.drawReq := rfl
@[simp] theorem State.resetCursor_ready (s : State) : (s.resetCursor).ready = s.ready := rfl
@[simp] theorem State.resetCursor_sclk (s : State) : (s.resetCursor).sclk = s.sclk := rfl
@[simp] theorem State.resetCursor_sdin (s : State) : (s.resetCursor).sdin = s.sdin := rfl
@[simp] theorem State.resetCursor_csN (s : State) : (s.resetCursor).csN = s.csN := rfl
@[simp] theorem State.resetCursor_dc (s : State) : (s.resetCursor).dc = s.dc := rfl
@[simp] theorem State.resetCursor_panelRst (s : State) : (s.resetCursor).panelRst = s.panelRst := rfl
@[simp] theorem State.resetCursor_encBusy (s : State) : (s.resetCursor).encBusy = s.encBusy := rfl
@[simp] theorem State.resetCursor_encStep (s : State) : (s.resetCursor).encStep = s.encStep := rfl
@[simp] theorem State.resetCursor_encByte (s : State) : (s.resetCursor).encByte = s.encByte := rfl
@[simp] theorem State.resetCursor_encMode (s : State) : (s.resetCursor).encMode = s.encMode := rfl
@[simp] theorem State.resetCursor_encHold (s : State) : (s.resetCursor).encHold = s.encHold := rfl
@[simp] theorem State.resetCursor_seqSel (s : State) : (s.resetCursor).seqSel = s.seqSel := rfl
@[simp] theorem State.resetCursor_seqPtr (s : State) : (s.resetCursor).seqPtr = s.seqPtr := rfl
@[simp] theorem State.resetCursor_seqLeft (s : State) : (s.resetCursor).seqLeft = s.seqLeft := rfl
@[simp] theorem State.resetCursor_waitT0 (s : State) : (s.resetCursor).waitT0 = s.waitT0 := rfl
@[simp] theorem State.resetCursor_waitD (s : State) : (s.resetCursor).waitD = s.waitD := rfl
@[simp] theorem State.resetCursor_fb (s : State) : (s.resetCursor).fb = s.fb := rfl
@[simp] theorem State.resetCursor_trace (s : State) : (s.resetCursor).trace = s.trace := rfl
@[simp] theorem State.resetCursor_wave (s : State) : (s.resetCursor).wave = s.wave := rfl
@[simp] theorem State.resetCursor_now (s : State) : (s.resetCursor).now = s.now := rfl
@[simp] theorem State.resetCursor_busyIn (s : State) : (s.resetCursor).busyIn = s.busyIn := rfl
@[simp] theorem State.resetCursor_lapses (s : State) : (s.resetCursor).lapses = s.lapses := rfl
@[simp] theorem State.resetCursor_window (s : State) : (s.resetCursor).window = s.window := rfl
@[simp] theorem State.resetCursor_work (s : State) : (s.resetCursor).work = s.work := rfl
@[simp] theorem State.resetCursor_inputs (s : State) : (s.resetCursor).inputs = s.inputs := rfl

/-! ### `State.push` -/

@[simp] theorem State.push_cfg (s : State) (ts : List Task) : (s.push ts).cfg = s.cfg := rfl
@[simp] theorem State.push_st (s : State) (ts : List Task) : (s.push ts).st = s.st := rfl
@[simp] theorem State.push_tEntry (s : State) (ts : List Task) : (s.push ts).tEntry = s.tEntry := rfl
@[simp] theorem State.push_updCnt (s : State) (ts : List Task) : (s.push ts).updCnt = s.updCnt := rfl
@[simp] theorem State.push_pending (s : State) (ts : List Task) : (s.push ts).pending = s.pending := rfl
@[simp] theorem State.push_sleepPending (s : State) (ts : List Task) : (s.push ts).sleepPending = s.sleepPending := rfl
@[simp] theorem State.push_isFull (s : State) (ts : List Task) : (s.push ts).isFull = s.isFull := rfl
@[simp] theorem State.push_sleepDone (s : State) (ts : List Task) : (s.push ts).sleepDone = s.sleepDone := rfl
@[simp] theorem State.push_idx (s : State) (ts : List Task) : (s.push ts).idx = s.idx := rfl
@[simp] theorem State.push_row (s : State) (ts : List Task) : (s.push ts).row = s.row := rfl
@[simp] theorem State.push_tgt (s : State) (ts : List Task) : (s.push ts).tgt = s.tgt := rfl
@[simp] theorem State.push_col (s : State) (ts : List Task) : (s.push ts).col = s.col := rfl
@[simp] theorem State.push_drawReq (s : State) (ts : List Task) : (s.push ts).drawReq = s.drawReq := rfl
@[simp] theorem State.push_ready (s : State) (ts : List Task) : (s.push ts).ready = s.ready := rfl
@[simp] theorem State.push_sclk (s : State) (ts : List Task) : (s.push ts).sclk = s.sclk := rfl
@[simp] theorem State.push_sdin (s : State) (ts : List Task) : (s.push ts).sdin = s.sdin := rfl
@[simp] theorem State.push_csN (s : State) (ts : List Task) : (s.push ts).csN = s.csN := rfl
@[simp] theorem State.push_dc (s : State) (ts : List Task) : (s.push ts).dc = s.dc := rfl
@[simp] theorem State.push_panelRst (s : State) (ts : List Task) : (s.push ts).panelRst = s.panelRst := rfl
@[simp] theorem State.push_encBusy (s : State) (ts : List Task) : (s.push ts).encBusy = s.encBusy := rfl
@[simp] theorem State.push_encStep (s : State) (ts : List Task) : (s.push ts).encStep = s.encStep := rfl
@[simp] theorem State.push_encByte (s : State) (ts : List Task) : (s.push ts).encByte = s.encByte := rfl
@[simp] theorem State.push_encMode (s : State) (ts : List Task) : (s.push ts).encMode = s.encMode := rfl
@[simp] theorem State.push_encHold (s : State) (ts : List Task) : (s.push ts).encHold = s.encHold := rfl
@[simp] theorem State.push_seqSel (s : State) (ts : List Task) : (s.push ts).seqSel = s.seqSel := rfl
@[simp] theorem State.push_seqPtr (s : State) (ts : List Task) : (s.push ts).seqPtr = s.seqPtr := rfl
@[simp] theorem State.push_seqLeft (s : State) (ts : List Task) : (s.push ts).seqLeft = s.seqLeft := rfl
@[simp] theorem State.push_waitT0 (s : State) (ts : List Task) : (s.push ts).waitT0 = s.waitT0 := rfl
@[simp] theorem State.push_waitD (s : State) (ts : List Task) : (s.push ts).waitD = s.waitD := rfl
@[simp] theorem State.push_fb (s : State) (ts : List Task) : (s.push ts).fb = s.fb := rfl
@[simp] theorem State.push_trace (s : State) (ts : List Task) : (s.push ts).trace = s.trace := rfl
@[simp] theorem State.push_wave (s : State) (ts : List Task) : (s.push ts).wave = s.wave := rfl
@[simp] theorem State.push_now (s : State) (ts : List Task) : (s.push ts).now = s.now := rfl
@[simp] theorem State.push_busyIn (s : State) (ts : List Task) : (s.push ts).busyIn = s.busyIn := rfl
@[simp] theorem State.push_lapses (s : State) (ts : List Task) : (s.push ts).lapses = s.lapses := rfl
@[simp] theorem State.push_window (s : State) (ts : List Task) : (s.push ts).window = s.window := rfl
@[simp] theorem State.push_work (s : State) (ts : List Task) : (s.push ts).work = ts ++ s.work := rfl
@[simp] theorem State.push_inputs (s : State) (ts : List Task) : (s.push ts).inputs = s.inputs := rfl

/-! ### `State.sample` -/

@[simp] theorem State.sample_cfg (s : State) (p : Ports) (d : Draws) : (s.sample p d).cfg = s.cfg := rfl
@[simp] theorem State.sample_st (s : State) (p : Ports) (d : Draws) : (s.sample p d).st = s.st := rfl
@[simp] theorem State.sample_tEntry (s : State) (p : Ports) (d : Draws) : (s.sample p d).tEntry = s.tEntry := rfl
@[simp] theorem State.sample_updCnt (s : State) (p : Ports) (d : Draws) : (s.sample p d).updCnt = s.updCnt := rfl
@[simp] theorem State.sample_pending (s : State) (p : Ports) (d : Draws) : (s.sample p d).pending = s.pending := rfl
@[simp] theorem State.sample_sleepPending (s : State) (p : Ports) (d : Draws) : (s.sample p d).sleepPending = s.sleepPending := rfl
@[simp] theorem State.sample_isFull (s : State) (p : Ports) (d : Draws) : (s.sample p d).isFull = s.isFull := rfl
@[simp] theorem State.sample_sleepDone (s : State) (p : Ports) (d : Draws) : (s.sample p d).sleepDone = s.sleepDone := rfl
@[simp] theorem State.sample_idx (s : State) (p : Ports) (d : Draws) : (s.sample p d).idx = s.idx := rfl
@[simp] theorem State.sample_row (s : State) (p : Ports) (d : Draws) : (s.sample p d).row = s.row := rfl
@[simp] theorem State.sample_tgt (s : State) (p : Ports) (d : Draws) : (s.sample p d).tgt = s.tgt := rfl
@[simp] theorem State.sample_col (s : State) (p : Ports) (d : Draws) : (s.sample p d).col = s.col := rfl
@[simp] theorem State.sample_drawReq (s : State) (p : Ports) (d : Draws) : (s.sample p d).drawReq = s.drawReq := rfl
@[simp] theorem State.sample_ready (s : State) (p : Ports) (d : Draws) : (s.sample p d).ready = s.ready := rfl
@[simp] theorem State.sample_sclk (s : State) (p : Ports) (d : Draws) : (s.sample p d).sclk = s.sclk := rfl
@[simp] theorem State.sample_sdin (s : State) (p : Ports) (d : Draws) : (s.sample p d).sdin = s.sdin := rfl
@[simp] theorem State.sample_csN (s : State) (p : Ports) (d : Draws) : (s.sample p d).csN = s.csN := rfl
@[simp] theorem State.sample_dc (s : State) (p : Ports) (d : Draws) : (s.sample p d).dc = s.dc := rfl
@[simp] theorem State.sample_panelRst (s : State) (p : Ports) (d : Draws) : (s.sample p d).panelRst = s.panelRst := rfl
@[simp] theorem State.sample_encBusy (s : State) (p : Ports) (d : Draws) : (s.sample p d).encBusy = s.encBusy := rfl
@[simp] theorem State.sample_encStep (s : State) (p : Ports) (d : Draws) : (s.sample p d).encStep = s.encStep := rfl
@[simp] theorem State.sample_encByte (s : State) (p : Ports) (d : Draws) : (s.sample p d).encByte = s.encByte := rfl
@[simp] theorem State.sample_encMode (s : State) (p : Ports) (d : Draws) : (s.sample p d).encMode = s.encMode := rfl
@[simp] theorem State.sample_encHold (s : State) (p : Ports) (d : Draws) : (s.sample p d).encHold = s.encHold := rfl
@[simp] theorem State.sample_seqSel (s : State) (p : Ports) (d : Draws) : (s.sample p d).seqSel = s.seqSel := rfl
@[simp] theorem State.sample_seqPtr (s : State) (p : Ports) (d : Draws) : (s.sample p d).seqPtr = s.seqPtr := rfl
@[simp] theorem State.sample_seqLeft (s : State) (p : Ports) (d : Draws) : (s.sample p d).seqLeft = s.seqLeft := rfl
@[simp] theorem State.sample_waitT0 (s : State) (p : Ports) (d : Draws) : (s.sample p d).waitT0 = s.waitT0 := rfl
@[simp] theorem State.sample_waitD (s : State) (p : Ports) (d : Draws) : (s.sample p d).waitD = s.waitD := rfl
@[simp] theorem State.sample_fb (s : State) (p : Ports) (d : Draws) : (s.sample p d).fb = s.fb := rfl
@[simp] theorem State.sample_trace (s : State) (p : Ports) (d : Draws) : (s.sample p d).trace = s.trace := rfl
@[simp] theorem State.sample_wave (s : State) (p : Ports) (d : Draws) : (s.sample p d).wave = s.wave := rfl
@[simp] theorem State.sample_now (s : State) (p : Ports) (d : Draws) : (s.sample p d).now = p.nowMs := rfl
@[simp] theorem State.sample_busyIn (s : State) (p : Ports) (d : Draws) : (s.sample p d).busyIn = p.busyIn := rfl
@[simp] theorem State.sample_lapses (s : State) (p : Ports) (d : Draws) : (s.sample p d).lapses = d.lapses := rfl
@[simp] theorem State.sample_window (s : State) (p : Ports) (d : Draws) : (s.sample p d).window = d.window := rfl
@[simp] theorem State.sample_work (s : State) (p : Ports) (d : Draws) : (s.sample p d).work = s.work := rfl
@[simp] theorem State.sample_inputs (s : State) (p : Ports) (d : Draws) : (s.sample p d).inputs = s.inputs := rfl

/-! ### `State.dropDraws` -/

@[simp] theorem State.dropDraws_cfg (s : State) : (s.dropDraws).cfg = s.cfg := rfl
@[simp] theorem State.dropDraws_st (s : State) : (s.dropDraws).st = s.st := rfl
@[simp] theorem State.dropDraws_tEntry (s : State) : (s.dropDraws).tEntry = s.tEntry := rfl
@[simp] theorem State.dropDraws_updCnt (s : State) : (s.dropDraws).updCnt = s.updCnt := rfl
@[simp] theorem State.dropDraws_pending (s : State) : (s.dropDraws).pending = s.pending := rfl
@[simp] theorem State.dropDraws_sleepPending (s : State) : (s.dropDraws).sleepPending = s.sleepPending := rfl
@[simp] theorem State.dropDraws_isFull (s : State) : (s.dropDraws).isFull = s.isFull := rfl
@[simp] theorem State.dropDraws_sleepDone (s : State) : (s.dropDraws).sleepDone = s.sleepDone := rfl
@[simp] theorem State.dropDraws_idx (s : State) : (s.dropDraws).idx = s.idx := rfl
@[simp] theorem State.dropDraws_row (s : State) : (s.dropDraws).row = s.row := rfl
@[simp] theorem State.dropDraws_tgt (s : State) : (s.dropDraws).tgt = s.tgt := rfl
@[simp] theorem State.dropDraws_col (s : State) : (s.dropDraws).col = s.col := rfl
@[simp] theorem State.dropDraws_drawReq (s : State) : (s.dropDraws).drawReq = s.drawReq := rfl
@[simp] theorem State.dropDraws_ready (s : State) : (s.dropDraws).ready = s.ready := rfl
@[simp] theorem State.dropDraws_sclk (s : State) : (s.dropDraws).sclk = s.sclk := rfl
@[simp] theorem State.dropDraws_sdin (s : State) : (s.dropDraws).sdin = s.sdin := rfl
@[simp] theorem State.dropDraws_csN (s : State) : (s.dropDraws).csN = s.csN := rfl
@[simp] theorem State.dropDraws_dc (s : State) : (s.dropDraws).dc = s.dc := rfl
@[simp] theorem State.dropDraws_panelRst (s : State) : (s.dropDraws).panelRst = s.panelRst := rfl
@[simp] theorem State.dropDraws_encBusy (s : State) : (s.dropDraws).encBusy = s.encBusy := rfl
@[simp] theorem State.dropDraws_encStep (s : State) : (s.dropDraws).encStep = s.encStep := rfl
@[simp] theorem State.dropDraws_encByte (s : State) : (s.dropDraws).encByte = s.encByte := rfl
@[simp] theorem State.dropDraws_encMode (s : State) : (s.dropDraws).encMode = s.encMode := rfl
@[simp] theorem State.dropDraws_encHold (s : State) : (s.dropDraws).encHold = s.encHold := rfl
@[simp] theorem State.dropDraws_seqSel (s : State) : (s.dropDraws).seqSel = s.seqSel := rfl
@[simp] theorem State.dropDraws_seqPtr (s : State) : (s.dropDraws).seqPtr = s.seqPtr := rfl
@[simp] theorem State.dropDraws_seqLeft (s : State) : (s.dropDraws).seqLeft = s.seqLeft := rfl
@[simp] theorem State.dropDraws_waitT0 (s : State) : (s.dropDraws).waitT0 = s.waitT0 := rfl
@[simp] theorem State.dropDraws_waitD (s : State) : (s.dropDraws).waitD = s.waitD := rfl
@[simp] theorem State.dropDraws_fb (s : State) : (s.dropDraws).fb = s.fb := rfl
@[simp] theorem State.dropDraws_trace (s : State) : (s.dropDraws).trace = s.trace := rfl
@[simp] theorem State.dropDraws_wave (s : State) : (s.dropDraws).wave = s.wave := rfl
@[simp] theorem State.dropDraws_now (s : State) : (s.dropDraws).now = s.now := rfl
@[simp] theorem State.dropDraws_busyIn (s : State) : (s.dropDraws).busyIn = s.busyIn := rfl
@[simp] theorem State.dropDraws_lapses (s : State) : (s.dropDraws).lapses = [] := rfl
@[simp] theorem State.dropDraws_window (s : State) : (s.dropDraws).window = none := rfl
@[simp] theorem State.dropDraws_work (s : State) : (s.dropDraws).work = s.work := rfl
@[simp] theorem State.dropDraws_inputs (s : State) : (s.dropDraws).inputs = s.inputs := rfl

/-! ### `State.acceptTick` -/

@[simp] theorem State.acceptTick_cfg (s : State) : (s.acceptTick).cfg = s.cfg := rfl
@[simp] theorem State.acceptTick_st (s : State) : (s.acceptTick).st = s.st := rfl
@[simp] theorem State.acceptTick_tEntry (s : State) : (s.acceptTick).tEntry = s.tEntry := rfl
@[simp] theorem State.acceptTick_updCnt (s : State) : (s.acceptTick).updCnt = s.updCnt := rfl
@[simp] theorem State.acceptTick_pending (s : State) : (s.acceptTick).pending = s.pending := rfl
@[simp] theorem State.acceptTick_sleepPending (s : State) : (s.acceptTick).sleepPending = s.sleepPending := rfl
@[simp] theorem State.acceptTick_isFull (s : State) : (s.acceptTick).isFull = s.isFull := rfl
@[simp] theorem State.acceptTick_sleepDone (s : State) : (s.acceptTick).sleepDone = s.sleepDone := rfl
@[simp] theorem State.acceptTick_idx (s : State) : (s.acceptTick).idx = s.idx := rfl
@[simp] theorem State.acceptTick_row (s : State) : (s.acceptTick).row = s.row := rfl
@[simp] theorem State.acceptTick_tgt (s : State) : (s.acceptTick).tgt = s.tgt := rfl
@[simp] theorem State.acceptTick_col (s : State) : (s.acceptTick).col = s.col := rfl
@[simp] theorem State.acceptTick_drawReq (s : State) : (s.acceptTick).drawReq = s.drawReq := rfl
@[simp] theorem State.acceptTick_ready (s : State) : (s.acceptTick).ready = false := rfl
@[simp] theorem State.acceptTick_sclk (s : State) : (s.acceptTick).sclk = s.sclk := rfl
@[simp] theorem State.acceptTick_sdin (s : State) : (s.acceptTick).sdin = s.sdin := rfl
@[simp] theorem State.acceptTick_csN (s : State) : (s.acceptTick).csN = s.csN := rfl
@[simp] theorem State.acceptTick_dc (s : State) : (s.acceptTick).dc = s.dc := rfl
@[simp] theorem State.acceptTick_panelRst (s : State) : (s.acceptTick).panelRst = s.panelRst := rfl
@[simp] theorem State.acceptTick_encBusy (s : State) : (s.acceptTick).encBusy = s.encBusy := rfl
@[simp] theorem State.acceptTick_encStep (s : State) : (s.acceptTick).encStep = s.encStep := rfl
@[simp] theorem State.acceptTick_encByte (s : State) : (s.acceptTick).encByte = s.encByte := rfl
@[simp] theorem State.acceptTick_encMode (s : State) : (s.acceptTick).encMode = s.encMode := rfl
@[simp] theorem State.acceptTick_encHold (s : State) : (s.acceptTick).encHold = s.encHold := rfl
@[simp] theorem State.acceptTick_seqSel (s : State) : (s.acceptTick).seqSel = s.seqSel := rfl
@[simp] theorem State.acceptTick_seqPtr (s : State) : (s.acceptTick).seqPtr = s.seqPtr := rfl
@[simp] theorem State.acceptTick_seqLeft (s : State) : (s.acceptTick).seqLeft = s.seqLeft := rfl
@[simp] theorem State.acceptTick_waitT0 (s : State) : (s.acceptTick).waitT0 = s.waitT0 := rfl
@[simp] theorem State.acceptTick_waitD (s : State) : (s.acceptTick).waitD = s.waitD := rfl
@[simp] theorem State.acceptTick_fb (s : State) : (s.acceptTick).fb = s.fb := rfl
@[simp] theorem State.acceptTick_trace (s : State) : (s.acceptTick).trace = s.trace := rfl
@[simp] theorem State.acceptTick_wave (s : State) : (s.acceptTick).wave = s.wave := rfl
@[simp] theorem State.acceptTick_now (s : State) : (s.acceptTick).now = s.now := rfl
@[simp] theorem State.acceptTick_busyIn (s : State) : (s.acceptTick).busyIn = s.busyIn := rfl
@[simp] theorem State.acceptTick_lapses (s : State) : (s.acceptTick).lapses = s.lapses := rfl
@[simp] theorem State.acceptTick_window (s : State) : (s.acceptTick).window = s.window := rfl
@[simp] theorem State.acceptTick_work (s : State) : (s.acceptTick).work = [.action] := rfl
@[simp] theorem State.acceptTick_inputs (s : State) : (s.acceptTick).inputs = s.inputs := rfl

/-! ### `State.boundDraws` -/

@[simp] theorem State.boundDraws_cfg (s : State) (ops : List SeqOp) : (s.boundDraws ops).cfg = s.cfg := rfl
@[simp] theorem State.boundDraws_st (s : State) (ops : List SeqOp) : (s.boundDraws ops).st = s.st := rfl
@[simp] theorem State.boundDraws_tEntry (s : State) (ops : List SeqOp) : (s.boundDraws ops).tEntry = s.tEntry := rfl
@[simp] theorem State.boundDraws_updCnt (s : State) (ops : List SeqOp) : (s.boundDraws ops).updCnt = s.updCnt := rfl
@[simp] theorem State.boundDraws_pending (s : State) (ops : List SeqOp) : (s.boundDraws ops).pending = s.pending := rfl
@[simp] theorem State.boundDraws_sleepPending (s : State) (ops : List SeqOp) : (s.boundDraws ops).sleepPending = s.sleepPending := rfl
@[simp] theorem State.boundDraws_isFull (s : State) (ops : List SeqOp) : (s.boundDraws ops).isFull = s.isFull := rfl
@[simp] theorem State.boundDraws_sleepDone (s : State) (ops : List SeqOp) : (s.boundDraws ops).sleepDone = s.sleepDone := rfl
@[simp] theorem State.boundDraws_idx (s : State) (ops : List SeqOp) : (s.boundDraws ops).idx = s.idx := rfl
@[simp] theorem State.boundDraws_row (s : State) (ops : List SeqOp) : (s.boundDraws ops).row = s.row := rfl
@[simp] theorem State.boundDraws_tgt (s : State) (ops : List SeqOp) : (s.boundDraws ops).tgt = s.tgt := rfl
@[simp] theorem State.boundDraws_col (s : State) (ops : List SeqOp) : (s.boundDraws ops).col = s.col := rfl
@[simp] theorem State.boundDraws_drawReq (s : State) (ops : List SeqOp) : (s.boundDraws ops).drawReq = s.drawReq := rfl
@[simp] theorem State.boundDraws_ready (s : State) (ops : List SeqOp) : (s.boundDraws ops).ready = s.ready := rfl
@[simp] theorem State.boundDraws_sclk (s : State) (ops : List SeqOp) : (s.boundDraws ops).sclk = s.sclk := rfl
@[simp] theorem State.boundDraws_sdin (s : State) (ops : List SeqOp) : (s.boundDraws ops).sdin = s.sdin := rfl
@[simp] theorem State.boundDraws_csN (s : State) (ops : List SeqOp) : (s.boundDraws ops).csN = s.csN := rfl
@[simp] theorem State.boundDraws_dc (s : State) (ops : List SeqOp) : (s.boundDraws ops).dc = s.dc := rfl
@[simp] theorem State.boundDraws_panelRst (s : State) (ops : List SeqOp) : (s.boundDraws ops).panelRst = s.panelRst := rfl
@[simp] theorem State.boundDraws_encBusy (s : State) (ops : List SeqOp) : (s.boundDraws ops).encBusy = s.encBusy := rfl
@[simp] theorem State.boundDraws_encStep (s : State) (ops : List SeqOp) : (s.boundDraws ops).encStep = s.encStep := rfl
@[simp] theorem State.boundDraws_encByte (s : State) (ops : List SeqOp) : (s.boundDraws ops).encByte = s.encByte := rfl
@[simp] theorem State.boundDraws_encMode (s : State) (ops : List SeqOp) : (s.boundDraws ops).encMode = s.encMode := rfl
@[simp] theorem State.boundDraws_encHold (s : State) (ops : List SeqOp) : (s.boundDraws ops).encHold = s.encHold := rfl
@[simp] theorem State.boundDraws_seqSel (s : State) (ops : List SeqOp) : (s.boundDraws ops).seqSel = s.seqSel := rfl
@[simp] theorem State.boundDraws_seqPtr (s : State) (ops : List SeqOp) : (s.boundDraws ops).seqPtr = s.seqPtr := rfl
@[simp] theorem State.boundDraws_seqLeft (s : State) (ops : List SeqOp) : (s.boundDraws ops).seqLeft = s.seqLeft := rfl
@[simp] theorem State.boundDraws_waitT0 (s : State) (ops : List SeqOp) : (s.boundDraws ops).waitT0 = s.waitT0 := rfl
@[simp] theorem State.boundDraws_waitD (s : State) (ops : List SeqOp) : (s.boundDraws ops).waitD = s.waitD := rfl
@[simp] theorem State.boundDraws_fb (s : State) (ops : List SeqOp) : (s.boundDraws ops).fb = s.fb := rfl
@[simp] theorem State.boundDraws_trace (s : State) (ops : List SeqOp) : (s.boundDraws ops).trace = s.trace := rfl
@[simp] theorem State.boundDraws_wave (s : State) (ops : List SeqOp) : (s.boundDraws ops).wave = s.wave := rfl
@[simp] theorem State.boundDraws_now (s : State) (ops : List SeqOp) : (s.boundDraws ops).now = s.now := rfl
@[simp] theorem State.boundDraws_busyIn (s : State) (ops : List SeqOp) : (s.boundDraws ops).busyIn = s.busyIn := rfl
@[simp] theorem State.boundDraws_lapses (s : State) (ops : List SeqOp) : (s.boundDraws ops).lapses = capDraws (2 ^ 32 - 1 - waitSum ops) s.lapses := rfl
@[simp] theorem State.boundDraws_window (s : State) (ops : List SeqOp) : (s.boundDraws ops).window = s.window := rfl
@[simp] theorem State.boundDraws_work (s : State) (ops : List SeqOp) : (s.boundDraws ops).work = s.work := rfl
@[simp] theorem State.boundDraws_inputs (s : State) (ops : List SeqOp) : (s.boundDraws ops).inputs = s.inputs := rfl

/-! ### `State.takeCounts` -/

@[simp] theorem State.takeCounts_cfg (s : State) (n : BitVec 7) : (s.takeCounts n).cfg = s.cfg := rfl
@[simp] theorem State.takeCounts_st (s : State) (n : BitVec 7) : (s.takeCounts n).st = s.st := rfl
@[simp] theorem State.takeCounts_tEntry (s : State) (n : BitVec 7) : (s.takeCounts n).tEntry = s.tEntry := rfl
@[simp] theorem State.takeCounts_updCnt (s : State) (n : BitVec 7) : (s.takeCounts n).updCnt = s.updCnt := rfl
@[simp] theorem State.takeCounts_pending (s : State) (n : BitVec 7) : (s.takeCounts n).pending = s.pending := rfl
@[simp] theorem State.takeCounts_sleepPending (s : State) (n : BitVec 7) : (s.takeCounts n).sleepPending = s.sleepPending := rfl
@[simp] theorem State.takeCounts_isFull (s : State) (n : BitVec 7) : (s.takeCounts n).isFull = s.isFull := rfl
@[simp] theorem State.takeCounts_sleepDone (s : State) (n : BitVec 7) : (s.takeCounts n).sleepDone = s.sleepDone := rfl
@[simp] theorem State.takeCounts_idx (s : State) (n : BitVec 7) : (s.takeCounts n).idx = s.idx := rfl
@[simp] theorem State.takeCounts_row (s : State) (n : BitVec 7) : (s.takeCounts n).row = s.row := rfl
@[simp] theorem State.takeCounts_tgt (s : State) (n : BitVec 7) : (s.takeCounts n).tgt = s.tgt := rfl
@[simp] theorem State.takeCounts_col (s : State) (n : BitVec 7) : (s.takeCounts n).col = s.col := rfl
@[simp] theorem State.takeCounts_drawReq (s : State) (n : BitVec 7) : (s.takeCounts n).drawReq = s.drawReq := rfl
@[simp] theorem State.takeCounts_ready (s : State) (n : BitVec 7) : (s.takeCounts n).ready = s.ready := rfl
@[simp] theorem State.takeCounts_sclk (s : State) (n : BitVec 7) : (s.takeCounts n).sclk = s.sclk := rfl
@[simp] theorem State.takeCounts_sdin (s : State) (n : BitVec 7) : (s.takeCounts n).sdin = s.sdin := rfl
@[simp] theorem State.takeCounts_csN (s : State) (n : BitVec 7) : (s.takeCounts n).csN = s.csN := rfl
@[simp] theorem State.takeCounts_dc (s : State) (n : BitVec 7) : (s.takeCounts n).dc = s.dc := rfl
@[simp] theorem State.takeCounts_panelRst (s : State) (n : BitVec 7) : (s.takeCounts n).panelRst = s.panelRst := rfl
@[simp] theorem State.takeCounts_encBusy (s : State) (n : BitVec 7) : (s.takeCounts n).encBusy = s.encBusy := rfl
@[simp] theorem State.takeCounts_encStep (s : State) (n : BitVec 7) : (s.takeCounts n).encStep = s.encStep := rfl
@[simp] theorem State.takeCounts_encByte (s : State) (n : BitVec 7) : (s.takeCounts n).encByte = s.encByte := rfl
@[simp] theorem State.takeCounts_encMode (s : State) (n : BitVec 7) : (s.takeCounts n).encMode = s.encMode := rfl
@[simp] theorem State.takeCounts_encHold (s : State) (n : BitVec 7) : (s.takeCounts n).encHold = s.encHold := rfl
@[simp] theorem State.takeCounts_seqSel (s : State) (n : BitVec 7) : (s.takeCounts n).seqSel = s.seqSel := rfl
@[simp] theorem State.takeCounts_seqPtr (s : State) (n : BitVec 7) : (s.takeCounts n).seqPtr = s.seqPtr + BitVec.ofNat 16 2 := rfl
@[simp] theorem State.takeCounts_seqLeft (s : State) (n : BitVec 7) : (s.takeCounts n).seqLeft = BitVec.ofNat 7 n.toNat := rfl
@[simp] theorem State.takeCounts_waitT0 (s : State) (n : BitVec 7) : (s.takeCounts n).waitT0 = s.waitT0 := rfl
@[simp] theorem State.takeCounts_waitD (s : State) (n : BitVec 7) : (s.takeCounts n).waitD = s.waitD := rfl
@[simp] theorem State.takeCounts_fb (s : State) (n : BitVec 7) : (s.takeCounts n).fb = s.fb := rfl
@[simp] theorem State.takeCounts_trace (s : State) (n : BitVec 7) : (s.takeCounts n).trace = s.trace := rfl
@[simp] theorem State.takeCounts_wave (s : State) (n : BitVec 7) : (s.takeCounts n).wave = s.wave := rfl
@[simp] theorem State.takeCounts_now (s : State) (n : BitVec 7) : (s.takeCounts n).now = s.now := rfl
@[simp] theorem State.takeCounts_busyIn (s : State) (n : BitVec 7) : (s.takeCounts n).busyIn = s.busyIn := rfl
@[simp] theorem State.takeCounts_lapses (s : State) (n : BitVec 7) : (s.takeCounts n).lapses = s.lapses := rfl
@[simp] theorem State.takeCounts_window (s : State) (n : BitVec 7) : (s.takeCounts n).window = s.window := rfl
@[simp] theorem State.takeCounts_work (s : State) (n : BitVec 7) : (s.takeCounts n).work = s.work := rfl
@[simp] theorem State.takeCounts_inputs (s : State) (n : BitVec 7) : (s.takeCounts n).inputs = s.inputs := rfl

/-! ### `State.passArg` -/

@[simp] theorem State.passArg_cfg (s : State) : (s.passArg).cfg = s.cfg := rfl
@[simp] theorem State.passArg_st (s : State) : (s.passArg).st = s.st := rfl
@[simp] theorem State.passArg_tEntry (s : State) : (s.passArg).tEntry = s.tEntry := rfl
@[simp] theorem State.passArg_updCnt (s : State) : (s.passArg).updCnt = s.updCnt := rfl
@[simp] theorem State.passArg_pending (s : State) : (s.passArg).pending = s.pending := rfl
@[simp] theorem State.passArg_sleepPending (s : State) : (s.passArg).sleepPending = s.sleepPending := rfl
@[simp] theorem State.passArg_isFull (s : State) : (s.passArg).isFull = s.isFull := rfl
@[simp] theorem State.passArg_sleepDone (s : State) : (s.passArg).sleepDone = s.sleepDone := rfl
@[simp] theorem State.passArg_idx (s : State) : (s.passArg).idx = s.idx := rfl
@[simp] theorem State.passArg_row (s : State) : (s.passArg).row = s.row := rfl
@[simp] theorem State.passArg_tgt (s : State) : (s.passArg).tgt = s.tgt := rfl
@[simp] theorem State.passArg_col (s : State) : (s.passArg).col = s.col := rfl
@[simp] theorem State.passArg_drawReq (s : State) : (s.passArg).drawReq = s.drawReq := rfl
@[simp] theorem State.passArg_ready (s : State) : (s.passArg).ready = s.ready := rfl
@[simp] theorem State.passArg_sclk (s : State) : (s.passArg).sclk = s.sclk := rfl
@[simp] theorem State.passArg_sdin (s : State) : (s.passArg).sdin = s.sdin := rfl
@[simp] theorem State.passArg_csN (s : State) : (s.passArg).csN = s.csN := rfl
@[simp] theorem State.passArg_dc (s : State) : (s.passArg).dc = s.dc := rfl
@[simp] theorem State.passArg_panelRst (s : State) : (s.passArg).panelRst = s.panelRst := rfl
@[simp] theorem State.passArg_encBusy (s : State) : (s.passArg).encBusy = s.encBusy := rfl
@[simp] theorem State.passArg_encStep (s : State) : (s.passArg).encStep = s.encStep := rfl
@[simp] theorem State.passArg_encByte (s : State) : (s.passArg).encByte = s.encByte := rfl
@[simp] theorem State.passArg_encMode (s : State) : (s.passArg).encMode = s.encMode := rfl
@[simp] theorem State.passArg_encHold (s : State) : (s.passArg).encHold = s.encHold := rfl
@[simp] theorem State.passArg_seqSel (s : State) : (s.passArg).seqSel = s.seqSel := rfl
@[simp] theorem State.passArg_seqPtr (s : State) : (s.passArg).seqPtr = s.seqPtr + BitVec.ofNat 16 1 := rfl
@[simp] theorem State.passArg_seqLeft (s : State) : (s.passArg).seqLeft = BitVec.ofNat 7 (s.seqLeft.toNat - 1) := rfl
@[simp] theorem State.passArg_waitT0 (s : State) : (s.passArg).waitT0 = s.waitT0 := rfl
@[simp] theorem State.passArg_waitD (s : State) : (s.passArg).waitD = s.waitD := rfl
@[simp] theorem State.passArg_fb (s : State) : (s.passArg).fb = s.fb := rfl
@[simp] theorem State.passArg_trace (s : State) : (s.passArg).trace = s.trace := rfl
@[simp] theorem State.passArg_wave (s : State) : (s.passArg).wave = s.wave := rfl
@[simp] theorem State.passArg_now (s : State) : (s.passArg).now = s.now := rfl
@[simp] theorem State.passArg_busyIn (s : State) : (s.passArg).busyIn = s.busyIn := rfl
@[simp] theorem State.passArg_lapses (s : State) : (s.passArg).lapses = s.lapses := rfl
@[simp] theorem State.passArg_window (s : State) : (s.passArg).window = s.window := rfl
@[simp] theorem State.passArg_work (s : State) : (s.passArg).work = s.work := rfl
@[simp] theorem State.passArg_inputs (s : State) : (s.passArg).inputs = s.inputs := rfl

/-! ### `State.passByte` -/

@[simp] theorem State.passByte_cfg (s : State) : (s.passByte).cfg = s.cfg := rfl
@[simp] theorem State.passByte_st (s : State) : (s.passByte).st = s.st := rfl
@[simp] theorem State.passByte_tEntry (s : State) : (s.passByte).tEntry = s.tEntry := rfl
@[simp] theorem State.passByte_updCnt (s : State) : (s.passByte).updCnt = s.updCnt := rfl
@[simp] theorem State.passByte_pending (s : State) : (s.passByte).pending = s.pending := rfl
@[simp] theorem State.passByte_sleepPending (s : State) : (s.passByte).sleepPending = s.sleepPending := rfl
@[simp] theorem State.passByte_isFull (s : State) : (s.passByte).isFull = s.isFull := rfl
@[simp] theorem State.passByte_sleepDone (s : State) : (s.passByte).sleepDone = s.sleepDone := rfl
@[simp] theorem State.passByte_idx (s : State) : (s.passByte).idx = s.idx := rfl
@[simp] theorem State.passByte_row (s : State) : (s.passByte).row = s.row := rfl
@[simp] theorem State.passByte_tgt (s : State) : (s.passByte).tgt = s.tgt := rfl
@[simp] theorem State.passByte_col (s : State) : (s.passByte).col = s.col + 1 := rfl
@[simp] theorem State.passByte_drawReq (s : State) : (s.passByte).drawReq = s.drawReq := rfl
@[simp] theorem State.passByte_ready (s : State) : (s.passByte).ready = s.ready := rfl
@[simp] theorem State.passByte_sclk (s : State) : (s.passByte).sclk = s.sclk := rfl
@[simp] theorem State.passByte_sdin (s : State) : (s.passByte).sdin = s.sdin := rfl
@[simp] theorem State.passByte_csN (s : State) : (s.passByte).csN = s.csN := rfl
@[simp] theorem State.passByte_dc (s : State) : (s.passByte).dc = s.dc := rfl
@[simp] theorem State.passByte_panelRst (s : State) : (s.passByte).panelRst = s.panelRst := rfl
@[simp] theorem State.passByte_encBusy (s : State) : (s.passByte).encBusy = s.encBusy := rfl
@[simp] theorem State.passByte_encStep (s : State) : (s.passByte).encStep = s.encStep := rfl
@[simp] theorem State.passByte_encByte (s : State) : (s.passByte).encByte = s.encByte := rfl
@[simp] theorem State.passByte_encMode (s : State) : (s.passByte).encMode = s.encMode := rfl
@[simp] theorem State.passByte_encHold (s : State) : (s.passByte).encHold = s.encHold := rfl
@[simp] theorem State.passByte_seqSel (s : State) : (s.passByte).seqSel = s.seqSel := rfl
@[simp] theorem State.passByte_seqPtr (s : State) : (s.passByte).seqPtr = s.seqPtr := rfl
@[simp] theorem State.passByte_seqLeft (s : State) : (s.passByte).seqLeft = s.seqLeft := rfl
@[simp] theorem State.passByte_waitT0 (s : State) : (s.passByte).waitT0 = s.waitT0 := rfl
@[simp] theorem State.passByte_waitD (s : State) : (s.passByte).waitD = s.waitD := rfl
@[simp] theorem State.passByte_fb (s : State) : (s.passByte).fb = s.fb := rfl
@[simp] theorem State.passByte_trace (s : State) : (s.passByte).trace = s.trace := rfl
@[simp] theorem State.passByte_wave (s : State) : (s.passByte).wave = s.wave := rfl
@[simp] theorem State.passByte_now (s : State) : (s.passByte).now = s.now := rfl
@[simp] theorem State.passByte_busyIn (s : State) : (s.passByte).busyIn = s.busyIn := rfl
@[simp] theorem State.passByte_lapses (s : State) : (s.passByte).lapses = s.lapses := rfl
@[simp] theorem State.passByte_window (s : State) : (s.passByte).window = s.window := rfl
@[simp] theorem State.passByte_work (s : State) : (s.passByte).work = s.work := rfl
@[simp] theorem State.passByte_inputs (s : State) : (s.passByte).inputs = s.inputs := rfl

/-! ### `State.recordLevels` -/

@[simp] theorem State.recordLevels_cfg (s : State) : (s.recordLevels).cfg = s.cfg := rfl
@[simp] theorem State.recordLevels_st (s : State) : (s.recordLevels).st = s.st := rfl
@[simp] theorem State.recordLevels_tEntry (s : State) : (s.recordLevels).tEntry = s.tEntry := rfl
@[simp] theorem State.recordLevels_updCnt (s : State) : (s.recordLevels).updCnt = s.updCnt := rfl
@[simp] theorem State.recordLevels_pending (s : State) : (s.recordLevels).pending = s.pending := rfl
@[simp] theorem State.recordLevels_sleepPending (s : State) : (s.recordLevels).sleepPending = s.sleepPending := rfl
@[simp] theorem State.recordLevels_isFull (s : State) : (s.recordLevels).isFull = s.isFull := rfl
@[simp] theorem State.recordLevels_sleepDone (s : State) : (s.recordLevels).sleepDone = s.sleepDone := rfl
@[simp] theorem State.recordLevels_idx (s : State) : (s.recordLevels).idx = s.idx := rfl
@[simp] theorem State.recordLevels_row (s : State) : (s.recordLevels).row = s.row := rfl
@[simp] theorem State.recordLevels_tgt (s : State) : (s.recordLevels).tgt = s.tgt := rfl
@[simp] theorem State.recordLevels_col (s : State) : (s.recordLevels).col = s.col := rfl
@[simp] theorem State.recordLevels_drawReq (s : State) : (s.recordLevels).drawReq = s.drawReq := rfl
@[simp] theorem State.recordLevels_ready (s : State) : (s.recordLevels).ready = s.ready := rfl
@[simp] theorem State.recordLevels_sclk (s : State) : (s.recordLevels).sclk = s.sclk := rfl
@[simp] theorem State.recordLevels_sdin (s : State) : (s.recordLevels).sdin = s.sdin := rfl
@[simp] theorem State.recordLevels_csN (s : State) : (s.recordLevels).csN = s.csN := rfl
@[simp] theorem State.recordLevels_dc (s : State) : (s.recordLevels).dc = s.dc := rfl
@[simp] theorem State.recordLevels_panelRst (s : State) : (s.recordLevels).panelRst = s.panelRst := rfl
@[simp] theorem State.recordLevels_encBusy (s : State) : (s.recordLevels).encBusy = s.encBusy := rfl
@[simp] theorem State.recordLevels_encStep (s : State) : (s.recordLevels).encStep = s.encStep := rfl
@[simp] theorem State.recordLevels_encByte (s : State) : (s.recordLevels).encByte = s.encByte := rfl
@[simp] theorem State.recordLevels_encMode (s : State) : (s.recordLevels).encMode = s.encMode := rfl
@[simp] theorem State.recordLevels_encHold (s : State) : (s.recordLevels).encHold = s.encHold := rfl
@[simp] theorem State.recordLevels_seqSel (s : State) : (s.recordLevels).seqSel = s.seqSel := rfl
@[simp] theorem State.recordLevels_seqPtr (s : State) : (s.recordLevels).seqPtr = s.seqPtr := rfl
@[simp] theorem State.recordLevels_seqLeft (s : State) : (s.recordLevels).seqLeft = s.seqLeft := rfl
@[simp] theorem State.recordLevels_waitT0 (s : State) : (s.recordLevels).waitT0 = s.waitT0 := rfl
@[simp] theorem State.recordLevels_waitD (s : State) : (s.recordLevels).waitD = s.waitD := rfl
@[simp] theorem State.recordLevels_fb (s : State) : (s.recordLevels).fb = s.fb := rfl
@[simp] theorem State.recordLevels_trace (s : State) : (s.recordLevels).trace = s.trace := rfl
@[simp] theorem State.recordLevels_wave (s : State) : (s.recordLevels).wave = s.wave ++ [s.levels] := rfl
@[simp] theorem State.recordLevels_now (s : State) : (s.recordLevels).now = s.now := rfl
@[simp] theorem State.recordLevels_busyIn (s : State) : (s.recordLevels).busyIn = s.busyIn := rfl
@[simp] theorem State.recordLevels_lapses (s : State) : (s.recordLevels).lapses = s.lapses := rfl
@[simp] theorem State.recordLevels_window (s : State) : (s.recordLevels).window = s.window := rfl
@[simp] theorem State.recordLevels_work (s : State) : (s.recordLevels).work = s.work := rfl
@[simp] theorem State.recordLevels_inputs (s : State) : (s.recordLevels).inputs = s.inputs := rfl

/-! ### `State.setPin` -/

@[simp] theorem State.setPin_cfg (s : State) (p : Pin) (v : Bool) : (s.setPin p v).cfg = s.cfg := by cases p <;> rfl
@[simp] theorem State.setPin_st (s : State) (p : Pin) (v : Bool) : (s.setPin p v).st = s.st := by cases p <;> rfl
@[simp] theorem State.setPin_tEntry (s : State) (p : Pin) (v : Bool) : (s.setPin p v).tEntry = s.tEntry := by cases p <;> rfl
@[simp] theorem State.setPin_updCnt (s : State) (p : Pin) (v : Bool) : (s.setPin p v).updCnt = s.updCnt := by cases p <;> rfl
@[simp] theorem State.setPin_pending (s : State) (p : Pin) (v : Bool) : (s.setPin p v).pending = s.pending := by cases p <;> rfl
@[simp] theorem State.setPin_sleepPending (s : State) (p : Pin) (v : Bool) : (s.setPin p v).sleepPending = s.sleepPending := by cases p <;> rfl
@[simp] theorem State.setPin_isFull (s : State) (p : Pin) (v : Bool) : (s.setPin p v).isFull = s.isFull := by cases p <;> rfl
@[simp] theorem State.setPin_sleepDone (s : State) (p : Pin) (v : Bool) : (s.setPin p v).sleepDone = s.sleepDone := by cases p <;> rfl
@[simp] theorem State.setPin_idx (s : State) (p : Pin) (v : Bool) : (s.setPin p v).idx = s.idx := by cases p <;> rfl
@[simp] theorem State.setPin_row (s : State) (p : Pin) (v : Bool) : (s.setPin p v).row = s.row := by cases p <;> rfl
@[simp] theorem State.setPin_tgt (s : State) (p : Pin) (v : Bool) : (s.setPin p v).tgt = s.tgt := by cases p <;> rfl
@[simp] theorem State.setPin_col (s : State) (p : Pin) (v : Bool) : (s.setPin p v).col = s.col := by cases p <;> rfl
@[simp] theorem State.setPin_drawReq (s : State) (p : Pin) (v : Bool) : (s.setPin p v).drawReq = s.drawReq := by cases p <;> rfl
@[simp] theorem State.setPin_ready (s : State) (p : Pin) (v : Bool) : (s.setPin p v).ready = s.ready := by cases p <;> rfl
@[simp] theorem State.setPin_sclk (s : State) (p : Pin) (v : Bool) : (s.setPin p v).sclk = if p = .sclk then v else s.sclk := by cases p <;> rfl
@[simp] theorem State.setPin_sdin (s : State) (p : Pin) (v : Bool) : (s.setPin p v).sdin = if p = .sdin then v else s.sdin := by cases p <;> rfl
@[simp] theorem State.setPin_csN (s : State) (p : Pin) (v : Bool) : (s.setPin p v).csN = if p = .csN then v else s.csN := by cases p <;> rfl
@[simp] theorem State.setPin_dc (s : State) (p : Pin) (v : Bool) : (s.setPin p v).dc = if p = .dc then v else s.dc := by cases p <;> rfl
@[simp] theorem State.setPin_panelRst (s : State) (p : Pin) (v : Bool) : (s.setPin p v).panelRst = if p = .panelRst then v else s.panelRst := by cases p <;> rfl
@[simp] theorem State.setPin_encBusy (s : State) (p : Pin) (v : Bool) : (s.setPin p v).encBusy = s.encBusy := by cases p <;> rfl
@[simp] theorem State.setPin_encStep (s : State) (p : Pin) (v : Bool) : (s.setPin p v).encStep = s.encStep := by cases p <;> rfl
@[simp] theorem State.setPin_encByte (s : State) (p : Pin) (v : Bool) : (s.setPin p v).encByte = s.encByte := by cases p <;> rfl
@[simp] theorem State.setPin_encMode (s : State) (p : Pin) (v : Bool) : (s.setPin p v).encMode = s.encMode := by cases p <;> rfl
@[simp] theorem State.setPin_encHold (s : State) (p : Pin) (v : Bool) : (s.setPin p v).encHold = s.encHold := by cases p <;> rfl
@[simp] theorem State.setPin_seqSel (s : State) (p : Pin) (v : Bool) : (s.setPin p v).seqSel = s.seqSel := by cases p <;> rfl
@[simp] theorem State.setPin_seqPtr (s : State) (p : Pin) (v : Bool) : (s.setPin p v).seqPtr = s.seqPtr := by cases p <;> rfl
@[simp] theorem State.setPin_seqLeft (s : State) (p : Pin) (v : Bool) : (s.setPin p v).seqLeft = s.seqLeft := by cases p <;> rfl
@[simp] theorem State.setPin_waitT0 (s : State) (p : Pin) (v : Bool) : (s.setPin p v).waitT0 = s.waitT0 := by cases p <;> rfl
@[simp] theorem State.setPin_waitD (s : State) (p : Pin) (v : Bool) : (s.setPin p v).waitD = s.waitD := by cases p <;> rfl
@[simp] theorem State.setPin_fb (s : State) (p : Pin) (v : Bool) : (s.setPin p v).fb = s.fb := by cases p <;> rfl
@[simp] theorem State.setPin_trace (s : State) (p : Pin) (v : Bool) : (s.setPin p v).trace = s.trace ++ [.pin p v] := by cases p <;> rfl
@[simp] theorem State.setPin_wave (s : State) (p : Pin) (v : Bool) : (s.setPin p v).wave = s.wave := by cases p <;> rfl
@[simp] theorem State.setPin_now (s : State) (p : Pin) (v : Bool) : (s.setPin p v).now = s.now := by cases p <;> rfl
@[simp] theorem State.setPin_busyIn (s : State) (p : Pin) (v : Bool) : (s.setPin p v).busyIn = s.busyIn := by cases p <;> rfl
@[simp] theorem State.setPin_lapses (s : State) (p : Pin) (v : Bool) : (s.setPin p v).lapses = s.lapses := by cases p <;> rfl
@[simp] theorem State.setPin_window (s : State) (p : Pin) (v : Bool) : (s.setPin p v).window = s.window := by cases p <;> rfl
@[simp] theorem State.setPin_work (s : State) (p : Pin) (v : Bool) : (s.setPin p v).work = s.work := by cases p <;> rfl
@[simp] theorem State.setPin_inputs (s : State) (p : Pin) (v : Bool) : (s.setPin p v).inputs = s.inputs := by cases p <;> rfl

end Sys2Proof.Machine
end

