-- ==== Sys2Proof/Laws/Encoder.lean ====
section
/-! SUPPORT. What a frame and a list of data frames do to the state. -/

namespace Sys2Proof.Machine

/-- Everything a frame does (41_serial_encoder.md R107 to R109). -/
theorem State.sendFrame_eq (m : Bool) (b : Byte) (s : State) :
    s.sendFrame m b =
      { s with
        dc := m, csN := true, sclk := true, sdin := b.getLsbD 0
        encMode := m, encByte := b, encStep := 26, encHold := s.cfg.encStepCycles, encBusy := false
        trace := s.trace ++ frameEvents m b } := by
  simp [State.sendFrame, State.microSteps, State.frameEnded, frameEvents, List.range_succ, microStep, lastMicroStep,
    State.setPin, State.drive, State.emit]

theorem State.withWire_withWire (s t u : State) : (s.withWire t).withWire u = s.withWire u := rfl

/-- A frame leaves everything but the bus pins, the encoder's registers and the trace. -/
theorem State.sendFrame_frame (m : Bool) (b : Byte) (s : State) : s.sendFrame m b = s.withWire (s.sendFrame m b) := by
  rw [State.sendFrame_eq]
  rfl

@[simp] theorem State.sendBytes_nil (s : State) : s.sendBytes [] = s := rfl

theorem State.sendBytes_cons (b : Byte) (bytes : List Byte) (s : State) :
    s.sendBytes (b :: bytes) = (s.sendFrame true b).sendBytes bytes := by
  simp only [State.sendBytes, List.foldl_cons]

/-- Data frames leave everything but the bus pins, the encoder's registers and the trace. -/
theorem State.sendBytes_frame (bytes : List Byte) (s : State) : s.sendBytes bytes = s.withWire (s.sendBytes bytes) := by
  induction bytes generalizing s with
  | nil => rfl
  | cons b bytes ih =>
    rw [State.sendBytes_cons]
    generalize hu : s.sendFrame true b = u
    have hs : u = s.withWire u := hu ▸ State.sendFrame_frame true b s
    calc u.sendBytes bytes = u.withWire (u.sendBytes bytes) := ih u
      _ = (s.withWire u).withWire (u.sendBytes bytes) := by rw [← hs]
      _ = s.withWire (u.sendBytes bytes) := State.withWire_withWire ..

/-- Data frames append their events (41_serial_encoder.md R116). -/
theorem State.sendBytes_trace (bytes : List Byte) (s : State) :
    (s.sendBytes bytes).trace = s.trace ++ dataEvents bytes := by
  induction bytes generalizing s with
  | nil => simp [dataEvents]
  | cons b bytes ih =>
    have h : (s.sendFrame true b).trace = s.trace ++ frameEvents true b := by rw [State.sendFrame_eq]
    rw [State.sendBytes_cons, ih, h]
    simp [dataEvents]

/-- Sending a list is sending its parts in order. -/
theorem State.sendBytes_append (xs ys : List Byte) (s : State) :
    s.sendBytes (xs ++ ys) = (s.sendBytes xs).sendBytes ys := by
  simp only [State.sendBytes, List.foldl_append]

end Sys2Proof.Machine
end

