-- ==== Sys2Proof/Laws/Memory.lean ====
section
/-! SUPPORT. The framebuffer memory: a read after a write, and that every operation keeps the canonical form. -/

namespace Sys2Proof.Machine

@[simp] theorem Memory.read_nil (a : Nat) : Memory.read [] a = Memory.blank := rfl

/-- An address below every listed one reads blank. -/
theorem Memory.read_of_lt {m : List Host.Cell} {a : Nat} (h : ∀ p ∈ m, a < p.1) : Memory.read m a = Memory.blank := by
  induction m with
  | nil => rfl
  | cons p m ih =>
    obtain ⟨k, b⟩ := p
    have hk : a < k := h (k, b) (by simp)
    simp only [Memory.read, if_neg (by omega : ¬k = a)]
    exact ih (fun q hq => h q (by simp [hq]))

/-! ### `Memory.put` -/

/-- What `put` lists: the byte, if it is not blank, and what was listed. -/
theorem Memory.mem_put {a : Nat} {v : Byte} {m : List Host.Cell} {p : Host.Cell} :
    p ∈ Memory.put a v m ↔ (p = (a, v) ∧ v ≠ Memory.blank) ∨ p ∈ m := by
  unfold Memory.put
  split <;> simp_all

theorem Memory.wf_put {a : Nat} {v : Byte} {m : List Host.Cell} (hm : Memory.wf m) (ha : ∀ p ∈ m, a < p.1) :
    Memory.wf (Memory.put a v m) := by
  unfold Memory.put
  split
  · exact hm
  · rename_i hv
    refine ⟨List.pairwise_cons.2 ⟨ha, hm.1⟩, ?_⟩
    intro p hp
    rcases List.mem_cons.1 hp with rfl | hp
    · exact hv
    · exact hm.2 p hp

theorem Memory.read_put {a b : Nat} {v : Byte} {m : List Host.Cell} (ha : ∀ p ∈ m, a < p.1) :
    Memory.read (Memory.put a v m) b = if a = b then v else Memory.read m b := by
  unfold Memory.put
  split
  · rename_i hv
    split
    · rename_i hab
      subst hab
      rw [Memory.read_of_lt ha, hv]
    · rfl
  · rfl

/-! ### `Memory.write` -/

/-- A write lists no address but its own and those listed before. -/
theorem Memory.mem_write {a : Nat} {v : Byte} {m : List Host.Cell} {p : Host.Cell} (h : p ∈ Memory.write m a v) :
    p.1 = a ∨ p ∈ m := by
  induction m with
  | nil =>
    rcases Memory.mem_put.1 h with ⟨rfl, _⟩ | h
    · exact .inl rfl
    · simp at h
  | cons q m ih =>
    obtain ⟨k, b⟩ := q
    unfold Memory.write at h
    split at h
    · rcases Memory.mem_put.1 h with ⟨rfl, _⟩ | h
      · exact .inl rfl
      · exact .inr h
    · split at h
      · rcases Memory.mem_put.1 h with ⟨rfl, _⟩ | h
        · exact .inl rfl
        · exact .inr (by simp [h])
      · rcases List.mem_cons.1 h with rfl | h
        · exact .inr (by simp)
        · rcases ih h with h | h
          · exact .inl h
          · exact .inr (by simp [h])

/-- A write keeps the canonical form. -/
theorem Memory.wf_write {m : List Host.Cell} (hm : Memory.wf m) (a : Nat) (v : Byte) :
    Memory.wf (Memory.write m a v) := by
  induction m with
  | nil => exact Memory.wf_put hm (by simp)
  | cons q m ih =>
    obtain ⟨k, b⟩ := q
    have hp := List.pairwise_cons.1 hm.1
    have hb : Memory.wf m := ⟨hp.2, fun p h => hm.2 p (by simp [h])⟩
    unfold Memory.write
    split
    · rename_i hak
      refine Memory.wf_put hm ?_
      intro p h
      rcases List.mem_cons.1 h with rfl | h
      · exact hak
      · exact Nat.lt_trans hak (hp.1 p h)
    · split
      · rename_i _ hak
        subst hak
        exact Memory.wf_put hb hp.1
      · rename_i h1 h2
        refine ⟨List.pairwise_cons.2 ⟨?_, (ih hb).1⟩, ?_⟩
        · intro p h
          rcases Memory.mem_write h with h | h
          · omega
          · exact hp.1 p h
        · intro p h
          rcases List.mem_cons.1 h with rfl | h
          · exact hm.2 (k, b) (by simp)
          · exact (ih hb).2 p h

/-- A read after a write: the value written at its address, the old byte everywhere else. -/
theorem Memory.read_write {m : List Host.Cell} (hm : Memory.wf m) (a c : Nat) (v : Byte) :
    Memory.read (Memory.write m a v) c = if a = c then v else Memory.read m c := by
  induction m with
  | nil => exact Memory.read_put (by simp)
  | cons q m ih =>
    obtain ⟨k, b⟩ := q
    have hp := List.pairwise_cons.1 hm.1
    have hb : Memory.wf m := ⟨hp.2, fun p h => hm.2 p (by simp [h])⟩
    unfold Memory.write
    split
    · rename_i hak
      refine Memory.read_put ?_
      intro p h
      rcases List.mem_cons.1 h with rfl | h
      · exact hak
      · exact Nat.lt_trans hak (hp.1 p h)
    · split
      · rename_i _ hak
        subst hak
        rw [Memory.read_put hp.1]
        by_cases hac : a = c <;> simp [Memory.read, hac]
      · rename_i h1 h2
        rw [Memory.read]
        by_cases hkc : k = c
        · rw [if_pos hkc, if_neg (by omega)]
          simp [Memory.read, hkc]
        · rw [if_neg hkc, ih hb]
          simp [Memory.read, hkc]

/-! ### `Memory.constFrom` and `Memory.ofBytesFrom` -/

theorem Memory.mem_constFrom {v : Byte} {a n : Nat} {p : Host.Cell} (h : p ∈ Memory.constFrom v a n) :
    a ≤ p.1 ∧ p.1 < a + n := by
  induction n generalizing a with
  | zero => simp [Memory.constFrom] at h
  | succ n ih =>
    rcases Memory.mem_put.1 h with ⟨rfl, _⟩ | h
    · exact ⟨Nat.le_refl a, Nat.lt_add_of_pos_right (Nat.succ_pos n)⟩
    · have := ih h
      omega

theorem Memory.wf_constFrom (v : Byte) (a n : Nat) : Memory.wf (Memory.constFrom v a n) := by
  induction n generalizing a with
  | zero => exact ⟨List.Pairwise.nil, by simp [Memory.constFrom]⟩
  | succ n ih => exact Memory.wf_put (ih (a + 1)) (fun p h => by have := Memory.mem_constFrom h; omega)

/-- The constant memory reads its byte at its addresses and blank elsewhere. -/
theorem Memory.read_constFrom (v : Byte) (a n c : Nat) :
    Memory.read (Memory.constFrom v a n) c = if a ≤ c ∧ c < a + n then v else Memory.blank := by
  induction n generalizing a with
  | zero => simp [Memory.constFrom]
  | succ n ih =>
    rw [Memory.constFrom, Memory.read_put (fun p h => by have := Memory.mem_constFrom h; omega), ih]
    by_cases hac : a = c
    · rw [if_pos hac, if_pos (by omega)]
    · rw [if_neg hac]
      by_cases h : a + 1 ≤ c ∧ c < a + 1 + n
      · rw [if_pos h, if_pos (by omega)]
      · rw [if_neg h, if_neg (by omega)]

theorem Memory.mem_ofBytesFrom {a : Nat} {bs : List Byte} {p : Host.Cell} (h : p ∈ Memory.ofBytesFrom a bs) :
    a ≤ p.1 ∧ p.1 < a + bs.length := by
  induction bs generalizing a with
  | nil => simp [Memory.ofBytesFrom] at h
  | cons b bs ih =>
    rcases Memory.mem_put.1 h with ⟨rfl, _⟩ | h
    · simp
    · have := ih h
      simp only [List.length_cons]
      omega

theorem Memory.wf_ofBytesFrom (a : Nat) (bs : List Byte) : Memory.wf (Memory.ofBytesFrom a bs) := by
  induction bs generalizing a with
  | nil => exact ⟨List.Pairwise.nil, by simp [Memory.ofBytesFrom]⟩
  | cons b bs ih => exact Memory.wf_put (ih (a + 1)) (fun p h => by have := Memory.mem_ofBytesFrom h; omega)

/-- The memory of a list of bytes reads them back. -/
theorem Memory.read_ofBytesFrom (a : Nat) (bs : List Byte) (i : Nat) :
    Memory.read (Memory.ofBytesFrom a bs) (a + i) = bs.getD i Memory.blank := by
  induction bs generalizing a i with
  | nil => simp [Memory.ofBytesFrom]
  | cons b bs ih =>
    rw [Memory.ofBytesFrom, Memory.read_put (fun p h => by have := Memory.mem_ofBytesFrom h; omega)]
    cases i with
    | zero => simp
    | succ i =>
      rw [if_neg (by omega), show a + (i + 1) = a + 1 + i by omega, ih]
      simp

end Sys2Proof.Machine
end

