-- ==== Sys2Proof/Laws/Wire.lean ====
section
/-! SUPPORT. One lemma for each field that a frame and a list of data frames leave, and for each field a frame writes. -/

namespace Sys2Proof.Machine

@[simp] theorem State.sendFrame_cfg (s : State) (m : Bool) (b : Byte) : (s.sendFrame m b).cfg = s.cfg := by rw [State.sendFrame_eq]
@[simp] theorem State.sendFrame_st (s : State) (m : Bool) (b : Byte) : (s.sendFrame m b).st = s.st := by rw [State.sendFrame_eq]
@[simp] theorem State.sendFrame_tEntry (s : State) (m : Bool) (b : Byte) : (s.sendFrame m b).tEntry = s.tEntry := by rw [State.sendFrame_eq]
@[simp] theorem State.sendFrame_updCnt (s : State) (m : Bool) (b : Byte) : (s.sendFrame m b).updCnt = s.updCnt := by rw [State.sendFrame_eq]
@[simp] theorem State.sendFrame_pending (s : State) (m : Bool) (b : Byte) : (s.sendFrame m b).pending = s.pending := by rw [State.sendFrame_eq]
@[simp] theorem State.sendFrame_sleepPending (s : State) (m : Bool) (b : Byte) : (s.sendFrame m b).sleepPending = s.sleepPending := by rw [State.sendFrame_eq]
@[simp] theorem State.sendFrame_isFull (s : State) (m : Bool) (b : Byte) : (s.sendFrame m b).isFull = s.isFull := by rw [State.sendFrame_eq]
@[simp] theorem State.sendFrame_sleepDone (s : State) (m : Bool) (b : Byte) : (s.sendFrame m b).sleepDone = s.sleepDone := by rw [State.sendFrame_eq]
@[simp] theorem State.sendFrame_idx (s : State) (m : Bool) (b : Byte) : (s.sendFrame m b).idx = s.idx := by rw [State.sendFrame_eq]
@[simp] theorem State.sendFrame_row (s : State) (m : Bool) (b : Byte) : (s.sendFrame m b).row = s.row := by rw [State.sendFrame_eq]
@[simp] theorem State.sendFrame_tgt (s : State) (m : Bool) (b : Byte) : (s.sendFrame m b).tgt = s.tgt := by rw [State.sendFrame_eq]
@[simp] theorem State.sendFrame_col (s : State) (m : Bool) (b : Byte) : (s.sendFrame m b).col = s.col := by rw [State.sendFrame_eq]
@[simp] theorem State.sendFrame_drawReq (s : State) (m : Bool) (b : Byte) : (s.sendFrame m b).drawReq = s.drawReq := by rw [State.sendFrame_eq]
@[simp] theorem State.sendFrame_ready (s : State) (m : Bool) (b : Byte) : (s.sendFrame m b).ready = s.ready := by rw [State.sendFrame_eq]
@[simp] theorem State.sendFrame_sclk (s : State) (m : Bool) (b : Byte) : (s.sendFrame m b).sclk = true := by rw [State.sendFrame_eq]
@[simp] theorem State.sendFrame_sdin (s : State) (m : Bool) (b : Byte) : (s.sendFrame m b).sdin = b.getLsbD 0 := by rw [State.sendFrame_eq]
@[simp] theorem State.sendFrame_csN (s : State) (m : Bool) (b : Byte) : (s.sendFrame m b).csN = true := by rw [State.sendFrame_eq]
@[simp] theorem State.sendFrame_dc (s : State) (m : Bool) (b : Byte) : (s.sendFrame m b).dc = m := by rw [State.sendFrame_eq]
@[simp] theorem State.sendFrame_panelRst (s : State) (m : Bool) (b : Byte) : (s.sendFrame m b).panelRst = s.panelRst := by rw [State.sendFrame_eq]
@[simp] theorem State.sendFrame_encBusy (s : State) (m : Bool) (b : Byte) : (s.sendFrame m b).encBusy = false := by rw [State.sendFrame_eq]
@[simp] theorem State.sendFrame_encStep (s : State) (m : Bool) (b : Byte) : (s.sendFrame m b).encStep = 26 := by rw [State.sendFrame_eq]
@[simp] theorem State.sendFrame_encByte (s : State) (m : Bool) (b : Byte) : (s.sendFrame m b).encByte = b := by rw [State.sendFrame_eq]
@[simp] theorem State.sendFrame_encMode (s : State) (m : Bool) (b : Byte) : (s.sendFrame m b).encMode = m := by rw [State.sendFrame_eq]
@[simp] theorem State.sendFrame_encHold (s : State) (m : Bool) (b : Byte) : (s.sendFrame m b).encHold = s.cfg.encStepCycles := by rw [State.sendFrame_eq]
@[simp] theorem State.sendFrame_seqSel (s : State) (m : Bool) (b : Byte) : (s.sendFrame m b).seqSel = s.seqSel := by rw [State.sendFrame_eq]
@[simp] theorem State.sendFrame_seqPtr (s : State) (m : Bool) (b : Byte) : (s.sendFrame m b).seqPtr = s.seqPtr := by rw [State.sendFrame_eq]
@[simp] theorem State.sendFrame_seqLeft (s : State) (m : Bool) (b : Byte) : (s.sendFrame m b).seqLeft = s.seqLeft := by rw [State.sendFrame_eq]
@[simp] theorem State.sendFrame_waitT0 (s : State) (m : Bool) (b : Byte) : (s.sendFrame m b).waitT0 = s.waitT0 := by rw [State.sendFrame_eq]
@[simp] theorem State.sendFrame_waitD (s : State) (m : Bool) (b : Byte) : (s.sendFrame m b).waitD = s.waitD := by rw [State.sendFrame_eq]
@[simp] theorem State.sendFrame_fb (s : State) (m : Bool) (b : Byte) : (s.sendFrame m b).fb = s.fb := by rw [State.sendFrame_eq]
@[simp] theorem State.sendFrame_trace (s : State) (m : Bool) (b : Byte) : (s.sendFrame m b).trace = s.trace ++ frameEvents m b := by rw [State.sendFrame_eq]
@[simp] theorem State.sendFrame_wave (s : State) (m : Bool) (b : Byte) : (s.sendFrame m b).wave = s.wave := by rw [State.sendFrame_eq]
@[simp] theorem State.sendFrame_now (s : State) (m : Bool) (b : Byte) : (s.sendFrame m b).now = s.now := by rw [State.sendFrame_eq]
@[simp] theorem State.sendFrame_busyIn (s : State) (m : Bool) (b : Byte) : (s.sendFrame m b).busyIn = s.busyIn := by rw [State.sendFrame_eq]
@[simp] theorem State.sendFrame_lapses (s : State) (m : Bool) (b : Byte) : (s.sendFrame m b).lapses = s.lapses := by rw [State.sendFrame_eq]
@[simp] theorem State.sendFrame_window (s : State) (m : Bool) (b : Byte) : (s.sendFrame m b).window = s.window := by rw [State.sendFrame_eq]
@[simp] theorem State.sendFrame_work (s : State) (m : Bool) (b : Byte) : (s.sendFrame m b).work = s.work := by rw [State.sendFrame_eq]
@[simp] theorem State.sendFrame_inputs (s : State) (m : Bool) (b : Byte) : (s.sendFrame m b).inputs = s.inputs := by rw [State.sendFrame_eq]

@[simp] theorem State.sendBytes_cfg (s : State) (bytes : List Byte) : (s.sendBytes bytes).cfg = s.cfg := by rw [State.sendBytes_frame]; rfl
@[simp] theorem State.sendBytes_st (s : State) (bytes : List Byte) : (s.sendBytes bytes).st = s.st := by rw [State.sendBytes_frame]; rfl
@[simp] theorem State.sendBytes_tEntry (s : State) (bytes : List Byte) : (s.sendBytes bytes).tEntry = s.tEntry := by rw [State.sendBytes_frame]; rfl
@[simp] theorem State.sendBytes_updCnt (s : State) (bytes : List Byte) : (s.sendBytes bytes).updCnt = s.updCnt := by rw [State.sendBytes_frame]; rfl
@[simp] theorem State.sendBytes_pending (s : State) (bytes : List Byte) : (s.sendBytes bytes).pending = s.pending := by rw [State.sendBytes_frame]; rfl
@[simp] theorem State.sendBytes_sleepPending (s : State) (bytes : List Byte) : (s.sendBytes bytes).sleepPending = s.sleepPending := by rw [State.sendBytes_frame]; rfl
@[simp] theorem State.sendBytes_isFull (s : State) (bytes : List Byte) : (s.sendBytes bytes).isFull = s.isFull := by rw [State.sendBytes_frame]; rfl
@[simp] theorem State.sendBytes_sleepDone (s : State) (bytes : List Byte) : (s.sendBytes bytes).sleepDone = s.sleepDone := by rw [State.sendBytes_frame]; rfl
@[simp] theorem State.sendBytes_idx (s : State) (bytes : List Byte) : (s.sendBytes bytes).idx = s.idx := by rw [State.sendBytes_frame]; rfl
@[simp] theorem State.sendBytes_row (s : State) (bytes : List Byte) : (s.sendBytes bytes).row = s.row := by rw [State.sendBytes_frame]; rfl
@[simp] theorem State.sendBytes_tgt (s : State) (bytes : List Byte) : (s.sendBytes bytes).tgt = s.tgt := by rw [State.sendBytes_frame]; rfl
@[simp] theorem State.sendBytes_col (s : State) (bytes : List Byte) : (s.sendBytes bytes).col = s.col := by rw [State.sendBytes_frame]; rfl
@[simp] theorem State.sendBytes_drawReq (s : State) (bytes : List Byte) : (s.sendBytes bytes).drawReq = s.drawReq := by rw [State.sendBytes_frame]; rfl
@[simp] theorem State.sendBytes_ready (s : State) (bytes : List Byte) : (s.sendBytes bytes).ready = s.ready := by rw [State.sendBytes_frame]; rfl
@[simp] theorem State.sendBytes_panelRst (s : State) (bytes : List Byte) : (s.sendBytes bytes).panelRst = s.panelRst := by rw [State.sendBytes_frame]; rfl
@[simp] theorem State.sendBytes_seqSel (s : State) (bytes : List Byte) : (s.sendBytes bytes).seqSel = s.seqSel := by rw [State.sendBytes_frame]; rfl
@[simp] theorem State.sendBytes_seqPtr (s : State) (bytes : List Byte) : (s.sendBytes bytes).seqPtr = s.seqPtr := by rw [State.sendBytes_frame]; rfl
@[simp] theorem State.sendBytes_seqLeft (s : State) (bytes : List Byte) : (s.sendBytes bytes).seqLeft = s.seqLeft := by rw [State.sendBytes_frame]; rfl
@[simp] theorem State.sendBytes_waitT0 (s : State) (bytes : List Byte) : (s.sendBytes bytes).waitT0 = s.waitT0 := by rw [State.sendBytes_frame]; rfl
@[simp] theorem State.sendBytes_waitD (s : State) (bytes : List Byte) : (s.sendBytes bytes).waitD = s.waitD := by rw [State.sendBytes_frame]; rfl
@[simp] theorem State.sendBytes_fb (s : State) (bytes : List Byte) : (s.sendBytes bytes).fb = s.fb := by rw [State.sendBytes_frame]; rfl
@[simp] theorem State.sendBytes_wave (s : State) (bytes : List Byte) : (s.sendBytes bytes).wave = s.wave := by rw [State.sendBytes_frame]; rfl
@[simp] theorem State.sendBytes_now (s : State) (bytes : List Byte) : (s.sendBytes bytes).now = s.now := by rw [State.sendBytes_frame]; rfl
@[simp] theorem State.sendBytes_busyIn (s : State) (bytes : List Byte) : (s.sendBytes bytes).busyIn = s.busyIn := by rw [State.sendBytes_frame]; rfl
@[simp] theorem State.sendBytes_lapses (s : State) (bytes : List Byte) : (s.sendBytes bytes).lapses = s.lapses := by rw [State.sendBytes_frame]; rfl
@[simp] theorem State.sendBytes_window (s : State) (bytes : List Byte) : (s.sendBytes bytes).window = s.window := by rw [State.sendBytes_frame]; rfl
@[simp] theorem State.sendBytes_work (s : State) (bytes : List Byte) : (s.sendBytes bytes).work = s.work := by rw [State.sendBytes_frame]; rfl
@[simp] theorem State.sendBytes_inputs (s : State) (bytes : List Byte) : (s.sendBytes bytes).inputs = s.inputs := by rw [State.sendBytes_frame]; rfl

end Sys2Proof.Machine
end

