-- ==== Sys2Proof/Laws/Framebuffer.lean ====
section
/-! SUPPORT. The pixel address generator's range, and what FILL and SET_PIXEL do to the framebuffer. -/

namespace Sys2Proof

/-- A native pixel lies in the panel (40_framebuffer.md R95, R100). -/
theorem Config.nativePixel_range {c : Config} {x y : Int} {u v : Nat} (h : c.nativePixel x y = some (u, v)) :
    u < c.width ∧ v < c.height := by
  unfold Config.nativePixel at h
  split at h
  · cases h
  · rename_i u' v' hr
    split at h
    · cases h
    · rename_i hb
      have hu : 0 ≤ u' ∧ u' < c.width ∧ 0 ≤ v' ∧ v' < c.height := by omega
      simp only [Option.some.injEq, Prod.mk.injEq] at h
      split at h <;> omega

/-- The address of a pixel is a framebuffer address, its bit a bit of a byte (40_framebuffer.md R98). -/
theorem Config.pixelAddr_range {c : Config} (hg : c.geometryOk = true) {x y : Int} {a k : Nat}
    (h : c.pixelAddr x y = some (a, k)) : a < c.fbLen ∧ k ≤ 7 := by
  unfold Config.pixelAddr at h
  split at h
  · cases h
  · rename_i u v hn
    obtain ⟨hu, hv⟩ := Config.nativePixel_range hn
    have hw := Config.width_eq hg
    simp only [Option.some.injEq, Prod.mk.injEq] at h
    obtain ⟨rfl, rfl⟩ := h
    refine ⟨?_, by omega⟩
    rw [Config.fbLen_eq hg]
    have h1 : v * c.width + u < c.height * c.width := by
      calc v * c.width + u < v * c.width + c.width := by omega
        _ = (v + 1) * c.width := by rw [Nat.add_mul, Nat.one_mul]
        _ ≤ c.height * c.width := Nat.mul_le_mul_right _ hv
    rw [hw] at h1 ⊢
    have h2 : c.height * (8 * c.rowBytes) = 8 * (c.rowBytes * c.height) := by
      rw [Nat.mul_left_comm, Nat.mul_comm c.height]
    omega

/-- Setting a bit sets that bit and leaves the others (40_framebuffer.md R93). -/
theorem setBit_getLsbD (b : Byte) (k : Nat) (v : Bool) (i : Nat) (hk : k ≤ 7) :
    (setBit b k v).getLsbD i = if i = k then v else b.getLsbD i := by
  have h : ∀ (k : Fin 8) (i : Fin 8) (b : Byte) (v : Bool),
      (setBit b k v).getLsbD i = if i = k then v else b.getLsbD i := by
    intro k i b v
    unfold setBit
    cases v <;> fin_cases k <;> fin_cases i <;> simp
  by_cases hi : i < 8
  · have := h ⟨k, by omega⟩ ⟨i, hi⟩ b v
    simpa [Fin.ext_iff] using this
  · rw [BitVec.getLsbD_of_ge _ _ (by omega), if_neg (by omega), BitVec.getLsbD_of_ge _ _ (by omega)]

namespace Machine

/-- SET_PIXEL touches the framebuffer only. -/
theorem State.setPixel_frame (x y : Int) (black : Bool) (s : State) :
    s.setPixel x y black = { s with fb := (s.setPixel x y black).fb } := by
  unfold State.setPixel
  split <;> rfl

/-- A pixel write touches the framebuffer only. -/
theorem State.writePixel_frame (w : PixelWrite) (s : State) :
    s.writePixel w = { s with fb := (s.writePixel w).fb } := State.setPixel_frame ..

/-- Pixel writes touch the framebuffer only. -/
theorem State.writePixels_frame (ws : List PixelWrite) (s : State) :
    ws.foldl State.writePixel s = { s with fb := (ws.foldl State.writePixel s).fb } := by
  induction ws generalizing s with
  | nil => rfl
  | cons w ws ih =>
    rw [List.foldl_cons]
    generalize hu : s.writePixel w = u
    have h : u = { s with fb := u.fb } := hu ▸ State.writePixel_frame w s
    rw [ih]
    generalize (ws.foldl State.writePixel u).fb = m
    rw [h]

/-- FILL reads its byte at every framebuffer address (40_framebuffer.md R92). -/
theorem State.read_fill (black : Bool) (s : State) {a : Nat} (ha : a < s.cfg.fbLen) :
    Memory.read (s.fill black).fb a = if black then 0x00 else 0xFF := by
  rw [State.fill_fb, Memory.read_constFrom, if_pos (by omega)]

/-- FILL leaves a framebuffer inside its bounds. -/
theorem State.fbOk_fill (black : Bool) (s : State) : (s.fill black).fbOk :=
  ⟨Memory.wf_constFrom .., fun p hp => by have := Memory.mem_constFrom hp; simpa using this.2⟩

/-- SET_PIXEL keeps a framebuffer inside its bounds (20_memory.md R54). -/
theorem State.fbOk_setPixel {s : State} (hg : s.cfg.geometryOk = true) (h : s.fbOk) (x y : Int) (black : Bool) :
    (s.setPixel x y black).fbOk := by
  unfold State.setPixel
  split
  · exact h
  · rename_i a k hp
    refine ⟨Memory.wf_write h.1 _ _, fun p hm => ?_⟩
    rcases Memory.mem_write hm with hm | hm
    · exact hm ▸ (Config.pixelAddr_range hg hp).1
    · exact h.2 p hm

end Machine

end Sys2Proof
end

