-- ==== Sys2Proof/Laws/Interpreter.lean ====
section
/-! SUPPORT. What one step of a command sequence and the run of a table do to the state. -/

namespace Sys2Proof.Machine

theorem State.withRun_withRun (s t u : State) : (s.withRun t).withRun u = s.withRun u := rfl

theorem State.withRun_self (s : State) : s = s.withRun s := rfl

/-- What holds of two steps in a row holds of both together. -/
theorem State.withRun_trans {s t u : State} (h1 : t = s.withRun t) (h2 : u = t.withRun u) : u = s.withRun u := by
  rw [h1, State.withRun_withRun] at h2
  exact h2

theorem State.withWire_withRun {s t : State} (h : t = s.withWire t) : t = s.withRun t := by
  rw [h]
  rfl

/-! ### Waits -/

/-- The draws that are kept never pass the room they are given (43_display_controller.md R134). -/
theorem capDraws_sum_le (room : Nat) (xs : List Nat) : (capDraws room xs).sum ≤ room := by
  induction xs generalizing room with
  | nil => simp [capDraws]
  | cons x xs ih =>
    have := ih (room - min x room)
    simp only [capDraws, List.sum_cons]
    omega

/-- Draws that fit are kept as they are, so a draw of any length that R134 allows is allowed. -/
theorem capDraws_of_sum_le {room : Nat} {xs : List Nat} (h : xs.sum ≤ room) : capDraws room xs = xs := by
  induction xs generalizing room with
  | nil => rfl
  | cons x xs ih =>
    simp only [List.sum_cons] at h
    have hx : min x room = x := Nat.min_eq_left (by omega)
    rw [capDraws, hx, ih (by omega)]

@[simp] theorem capDraws_length (room : Nat) (xs : List Nat) : (capDraws room xs).length = xs.length := by
  induction xs generalizing room with
  | nil => rfl
  | cons x xs ih => simp [capDraws, ih]

/-- A wait touches nothing but its start, the time and its event (42_sequence_interpreter.md R125). -/
theorem State.waitMs_frame (d : Byte) (s : State) :
    s.waitMs d =
      { s with
        trace := s.trace ++ [.wait d]
        waitT0 := if d = 0 then s.waitT0 else s.now + BitVec.ofNat 32 s.lapse
        now := if d = 0 then s.now else s.now + BitVec.ofNat 32 s.lapse + BitVec.ofNat 32 (d.toNat + 1)
        lapses := if d = 0 then s.lapses else s.lapses.tail } := by
  unfold State.waitMs
  by_cases h : d = 0
  · simp [h, State.emit]
  · simp only [if_neg h]
    rfl

/-- A wait that has begun ends `d + 1` counts after its start, however the count wraps (42_sequence_interpreter.md R131). -/
theorem State.hold_length (d : Byte) (s : State) : ((s.hold d).now - (s.hold d).waitT0).toNat = d.toNat + 1 := by
  have := d.isLt
  simp only [State.hold, State.advance, BitVec.toNat_sub, BitVec.toNat_add, BitVec.toNat_ofNat]
  omega

/-! ### One step -/

/-- Everything SEQ_STEP does (42_sequence_interpreter.md R118). -/
theorem execSeqStep_next (cmd : Byte) (args : List Byte) (s : State) :
    ∃ u, execSeqStep cmd args s = .next u ∧ u = s.withRun u ∧ u.seqSel = s.seqSel
      ∧ u.seqPtr = s.seqPtr + BitVec.ofNat 16 (2 + args.length) ∧ u.seqLeft = 0
      ∧ u.trace = s.trace ++ opEvents (.step cmd args) := by
  refine ⟨_, rfl, ?_, by simp, by simp, by simp, by simp [State.sendBytes_trace, opEvents]⟩
  generalize hu : (s.sendFrame false cmd).sendBytes args = u
  have h : u = s.withRun u := by
    subst hu
    exact State.withRun_trans (State.withWire_withRun (State.sendFrame_frame false cmd s))
      (State.withWire_withRun (State.sendBytes_frame args _))
  rw [h]
  rfl

/-- Everything SEQ_STEP_DELAY does (42_sequence_interpreter.md R119). -/
theorem execSeqStepDelay_next (cmd dly : Byte) (args : List Byte) (s : State) :
    ∃ u, execSeqStepDelay cmd dly args s = .next u ∧ u = s.withRun u ∧ u.seqSel = s.seqSel
      ∧ u.seqPtr = s.seqPtr + BitVec.ofNat 16 (3 + args.length) ∧ u.seqLeft = 0
      ∧ u.trace = s.trace ++ opEvents (.stepDelay cmd dly args) := by
  refine ⟨_, rfl, ?_, by simp [State.delayStep, State.waitMs_frame], by simp [State.delayStep, State.waitMs_frame],
    by simp, by simp [State.sendBytes_trace, opEvents, State.delayStep, State.waitMs_frame]⟩
  generalize hv : s.sendFrame false cmd = v
  generalize hw : v.delayStep dly = w
  generalize hu : w.sendBytes args = u
  have h1 : v = s.withRun v := hv ▸ State.withWire_withRun (State.sendFrame_frame false cmd s)
  have h2 : w = v.withRun w := by
    subst hw
    rw [State.delayStep, State.waitMs_frame]
    rfl
  have h3 : u = w.withRun u := hu ▸ State.withWire_withRun (State.sendBytes_frame args w)
  rw [State.withRun_trans (State.withRun_trans h1 h2) h3]
  rfl

/-! ### The run of a table -/

@[simp] theorem State.boundDraws_seqTable (s : State) (ops : List SeqOp) : (s.boundDraws ops).seqTable = s.seqTable := rfl

@[simp] theorem State.boundDraws_seqBytes (s : State) (ops : List SeqOp) : (s.boundDraws ops).seqBytes = s.seqBytes := rfl

/-- The draws a run is given leave room for its waits (43_display_controller.md R134). -/
theorem State.boundDraws_sum (s : State) (ops : List SeqOp) :
    (s.boundDraws ops).lapses.sum ≤ 2 ^ 32 - 1 - waitSum ops := capDraws_sum_le ..

/-- A run that answers a next state leaves everything but what a run writes. -/
theorem runSteps_frame {n : Nat} {s t : State} (h : runSteps n s = .next t) : t = s.withRun t := by
  induction n generalizing s with
  | zero => cases h
  | succ n ih =>
    unfold runSteps at h
    split at h
    · cases h
    · split at h
      · cases h
        exact State.withRun_self _
      · cases h
      · obtain ⟨u, hu, hf, -⟩ := execSeqStep_next _ _ s
        rw [hu] at h
        exact State.withRun_trans hf (ih h)
      · obtain ⟨u, hu, hf, -⟩ := execSeqStepDelay_next _ _ _ s
        rw [hu] at h
        exact State.withRun_trans hf (ih h)

/-- `RunSeq` leaves everything but what a run writes. -/
theorem runSeq_frame {sel : TableSel} {s t : State} (h : runSeq sel s = .next t) : t = s.withRun t :=
  State.withRun_trans (s := s) (t := (s.selectTable sel).boundDraws _) rfl (runSteps_frame h)

/-- The bytes after a step, when the pointer has advanced by its length and the table is in the pointer's reach. -/
theorem State.seqBytes_after {s u : State} {op : SeqOp} {rest : List Byte} (hd : decodeSeq s.seqBytes = .ok (op, rest))
    (hlen : s.seqTable.length ≤ 65535) (hc : u.cfg = s.cfg) (hs : u.seqSel = s.seqSel)
    (hp : u.seqPtr = s.seqPtr + BitVec.ofNat 16 (opLen op)) :
    u.seqBytes = rest ∧ u.seqPtr.toNat = s.seqPtr.toNat + opLen op ∧ u.seqTable = s.seqTable := by
  have ht : u.seqTable = s.seqTable := by rw [State.seqTable, State.seqTable, hc, hs]
  have hb := (decodeSeq_ok hd).1
  have hl : s.seqBytes.length = opLen op + rest.length := by rw [hb, List.length_append, SeqOp.length_bytes]
  have hn : s.seqBytes.length = s.seqTable.length - s.seqPtr.toNat := List.length_drop
  have h2 := two_le_opLen op
  have hq : u.seqPtr.toNat = s.seqPtr.toNat + opLen op := by
    rw [hp, BitVec.toNat_add, BitVec.toNat_ofNat]
    omega
  refine ⟨?_, hq, ht⟩
  have hdrop : s.seqBytes.drop (opLen op) = rest := by
    rw [hb, ← SeqOp.length_bytes, List.drop_left]
  rw [State.seqBytes, ht, hq, ← List.drop_drop]
  exact hdrop

/-- A well-formed walk runs to its end marker (42_sequence_interpreter.md R127, R128): its events are those of its steps in
order, and the pointer ends at the end marker. -/
theorem runSteps_complete {n : Nat} {s : State} (hwf : wfWalk n s.seqBytes = true) (hlen : s.seqTable.length ≤ 65535) :
    ∃ t, runSteps n s = .next t ∧ t.trace = s.trace ++ (seqOps n s.seqBytes).flatMap opEvents
      ∧ t.seqPtr.toNat = s.seqPtr.toNat + ((seqOps n s.seqBytes).map opLen).sum ∧ t.seqSel = s.seqSel := by
  induction n generalizing s with
  | zero => cases hwf
  | succ n ih =>
    rcases wfWalk_decode hwf with ⟨rest, hd⟩ | ⟨cmd, args, rest, hd, hw⟩ | ⟨cmd, dly, args, rest, hd, hw⟩
    · exact ⟨s, by simp [runSteps, hd, execSeqEnd], by simp [seqOps, hd], by simp [seqOps, hd], rfl⟩
    · obtain ⟨u, hu, hf, hsel, hptr, -, htr⟩ := execSeqStep_next cmd args s
      have hcfg : u.cfg = s.cfg := by rw [hf]; rfl
      obtain ⟨hb, hq, ht⟩ := State.seqBytes_after hd hlen hcfg hsel hptr
      obtain ⟨t, h1, h2, h3, h4⟩ := ih (s := u) (by rw [hb]; exact hw) (by rw [ht]; exact hlen)
      refine ⟨t, by simp [runSteps, hd, hu, h1], ?_, ?_, h4.trans hsel⟩
      · rw [h2, htr, hb]
        simp [seqOps, hd]
      · rw [h3, hq, hb]
        simp [seqOps, hd]
        omega
    · obtain ⟨u, hu, hf, hsel, hptr, -, htr⟩ := execSeqStepDelay_next cmd dly args s
      have hcfg : u.cfg = s.cfg := by rw [hf]; rfl
      obtain ⟨hb, hq, ht⟩ := State.seqBytes_after hd hlen hcfg hsel hptr
      obtain ⟨t, h1, h2, h3, h4⟩ := ih (s := u) (by rw [hb]; exact hw) (by rw [ht]; exact hlen)
      refine ⟨t, by simp [runSteps, hd, hu, h1], ?_, ?_, h4.trans hsel⟩
      · rw [h2, htr, hb]
        simp [seqOps, hd]
      · rw [h3, hq, hb]
        simp [seqOps, hd]
        omega

end Sys2Proof.Machine
end

