-- ==== Sys2Proof/Laws/PerInstr.lean ====
section
/-! SUPPORT. One family of statements about every instruction as syntax: the encoder gives it the fixed bits of its row of
spec/opcode_table.json. -/

namespace Sys2Proof.Laws.TableRow

open Sys2Proof

/-- The word of an encoding as spec/opcode_table.json numbers its bits: a command-table step by its head
`{byte p, byte p + 1}`. -/
def word : Code → BitVec 16
  | .seq (c :: k :: _) => c ++ k
  | .seq _ => 0
  | .frame w => w.setWidth 16
  | .tag b => b.setWidth 16
  | .port hiv _ _ _ => hiv.setWidth 16
  | .fill black => (BitVec.ofBool black).setWidth 16
  | .state code | .transfer code _ => code.setWidth 16

/-- The mask and the match of an instruction's table row; FB_FILL's row fixes no bit. -/
def row : Instr → BitVec 16 × BitVec 16
  | .seqEnd => (0xFFFF, 0xFFFF)
  | .seqIllegalFF _ => (0xFF00, 0xFF00)
  | .seqStep _ _ => (0x0080, 0x0000)
  | .seqStepDelay _ _ _ => (0x0080, 0x0080)
  | .sendCommand _ => (0x100, 0x000)
  | .sendData _ => (0x100, 0x100)
  | .cmdTagPrimary _ => (0x80, 0x00)
  | .cmdTagSecondary _ => (0x80, 0x80)
  | .pixelSet _ _ _ => (0x10, 0x10)
  | .fbFill _ => (0x0, 0x0)
  | .hostTick => (0x01, 0x01)
  | .hostRequestUpdate => (0x02, 0x02)
  | .hostSleepRequest => (0x04, 0x04)
  | .hostDrawDone => (0x08, 0x08)
  | .stateInitStart => (0x1F, 0x00)
  | .stateInitReset => (0x1F, 0x01)
  | .stateInitWaitReset => (0x1F, 0x02)
  | .stateInitWaitResetLow => (0x1F, 0x03)
  | .stateInitWaitResetHigh => (0x1F, 0x04)
  | .stateInitSendCommands => (0x1F, 0x05)
  | .stateInitWaitBusy => (0x1F, 0x06)
  | .stateInitDone => (0x1F, 0x07)
  | .stateIdle => (0x1F, 0x08)
  | .stateUpdateStart => (0x1F, 0x09)
  | .stateUpdateWaitBusy => (0x1F, 0x0A)
  | .stateUpdatePrepare => (0x1F, 0x0B)
  | .stateUpdateSendingData => (0x1F, 0x0C)
  | .stateUpdateRefresh => (0x1F, 0x0D)
  | .stateUpdateWaitRefresh => (0x1F, 0x0E)
  | .stateUpdateDone => (0x1F, 0x0F)
  | .stateDeepSleep => (0x1F, 0x10)
  | .transferChunk1 => (0x1F, 0x0C)
  | .transferChunk2 => (0x1F, 0x0C)

/-- The encoded word has the fixed bits of the instruction's row. -/
def Statement (i : Instr) : Prop := i.wf = true → word (encode i) &&& (row i).1 = (row i).2

/-- A byte below another byte: the head's bit 7 is the count byte's delay flag. -/
theorem head_delayFlag (cmd : Byte) (d : Bool) (n : Nat) :
    (cmd ++ countByte d n) &&& 0x80 = if d then 0x80#16 else 0 := by
  have hk : countByte d n &&& 0x80#8 = if d then 0x80#8 else 0 := by
    unfold countByte
    generalize BitVec.ofNat 7 n = m
    revert m d
    decide
  have hs : (0x80 : BitVec (8 + 8)) = 0#8 ++ 0x80#8 := by decide
  calc (cmd ++ countByte d n) &&& (0x80 : BitVec (8 + 8)) = (cmd ++ countByte d n) &&& (0#8 ++ 0x80#8) := by rw [hs]
    _ = (cmd &&& 0#8) ++ (countByte d n &&& 0x80#8) := BitVec.and_append
    _ = _ := by
      rw [hk]
      cases d <;> simp

theorem seqEnd : Statement (.seqEnd) := fun _ => rfl

theorem seqIllegalFF (cnt : Byte) : Statement (.seqIllegalFF cnt) := by
  intro _
  revert cnt
  decide

theorem seqStep (cmd : Byte) (args : List Byte) : Statement (.seqStep cmd args) := fun _ => head_delayFlag cmd false args.length

theorem seqStepDelay (cmd dly : Byte) (args : List Byte) : Statement (.seqStepDelay cmd dly args) := fun _ => head_delayFlag cmd true args.length

theorem sendCommand (b : Byte) : Statement (.sendCommand b) := by
  intro _
  revert b
  decide

theorem sendData (b : Byte) : Statement (.sendData b) := by
  intro _
  revert b
  decide

theorem cmdTagPrimary (opcode : BitVec 7) : Statement (.cmdTagPrimary opcode) := by
  intro _
  revert opcode
  decide

theorem cmdTagSecondary (opcode : BitVec 7) : Statement (.cmdTagSecondary opcode) := by
  intro _
  revert opcode
  decide

theorem pixelSet (x y : Coord) (black : Bool) : Statement (.pixelSet x y black) :=
  fun _ => (by decide : (16#5).setWidth 16 &&& 16#16 = 16#16)

theorem fbFill (black : Bool) : Statement (.fbFill black) := by
  intro _
  revert black
  decide

theorem hostTick : Statement (.hostTick) := fun _ => rfl

theorem hostRequestUpdate : Statement (.hostRequestUpdate) := fun _ => rfl

theorem hostSleepRequest : Statement (.hostSleepRequest) := fun _ => rfl

theorem hostDrawDone : Statement (.hostDrawDone) := fun _ => rfl

theorem stateInitStart : Statement (.stateInitStart) := fun _ => rfl

theorem stateInitReset : Statement (.stateInitReset) := fun _ => rfl

theorem stateInitWaitReset : Statement (.stateInitWaitReset) := fun _ => rfl

theorem stateInitWaitResetLow : Statement (.stateInitWaitResetLow) := fun _ => rfl

theorem stateInitWaitResetHigh : Statement (.stateInitWaitResetHigh) := fun _ => rfl

theorem stateInitSendCommands : Statement (.stateInitSendCommands) := fun _ => rfl

theorem stateInitWaitBusy : Statement (.stateInitWaitBusy) := fun _ => rfl

theorem stateInitDone : Statement (.stateInitDone) := fun _ => rfl

theorem stateIdle : Statement (.stateIdle) := fun _ => rfl

theorem stateUpdateStart : Statement (.stateUpdateStart) := fun _ => rfl

theorem stateUpdateWaitBusy : Statement (.stateUpdateWaitBusy) := fun _ => rfl

theorem stateUpdatePrepare : Statement (.stateUpdatePrepare) := fun _ => rfl

theorem stateUpdateSendingData : Statement (.stateUpdateSendingData) := fun _ => rfl

theorem stateUpdateRefresh : Statement (.stateUpdateRefresh) := fun _ => rfl

theorem stateUpdateWaitRefresh : Statement (.stateUpdateWaitRefresh) := fun _ => rfl

theorem stateUpdateDone : Statement (.stateUpdateDone) := fun _ => rfl

theorem stateDeepSleep : Statement (.stateDeepSleep) := fun _ => rfl

theorem transferChunk1 : Statement (.transferChunk1) := fun _ => rfl

theorem transferChunk2 : Statement (.transferChunk2) := fun _ => rfl

end Sys2Proof.Laws.TableRow
end

