-- ==== Sys2Proof/Laws/Step.lean ====
section
/-! SUPPORT. What one step can do: the inversion of `step`, of an edge's strobes, and `goto` as one record. -/

namespace Sys2Proof.Machine

/-- A step that answers a next state has a valid configuration and took the first input. -/
theorem step_next {s t : State} (h : step s = .next t) :
    s.cfg.valid = true ∧ ∃ i is, s.inputs = i :: is ∧ takeInput i { s with inputs := is } = .next t := by
  unfold step at h
  split at h
  · cases h
  · rename_i hc
    refine ⟨(Config.check_eq_none _).1 hc, ?_⟩
    split at h
    · cases h
    · rename_i i is hi
      exact ⟨i, is, hi, h⟩

/-- With a valid configuration and an input left, a step takes that input. -/
theorem step_of_valid {s : State} {i : Input} {is : List Input} (hv : s.cfg.valid = true) (hi : s.inputs = i :: is) :
    step s = takeInput i { s with inputs := is } := by
  rw [step, (Config.check_eq_none _).2 hv, hi]

/-- `goto` as one record (43_display_controller.md R134). -/
theorem State.goto_eq (d : DState) (s : State) : s.goto d = s.entered d := rfl

/-- The strobes but for the tick write the two request flags, `draw_req` and the framebuffer. -/
theorem exec_strobe_frame {s t : State} {i : Instr}
    (hi : i = .hostRequestUpdate ∨ i = .hostSleepRequest ∨ i = .hostDrawDone ∨ ∃ x y black, i = .pixelSet x y black)
    (h : exec i s = .next t) :
    t = { s with pending := t.pending, sleepPending := t.sleepPending, drawReq := t.drawReq, fb := t.fb } := by
  rcases hi with rfl | rfl | rfl | ⟨x, y, black, rfl⟩
  · cases h
    rfl
  · cases h
    rfl
  · simp only [exec, execHostDrawDone, Host.Outcome.next.injEq] at h
    split at h <;> subst h <;> rfl
  · simp only [exec, execPixelSet, Host.Outcome.next.injEq] at h
    split at h
    · subst h
      unfold State.writePixel State.setPixel
      split <;> rfl
    · subst h
      rfl

/-- The operations of an edge's ports: the strobes of 30_encoding.md R83, the tick last. -/
theorem mem_decodeHiv {hiv : BitVec 5} {x y : Coord} {black : Bool} {i : Instr} (h : i ∈ decodeHiv hiv x y black) :
    i = .hostRequestUpdate ∧ hiv.getLsbD 1 = true ∨ i = .hostSleepRequest ∧ hiv.getLsbD 2 = true ∨
      i = .pixelSet x y black ∧ hiv.getLsbD 4 = true ∨ i = .hostDrawDone ∧ hiv.getLsbD 3 = true ∨
      i = .hostTick ∧ hiv.getLsbD 0 = true := by
  unfold decodeHiv at h
  simp only [List.mem_append] at h
  rcases h with (((h | h) | h) | h) | h <;> split at h <;> simp_all

end Sys2Proof.Machine
end

