-- ==== Sys2Proof/Laws/Transfer.lean ====
section
/-! SUPPORT. What the transfer's loops do to the state. -/

namespace Sys2Proof.Machine

theorem dataEvents_append (xs ys : List Byte) : dataEvents (xs ++ ys) = dataEvents xs ++ dataEvents ys := by
  simp [dataEvents]

/-- Sending framebuffer bytes leaves everything but what a frame writes. -/
theorem State.sendFbBytes_frame (a n : Nat) (s : State) : s.sendFbBytes a n = s.withWire (s.sendFbBytes a n) :=
  State.sendBytes_frame ..

/-- Framebuffer bytes are sent in address order, one data frame each (44_data_transfer.md R174). -/
theorem State.sendFbBytes_trace (a n : Nat) (s : State) :
    (s.sendFbBytes a n).trace = s.trace ++ dataEvents (fbBytes s a n) := State.sendBytes_trace ..

/-- Sending rows leaves everything but what a frame writes. -/
theorem State.sendRows_frame (c0 c1 row r : Nat) (s : State) :
    State.sendRows c0 c1 row r s = s.withWire (State.sendRows c0 c1 row r s) := by
  induction r generalizing row s with
  | zero => rfl
  | succ r ih =>
    rw [State.sendRows]
    generalize hu : s.sendRow row c0 c1 = u
    have h : u = s.withWire u := hu ▸ State.sendFbBytes_frame _ _ s
    calc State.sendRows c0 c1 (row + 1) r u = u.withWire (State.sendRows c0 c1 (row + 1) r u) := ih _ _
      _ = (s.withWire u).withWire (State.sendRows c0 c1 (row + 1) r u) := by rw [← h]
      _ = s.withWire (State.sendRows c0 c1 (row + 1) r u) := State.withWire_withWire ..

/-- Rows are sent in order, the columns of each in increasing order (44_data_transfer.md R177). -/
theorem State.sendRows_trace (c0 c1 row r : Nat) (s : State) :
    (State.sendRows c0 c1 row r s).trace =
      s.trace ++ dataEvents ((List.range' row r).flatMap (fun v => fbBytes s (v * s.cfg.rowBytes + c0) (c1 - c0))) := by
  induction r generalizing row s with
  | zero => simp [State.sendRows, dataEvents]
  | succ r ih =>
    rw [State.sendRows, ih]
    generalize hu : s.sendRow row c0 c1 = u
    have h : u = s.withWire u := hu ▸ State.sendFbBytes_frame _ _ s
    have ht : u.trace = s.trace ++ dataEvents (fbBytes s (row * s.cfg.rowBytes + c0) (c1 - c0)) :=
      hu ▸ State.sendFbBytes_trace _ _ s
    have hb : ∀ a n, fbBytes u a n = fbBytes s a n := by intro a n; rw [fbBytes, fbBytes, h]; rfl
    have hc : u.cfg = s.cfg := by rw [h]; rfl
    rw [ht, List.range'_succ, List.flatMap_cons, dataEvents_append, hc]
    simp only [hb, List.append_assoc]

end Sys2Proof.Machine
end

