-- ==== Sys2Proof/Tests/Slice0.lean ====
section
/-! SUPPORT. The model's own tests: well-formedness, words written out from the encodings, one step on a small state with the
result of spec/95_test_vectors.md, and for each obligation with hypotheses a state that meets them. -/

namespace Sys2Proof.Tests

open Sys2Proof Sys2Proof.Machine

/-! ### Helpers -/

/-- The outcome is a next state with the property. -/
def after (o : Host.Outcome State Fault Refusal) (p : State → Bool) : Bool :=
  match o with
  | .next t => p t
  | .fault _ | .refused _ => false

theorem next_of_after {o : Host.Outcome State Fault Refusal} {p : State → Bool} (h : after o p = true) :
    ∃ t, o = .next t ∧ p t = true := by
  unfold after at h
  split at h
  · exact ⟨_, rfl, h⟩
  · cases h
  · cases h

/-- The outcome is this refusal. -/
def refuses (o : Host.Outcome State Fault Refusal) (r : Refusal) : Bool :=
  match o with
  | .refused q => decide (q = r)
  | .next _ | .fault _ => false

/-- The outcome is this fault. -/
def faults (o : Host.Outcome State Fault Refusal) (r : Fault) : Bool :=
  match o with
  | .fault q => decide (q = r)
  | .next _ | .refused _ => false

/-- `C xx` and `D xx` of spec/95_test_vectors.md. -/
def cmdFrame (b : Byte) : List TraceEvent := frameEvents false b
def dataFrame (b : Byte) : List TraceEvent := frameEvents true b

/-- The configuration of programs P1 and P2 (95_test_vectors.md section 3). -/
def singleCfg : Config :=
  { Config.reference with
    width := 16, height := 2, mirrorX := false, chunkBytes := 3
    initSeq := [0x12, 0x00, 0x01, 0x83, 0x05, 0x2B, 0x01, 0x00, 0xFF, 0xFF]
    prepareSeq := [0x24, 0x00, 0xFF, 0xFF]
    fullRefreshSeq := [0x22, 0x01, 0xF7, 0x20, 0x80, 0x0A, 0xFF, 0xFF]
    partialRefreshSeq := [0x22, 0x01, 0xFF, 0x20, 0x00, 0xFF, 0xFF]
    sleepSeq := [0x10, 0x01, 0x01, 0xFF, 0xFF] }

/-- The configuration of V32, on program P3's other parameters. -/
def cascadeCfg : Config :=
  { Config.reference with
    width := 24, height := 2, targets := 2, chunkRows := 1, hasResetPin := false, hasBusyPin := false
    forcedMode := .alwaysPartial, secondaryPrepareSeq := some [0xA4, 0x00, 0xFF, 0xFF] }

def single : State := State.ofConfig singleCfg
def cascade : State := State.ofConfig cascadeCfg

/-- Port levels with these strobes at a time, the busy line idle. -/
def levels (hiv : BitVec 5) (t : Nat) : Ports := { hiv := hiv, px := noPixel, nowMs := BitVec.ofNat 32 t, busyIn := false }
def noDraws : Draws := { lapses := [], window := none }

/-! ### Well-formed instructions and configurations: an ill-formed term for each check -/

theorem test_wf_illegal_cnt : (Instr.seqIllegalFF 0xFF).wf = false := by decide
theorem test_wf_step_cmd : (Instr.seqStep 0xFF []).wf = false := by decide
theorem test_wf_step_args : (Instr.seqStep 0x12 (List.replicate 128 0)).wf = false := by decide +kernel
theorem test_wf_stepd_cmd : (Instr.seqStepDelay 0xFF 1 []).wf = false := by decide
theorem test_wf_stepd_args : (Instr.seqStepDelay 0x12 1 (List.replicate 128 0)).wf = false := by decide +kernel

theorem test_config_reference : Config.reference.check = none := by decide
theorem test_config_width : { Config.reference with width := 12 }.check = some .geometry := by decide
theorem test_config_height : { Config.reference with height := 32768 }.check = some .geometry := by decide
theorem test_config_targets : { Config.reference with targets := 3 }.check = some .targets := by decide
theorem test_config_cadence : { Config.reference with fullUpdateEvery := 0 }.check = some .cadencePeriod := by decide
theorem test_config_cadence_forced :
    { Config.reference with fullUpdateEvery := 0, forcedMode := .alwaysFull }.check = none := by decide
theorem test_config_chunk : { Config.reference with chunkBytes := 0 }.check = some .chunk := by decide
theorem test_config_rows : { cascadeCfg with chunkRows := 0 }.check = some .chunk := by decide
theorem test_config_secondary : { cascadeCfg with secondaryPrepareSeq := none }.check = some .table := by decide
theorem test_config_busyLevel : { Config.reference with busyActiveLevel := 2 }.check = some .levels := by decide
theorem test_config_csLevel : { Config.reference with csActiveLevel := 1 }.check = some .levels := by decide
theorem test_config_encoder : { Config.reference with encStepCycles := 0 }.check = some .encoder := by decide
/-- R8: any rotation is a legal configuration. -/
theorem test_config_rotation : { Config.reference with rotation := 45 }.check = none := by decide

/-- V16: the tables `WF` refuses. -/
theorem test_illFormed_tables :
    [[0xFF, 0x00, 0xFF, 0xFF], [0xFF, 0xFE], [0x12, 0x00], [], [0xFF], [0x12, 0x02, 0xA0, 0xFF, 0xFF],
      [0x12, 0x81, 0xFF, 0xFF], [0x12, 0x05, 0x01, 0x02, 0xFF, 0xFF]].map wfTable = List.replicate 8 false := by decide

/-! ### Words written out from the encodings -/

/-- R76. -/
theorem test_decode_seqEnd : decode (.seq [0b11111111, 0b11111111]) = .ok .seqEnd := by decide
/-- R78. -/
theorem test_decode_seqIllegalFF : decode (.seq [0b11111111, 0b11111110]) = .ok (.seqIllegalFF 0xFE) := by decide
/-- R88: `step 0xCC, 0xA0, 0xA1`. -/
theorem test_decode_seqStep :
    decode (.seq [0b11001100, 0b00000010, 0b10100000, 0b10100001]) = .ok (.seqStep 0xCC [0xA0, 0xA1]) := by decide
/-- R119's example, `C0 82 05 A0 A1`. -/
theorem test_decode_seqStepDelay :
    decode (.seq [0b11000000, 0b10000010, 0b00000101, 0b10100000, 0b10100001]) =
      .ok (.seqStepDelay 0xC0 0x05 [0xA0, 0xA1]) := by decide
/-- R81. -/
theorem test_decode_sendCommand : decode (.frame 0b000010010) = .ok (.sendCommand 0x12) := by decide
theorem test_decode_sendData : decode (.frame 0b110100101) = .ok (.sendData 0xA5) := by decide
/-- R80. -/
theorem test_decode_cmdTagPrimary : decode (.tag 0b00010001) = .ok (.cmdTagPrimary 0x11) := by decide
theorem test_decode_cmdTagSecondary : decode (.tag 0b10010001) = .ok (.cmdTagSecondary 0x11) := by decide
/-- R82, R83. -/
theorem test_decode_pixelSet :
    decode (.port 0b10000 0x8000 0x7FFF true) = .ok (.pixelSet 0x8000 0x7FFF true) := by decide
theorem test_decode_hostTick : decode (.port 0b00001 0 0 false) = .ok .hostTick := by decide
theorem test_decode_hostRequestUpdate : decode (.port 0b00010 0 0 false) = .ok .hostRequestUpdate := by decide
theorem test_decode_hostSleepRequest : decode (.port 0b00100 0 0 false) = .ok .hostSleepRequest := by decide
theorem test_decode_hostDrawDone : decode (.port 0b01000 0 0 false) = .ok .hostDrawDone := by decide
theorem test_decode_noStrobe : decode (.port 0b00000 0 0 false) = .error .noStrobe := by decide
theorem test_decode_severalStrobes : decode (.port 0b00110 0 0 false) = .error .severalStrobes := by decide
/-- R92: the operand is `black`. -/
theorem test_decode_fbFill : decode (.fill true) = .ok (.fbFill true) := by decide
/-- R24. -/
theorem test_decode_stateInitStart : decode (.state 0b00000) = .ok .stateInitStart := by decide
theorem test_decode_stateInitReset : decode (.state 0b00001) = .ok .stateInitReset := by decide
theorem test_decode_stateInitWaitReset : decode (.state 0b00010) = .ok .stateInitWaitReset := by decide
theorem test_decode_stateInitWaitResetLow : decode (.state 0b00011) = .ok .stateInitWaitResetLow := by decide
theorem test_decode_stateInitWaitResetHigh : decode (.state 0b00100) = .ok .stateInitWaitResetHigh := by decide
theorem test_decode_stateInitSendCommands : decode (.state 0b00101) = .ok .stateInitSendCommands := by decide
theorem test_decode_stateInitWaitBusy : decode (.state 0b00110) = .ok .stateInitWaitBusy := by decide
theorem test_decode_stateInitDone : decode (.state 0b00111) = .ok .stateInitDone := by decide
theorem test_decode_stateIdle : decode (.state 0b01000) = .ok .stateIdle := by decide
theorem test_decode_stateUpdateStart : decode (.state 0b01001) = .ok .stateUpdateStart := by decide
theorem test_decode_stateUpdateWaitBusy : decode (.state 0b01010) = .ok .stateUpdateWaitBusy := by decide
theorem test_decode_stateUpdatePrepare : decode (.state 0b01011) = .ok .stateUpdatePrepare := by decide
theorem test_decode_stateUpdateSendingData : decode (.state 0b01100) = .ok .stateUpdateSendingData := by decide
theorem test_decode_stateUpdateRefresh : decode (.state 0b01101) = .ok .stateUpdateRefresh := by decide
theorem test_decode_stateUpdateWaitRefresh : decode (.state 0b01110) = .ok .stateUpdateWaitRefresh := by decide
theorem test_decode_stateUpdateDone : decode (.state 0b01111) = .ok .stateUpdateDone := by decide
theorem test_decode_stateDeepSleep : decode (.state 0b10000) = .ok .stateDeepSleep := by decide
theorem test_decode_reservedState : decode (.state 0b10001) = .error .reservedState := by decide
/-- R150, with `TARGETS` as the opcode table's rows give it. -/
theorem test_decode_transferChunk1 : decode (.transfer 0b01100 1) = .ok .transferChunk1 := by decide
theorem test_decode_transferChunk2 : decode (.transfer 0b01100 2) = .ok .transferChunk2 := by decide

/-- The host's probe words: the head of a step, a frame, a strobe, a state code. -/
theorem test_decodeTableWord :
    decodeTableWord 16 0xFFFF = some .seqEnd ∧ decodeTableWord 16 0x0080 = some (.seqStepDelay 0x00 0x00 []) ∧
    decodeTableWord 16 0x0100 = some (.sendData 0x00) ∧ decodeTableWord 8 0x01 = some .hostTick ∧
    decodeTableWord 8 0x0C = some .stateUpdateSendingData ∧ decodeTableWord 8 0x80 = some (.cmdTagSecondary 0) := by
  decide +kernel

/-- A placed word is run by the next step. -/
theorem test_withFetchWord_step :
    after (step (State.reset.withFetchWord 16 0x1200)) (fun t => t.trace == cmdFrame 0x12 && t.ready) = true := by
  decide +kernel
theorem test_withFetchWord_state :
    after (step (State.reset.withFetchWord 8 0x07)) (fun t => t.st == .idle && t.ready) = true := by decide

/-! ### Memory and reset -/

theorem test_reset_memory_wf : Memory.wf State.reset.fb := by decide

/-- R44 and R202: the values at the output ports after reset. -/
theorem test_reset_outputs :
    State.reset.outputs =
      { sclk := false, sdin := false, csN := true, dc := false, panelRst := some true, ready := true
        drawReq := false, stOut := 0x00, updCntOut := 0, isFullOut := false, tgtOut := false } := by decide

/-! ### SEQ -/

/-- R118's example: the bytes `12 00` send one command frame and advance `seq_ptr` by 2. -/
theorem test_seqStep :
    after (exec (.seqStep 0x12 []) single) (fun t => t.trace == cmdFrame 0x12 && t.seqPtr == 2) = true := by decide

/-- R119's example: command frame, wait of 5 ms (V17: it ends 6 counts later), two data frames, 5 bytes. -/
theorem test_seqStepDelay :
    after (exec (.seqStepDelay 0xC0 0x05 [0xA0, 0xA1]) { single with now := 0xFFFFFFFE })
      (fun t => t.trace == cmdFrame 0xC0 ++ [.wait 5] ++ dataFrame 0xA0 ++ dataFrame 0xA1 && t.seqPtr == 5
        && t.now == 0x00000004) = true := by decide +kernel

/-- R125: a delay of 0 lets no time pass but is an event. -/
theorem test_seqStepDelay_zero :
    after (exec (.seqStepDelay 0x20 0x00 []) { single with now := 7, lapses := [3] })
      (fun t => t.trace == cmdFrame 0x20 ++ [.wait 0] && t.now == 7 && t.lapses == [3]) = true := by decide

theorem test_seqEnd : after (exec .seqEnd single) (fun t => t == single) = true := by decide
theorem test_seqIllegalFF : refuses (exec (.seqIllegalFF 0x00) single) .illFormedSequence = true := by decide

/-- V15: `01 83 05 2B 01 00 FF FF` ends at address 6. -/
theorem test_runSeq :
    after (runSeq .sleepSeq { single with cfg := { singleCfg with sleepSeq := [0x01, 0x83, 0x05, 0x2B, 0x01, 0x00, 0xFF, 0xFF] } })
      (fun t => t.trace == cmdFrame 0x01 ++ [.wait 5] ++ dataFrame 0x2B ++ dataFrame 0x01 ++ dataFrame 0x00
        && t.seqPtr == 6) = true := by decide +kernel

/-! ### FRAME and TAG -/

/-- V10: the 27 micro-steps of `SendCommand(0x12)`. -/
theorem test_sendCommand :
    after (exec (.sendCommand 0x12) single) (fun t =>
      t.trace == [.pin .dc false, .pin .csN false,
        .pin .sclk false, .pin .sdin false, .pin .sclk true, .pin .sclk false, .pin .sdin false, .pin .sclk true,
        .pin .sclk false, .pin .sdin false, .pin .sclk true, .pin .sclk false, .pin .sdin true, .pin .sclk true,
        .pin .sclk false, .pin .sdin false, .pin .sclk true, .pin .sclk false, .pin .sdin false, .pin .sclk true,
        .pin .sclk false, .pin .sdin true, .pin .sclk true, .pin .sclk false, .pin .sdin false, .pin .sclk true,
        .pin .csN true]
      && t.levels == { sclk := true, sdin := false, csN := true, dc := false, panelRst := true }) = true := by decide

/-- V11: the levels after `SendData(0xA5)`, and its `sdin` bits. -/
theorem test_sendData :
    after (exec (.sendData 0xA5) single) (fun t =>
      (t.trace.filterMap (fun e => match e with | .pin .sdin v => some v | _ => none))
          == [true, false, true, false, false, true, false, true]
        && t.levels == { sclk := true, sdin := true, csN := true, dc := true, panelRst := true }) = true := by decide

/-- Program P3's tagged steps: `tagged_step 0, 0x11` is `11`, `tagged_step 1, 0x24` is `A4`. -/
theorem test_cmdTagPrimary :
    after (exec (.cmdTagPrimary 0x11) single) (fun t => t.trace == cmdFrame 0x11) = true := by decide
theorem test_cmdTagSecondary :
    after (exec (.cmdTagSecondary 0x24) single) (fun t => t.trace == cmdFrame 0xA4) = true := by decide

/-- V13: with `ENC_STEP_CYCLES = 2`, micro-step 26 is made at edge 53 and the frame ends at edge 55. -/
theorem test_encoder_timing :
    ((State.encoderEdge^[52]) (single.startFrame true 0xA5)).csN = false ∧
    ((State.encoderEdge^[53]) (single.startFrame true 0xA5)).csN = true ∧
    ((State.encoderEdge^[54]) (single.startFrame true 0xA5)).encBusy = true ∧
    ((State.encoderEdge^[55]) (single.startFrame true 0xA5)).encBusy = false := by decide +kernel

/-! ### Framebuffer -/

/-- V1 to V4, one row each with a corner of the reach. -/
theorem test_pixelAddr :
    (Config.reference.pixelAddr 10 0, { Config.reference with mirrorX := false }.pixelAddr 10 0) = (some (0, 2), some (1, 5)) ∧
    { Config.reference with rotation := 90 }.pixelAddr 8 3 = some (15, 3) ∧
    { Config.reference with rotation := 90 }.pixelAddr 7 0 = none ∧
    { Config.reference with rotation := 180 }.pixelAddr 8 3 = some (9, 7) ∧
    { Config.reference with rotation := 270 }.pixelAddr 0 (-8) = some (0, 7) ∧
    { Config.reference with rotation := 270 }.pixelAddr 0 8 = none ∧
    { Config.reference with rotation := 360 }.pixelAddr 0 0 = none := by decide

/-- V6 step 2 after step 1. -/
theorem test_pixelSet :
    after (exec (.pixelSet 10 0 true) { State.reset with drawReq := true, fb := [(1, 0xFE)] })
      (fun t => t.fb == [(0, 0xFB), (1, 0xFE)]) = true := by decide

/-- V6 step 6 (the 16-bit extremes) and V8 (the window closed). -/
theorem test_pixelSet_ignored :
    after (exec (.pixelSet 0x8000 0x7FFF true) { State.reset with drawReq := true }) (fun t => t.fb == []) = true ∧
    after (exec (.pixelSet 0 0 true) State.reset) (fun t => t == State.reset) = true := by decide

/-- V7, `L = 4`. -/
theorem test_fbFill :
    after (exec (.fbFill true) { single with fb := [(0, 0x12), (1, 0x34), (2, 0x56), (3, 0x78)] })
      (fun t => fbBytes t 0 4 == [0x00, 0x00, 0x00, 0x00]) = true ∧
    after (exec (.fbFill false) { single with fb := [(0, 0x12), (1, 0x34), (2, 0x56), (3, 0x78)] })
      (fun t => fbBytes t 0 4 == [0xFF, 0xFF, 0xFF, 0xFF]) = true := by decide

/-! ### The state actions (V20 to V28) -/

theorem test_stateInitStart :
    after (exec .stateInitStart { single with now := 1000 }) (fun t => t.st == .initReset && t.tEntry == 1000) = true := by
  decide

theorem test_stateInitReset :
    after (exec .stateInitReset single)
      (fun t => t.st == .initWaitReset && t.trace == [.pin .panelRst true]) = true := by decide
theorem test_stateInitReset_noPin :
    after (exec .stateInitReset cascade) (fun t => t.st == .initSendCommands && t.trace == []) = true := by decide

/-- V21 and V23. -/
theorem test_stateInitWaitReset :
    after (exec .stateInitWaitReset { single with tEntry := 5000, now := 5100 }) (fun t => t.trace == []) = true ∧
    after (exec .stateInitWaitReset { single with tEntry := 5000, now := 5101 })
      (fun t => t.st == .initWaitResetLow && t.tEntry == 5101 && !t.panelRst) = true := by decide
theorem test_stateInitWaitReset_wrap :
    after (exec .stateInitWaitReset { single with tEntry := 0xFFFFFFF0, now := 0x54 }) (fun t => t.panelRst) = true ∧
    after (exec .stateInitWaitReset { single with tEntry := 0xFFFFFFF0, now := 0x55 }) (fun t => !t.panelRst) = true := by
  decide

/-- V22. -/
theorem test_stateInitWaitResetLow :
    after (exec .stateInitWaitResetLow { single with tEntry := 5101, now := 5111, panelRst := false })
      (fun t => !t.panelRst) = true ∧
    after (exec .stateInitWaitResetLow { single with tEntry := 5101, now := 5112, panelRst := false })
      (fun t => t.panelRst && t.st == .initWaitResetHigh && t.tEntry == 5112) = true := by decide
theorem test_stateInitWaitResetHigh :
    after (exec .stateInitWaitResetHigh { single with tEntry := 5112, now := 5122, st := .initWaitResetHigh })
      (fun t => t.st == .initWaitResetHigh) = true ∧
    after (exec .stateInitWaitResetHigh { single with tEntry := 5112, now := 5123, st := .initWaitResetHigh })
      (fun t => t.st == .initSendCommands && t.tEntry == 5123) = true := by decide

/-- P1, tick 9. -/
theorem test_stateInitSendCommands :
    after (exec .stateInitSendCommands { single with now := 1123 })
      (fun t => t.trace == cmdFrame 0x12 ++ cmdFrame 0x01 ++ [.wait 5] ++ dataFrame 0x2B ++ dataFrame 0x01 ++ dataFrame 0x00
        && t.st == .initWaitBusy && t.tEntry == 1129) = true := by decide +kernel

/-- V24. -/
theorem test_stateInitWaitBusy :
    after (exec .stateInitWaitBusy { single with tEntry := 6000, now := 7000, busyIn := true, st := .initWaitBusy })
      (fun t => t.st == .initWaitBusy && t.trace == [.busySample true]) = true ∧
    after (exec .stateInitWaitBusy { single with tEntry := 6000, now := 7001, busyIn := true })
      (fun t => t.st == .initDone && t.trace == [.busySample true]) = true := by decide
/-- V24, without a busy pin, and V27, the other polarity. -/
theorem test_stateInitWaitBusy_pin :
    after (exec .stateInitWaitBusy { cascade with busyIn := true }) (fun t => t.st == .initDone && t.trace == []) = true ∧
    after (exec .stateInitWaitBusy { single with cfg := { singleCfg with busyActiveLevel := 0 } })
      (fun t => t.st == .initStart) = true := by decide

/-- V20. -/
theorem test_stateInitDone :
    after (exec .stateInitDone { single with updCnt := 7, pending := true })
      (fun t => t.updCnt == 0 && t.pending && t.st == .idle) = true := by decide
theorem test_stateIdle :
    after (exec .stateIdle { single with updCnt := 0xFFFFFFFF, pending := true, sleepPending := true })
      (fun t => t.updCnt == 0 && !t.pending && t.sleepPending && t.st == .updateStart) = true := by decide
theorem test_stateIdle_sleep :
    after (exec .stateIdle { single with sleepPending := true })
      (fun t => !t.sleepPending && t.st == .deepSleep && t.updCnt == 0) = true ∧
    after (exec .stateIdle { single with st := .idle, now := 5 }) (fun t => t.st == .idle && t.tEntry == 0) = true := by
  decide

/-- V28: the window's writes `(0,0,1)`, `(15,0,1)`. -/
theorem test_stateUpdateStart :
    after (exec .stateUpdateStart
        { single with updCnt := 10, window := some [⟨0, 0, true⟩, ⟨15, 0, true⟩], fb := [(2, 0x00)] })
      (fun t => t.isFull && fbBytes t 0 4 == [0x7F, 0xFE, 0xFF, 0xFF] && t.st == .updateWaitBusy && !t.drawReq) = true := by
  decide
theorem test_stateUpdateStart_noCallback :
    after (exec .stateUpdateStart { single with cfg := { singleCfg with hasDrawCb := false }, updCnt := 2, fb := [(2, 0x00)] })
      (fun t => !t.isFull && fbBytes t 0 4 == [0xFF, 0xFF, 0xFF, 0xFF] && t.st == .updateWaitBusy) = true := by decide

/-- V25. -/
theorem test_stateUpdateWaitBusy :
    after (exec .stateUpdateWaitBusy { single with tEntry := 10000, now := 70000, busyIn := true })
      (fun t => t.st == .initStart) = true ∧
    after (exec .stateUpdateWaitBusy { single with tEntry := 10000, now := 70001, busyIn := true })
      (fun t => t.st == .updatePrepare) = true := by decide

/-- P2, tick 4. -/
theorem test_stateUpdatePrepare :
    after (exec .stateUpdatePrepare { single with now := 2003, idx := 4, row := 2, tgt := true })
      (fun t => t.trace == cmdFrame 0x24 && t.st == .updateSendingData && t.idx == 0 && t.row == 0 && !t.tgt
        && t.tEntry == 2003) = true := by decide

/-- V30, `CHUNK_BYTES = 3`: the first and the second tick. -/
theorem test_stateUpdateSendingData :
    after (exec .stateUpdateSendingData
        { single with st := .updateSendingData, fb := [(0, 0xF0), (1, 0x0F), (2, 0xAA), (3, 0x55)] })
      (fun t => t.trace == dataFrame 0xF0 ++ dataFrame 0x0F ++ dataFrame 0xAA && t.idx == 3
        && t.st == .updateSendingData) = true := by decide +kernel
theorem test_transferChunk1 :
    after (exec .transferChunk1
        { single with st := .updateSendingData, idx := 3, fb := [(0, 0xF0), (1, 0x0F), (2, 0xAA), (3, 0x55)] })
      (fun t => t.trace == dataFrame 0x55 && t.idx == 4 && t.st == .updateRefresh) = true := by decide

/-- V32, ticks 2 and 3. -/
theorem test_transferChunk2_switch :
    after (exec .transferChunk2 { cascade with
        st := .updateSendingData, row := 1, fb := Memory.ofBytesFrom 0 [0xA0, 0xA1, 0xA2, 0xB0, 0xB1, 0xB2] })
      (fun t => t.trace == dataFrame 0xB0 ++ dataFrame 0xB1 ++ cmdFrame 0xA4 && t.tgt && t.row == 0
        && t.st == .updateSendingData) = true := by decide +kernel
theorem test_transferChunk2_secondary :
    after (exec .transferChunk2 { cascade with
        st := .updateSendingData, tgt := true, fb := Memory.ofBytesFrom 0 [0xA0, 0xA1, 0xA2, 0xB0, 0xB1, 0xB2] })
      (fun t => t.trace == dataFrame 0xA1 ++ dataFrame 0xA2 && t.tgt && t.row == 1 && t.col == 0) = true := by decide

/-- P2, tick 7. -/
theorem test_stateUpdateRefresh :
    after (exec .stateUpdateRefresh { single with now := 2010, isFull := true })
      (fun t => t.trace == cmdFrame 0x22 ++ dataFrame 0xF7 ++ cmdFrame 0x20 ++ [.wait 10] && t.st == .updateWaitRefresh
        && t.tEntry == 2021) = true := by decide +kernel
/-- P2's second request: the partial table. -/
theorem test_stateUpdateRefresh_partial :
    after (exec .stateUpdateRefresh { single with isFull := false })
      (fun t => t.trace == cmdFrame 0x22 ++ dataFrame 0xFF ++ cmdFrame 0x20) = true := by decide +kernel

/-- V26. -/
theorem test_stateUpdateWaitRefresh :
    after (exec .stateUpdateWaitRefresh { single with tEntry := 10000, now := 70000, busyIn := true })
      (fun t => t.st == .initStart) = true ∧
    after (exec .stateUpdateWaitRefresh { single with tEntry := 10000, now := 70001, busyIn := true })
      (fun t => t.st == .updateDone) = true := by decide

theorem test_stateUpdateDone :
    after (exec .stateUpdateDone { single with now := 3001 }) (fun t => t.st == .idle && t.tEntry == 3001) = true := by
  decide

/-- V20, `SLEEP_SEQ = 10 01 01 FF FF`. -/
theorem test_stateDeepSleep :
    after (exec .stateDeepSleep { single with st := .deepSleep })
      (fun t => t.trace == cmdFrame 0x10 ++ dataFrame 0x01 && t.sleepDone && t.st == .deepSleep) = true := by decide
theorem test_stateDeepSleep_again :
    after (exec .stateDeepSleep { single with st := .deepSleep, sleepDone := true }) (fun t => t.trace == []) = true := by
  decide

/-! ### The host's strobes (V40 to V44) -/

theorem test_hostTick :
    after (exec .hostTick { single with now := 1000 }) (fun t => t.st == .initReset && t.ready) = true := by decide
/-- V43. -/
theorem test_hostTick_dropped :
    after (exec .hostTick { single with ready := false }) (fun t => t.st == .initStart && !t.ready) = true := by decide
theorem test_hostRequestUpdate :
    after (exec .hostRequestUpdate { single with st := .deepSleep }) (fun t => t.pending && t.st == .deepSleep) = true := by
  decide
theorem test_hostSleepRequest :
    after (exec .hostSleepRequest { single with st := .updateRefresh }) (fun t => t.sleepPending) = true := by decide
theorem test_hostDrawDone :
    after (exec .hostDrawDone { single with drawReq := true }) (fun t => !t.drawReq) = true := by decide

/-- V40: a request at the edge where IDLE clears the flag ends set. -/
theorem test_clock_request_rearmed :
    after (clockEdge (levels 0b00010 5) 1 { single with st := .idle, pending := true, ready := false, work := [.action] })
      (fun t => t.pending && t.st == .updateStart && t.updCnt == 1) = true := by decide

/-- R162 (a): a request at the edge that accepts IDLE's tick is seen by that tick. -/
theorem test_edge_request_with_tick :
    after (step { single with st := .idle, inputs := [.edge (levels 0b00111 5) noDraws] })
      (fun t => t.st == .updateStart && !t.pending && t.sleepPending && t.updCnt == 1) = true := by decide

/-- R202: a reset during a frame raises `cs_n` at once. -/
theorem test_reset_edge :
    after (step { single with csN := false, encBusy := true, work := [.frame], ready := false, inputs := [.reset [0x12]] })
      (fun t => t.csN && !t.encBusy && t.ready && t.work == [] && t.fb == [(0, 0x12)]) = true := by decide

/-! ### The hypotheses of the obligations are met -/

/-- A request strobe, no tick. -/
def requestEdge : State := { single with inputs := [.edge (levels 0b00010 1) noDraws] }
/-- INIT_SEND_COMMANDS, the interpreter at the second step of INIT_SEQ. -/
def midTable : State :=
  { single with
    st := .initSendCommands, work := [.seqHead, .goto .initWaitBusy], ready := false, seqPtr := 2
    inputs := [.edge (levels 0 1) noDraws] }
/-- The same at the start of the frame of that step's first argument. -/
def midFrame : State :=
  { single.startFrame true 0x2B with
    st := .initSendCommands, work := [.frame, .argSent, .seqArgs, .seqHead, .goto .initWaitBusy], ready := false
    seqPtr := 5, seqLeft := 3, inputs := [.edge (levels 0 1) noDraws] }
/-- The drawing window open. -/
def openWindow : State :=
  { single with
    st := .updateStart, drawReq := true, ready := false, work := [.window, .goto .updateWaitBusy]
    inputs := [.edge { levels 0b11001 1 with px := ⟨0, 0, true⟩ } noDraws] }

/-- R106: while the command frame is in progress the interpreter's registers are those of before it. -/
theorem test_clock_registers_wait_for_frame :
    after (clockEdge (levels 0 1) 3 midTable)
      (fun t => t.encBusy && t.seqPtr == 2 && t.seqLeft == 0
        && t.work == [.frame, .seqTake 3, .seqDelay, .seqArgs, .seqHead, .goto .initWaitBusy]) = true ∧
    after (clockEdge (levels 0 1) 2 { midFrame with encBusy := false })
      (fun t => t.seqPtr == 6 && t.seqLeft == 2) = true := by decide

/-- V17: the wait ends when `now_ms` has advanced by `d + 1` counts, whatever time the environment draws before it. -/
theorem test_wait_length :
    (State.waitMs 5 { single with now := 0xFFFFFFFE }).now = 0x00000004 ∧
    (State.waitMs 255 single).now = 256 ∧
    (State.waitMs 10 { single with now := 2000, lapses := [10] }).waitT0 = 2010 ∧
    (State.waitMs 10 { single with now := 2000, lapses := [10] }).now = 2021 := by decide

/-- V17 at the cycle level: the hold of 5 ms from 1123 stays at 1128 and ends at 1129, on an edge without actions. -/
theorem test_clock_wait_ends :
    after (clockEdge (levels 0 1128) 3 { midTable with waitT0 := 1123, waitD := 5, work := [.seqHold, .seqArgs] })
      (fun t => t.work == [.seqHold, .seqArgs]) = true ∧
    after (clockEdge (levels 0 1129) 0 { midTable with waitT0 := 1123, waitD := 5, work := [.seqHold, .seqArgs] })
      (fun t => t.work == [.seqArgs]) = true := by decide

/-- R134: draws as long as they may be leave `t_goto` the table's waits after `t_start`, here `5 + 1` of `2^32 - 1` ms. -/
theorem test_draws_cut :
    after (exec .stateInitSendCommands { single with now := 7, lapses := [4294967295, 4294967295] })
      (fun t => t.tEntry == 6 && t.st == .initWaitBusy) = true := by decide +kernel

theorem witness_DecodeOfEncode :
    (Instr.seqStepDelay 0xFE 0xFF (List.replicate 127 0xFF)).wf = true ∧ (Instr.seqIllegalFF 0xFE).wf = true := by decide +kernel

theorem witness_StepBytesReadBack :
    (0xFE : Byte) ≠ 0xFF ∧ (List.replicate 127 (0xFF : Byte)).length ≤ 127 := by decide +kernel

theorem witness_StepHeadDecides :
    (0xFF : Byte) ≠ 0xFE ∧
    ((0x7F : Byte).getLsbD 7 = false ∧ (List.replicate 127 (0 : Byte)).length = (0x7F : Byte).toNat % 128) ∧
    ((0xFF : Byte).getLsbD 7 = true ∧ (List.replicate 127 (0 : Byte)).length = (0xFF : Byte).toNat % 128) ∧
    ((0x80 : Byte).getLsbD 7 = true ∧ ([] : List Byte).length = (0x80 : Byte).toNat % 128) := by decide +kernel

theorem witness_TableNotation :
    ((0xFE : Byte) ≠ 0xFF ∧ (List.replicate 127 (0 : Byte)).length ≤ 127) ∧
    127 < (List.replicate 128 (0 : Byte)).length ∧ (0x7F : Byte).toNat < 0x80 := by decide +kernel

theorem witness_WellFormedTableShape :
    ∀ op ∈ [SeqOp.step 0xFE [0xFF], .stepDelay 0 0xFF []], op ≠ .finish ∧ (∀ k, op ≠ .illegal k) ∧ op.instr.wf = true := by
  intro op h
  fin_cases h <;> exact ⟨by decide, by simp, by decide⟩

theorem witness_StepRunsPortOperation :
    requestEdge.cfg.valid = true ∧ requestEdge.inputs = [.edge (levels 0b00010 1) noDraws] ∧ requestEdge.work = [] ∧
    decodeHiv ((levels 0b00010 1).hiv &&& requestEdge.gate) 0 0 false = [.hostRequestUpdate] ∧
    (requestEdge.ready = true ∧ (levels 0b11111 1).hiv.getLsbD 0 = true) ∧ (levels 0b00010 1).hiv.getLsbD 0 = false := by
  decide

theorem witness_TickRunsDecodedState :
    single.ready = true ∧ decodeState single.st.code = .ok .stateInitStart := by decide

theorem witness_StepRunsTableStep :
    (midTable.controlOk = true ∧ midTable.placesOk = true) ∧
    midTable.cfg.valid = true ∧ midTable.inputs = [.edge (levels 0 1) noDraws] ∧
    midTable.work = .seqHead :: [.goto .initWaitBusy] ∧ (levels 0 1).hiv &&& midTable.gate = 0 ∧ midTable.seqTable.length ≤ 65535 ∧
    decodeSeq midTable.seqBytes = .ok (.stepDelay 0x01 0x05 [0x2B, 0x01, 0x00], [0xFF, 0xFF]) := by decide
/-- The same at the end marker. -/
theorem witness_StepRunsTableStep_end :
    decodeSeq { midTable with seqPtr := 8 }.seqBytes = .ok (.finish, []) := by decide

theorem witness_StepRunsRequestedFrame :
    (midFrame.controlOk = true ∧ midFrame.placesOk = true) ∧
    midFrame.cfg.valid = true ∧ midFrame.inputs = [.edge (levels 0 1) noDraws] ∧
    midFrame.work = .frame :: [.argSent, .seqArgs, .seqHead, .goto .initWaitBusy] ∧ (levels 0 1).hiv &&& midFrame.gate = 0 ∧ midFrame.encBusy = true ∧ midFrame.encStep = 0 ∧ midFrame.encHold = 0 ∧
    decode (.frame (BitVec.ofBool midFrame.encMode ++ midFrame.encByte)) = .ok (.sendData 0x2B) := by decide

/-- Both sides: a configuration that passes every condition, and one that breaks one (each is broken above). -/
theorem witness_ConfigurationRefused :
    (∃ t, step requestEdge = .next t) ∧
    refuses (step { single with cfg := { singleCfg with height := 0 } }) (.configuration .geometry) = true :=
  ⟨(next_of_after (p := fun _ => true) (by decide)).imp (fun _ h => h.1), by decide⟩

/-- A consistent state for each kind of input, and the stops. -/
theorem witness_SilentEnvironmentStops :
    ((midTable.cfg.valid = true ∧ midTable.controlOk = true ∧ midTable.placesOk = true) ∧
      midTable.inputs = .edge (levels 0 1) noDraws :: [] ∧
      { midTable with inputs := [.clock (levels 0 1) 2] }.inputs = .clock (levels 0 1) 2 :: [] ∧
      { midTable with inputs := [.reset []] }.inputs = .reset [] :: []) ∧
    (single.cfg.valid = true ∧ single.inputs = []) ∧ faults (step single) .stuckNoTick = true ∧
    faults (step { openWindow with inputs := [] }) .stuckDrawDone = true ∧
    faults (step { single with work := [.seqHold], ready := false }) .stuckNowMs = true ∧
    singleCfg.fbLen < { single with idx := 5 }.idx.toNat ∧ cascadeCfg.height < { cascade with row := 3 }.row.toNat := by
  decide

theorem witness_EncoderCycleTiming :
    1 ≤ single.cfg.encStepCycles ∧ single.encBusy = false ∧
    (1 + 0 * single.cfg.encStepCycles ≤ 1 ∧ 1 < 1 + (0 + 1) * single.cfg.encStepCycles) ∧
    (1 + 26 * single.cfg.encStepCycles ≤ 54 ∧ 54 < 1 + (26 + 1) * single.cfg.encStepCycles) ∧
    1 + 27 * single.cfg.encStepCycles ≤ 55 := by decide

/-- With a frame in progress, and without one, an action in hand. -/
theorem witness_BusPinsOnlyByEncoder :
    (∃ t, clockEdge (levels 0b11111 1) 3 midFrame = .next t) ∧ midFrame.encBusy = true ∧
    ∃ t, clockEdge (levels 0b11111 1) 3 { single with work := [.action], ready := false } = .next t :=
  ⟨(next_of_after (p := fun _ => true) (by decide)).imp (fun _ h => h.1), by decide,
    (next_of_after (p := fun _ => true) (by decide)).imp (fun _ h => h.1)⟩

theorem witness_SeqEndResult :
    ({ midTable with seqPtr := 8 }.seqBytes = 0xFF :: 0xFF :: [] ∧ { midTable with lapses := [4294967295] }.lapses.sum < 2 ^ 32) ∧
    (0xC0 : Byte) ≠ 0xFF ∧
    (List.replicate 125 (0 : Byte)).length + ([] : List Byte).length ≤ 125 := ⟨by decide, by decide, by simp⟩

theorem witness_SeqIllegalRefused :
    (0xFE : Byte) ≠ 0xFF ∧ (SeqOp.step 0x12 []).instr.wf = true ∧
    { singleCfg with initSeq := [0x12, 0x00, 0xFF, 0xFE] }.table .initSeq =
      [SeqOp.step 0x12 []].flatMap SeqOp.bytes ++ [0xFF, 0xFE] ∧
    cascadeCfg.targets = 2 ∧
    { cascadeCfg with secondaryPrepareSeq := some [0xFF, 0x00] }.table .secondaryPrepareSeq =
      ([] : List SeqOp).flatMap SeqOp.bytes ++ [0xFF, 0x00] := by
  decide

theorem witness_TableRunEvents :
    tableOk (single.cfg.table .initSeq) = true ∧ tableOk (cascade.cfg.table .secondaryPrepareSeq) = true := by decide
theorem witness_TableRunCounts :
    tableOk ({ singleCfg with initSeq := [0x44, 0x81, 0xFF, 0xFF, 0xFF, 0xFF, 0x12] }.table .initSeq) = true := by decide
theorem witness_RunTimeSpansWaits :
    tableOk (single.cfg.table .fullRefreshSeq) = true ∧
    waitSum (tableOps (single.cfg.table .fullRefreshSeq)) + { single with lapses := [4294967284] }.lapses.sum < 2 ^ 32 := by
  decide

theorem witness_WaitLasts :
    (0xFF : Byte) ≠ 0 ∧ (levels 0 1).hiv = 0 ∧ single.encBusy = false ∧
    { single with work := [.seqHold], ready := false }.work = .seqHold :: [] ∧
    { single with work := [.seqHold], ready := false }.ready = false := by decide

/-- One configuration for each clause. -/
theorem witness_IllFormedRunRefused :
    wfTable ({ singleCfg with initSeq := [0xFF, 0x00] }.table .initSeq) = false ∧
    wfTable ({ singleCfg with prepareSeq := [] }.table .prepareSeq) = false ∧
    wfTable ({ singleCfg with partialRefreshSeq := [0x12, 0x00] }.table .partialRefreshSeq) = false ∧
    wfTable ({ singleCfg with sleepSeq := [0xFF] }.table .sleepSeq) = false ∧ single.sleepDone = false ∧
    single.isFull = false ∧
    (wfTable ({ cascadeCfg with secondaryPrepareSeq := some [] }.table .secondaryPrepareSeq) = false ∧
      cascadeCfg.height ≤ 65535 ∧ (1#16).toNat ≤ cascadeCfg.height ∧ cascadeCfg.height ≤ (1#16).toNat + cascadeCfg.chunkRows ∧
      cascade.tgt = false ∧ cascadeCfg.targets = 2) := by decide

theorem witness_FillResult : State.fbOk { single with fb := [(0, 0x00), (3, 0xFE)] } := ⟨by decide, by decide⟩

/-- The window closed; open on the last pixel of the panel; open outside it. -/
theorem witness_PixelSetResult :
    (single.cfg.geometryOk = true ∧ Memory.wf single.fb) ∧ single.drawReq = false ∧ openWindow.drawReq = true ∧
    openWindow.cfg.pixelAddr (15#16).toInt (1#16).toInt = some (3, 0) ∧
    openWindow.cfg.pixelAddr (16#16).toInt (1#16).toInt = none := by decide

theorem witness_PixelReadBack :
    (single.cfg.geometryOk = true ∧ Memory.wf single.fb) ∧ single.cfg.pixelAddr 15 1 ≠ none ∧
    single.cfg.pixelAddr (-1) 0 = none := by decide

/-- One configuration for each rotation and each clause. -/
theorem witness_PixelAddressGenerator :
    (singleCfg.rotation = 0 ∧ { singleCfg with rotation := 90 }.rotation = 90 ∧
      { singleCfg with rotation := 180 }.rotation = 180 ∧ { singleCfg with rotation := 270 }.rotation = 270) ∧
    { singleCfg with rotation := 90 }.pixelAddr 14 15 ≠ none ∧ { singleCfg with rotation := 270 }.pixelAddr 1 (-14) ≠ none ∧
    15 < singleCfg.width ∧ 1 < singleCfg.height ∧
    { singleCfg with rotation := 1 }.rotation ≠ 0 ∧ { singleCfg with rotation := 1 }.rotation ≠ 90 ∧
    { singleCfg with rotation := 1 }.rotation ≠ 180 ∧ { singleCfg with rotation := 1 }.rotation ≠ 270 := by decide

theorem witness_UpdateStartImage :
    single.cfg.geometryOk = true ∧ single.cfg.hasDrawCb = true ∧
    { single with window := some [⟨0, 0, true⟩] }.window = some [⟨0, 0, true⟩] ∧ single.cfg.pixelAddr 0 0 ≠ none := by decide

theorem witness_InitStartAndReset : single.cfg.hasResetPin = true ∧ cascade.cfg.hasResetPin = false := by decide

theorem witness_TableStatesRunTheirTable :
    tableOk single.cfg.initSeq = true ∧ tableOk single.cfg.prepareSeq = true ∧
    ({ single with isFull := true }.isFull = true ∧ tableOk single.cfg.fullRefreshSeq = true) ∧
    (single.isFull = false ∧ tableOk single.cfg.partialRefreshSeq = true) := by decide

theorem witness_IdleTakesRequests :
    { single with pending := true }.pending = true ∧
    ({ single with sleepPending := true }.pending = false ∧ { single with sleepPending := true }.sleepPending = true) ∧
    (single.pending = false ∧ single.sleepPending = false) := by decide

theorem witness_UpdateStartFillsAndDraws :
    { singleCfg with hasDrawCb := false }.hasDrawCb = false ∧
    (single.cfg.hasDrawCb = true ∧ { single with window := some [] }.window = some []) ∧ single.window = none := by decide

theorem witness_DrawWindowServed :
    openWindow.cfg.valid = true ∧
    openWindow.inputs = [.edge { levels 0b11001 1 with px := ⟨0, 0, true⟩ } noDraws] ∧
    (openWindow.work = [.window, .goto .updateWaitBusy] ∧ openWindow.drawReq = true ∧ openWindow.ready = false) ∧
    ({ openWindow with inputs := [.clock (levels 0b11001 1) 2] }.inputs = .clock (levels 0b11001 1) 2 :: [] ∧
      openWindow.encBusy = false) ∧
    (∃ u, clockEdge { levels 0b11111 1 with hiv := 0 } 2 openWindow = .next u ∧ u.drawReq = true) ∧
    ∃ u, clockEdge { levels 0b11111 1 with hiv := 0 } 2 single = .next u ∧ u.ready = true :=
  ⟨by decide, by decide, by decide, by decide, next_of_after (p := fun u => u.drawReq) (by decide),
    next_of_after (p := fun u => u.ready) (by decide)⟩

theorem witness_CadenceRule :
    { singleCfg with forcedMode := .alwaysFull }.forcedMode = .alwaysFull ∧ cascadeCfg.forcedMode = .alwaysPartial ∧
    singleCfg.forcedMode = .cadence := by decide
/-- X3: the updates 1, 10, 20 are full, 2, 9 and 11 are not; V29: update 0 after a wrap is. -/
theorem test_cadence :
    [1, 10, 20, 0, 2, 9, 11].map (cadenceFull singleCfg) = [true, true, true, true, false, false, false] := by decide

theorem witness_DeepSleepRunsTableOnce :
    { single with sleepDone := true }.sleepDone = true ∧ single.sleepDone = false ∧ tableOk single.cfg.sleepSeq = true := by
  decide

/-- The last tick of the image, a tick before it, and the boundary `idx = L`. -/
theorem witness_SingleTransferTick :
    single.cfg.geometryOk = true ∧ single.cfg.targets = 1 ∧
    { single with idx := 3 }.idx.toNat + min 3 (single.cfg.fbLen - 3) = single.cfg.fbLen ∧
    single.idx.toNat + min 3 (single.cfg.fbLen - 0) ≠ single.cfg.fbLen ∧
    { single with idx := 4 }.idx.toNat ≤ single.cfg.fbLen := by decide

theorem witness_CascadeTransferTick :
    cascade.cfg.geometryOk = true ∧ cascade.cfg.targets = 2 ∧ tableOk (cascade.cfg.table .secondaryPrepareSeq) = true ∧
    cascade.row.toNat + min 1 (2 - 0) ≠ cascade.cfg.height ∧
    ({ cascade with row := 1 }.row.toNat + min 1 (2 - 1) = cascade.cfg.height ∧ cascade.tgt = false) ∧
    ({ cascade with row := 2, tgt := true }.row.toNat ≤ cascade.cfg.height ∧ { cascade with tgt := true }.tgt = true) := by
  decide

theorem witness_TransferProgress :
    (∃ t, exec .stateUpdateSendingData single = .next t) ∧ (∃ t, exec .stateUpdateSendingData cascade = .next t) ∧
    (single.cfg.valid = true ∧ single.idx.toNat < single.cfg.fbLen) ∧
    (cascade.cfg.valid = true ∧ cascade.row.toNat < cascade.cfg.height) ∧ 2 < (cascade.cfg.columns true).2 :=
  ⟨(next_of_after (p := fun _ => true) (by decide)).imp (fun _ h => h.1),
    (next_of_after (p := fun _ => true) (by decide)).imp (fun _ h => h.1), by decide, by decide, by decide⟩

theorem witness_WholeSingleTransfer :
    single.cfg.valid = true ∧ single.cfg.targets = 1 ∧ { single with st := .updateSendingData }.st = .updateSendingData ∧
    single.idx = 0 := by decide
theorem witness_WholeCascadeTransfer :
    cascade.cfg.valid = true ∧ cascade.cfg.targets = 2 ∧ { cascade with st := .updateSendingData }.st = .updateSendingData ∧
    cascade.row = 0 ∧ cascade.tgt = false ∧ cascade.cfg.rowBytes % 2 = 1 ∧ single.cfg.rowBytes % 2 = 0 := by decide

/-- Each clause: dropped, completed, accepted at a clock edge, not ready at one. -/
theorem witness_TickAcceptance :
    midTable.ready = false ∧ (single.cfg.valid = true ∧ single.ready = true ∧ single.work = []) ∧
    single.idx.toNat ≤ single.cfg.fbLen ∧ cascade.row.toNat ≤ cascade.cfg.height ∧
    (∃ t, clockEdge (levels 0b00001 1) 0 single = .next t ∧ t.work = [.action]) ∧
    ∃ t, clockEdge (levels 0b00001 1) 0 { single with ready := false } = .next t ∧ t.ready = true := by
  refine ⟨by decide, by decide, by decide, by decide, ?_, ?_⟩
  · exact (next_of_after (p := fun t => decide (t.work = [.action])) (by decide)).imp (fun _ h => ⟨h.1, by simpa using h.2⟩)
  · exact next_of_after (p := fun t => t.ready) (by decide)

theorem witness_StrobesSetFlags :
    { single with pending := true }.pending = true ∧ { single with sleepPending := true }.sleepPending = true ∧
    openWindow.drawReq = true ∧ single.drawReq = false := by decide

/-- A clock edge and a transaction edge, with and without the flag set before. -/
theorem witness_RequestsNeverLost :
    (single.controlOk = true ∧ ∃ t, step requestEdge = .next t ∧ t.pending = true) ∧
    ∃ t, step { single with
        st := .idle, pending := true, sleepPending := true, ready := false, work := [.action]
        inputs := [.clock (levels 0b00110 1) 1] } = .next t ∧ t.st = .updateStart :=
  ⟨⟨by decide, next_of_after (p := fun t => t.pending) (by decide)⟩,
    (next_of_after (p := fun t => decide (t.st = .updateStart)) (by decide)).imp (fun _ h => ⟨h.1, by simpa using h.2⟩)⟩

/-- A consistent state in the middle of a table run, and one with the window open, that have a next state. -/
theorem witness_ControlConsistencyKept :
    (midTable.controlOk = true ∧ midTable.placesOk = true ∧ ∃ t, step midTable = .next t ∧ t.st = .initWaitBusy) ∧
    (openWindow.controlOk = true ∧ openWindow.placesOk = true) ∧ ∃ t, step openWindow = .next t ∧ t.st = .updateWaitBusy :=
  ⟨⟨by decide, by decide,
      (next_of_after (p := fun t => decide (t.st = .initWaitBusy)) (by decide +kernel)).imp
        (fun _ h => ⟨h.1, by simpa using h.2⟩)⟩, by decide,
    (next_of_after (p := fun t => decide (t.st = .updateWaitBusy)) (by decide)).imp (fun _ h => ⟨h.1, by simpa using h.2⟩)⟩

theorem witness_StepFollowsTransitions :
    single.controlOk = true ∧
    (∃ t, step { single with inputs := [.edge (levels 0b00001 1) noDraws] } = .next t ∧ t.st = .initReset) ∧
    ∃ t, step { single with st := .deepSleep, inputs := [.reset []] } = .next t ∧ t.st = .initStart :=
  ⟨by decide,
    (next_of_after (p := fun t => decide (t.st = .initReset)) (by decide)).imp (fun _ h => ⟨h.1, by simpa using h.2⟩),
    (next_of_after (p := fun t => decide (t.st = .initStart)) (by decide)).imp (fun _ h => ⟨h.1, by simpa using h.2⟩)⟩

theorem witness_ResetStateSafe : singleCfg.valid = true ∧ cascadeCfg.valid = true := by decide

theorem witness_FramebufferFormKept :
    State.fbOk openWindow ∧ ∃ t, step openWindow = .next t ∧ t.fb = [(0, 0x7F)] :=
  ⟨⟨by decide, by decide⟩,
    (next_of_after (p := fun t => decide (t.fb = [(0, 0x7F)])) (by decide)).imp (fun _ h => ⟨h.1, by simpa using h.2⟩)⟩

/-- In the pulse, and at its end. -/
theorem witness_NoFrameInResetPulse :
    let low : State := { single with st := .initWaitResetLow, panelRst := false, inputs := [.edge (levels 0b00001 11) noDraws] }
    low.controlOk = true ∧ low.pulseOk ∧ (∃ t, step low = .next t ∧ t.panelRst = true) ∧
    ∃ t, step { single with st := .initWaitResetHigh, inputs := [.edge (levels 0b00001 11) noDraws] } = .next t ∧
      t.st = .initSendCommands :=
  ⟨by decide, fun _ => rfl, next_of_after (p := fun t => t.panelRst) (by decide),
    (next_of_after (p := fun t => decide (t.st = .initSendCommands)) (by decide)).imp (fun _ h => ⟨h.1, by simpa using h.2⟩)⟩

theorem witness_DeepSleepKept :
    let asleep : State := { single with st := .deepSleep, sleepDone := true, inputs := [.edge (levels 0b11111 1) noDraws] }
    asleep.controlOk = true ∧ asleep.st = .deepSleep ∧ (∃ t, step asleep = .next t ∧ t.pending = true) ∧
    asleep.sleepDone = true ∧ asleep.work = [] :=
  ⟨by decide, rfl, next_of_after (p := fun t => t.pending) (by decide), rfl, rfl⟩

theorem witness_FramebufferWrittenInUpdateStart :
    let s : State := { single with st := .updateSendingData, inputs := [.edge (levels 0b00001 1) noDraws] }
    s.controlOk = true ∧ s.st ≠ .updateStart ∧ ∃ t, step s = .next t ∧ t.idx = 3 :=
  ⟨by decide, by decide,
    (next_of_after (p := fun t => decide (t.idx = 3)) (by decide)).imp (fun _ h => ⟨h.1, by simpa using h.2⟩)⟩

/-- Inside a frame, at the last row of the cascade transfer, and between ticks with a tick strobe. -/
theorem witness_ControlActionRefines :
    let lastRow : State :=
      { cascade with st := .updateSendingData, row := 1, ready := false, work := [.rows 1, .endChunk2] }
    ((midFrame.cfg.valid = true ∧ midFrame.controlOk = true ∧ midFrame.placesOk = true) ∧
      ∃ t, clockEdge (levels 0 1) 0 midFrame = .next t ∧ t.dc = true) ∧
    ((lastRow.cfg.valid = true ∧ lastRow.controlOk = true ∧ lastRow.placesOk = true) ∧
      ∃ t, clockEdge (levels 0 1) 1 lastRow = .next t ∧ t.encBusy = true) ∧
    ((single.cfg.valid = true ∧ single.controlOk = true ∧ single.placesOk = true) ∧ single.ready = true ∧
      (levels 1 1).hiv = 1 ∧ (levels 0 1).hiv = 0 ∧ ∃ t, clockEdge (levels 1 1) 1 single = .next t ∧ t.work = [.action]) :=
  ⟨⟨by decide, next_of_after (p := fun t => t.dc) (by decide)⟩,
    ⟨by decide, next_of_after (p := fun t => t.encBusy) (by decide)⟩,
    by decide, rfl, rfl, rfl,
    (next_of_after (p := fun t => decide (t.work = [.action])) (by decide)).imp (fun _ h => ⟨h.1, by simpa using h.2⟩)⟩

theorem witness_ResetValues :
    midFrame.cfg.valid = true ∧ { midFrame with inputs := [.reset []] }.inputs = [.reset []] := by decide

end Sys2Proof.Tests
end

namespace Sys2Proof

/-- Every table the interpreter selects in a valid configuration is well formed and in the pointer's reach; the secondary
one where there is a second controller (60_exceptions.md R188.6). -/
theorem Config.tableOk_of_valid {c : Config} (h : c.valid = true) (sel : TableSel)
    (hsel : sel = .secondaryPrepareSeq → c.targets = 2) : tableOk (c.table sel) = true := by
  obtain ⟨-, -, -, -, ht, -, -⟩ := (Config.valid_iff c).1 h
  simp only [Config.tablesOk, Bool.and_eq_true, Bool.or_eq_true, decide_eq_true_eq] at ht
  obtain ⟨⟨⟨⟨⟨hi, hp⟩, hf⟩, hq⟩, hs⟩, h2⟩ := ht
  cases sel with
  | secondaryPrepareSeq => exact h2.resolve_left (fun hne => hne (hsel rfl))
  | _ => assumption

end Sys2Proof

namespace Sys2Proof.Machine

/-! ### The codes and the reset values -/

theorem DState.ofCode_code (d : DState) : DState.ofCode d.code = some d := by
  cases d <;> rfl

theorem DState.ofCode_eq_none_iff (code : BitVec 5) : DState.ofCode code = none ↔ 0x11 ≤ code.toNat := by
  revert code
  decide

theorem decodeState_reserved_iff (code : BitVec 5) :
    decodeState code = .error .reservedState ↔ 0x11 ≤ code.toNat := by
  revert code
  decide

/-- Settles O6: each code by evaluation, the reserved ones by going through the 32 codes. -/
theorem stateCodes : Obligations.StateCodes :=
  ⟨rfl, DState.ofCode_code, DState.ofCode_eq_none_iff, decodeState_reserved_iff, fun _ => rfl⟩

theorem State.fbOk_resetEdge (fb : List Byte) (s : State) : (s.resetEdge fb).fbOk := by
  refine ⟨Memory.wf_ofBytesFrom .., fun p hp => ?_⟩
  have hlen : (fb.take s.cfg.fbLen).length ≤ s.cfg.fbLen := List.length_take_le ..
  have hlt : p.1 < 0 + (fb.take s.cfg.fbLen).length := (Memory.mem_ofBytesFrom hp).2
  show p.1 < s.cfg.fbLen
  omega

theorem State.controlOk_ofConfig (c : Config) : (State.ofConfig c).controlOk = true := rfl

theorem State.placesOk_ofConfig {c : Config} (h : c.valid = true) : (State.ofConfig c).placesOk = true := by
  have ht : tableOk c.initSeq = true := Config.tableOk_of_valid h .initSeq (by simp)
  simp only [tableOk, Bool.and_eq_true, decide_eq_true_eq] at ht
  simp [State.placesOk, State.workPlaced, State.cursorOk, State.ofConfig, State.seqTable, Config.table, ht.2]

theorem State.safe_ofConfig {c : Config} (h : c.valid = true) : (State.ofConfig c).safe :=
  ⟨h, State.controlOk_ofConfig c, State.placesOk_ofConfig h,
    ⟨⟨List.Pairwise.nil, by simp [State.ofConfig]⟩, by simp [State.ofConfig]⟩, by simp [State.pulseOk, State.ofConfig]⟩

/-- Settles O54: nothing is in hand, nothing is written, and the interpreter stands at the first byte of a table of the
configuration. -/
theorem resetStateSafe : Obligations.ResetStateSafe :=
  ⟨fun _ => State.safe_ofConfig, State.safe_ofConfig (by decide)⟩

/-- Settles O60: a reset edge is answered in every state, and each register of it and of the built state by evaluation. -/
theorem resetValues : Obligations.ResetValues := by
  intro s fb rest hv hi
  refine ⟨_, step_of_valid hv hi, rfl, rfl, ?_⟩
  rintro u (rfl | rfl) <;> constructorm* _ ∧ _ <;> rfl

end Sys2Proof.Machine

namespace Sys2Proof.Machine

/-! ### Whole frames and waits -/

/-- `u` comes from `s` by whole frames, waits and advances of the interpreter's pointer: a run's fields are all that is
written, the running table stays, and the encoder is as it was or has just ended a frame. -/
def State.Ran (s u : State) : Prop :=
  u = s.withRun u ∧ u.seqSel = s.seqSel ∧
    (u.encBusy = s.encBusy ∧ u.encStep = s.encStep ∧ u.encHold = s.encHold ∨
      u.encBusy = false ∧ u.encStep = 26 ∧ u.encHold = s.cfg.encStepCycles)

namespace State.Ran

variable {s t u : State}

theorem cfg (h : s.Ran u) : u.cfg = s.cfg := by rw [h.1]; rfl
theorem st (h : s.Ran u) : u.st = s.st := by rw [h.1]; rfl
theorem idx (h : s.Ran u) : u.idx = s.idx := by rw [h.1]; rfl
theorem row (h : s.Ran u) : u.row = s.row := by rw [h.1]; rfl
theorem tgt (h : s.Ran u) : u.tgt = s.tgt := by rw [h.1]; rfl
theorem col (h : s.Ran u) : u.col = s.col := by rw [h.1]; rfl
theorem drawReq (h : s.Ran u) : u.drawReq = s.drawReq := by rw [h.1]; rfl
theorem ready (h : s.Ran u) : u.ready = s.ready := by rw [h.1]; rfl
theorem fb (h : s.Ran u) : u.fb = s.fb := by rw [h.1]; rfl
theorem work (h : s.Ran u) : u.work = s.work := by rw [h.1]; rfl
theorem seqSel (h : s.Ran u) : u.seqSel = s.seqSel := h.2.1

theorem encBusy_false (h : s.Ran u) (hs : s.encBusy = false) : u.encBusy = false := by
  obtain ⟨-, -, ⟨hb, -⟩ | ⟨hb, -⟩⟩ := h
  · rw [hb, hs]
  · exact hb

protected theorem refl (s : State) : s.Ran s := ⟨State.withRun_self s, rfl, .inl ⟨rfl, rfl, rfl⟩⟩

protected theorem trans (h1 : s.Ran t) (h2 : t.Ran u) : s.Ran u := by
  refine ⟨State.withRun_trans h1.1 h2.1, h2.2.1.trans h1.2.1, ?_⟩
  obtain ⟨hb, hs, hh⟩ | ⟨hb, hs, hh⟩ := h2.2.2
  · rw [hb, hs, hh]
    exact h1.2.2
  · exact .inr ⟨hb, hs, hh.trans (by rw [h1.cfg])⟩

protected theorem sendFrame (m : Bool) (b : Byte) (s : State) : s.Ran (s.sendFrame m b) :=
  ⟨State.withWire_withRun (State.sendFrame_frame m b s), by simp, .inr (by simp)⟩

protected theorem sendBytes (bytes : List Byte) (s : State) : s.Ran (s.sendBytes bytes) := by
  induction bytes generalizing s with
  | nil => exact .refl s
  | cons b bytes ih =>
    rw [State.sendBytes_cons]
    exact (State.Ran.sendFrame true b s).trans (ih _)

protected theorem advanceSeqPtr (n : Nat) (s : State) : s.Ran (s.advanceSeqPtr n) := ⟨rfl, rfl, .inl ⟨rfl, rfl, rfl⟩⟩

protected theorem setSeqLeft (n : Nat) (s : State) : s.Ran (s.setSeqLeft n) := ⟨rfl, rfl, .inl ⟨rfl, rfl, rfl⟩⟩

protected theorem boundDraws (ops : List SeqOp) (s : State) : s.Ran (s.boundDraws ops) :=
  ⟨rfl, rfl, .inl ⟨rfl, rfl, rfl⟩⟩

protected theorem delayStep (d : Byte) (s : State) : s.Ran (s.delayStep d) := by
  rw [State.delayStep, State.waitMs_frame]
  exact ⟨rfl, rfl, .inl ⟨rfl, rfl, rfl⟩⟩

protected theorem finishHold (s : State) : s.Ran s.finishHold := by
  unfold State.finishHold
  split
  · exact .refl s
  · exact ⟨rfl, rfl, .inl ⟨rfl, rfl, rfl⟩⟩

protected theorem sendFbBytes (a n : Nat) (s : State) : s.Ran (s.sendFbBytes a n) := State.Ran.sendBytes _ s

protected theorem sendRows (c0 c1 row r : Nat) (s : State) : s.Ran (State.sendRows c0 c1 row r s) := by
  induction r generalizing row s with
  | zero => exact .refl s
  | succ r ih => exact (State.Ran.sendFbBytes _ _ s).trans (ih (row + 1) _)

end State.Ran

/-! ### Micro-steps -/

theorem microStep_ne_panelRst (m : Bool) (b : Byte) (i : Nat) : (microStep m b i).1 ≠ .panelRst := by
  unfold microStep
  repeat' split
  all_goals simp

theorem State.setPin_withWire {p : Pin} (hp : p ≠ .panelRst) (v : Bool) (s : State) :
    s.setPin p v = s.withWire (s.setPin p v) := by
  cases p with
  | panelRst => exact absurd rfl hp
  | sclk | sdin | csN | dc => rfl

theorem State.microSteps_cons (m : Bool) (b : Byte) (i : Nat) (is : List Nat) (s : State) :
    s.microSteps m b (i :: is) = (s.setPin (microStep m b i).1 (microStep m b i).2).microSteps m b is := rfl

/-- Micro-steps leave everything but the bus pins and the trace. -/
theorem State.microSteps_withWire (m : Bool) (b : Byte) (is : List Nat) (s : State) :
    s.microSteps m b is = s.withWire (s.microSteps m b is) := by
  induction is generalizing s with
  | nil => rfl
  | cons i is ih =>
    rw [State.microSteps_cons]
    generalize hu : s.setPin (microStep m b i).1 (microStep m b i).2 = u
    have hs : u = s.withWire u := hu ▸ State.setPin_withWire (microStep_ne_panelRst m b i) _ s
    calc u.microSteps m b is = u.withWire (u.microSteps m b is) := ih u
      _ = (s.withWire u).withWire (u.microSteps m b is) := by rw [← hs]
      _ = s.withWire (u.microSteps m b is) := State.withWire_withWire ..

/-- Carrying a frame to its end leaves no frame in progress and is part of a run. -/
theorem State.Ran.finishFrame (s : State) : s.Ran s.finishFrame ∧ s.finishFrame.encBusy = false := by
  unfold State.finishFrame
  split
  · generalize hv : s.microSteps s.encMode s.encByte _ = v
    have h : v = s.withWire v := hv ▸ State.microSteps_withWire ..
    refine ⟨⟨?_, ?_, .inr ⟨rfl, rfl, ?_⟩⟩, rfl⟩ <;> rw [h] <;> rfl
  · rename_i hb
    exact ⟨.refl s, by simpa using hb⟩

/-! ### Runs of tables and their parts -/

theorem execSeqStep_ran {cmd : Byte} {args : List Byte} {s u : State} (h : execSeqStep cmd args s = .next u) :
    s.Ran u := by
  cases h
  exact (((State.Ran.sendFrame ..).trans (.sendBytes ..)).trans (.advanceSeqPtr ..)).trans (.setSeqLeft ..)

theorem execSeqStepDelay_ran {cmd dly : Byte} {args : List Byte} {s u : State}
    (h : execSeqStepDelay cmd dly args s = .next u) : s.Ran u := by
  cases h
  exact ((((State.Ran.sendFrame ..).trans (.delayStep ..)).trans (.sendBytes ..)).trans (.advanceSeqPtr ..)).trans
    (.setSeqLeft ..)

theorem runSteps_ran {n : Nat} {s u : State} (h : runSteps n s = .next u) : s.Ran u := by
  induction n generalizing s with
  | zero => cases h
  | succ n ih =>
    unfold runSteps at h
    split at h
    · cases h
    · split at h
      · cases h
        exact .refl _
      · cases h
      · obtain ⟨v, hv, h⟩ := andThen_eq_next.1 h
        exact (execSeqStep_ran hv).trans (ih h)
      · obtain ⟨v, hv, h⟩ := andThen_eq_next.1 h
        exact (execSeqStepDelay_ran hv).trans (ih h)

theorem runRest_ran {s u : State} (h : runRest s = .next u) : s.Ran u :=
  (State.Ran.boundDraws _ s).trans (runSteps_ran h)

theorem runSeq_ran {sel : TableSel} {s u : State} (h : runSeq sel s = .next u) : (s.selectTable sel).Ran u :=
  runRest_ran h

theorem readDelay_ran {s u : State} (h : readDelay s = .next u) : s.Ran u := by
  unfold readDelay at h
  split at h
  · cases h
    exact (State.Ran.delayStep ..).trans (.advanceSeqPtr ..)
  · cases h

theorem sendRestArgs_ran {s u : State} (h : sendRestArgs s = .next u) : s.Ran u := by
  unfold sendRestArgs at h
  split at h
  · cases h
    exact ((State.Ran.sendBytes ..).trans (.advanceSeqPtr ..)).trans (.setSeqLeft ..)
  · cases h

/-- The rest of some rows is a part of the wire, then the advance of the row cursor. -/
theorem State.finishRows_ran (r : Nat) (s : State) : ∃ v, s.Ran v ∧ s.finishRows r = v.advanceRow r := by
  cases r with
  | zero => exact ⟨s, .refl s, rfl⟩
  | succ r => exact ⟨_, (State.Ran.sendFbBytes _ _ s).trans (.sendRows ..), rfl⟩

end Sys2Proof.Machine

namespace Sys2Proof.Machine

/-! ### The state actions -/

/-- The states whose action runs a table or sends the image; the action of any other state is one control action. -/
def DState.sends : DState → Bool
  | .initSendCommands | .updatePrepare | .updateSendingData | .updateRefresh | .deepSleep => true
  | .initStart | .initReset | .initWaitReset | .initWaitResetLow | .initWaitResetHigh | .initWaitBusy | .initDone | .idle
  | .updateStart | .updateWaitBusy | .updateWaitRefresh | .updateDone => false

/-- The state `s` with the fields the actions without frames write taken from `t`, those of UPDATE_START apart. -/
def State.withQuiet (s t : State) : State :=
  { s with
    st := t.st, tEntry := t.tEntry, updCnt := t.updCnt, pending := t.pending, sleepPending := t.sleepPending
    panelRst := t.panelRst, trace := t.trace, now := t.now, lapses := t.lapses }

theorem beginAction_of_not_sends {s : State} (h : s.st.sends = false) : beginAction s = tickAction s := by
  unfold beginAction
  split <;> simp_all [DState.sends]

/-- `u` comes from `s` by an action without frames: what such an action writes, and the draw of time of a `goto`. -/
def State.Quiet (s u : State) : Prop := u = s.withQuiet u ∧ (u.lapses = s.lapses ∨ u.lapses = s.lapses.tail)

theorem State.Quiet.refl (s : State) : s.Quiet s := ⟨rfl, .inl rfl⟩

theorem State.Quiet.goto {s v : State} (hv : v = s.withQuiet v) (hl : v.lapses = s.lapses) (d : DState) :
    s.Quiet (v.goto d) := by
  refine ⟨?_, .inr (by rw [State.goto_lapses, hl])⟩
  rw [hv]
  rfl

theorem waitBusy_quiet (timeout : Word32) (exit : DState) (s : State) : s.Quiet (waitBusy timeout exit s) := by
  have hsample : s.sampleBusy = s.withQuiet s.sampleBusy ∧ s.sampleBusy.lapses = s.lapses := by
    unfold State.sampleBusy
    split <;> exact ⟨rfl, rfl⟩
  unfold waitBusy
  split
  · exact .goto hsample.1 hsample.2 _
  · exact ⟨hsample.1, .inl hsample.2⟩

/-- An action without frames that does not draw writes the controller's registers, its pin and the time only. -/
theorem tickAction_quiet {s u : State} (hs : s.st.sends = false) (hd : s.st ≠ .updateStart)
    (h : tickAction s = .next u) : s.Quiet u := by
  unfold tickAction at h
  generalize s.st = d at hs hd h
  cases d with
  | initStart | initDone | updateDone =>
    cases h
    exact .goto rfl rfl _
  | initReset =>
    cases h
    split <;> exact .goto rfl rfl _
  | initWaitReset | initWaitResetLow | initWaitResetHigh =>
    cases h
    split
    · exact .goto rfl rfl _
    · exact .refl s
  | initWaitBusy | updateWaitBusy | updateWaitRefresh =>
    cases h
    exact waitBusy_quiet ..
  | idle =>
    cases h
    split
    · exact .goto rfl rfl _
    · split
      · exact .goto rfl rfl _
      · exact .refl s
  | updateStart => exact absurd rfl hd
  | initSendCommands | updatePrepare | updateSendingData | updateRefresh | deepSleep => cases hs

/-- Pixel writes write the framebuffer only. -/
theorem State.writePixels_next (ws : List PixelWrite) (s : State) :
    ∃ m, ws.foldl State.writePixel s = { s with fb := m } := ⟨_, State.writePixels_frame ws s⟩

/-- The drawing window closes within the tick and the state is left, or it opens with the rest of the tick behind it
(43_display_controller.md R147). -/
theorem drawWindow_cases (s : State) :
    (∃ m, drawWindow s = ({ s with drawReq := false, fb := m } : State).goto .updateWaitBusy) ∨
    drawWindow s = { s with drawReq := true, work := [.window, .goto .updateWaitBusy] ++ s.work } := by
  unfold drawWindow
  split
  · rename_i writes _
    obtain ⟨m, hm⟩ := State.writePixels_next writes (s.setDrawReq true)
    exact .inl ⟨m, by rw [hm]; rfl⟩
  · exact .inr rfl

/-- UPDATE_START leaves the state, or opens the drawing window with the rest of the tick behind it (R146, R147). -/
theorem execStateUpdateStart_cases {s u : State} (h : execStateUpdateStart s = .next u) :
    (∃ full m req, (req = s.drawReq ∨ req = false) ∧
      u = ({ s with isFull := full, fb := m, drawReq := req } : State).goto .updateWaitBusy) ∨
    ∃ full m, u = { s with
      isFull := full, fb := m, drawReq := true, work := [.window, .goto .updateWaitBusy] ++ s.work } := by
  cases h
  split
  · obtain ⟨m, hm⟩ | hm := drawWindow_cases ((s.setIsFull (cadenceFull s.cfg s.updCnt)).fill false)
    · exact .inl ⟨_, m, false, .inr rfl, hm⟩
    · exact .inr ⟨_, _, hm⟩
  · exact .inl ⟨_, _, _, .inl rfl, rfl⟩

/-! ### The configuration and the framebuffer's form -/

/-- The configuration stays, and a framebuffer in form stays in form. -/
def State.FormKept (s u : State) : Prop := u.cfg = s.cfg ∧ (s.fbOk → u.fbOk)

namespace State.FormKept

variable {s t u : State}

theorem of_same (hc : u.cfg = s.cfg) (hf : u.fb = s.fb) : s.FormKept u :=
  ⟨hc, fun h => by rwa [State.fbOk, hc, hf]⟩

protected theorem refl (s : State) : s.FormKept s := .of_same rfl rfl

protected theorem trans (h1 : s.FormKept t) (h2 : t.FormKept u) : s.FormKept u :=
  ⟨h2.1.trans h1.1, fun h => h2.2 (h1.2 h)⟩

theorem geometryOk (h : s.FormKept u) (hg : s.cfg.geometryOk = true) : u.cfg.geometryOk = true := by rwa [h.1]

protected theorem writePixel (hg : s.cfg.geometryOk = true) (w : PixelWrite) : s.FormKept (s.writePixel w) :=
  ⟨by rw [State.writePixel_frame], fun h => State.fbOk_setPixel hg h _ _ _⟩

protected theorem writePixels (hg : s.cfg.geometryOk = true) (ws : List PixelWrite) :
    s.FormKept (ws.foldl State.writePixel s) := by
  induction ws generalizing s with
  | nil => exact .refl s
  | cons w ws ih =>
    have hw : s.FormKept (s.writePixel w) := .writePixel hg w
    exact hw.trans (ih (hw.geometryOk hg))

end State.FormKept

theorem State.Ran.formKept {s u : State} (h : s.Ran u) : s.FormKept u := .of_same h.cfg h.fb

theorem runSeq_formKept {sel : TableSel} {s u : State} (h : runSeq sel s = .next u) : s.FormKept u :=
  (runSeq_ran h).formKept

theorem drawWindow_formKept {s : State} (hg : s.cfg.geometryOk = true) : s.FormKept (drawWindow s) := by
  unfold drawWindow
  split
  · rename_i writes _
    have hopen : s.FormKept (s.setDrawReq true) := .of_same rfl rfl
    have hw : s.FormKept (writes.foldl State.writePixel (s.setDrawReq true)) :=
      hopen.trans (.writePixels (s := s.setDrawReq true) hg writes)
    generalize writes.foldl State.writePixel (s.setDrawReq true) = v at hw
    exact hw.trans (.of_same rfl rfl)
  · exact .of_same rfl rfl

/-- FILL puts a framebuffer in form, and the pixels of the drawing window keep it there. -/
theorem execStateUpdateStart_formKept {s u : State} (hg : s.cfg.geometryOk = true)
    (h : execStateUpdateStart s = .next u) : s.FormKept u := by
  have hfill : s.FormKept ((s.setIsFull (cadenceFull s.cfg s.updCnt)).fill false) :=
    ⟨rfl, fun _ => State.fbOk_fill false (s.setIsFull (cadenceFull s.cfg s.updCnt))⟩
  cases h
  split
  · exact hfill.trans (drawWindow_formKept hg)
  · exact hfill.trans (.of_same rfl rfl)

theorem endChunk1_formKept {n : Nat} {s u : State} (h : endChunk1 n s = .next u) : s.FormKept u := by
  cases h
  split <;> exact .of_same rfl rfl

theorem endChunk2_formKept {s u : State} (h : endChunk2 s = .next u) : s.FormKept u := by
  unfold endChunk2 at h
  split at h
  · split at h
    · cases h
      exact .of_same rfl rfl
    · obtain ⟨v, hv, h⟩ := andThen_eq_next.1 h
      cases h
      exact (runSeq_formKept hv).trans (.of_same rfl rfl)
  · cases h
    exact .refl _

theorem chunk1_formKept {s u : State} (h : chunk1 s = .next u) : s.FormKept u := by
  unfold chunk1 at h
  split at h
  · cases h
  · exact (State.Ran.sendFbBytes ..).formKept.trans (endChunk1_formKept h)

theorem chunk2_formKept {s u : State} (h : chunk2 s = .next u) : s.FormKept u := by
  unfold chunk2 at h
  split at h
  · cases h
  · have hk := endChunk2_formKept h
    generalize hv : State.sendRows _ _ _ _ s = v at h hk
    have hr : s.Ran v := hv ▸ State.Ran.sendRows ..
    exact hr.formKept.trans hk

/-- No state action writes the configuration or leaves the framebuffer's form. -/
theorem tickAction_formKept {s u : State} (hg : s.cfg.geometryOk = true) (h : tickAction s = .next u) :
    s.FormKept u := by
  by_cases hq : s.st.sends = false ∧ s.st ≠ .updateStart
  · rw [(tickAction_quiet hq.1 hq.2 h).1]
    exact .of_same rfl rfl
  · unfold tickAction at h
    generalize s.st = d at hq h
    cases d with
    | updateStart => exact execStateUpdateStart_formKept hg h
    | initSendCommands | updateRefresh | updatePrepare =>
      obtain ⟨v, hv, h⟩ := andThen_eq_next.1 h
      cases h
      have hk := runSeq_formKept hv
      exact State.FormKept.trans (t := v) hk (.of_same rfl rfl)
    | updateSendingData =>
      change (if s.cfg.targets = 1 then chunk1 s else chunk2 s) = _ at h
      split at h
      · exact chunk1_formKept h
      · exact chunk2_formKept h
    | deepSleep =>
      change execStateDeepSleep s = _ at h
      unfold execStateDeepSleep at h
      split at h
      · cases h
        exact .refl _
      · obtain ⟨v, hv, h⟩ := andThen_eq_next.1 h
        cases h
        exact State.FormKept.trans (t := v) (runSeq_formKept hv) (.of_same rfl rfl)
    | initStart | initReset | initWaitReset | initWaitResetLow | initWaitResetHigh | initWaitBusy | initDone | idle
    | updateWaitBusy | updateWaitRefresh | updateDone => exact absurd ⟨rfl, by decide⟩ hq

end Sys2Proof.Machine

namespace Sys2Proof.Machine

/-! ### Tasks, control actions and edges -/

/-- What every control action keeps, any number of them keeps. -/
theorem controlActions_keeps {P : State → Prop} (hP : ∀ {s u : State}, P s → controlAction s = .next u → P u) {n : Nat}
    {s u : State} (hs : P s) (h : controlActions n s = .next u) : P u := by
  induction n generalizing s with
  | zero =>
    cases h
    exact hs
  | succ n ih =>
    obtain ⟨v, hv, h⟩ := andThen_eq_next.1 h
    exact ih (hP hs hv) h

/-- What each operation of a list keeps, the list keeps. -/
theorem execAll_keeps {P : State → Prop} {is : List Instr}
    (hP : ∀ i ∈ is, ∀ {s u : State}, P s → exec i s = .next u → P u) {s u : State} (hs : P s)
    (h : execAll is s = .next u) : P u := by
  induction is generalizing s with
  | nil =>
    cases h
    exact hs
  | cons i is ih =>
    obtain ⟨v, hv, h⟩ := andThen_eq_next.1 h
    exact ih (fun j hj => hP j (List.mem_cons_of_mem i hj)) (hP i List.mem_cons_self hs hv) h

theorem performTask_formKept {t : Task} {s u : State} (hg : s.cfg.geometryOk = true) (h : performTask t s = .next u) :
    s.FormKept u := by
  cases t with
  | action => exact tickAction_formKept hg h
  | run sel => exact runSeq_formKept h
  | seqHead => exact (runRest_ran h).formKept
  | seqDelay => exact (readDelay_ran h).formKept
  | seqArgs => exact (sendRestArgs_ran h).formKept
  | endChunk1 n => exact endChunk1_formKept h
  | endChunk2 => exact endChunk2_formKept h
  | seqHold =>
    cases h
    exact (State.Ran.finishHold s).formKept
  | frame =>
    cases h
    exact (State.Ran.finishFrame s).1.formKept
  | sendFb a n =>
    cases h
    exact (State.Ran.sendFbBytes a n s).formKept
  | rows r =>
    cases h
    obtain ⟨v, hv, hr⟩ := State.finishRows_ran r s
    rw [hr]
    exact hv.formKept.trans (.of_same rfl rfl)
  | window =>
    cases h
    split <;> exact .of_same rfl rfl
  | seqTake left | argSent | colSent | switchTarget | sleepDone | goto d =>
    cases h
    exact .of_same rfl rfl

theorem drainTasks_formKept {ts : List Task} {s u : State} (hg : s.cfg.geometryOk = true)
    (h : drainTasks ts s = .next u) : s.FormKept u := by
  induction ts generalizing s with
  | nil =>
    cases h
    exact .of_same rfl rfl
  | cons t ts ih =>
    obtain ⟨v, hv, h⟩ := andThen_eq_next.1 h
    have hk : s.FormKept v := .trans (t := { s with work := [] }) (.of_same rfl rfl) (performTask_formKept hg hv)
    split at h
    · exact hk.trans (ih (hk.geometryOk hg) h)
    · cases h
      exact hk.trans (.of_same rfl rfl)

theorem beginAction_formKept {s u : State} (hg : s.cfg.geometryOk = true) (h : beginAction s = .next u) :
    s.FormKept u := by
  cases hq : s.st.sends with
  | false => exact tickAction_formKept hg (beginAction_of_not_sends hq ▸ h)
  | true =>
    unfold beginAction at h
    generalize s.st = d at hq h
    cases d with
    | initSendCommands | updatePrepare | updateRefresh =>
      cases h
      exact .of_same rfl rfl
    | updateSendingData =>
      change beginTransfer s = _ at h
      unfold beginTransfer State.startRow at h
      split at h <;> split at h <;> cases h
      · exact .of_same rfl rfl
      · split <;> exact .of_same rfl rfl
    | deepSleep =>
      cases h
      split <;> exact .of_same rfl rfl
    | initStart | initReset | initWaitReset | initWaitResetLow | initWaitResetHigh | initWaitBusy | initDone | idle
    | updateStart | updateWaitBusy | updateWaitRefresh | updateDone => cases hq

theorem beginStep_formKept {s u : State} (h : beginStep s = .next u) : s.FormKept u := by
  unfold beginStep at h
  split at h
  · cases h
  · split at h <;> cases h <;> exact .of_same rfl rfl

theorem taskAction_formKept {t : Task} {s u : State} (hg : s.cfg.geometryOk = true) (h : taskAction t s = .next u) :
    s.FormKept u := by
  cases t with
  | action => exact beginAction_formKept hg h
  | seqHead => exact beginStep_formKept h
  | endChunk1 n => exact endChunk1_formKept h
  | seqDelay =>
    change beginDelay s = _ at h
    unfold beginDelay at h
    split at h <;> cases h
    split <;> exact .of_same rfl rfl
  | seqArgs =>
    change beginArg s = _ at h
    unfold beginArg at h
    split at h
    · cases h
      exact .refl _
    · split at h <;> cases h
      exact .of_same rfl rfl
  | sendFb a n =>
    cases h
    cases n <;> exact .of_same rfl rfl
  | rows r =>
    cases h
    unfold beginRowByte State.startRow
    repeat' split
    all_goals exact .of_same rfl rfl
  | endChunk2 =>
    cases h
    unfold beginEndChunk2
    repeat' split
    all_goals exact .of_same rfl rfl
  | seqHold | frame | window =>
    cases h
    split <;> exact .of_same rfl rfl
  | run sel | seqTake left | argSent | colSent | switchTarget | sleepDone | goto d =>
    cases h
    exact .of_same rfl rfl

theorem controlAction_formKept {s u : State} (hg : s.cfg.geometryOk = true) (h : controlAction s = .next u) :
    s.FormKept u := by
  unfold controlAction at h
  split at h
  · cases h
    exact .refl _
  · rename_i t ts _
    exact .trans (t := { s with work := ts }) (.of_same rfl rfl) (taskAction_formKept hg h)

theorem State.endHold_formKept (s : State) : s.FormKept s.endHold := by
  unfold State.endHold
  repeat' split
  all_goals exact .of_same rfl rfl

theorem controlEdge_formKept {n : Nat} {s u : State} (hg : s.cfg.geometryOk = true) (h : controlEdge n s = .next u) :
    s.FormKept u := by
  unfold controlEdge at h
  split at h
  · cases h
    exact .refl _
  · split at h
    · cases h
      exact .of_same rfl rfl
    · exact controlActions_keeps (P := s.FormKept) (fun hk hv => hk.trans (controlAction_formKept (hk.geometryOk hg) hv))
        s.endHold_formKept h

theorem State.encoderEdge_formKept (s : State) : s.FormKept s.encoderEdge := by
  unfold State.encoderEdge
  repeat' split
  all_goals exact .of_same (by simp) (by simp)

/-- The operations an edge's ports can start keep the configuration and the framebuffer's form. -/
theorem exec_port_formKept {hiv : BitVec 5} {x y : Coord} {black : Bool} {i : Instr}
    (hi : i ∈ decodeHiv hiv x y black) {s u : State} (hg : s.cfg.geometryOk = true) (h : exec i s = .next u) :
    s.FormKept u := by
  obtain ⟨rfl, -⟩ | ⟨rfl, -⟩ | ⟨rfl, -⟩ | ⟨rfl, -⟩ | ⟨rfl, -⟩ := mem_decodeHiv hi
  · cases h
    exact .of_same rfl rfl
  · cases h
    exact .of_same rfl rfl
  · cases h
    split
    · exact .writePixel hg _
    · exact .refl _
  · cases h
    split <;> exact .of_same rfl rfl
  · change execHostTick s = _ at h
    unfold execHostTick State.endTick at h
    split at h
    · obtain ⟨v, hv, h⟩ := andThen_eq_next.1 h
      have hk : s.FormKept v := .trans (t := s.setReady false) (.of_same rfl rfl) (tickAction_formKept hg hv)
      cases h
      split
      · exact hk.trans (.of_same rfl rfl)
      · exact hk
    · cases h
      exact .refl _

theorem execAll_port_formKept {hiv : BitVec 5} {x y : Coord} {black : Bool} {s u : State}
    (hg : s.cfg.geometryOk = true) (h : execAll (decodeHiv hiv x y black) s = .next u) : s.FormKept u :=
  execAll_keeps (P := s.FormKept) (fun _ hi _ _ hk hv => hk.trans (exec_port_formKept hi (hk.geometryOk hg) hv))
    (.refl s) h

theorem transactionEdge_formKept {p : Ports} {d : Draws} {s u : State} (hg : s.cfg.geometryOk = true)
    (h : transactionEdge p d s = .next u) : s.FormKept u := by
  obtain ⟨v, h, hu⟩ := andThen_eq_next.1 h
  obtain ⟨w, hw, hv⟩ := andThen_eq_next.1 h
  have hk : s.FormKept w := .trans (t := s.sample p d) (.of_same rfl rfl) (execAll_port_formKept hg hw)
  cases hu
  exact (hk.trans (drainTasks_formKept (hk.geometryOk hg) hv)).trans (.of_same rfl rfl)

theorem clockEdge_formKept {p : Ports} {n : Nat} {s u : State} (hg : s.cfg.geometryOk = true)
    (h : clockEdge p n s = .next u) : s.FormKept u := by
  obtain ⟨v, h, hu⟩ := andThen_eq_next.1 h
  obtain ⟨w, hw, hv⟩ := andThen_eq_next.1 h
  have hsample : s.FormKept (s.sample p { lapses := [], window := none }) := .of_same rfl rfl
  have hk : s.FormKept w := by
    split at hw
    · cases hw
      exact hsample.trans (State.encoderEdge_formKept _)
    · exact hsample.trans (controlEdge_formKept hg hw)
  have hkv : s.FormKept v := hk.trans (execAll_port_formKept (hk.geometryOk hg) hv)
  cases hu
  split
  · exact hkv.trans (.of_same rfl rfl)
  · exact hkv.trans (.of_same rfl rfl)

/-- No step writes the configuration or leaves the framebuffer's form. -/
theorem step_formKept {s t : State} (h : step s = .next t) : s.FormKept t := by
  obtain ⟨hv, i, is, -, h⟩ := step_next h
  have hg := ((Config.valid_iff s.cfg).1 hv).1
  cases i with
  | reset fb =>
    cases h
    exact ⟨rfl, fun _ => State.fbOk_resetEdge fb _⟩
  | edge p d => exact .trans (t := { s with inputs := is }) (.of_same rfl rfl) (transactionEdge_formKept hg h)
  | clock p n => exact .trans (t := { s with inputs := is }) (.of_same rfl rfl) (clockEdge_formKept hg h)

/-- Settles O55: FILL and SET_PIXEL keep the framebuffer's form, a reset draws it in form, and nothing else writes it; nothing
writes the configuration. -/
theorem framebufferFormKept : Obligations.FramebufferFormKept := fun _ _ hs h =>
  have hk := step_formKept h
  ⟨hk.2 hs, hk.1⟩

end Sys2Proof.Machine

namespace Sys2Proof

/-! ### The walk of a table, step by step -/

/-- A walk of any bound is a walk of every bound past the bytes: each step takes at least two of them (R75). -/
theorem wfWalk_of_length_lt {n m : Nat} {bytes : List Byte} (h : wfWalk n bytes = true) (hm : bytes.length < m) :
    wfWalk m bytes = true := by
  induction n generalizing m bytes with
  | zero => cases h
  | succ n ih =>
    obtain ⟨m, rfl⟩ : ∃ k, m = k + 1 := ⟨m - 1, by omega⟩
    unfold wfWalk at h ⊢
    split at h
    · rename_i c k rest
      simp only [List.length_cons] at hm
      by_cases hc : c = 0xFF
      · simpa [hc] using h
      · by_cases hl : rest.length < (cntDelay k).toNat + cntArgs k
        · simp only [hc, hl, if_true, if_false, Bool.false_eq_true] at h
        · simp only [hc, hl, if_false] at h ⊢
          exact ih h (by rw [List.length_drop]; omega)
    · cases h

/-- Behind a step of a well-formed table stands a well-formed table (42_sequence_interpreter.md R127). -/
theorem wfTable_after {bytes rest : List Byte} {op : SeqOp} (h : wfTable bytes = true)
    (hd : decodeSeq bytes = .ok (op, rest)) : op = .finish ∨ wfTable rest = true := by
  have hlen : rest.length < bytes.length := by
    have h2 := two_le_opLen op
    have hb := congrArg List.length (decodeSeq_ok hd).1
    rw [List.length_append, SeqOp.length_bytes] at hb
    omega
  have hrest : wfWalk bytes.length rest = true → wfTable rest = true := fun hw =>
    wfWalk_of_length_lt hw (Nat.lt_succ_self _)
  obtain ⟨r, he⟩ | ⟨cmd, args, r, he, hw⟩ | ⟨cmd, dly, args, r, he, hw⟩ := wfWalk_decode h <;>
    rw [he] at hd <;> cases hd
  · exact .inl rfl
  · exact .inr (hrest hw)
  · exact .inr (hrest hw)

/-- The arguments of a decoded step fit its 7-bit count (30_encoding.md R73). -/
theorem args_length_le_of_decodeSeq {bytes rest args : List Byte} {cmd dly : Byte}
    (hd : decodeSeq bytes = .ok (.step cmd args, rest) ∨ decodeSeq bytes = .ok (.stepDelay cmd dly args, rest)) :
    args.length ≤ 127 := by
  obtain hd | hd := hd <;> have hwf := (decodeSeq_ok hd).2 <;> simp [SeqOp.instr, Instr.wf] at hwf <;> exact hwf.2

end Sys2Proof

namespace Sys2Proof.Machine

/-! ### Where the work in hand stands -/

/-- `workPlaced` case by case: the work in hand stands where it can go on. -/
inductive State.Placed (s : State) : List Task → Prop
  | frame {ts : List Task} (h : s.Placed ts) : s.Placed (.frame :: ts)
  | run {sel : TableSel} {t : Task} (ha : afterRun t = true) (ht : tableOk (s.cfg.table sel) = true) :
      s.Placed [.run sel, t]
  | seqHead {t : Task} (ha : afterRun t = true) (hp : s.headAfter 0 = true) : s.Placed [.seqHead, t]
  | seqTake {n : BitVec 7} {t : Task} (ha : afterRun t = true) (hp : s.headAfter (2 + n.toNat) = true) :
      s.Placed [.seqTake n, .seqArgs, .seqHead, t]
  | seqTakeDelay {n : BitVec 7} {t : Task} (ha : afterRun t = true) (hp : s.headAfter (3 + n.toNat) = true) :
      s.Placed [.seqTake n, .seqDelay, .seqArgs, .seqHead, t]
  | seqDelay {t : Task} (ha : afterRun t = true) (hp : s.headAfter (1 + s.seqLeft.toNat) = true) :
      s.Placed [.seqDelay, .seqArgs, .seqHead, t]
  | seqHold {t : Task} (ha : afterRun t = true) (hp : s.headAfter s.seqLeft.toNat = true) :
      s.Placed [.seqHold, .seqArgs, .seqHead, t]
  | seqArgs {t : Task} (ha : afterRun t = true) (hp : s.headAfter s.seqLeft.toNat = true) :
      s.Placed [.seqArgs, .seqHead, t]
  | argSent {t : Task} (ha : afterRun t = true) (h1 : 1 ≤ s.seqLeft.toNat)
      (hp : s.headAfter s.seqLeft.toNat = true) : s.Placed [.argSent, .seqArgs, .seqHead, t]
  | sendFb {a n m : Nat} (h : a + n = s.idx.toNat + m) (hl : a + n ≤ s.cfg.fbLen) : s.Placed [.sendFb a n, .endChunk1 m]
  | endChunk1 {m : Nat} (h : s.idx.toNat + m ≤ s.cfg.fbLen) : s.Placed [.endChunk1 m]
  | rows {r : Nat} (h2 : s.cfg.targets = 2) (hr : s.row.toNat + r ≤ s.cfg.height)
      (hc : r = 0 ∨ (s.cfg.columns s.tgt).1 ≤ s.col.toNat ∧ s.col.toNat ≤ (s.cfg.columns s.tgt).2) :
      s.Placed [.rows r, .endChunk2]
  | colSent {r : Nat} (h2 : s.cfg.targets = 2) (h1 : 1 ≤ r) (hr : s.row.toNat + r ≤ s.cfg.height)
      (hc : (s.cfg.columns s.tgt).1 ≤ s.col.toNat) (hc' : s.col.toNat < (s.cfg.columns s.tgt).2) :
      s.Placed [.colSent, .rows r, .endChunk2]
  | endChunk2 (h2 : s.cfg.targets = 2) : s.Placed [.endChunk2]
  | nil : s.Placed []
  | action : s.Placed [.action]
  | goto {d : DState} : s.Placed [.goto d]
  | switchTarget : s.Placed [.switchTarget]
  | sleepDone : s.Placed [.sleepDone]
  | window {d : DState} : s.Placed [.window, .goto d]

theorem State.workPlaced_iff (s : State) (w : List Task) : s.workPlaced w = true ↔ s.Placed w := by
  constructor
  · intro h
    fun_induction State.workPlaced s w
    case case1 ts ih => exact .frame (ih h)
    case case10 a n m =>
      obtain ⟨h1, h2⟩ := of_decide_eq_true h
      exact .sendFb h1 h2
    all_goals simp only [Bool.and_eq_true, decide_eq_true_eq, Bool.false_eq_true] at h
    all_goals constructor <;> simp_all only
  · intro h
    induction h <;> simp_all [State.workPlaced]

/-- Where the work stands is a matter of the fields it reads. -/
theorem State.Placed.congr {s u : State} {w : List Task} (h : s.Placed w) (hcfg : u.cfg = s.cfg) (hidx : u.idx = s.idx)
    (hrow : u.row = s.row) (htgt : u.tgt = s.tgt) (hcol : u.col = s.col) (hsel : u.seqSel = s.seqSel)
    (hptr : u.seqPtr = s.seqPtr) (hleft : u.seqLeft = s.seqLeft) : u.Placed w := by
  have hh : ∀ n, u.headAfter n = s.headAfter n := fun n => by
    simp only [State.headAfter, State.seqBytes, State.seqTable, hcfg, hsel, hptr]
  induction h <;> constructor <;> simp_all only

/-! ### The interpreter's pointer -/

theorem State.headAfter_lt {s : State} {n : Nat} (h : s.headAfter n = true) : n < s.seqBytes.length := by
  by_contra hn
  rw [State.headAfter, List.drop_eq_nil_of_le (by omega)] at h
  cases h

/-- When the pointer advances within its table, what stood after its new place still does. -/
theorem State.headAfter_advance {s u : State} {n k : Nat} (h : s.headAfter (n + k) = true)
    (hlen : s.seqTable.length ≤ 65535) (hcfg : u.cfg = s.cfg) (hsel : u.seqSel = s.seqSel)
    (hptr : u.seqPtr = s.seqPtr + BitVec.ofNat 16 n) : u.headAfter k = true := by
  have hlt := State.headAfter_lt h
  have hb : s.seqBytes.length = s.seqTable.length - s.seqPtr.toNat := List.length_drop
  have hp : u.seqPtr.toNat = s.seqPtr.toNat + n := by
    rw [hptr, BitVec.toNat_add, BitVec.toNat_ofNat]
    omega
  have ht : u.seqTable = s.seqTable := by rw [State.seqTable, State.seqTable, hcfg, hsel]
  rw [State.headAfter, State.seqBytes, List.drop_drop] at h ⊢
  rwa [ht, hp, Nat.add_assoc]

/-- A step of a well-formed table has a well-formed table behind it. -/
theorem State.headAfter_opLen {s : State} {op : SeqOp} {rest : List Byte} (h : s.headAfter 0 = true)
    (hd : decodeSeq s.seqBytes = .ok (op, rest)) (hop : op ≠ .finish) : s.headAfter (opLen op) = true := by
  have hr := (wfTable_after h hd).resolve_left hop
  rwa [State.headAfter, (decodeSeq_ok hd).1, ← SeqOp.length_bytes, List.drop_left]

/-! ### Ranges -/

/-- The Transfer Cursor, the encoder's counters and the running table are in their ranges. -/
def State.InRange (s : State) : Prop :=
  (s.cfg.targets = 1 → s.idx.toNat ≤ s.cfg.fbLen) ∧ (s.cfg.targets = 2 → s.row.toNat ≤ s.cfg.height) ∧
    s.encStep.toNat ≤ 26 ∧ s.encHold ≤ s.cfg.encStepCycles ∧ s.seqTable.length ≤ 65535

theorem State.placesOk_iff (s : State) : s.placesOk = true ↔ s.Placed s.work ∧ s.InRange := by
  simp only [State.placesOk, State.cursorOk, State.InRange, Bool.and_eq_true, decide_eq_true_eq, State.workPlaced_iff,
    and_assoc]

/-- Whole frames and waits leave everything in its range. -/
theorem State.Ran.inRange {s u : State} (h : s.Ran u) (hs : s.InRange) : u.InRange := by
  obtain ⟨hidx, hrow, hstep, hhold, htab⟩ := hs
  have ht : u.seqTable = s.seqTable := by rw [State.seqTable, State.seqTable, h.cfg, h.seqSel]
  have henc : u.encStep.toNat ≤ 26 ∧ u.encHold ≤ s.cfg.encStepCycles := by
    obtain ⟨-, hs, hh⟩ | ⟨-, hs, hh⟩ := h.2.2
    · exact ⟨hs ▸ hstep, hh ▸ hhold⟩
    · exact ⟨hs ▸ by decide, hh.le⟩
  rw [State.InRange, h.cfg, h.idx, h.row, ht]
  exact ⟨hidx, hrow, henc.1, henc.2, htab⟩

theorem State.InRange.selectTable {s : State} {sel : TableSel} (hs : s.InRange)
    (ht : tableOk (s.cfg.table sel) = true) : (s.selectTable sel).InRange := by
  obtain ⟨hidx, hrow, hstep, hhold, -⟩ := hs
  simp only [tableOk, Bool.and_eq_true, decide_eq_true_eq] at ht
  exact ⟨hidx, hrow, hstep, hhold, ht.2⟩

theorem State.InRange.resetCursor {s : State} (hs : s.InRange) : s.resetCursor.InRange :=
  ⟨fun _ => Nat.zero_le _, fun _ => Nat.zero_le _, hs.2.2⟩

/-- The cursor advances within the image. -/
theorem State.InRange.advanceIdx {s : State} {n : Nat} (hg : s.cfg.geometryOk = true) (hs : s.InRange)
    (h : s.idx.toNat + n ≤ s.cfg.fbLen) : (s.advanceIdx n).InRange := by
  have hlt := Config.fbLen_lt hg
  refine ⟨fun _ => ?_, hs.2⟩
  show (s.idx + BitVec.ofNat 32 n).toNat ≤ s.cfg.fbLen
  rw [BitVec.toNat_add, BitVec.toNat_ofNat]
  omega

/-- The row cursor, advanced within the image, is where its sum says. -/
theorem State.advanceRow_toNat {s : State} {r : Nat} (hg : s.cfg.geometryOk = true)
    (h : s.row.toNat + r ≤ s.cfg.height) : (s.advanceRow r).row.toNat = s.row.toNat + r := by
  have hh := (Config.geometry_of_ok hg).2.2.2.1
  rw [State.advanceRow_row, BitVec.toNat_add, BitVec.toNat_ofNat]
  omega

theorem State.InRange.advanceRow {s : State} {r : Nat} (hg : s.cfg.geometryOk = true) (hs : s.InRange)
    (h : s.row.toNat + r ≤ s.cfg.height) : (s.advanceRow r).InRange :=
  ⟨hs.1, fun _ => (State.advanceRow_toNat hg h).symm ▸ h, hs.2.2⟩

/-! ### What the start of a state action can do -/

/-- What `beginAction` can answer. -/
inductive BeginsAction (s : State) : State → Prop
  /-- An action without frames, in one. -/
  | quiet {u : State} (hs : s.st.sends = false) (hu : s.Quiet u) : BeginsAction s u
  /-- UPDATE_START with its window closed in the tick, or with no window. -/
  | leave {full : Bool} {m : List Host.Cell} {req : Bool} (hst : s.st = .updateStart)
      (hreq : req = s.drawReq ∨ req = false) :
      BeginsAction s (({ s with isFull := full, fb := m, drawReq := req } : State).goto .updateWaitBusy)
  /-- UPDATE_START with an open window. -/
  | openWindow {full : Bool} {m : List Host.Cell} (hst : s.st = .updateStart) :
      BeginsAction s { s with
        isFull := full, fb := m, drawReq := true, work := [.window, .goto .updateWaitBusy] ++ s.work }
  /-- A table put in hand, with what follows its run. -/
  | run {sel : TableSel} {t : Task} (hsel : sel ≠ .secondaryPrepareSeq) (ha : afterRun t = true)
      (hr : taskFits s.cfg s.st (.run sel) = true) (ht : taskFits s.cfg s.st t = true) :
      BeginsAction s (s.push [.run sel, t])
  /-- UPDATE_PREPARE: the cursor at its start, then its table. -/
  | prepare (hst : s.st = .updatePrepare) :
      BeginsAction s (s.resetCursor.push [.run .prepareSeq, .goto .updateSendingData])
  /-- DEEP_SLEEP after its table. -/
  | asleep : BeginsAction s s
  | chunk1 (hst : s.st = .updateSendingData) (h1 : s.cfg.targets = 1) (hi : s.idx.toNat ≤ s.cfg.fbLen) :
      BeginsAction s (s.push [.sendFb s.idx.toNat s.chunkLen, .endChunk1 s.chunkLen])
  | chunk2 (hst : s.st = .updateSendingData) (h1 : s.cfg.targets ≠ 1) (hr : s.row.toNat ≤ s.cfg.height) :
      BeginsAction s ((s.startRow s.chunkRowCount).push [.rows s.chunkRowCount, .endChunk2])

theorem beginAction_cases {s u : State} (h : beginAction s = .next u) : BeginsAction s u := by
  cases hq : s.st.sends with
  | false =>
    rw [beginAction_of_not_sends hq] at h
    by_cases hd : s.st = .updateStart
    · rw [tickAction, hd] at h
      obtain ⟨full, m, req, hreq, rfl⟩ | ⟨full, m, rfl⟩ := execStateUpdateStart_cases h
      · exact .leave hd hreq
      · exact .openWindow hd
    · exact .quiet hq (tickAction_quiet hq hd h)
  | true =>
    unfold beginAction at h
    generalize hst : s.st = d at hq h
    cases d with
    | initSendCommands =>
      cases h
      exact .run (by decide) rfl (by rw [hst]; rfl) (by rw [hst]; rfl)
    | updatePrepare =>
      cases h
      exact .prepare hst
    | updateRefresh =>
      cases h
      refine .run ?_ rfl ?_ (by rw [hst]; rfl)
      · unfold State.refreshTable
        split <;> decide
      · rw [hst]
        unfold State.refreshTable
        split <;> rfl
    | updateSendingData =>
      change beginTransfer s = _ at h
      unfold beginTransfer at h
      split at h
      · rename_i h1
        split at h <;> cases h
        exact .chunk1 hst h1 (by omega)
      · rename_i h1
        split at h <;> cases h
        exact .chunk2 hst h1 (by omega)
    | deepSleep =>
      cases h
      split
      · exact .asleep
      · exact .run (by decide) rfl (by rw [hst]; rfl) (by rw [hst]; rfl)
    | initStart | initReset | initWaitReset | initWaitResetLow | initWaitResetHigh | initWaitBusy | initDone | idle
    | updateStart | updateWaitBusy | updateWaitRefresh | updateDone => cases hq

end Sys2Proof.Machine

namespace Sys2Proof.Machine

/-- Everything a control action does at a delay byte (42_sequence_interpreter.md R122, R125). -/
theorem beginDelay_eq {s : State} {d : Byte} (hd : s.romByte? = some d) :
    beginDelay s = .next { s with
      waitD := d, seqPtr := s.seqPtr + BitVec.ofNat 16 1, trace := s.trace ++ [.wait d]
      waitT0 := if d = 0 then s.waitT0 else s.now
      work := if d = 0 then s.work else .seqHold :: s.work } := by
  unfold beginDelay
  rw [hd]
  by_cases h0 : d = 0
  · simp only [if_pos h0]
    rfl
  · simp only [if_neg h0]
    rfl

theorem beginDelay_next {s u : State} (h : beginDelay s = .next u) : ∃ d, s.romByte? = some d := by
  unfold beginDelay at h
  split at h
  · cases h
  · exact ⟨_, ‹_›⟩

/-! ### Control actions keep the places -/

theorem State.Placed.of_afterRun {s : State} {t : Task} (h : afterRun t = true) : s.Placed [t] := by
  cases t with
  | goto d => exact .goto
  | switchTarget => exact .switchTarget
  | sleepDone => exact .sleepDone
  | _ => cases h

/-- Other work in hand does not move what the work stands on. -/
theorem State.Placed.withWork {s : State} {w : List Task} (h : s.Placed w) (w' : List Task) :
    ({ s with work := w' } : State).Placed w := h.congr rfl rfl rfl rfl rfl rfl rfl rfl

theorem State.InRange.goto {s : State} (h : s.InRange) (d : DState) : (s.goto d).InRange := by
  rw [State.goto_eq]
  exact h

theorem State.InRange.startFrame {s : State} (h : s.InRange) (m : Bool) (b : Byte) : (s.startFrame m b).InRange :=
  ⟨h.1, h.2.1, Nat.zero_le _, Nat.zero_le _, h.2.2.2.2⟩

theorem State.headAfter_selectTable {s : State} {sel : TableSel} (h : tableOk (s.cfg.table sel) = true) :
    (s.selectTable sel).headAfter 0 = true := by
  simp only [tableOk, Bool.and_eq_true] at h
  exact h.1

/-- A tick of the cascade transfer starts within its window. -/
theorem State.startRow_places {s : State} (hg : s.cfg.geometryOk = true) (h2 : s.cfg.targets = 2) {r : Nat}
    (hr : s.row.toNat + r ≤ s.cfg.height) : (s.startRow r).Placed [.rows r, .endChunk2] := by
  unfold State.startRow
  split
  · exact .rows h2 hr (.inl ‹_›)
  · have hc := Config.columns_range hg s.tgt
    have hb := Config.rowBytes_range hg
    have hcol : (BitVec.ofNat 16 (s.cfg.columns s.tgt).1).toNat = (s.cfg.columns s.tgt).1 := by
      rw [BitVec.toNat_ofNat]
      omega
    exact .rows h2 hr (.inr ⟨hcol.ge, hcol.trans_le hc.1.le⟩)

theorem State.startRow_inRange {s : State} {r : Nat} (h : s.InRange) : (s.startRow r).InRange := by
  unfold State.startRow
  split <;> exact h

@[simp] theorem State.startRow_work (s : State) (r : Nat) : (s.startRow r).work = s.work := by
  unfold State.startRow
  split <;> rfl

/-- The rows of a window put in hand, before the end of the tick. -/
theorem State.startRow_push_places {s : State} {r : Nat} {ps : List Task} (hg : s.cfg.geometryOk = true)
    (h2 : s.cfg.targets = 2) (hrow : s.row.toNat + r ≤ s.cfg.height) (hr : s.InRange)
    (hw : ps ++ s.work = [.rows r, .endChunk2]) :
    ((s.startRow r).push ps).Placed ((s.startRow r).push ps).work ∧ ((s.startRow r).push ps).InRange := by
  refine ⟨?_, State.startRow_inRange hr⟩
  rw [State.push_work, State.startRow_work, hw]
  exact (State.startRow_places hg h2 hrow).withWork _

theorem beginAction_places {s u : State} (hv : s.cfg.valid = true) (hw : s.work = []) (hr : s.InRange)
    (h : beginAction s = .next u) : u.Placed u.work ∧ u.InRange := by
  obtain ⟨hg, htargets, -⟩ := (Config.valid_iff s.cfg).1 hv
  have htable := @Config.tableOk_of_valid s.cfg hv
  cases beginAction_cases h with
  | quiet hs hu =>
    have hwork : u.work = [] := by rw [hu.1]; exact hw
    rw [hwork, hu.1]
    exact ⟨.nil, hr⟩
  | @leave full m req hst hreq =>
    have hr' := State.InRange.goto (s := { s with isFull := full, fb := m, drawReq := req }) hr .updateWaitBusy
    exact ⟨hw ▸ .nil, hr'⟩
  | openWindow hst => exact ⟨by rw [hw]; exact .window, hr⟩
  | run hsel ha hfit ht =>
    refine ⟨?_, hr⟩
    rw [State.push_work, hw]
    exact .run ha (htable _ (fun h => absurd h hsel))
  | prepare hst =>
    refine ⟨?_, hr.resetCursor⟩
    rw [State.push_work, State.resetCursor_work, hw]
    exact .run rfl (htable _ (by simp))
  | asleep => exact ⟨hw ▸ .nil, hr⟩
  | chunk1 hst h1 hi =>
    refine ⟨?_, hr⟩
    have hl : s.idx.toNat + s.chunkLen ≤ s.cfg.fbLen := by
      have : s.chunkLen ≤ s.cfg.fbLen - s.idx.toNat := Nat.min_le_right ..
      omega
    rw [State.push_work, hw]
    exact .sendFb rfl hl
  | chunk2 hst h1 hrow =>
    have h2 : s.cfg.targets = 2 := (of_decide_eq_true htargets).resolve_left h1
    have hl : s.row.toNat + s.chunkRowCount ≤ s.cfg.height := by
      have : s.chunkRowCount ≤ s.cfg.height - s.row.toNat := Nat.min_le_right ..
      omega
    exact State.startRow_push_places hg h2 hl hr (by rw [hw]; rfl)

theorem taskAction_places {s u : State} {t : Task} {ts : List Task} (hv : s.cfg.valid = true)
    (hw : s.Placed (t :: ts)) (hr : s.InRange) (h : taskAction t { s with work := ts } = .next u) :
    u.Placed u.work ∧ u.InRange := by
  have hg := ((Config.valid_iff s.cfg).1 hv).1
  have hlen := hr.2.2.2.2
  cases hw with
  | action => exact beginAction_places (s := { s with work := [] }) hv rfl hr h
  | frame hw =>
    cases h
    split
    · exact ⟨.frame (hw.withWork _), hr⟩
    · exact ⟨hw.withWork _, hr⟩
  | run ha ht =>
    cases h
    exact ⟨.seqHead ha (State.headAfter_selectTable ht), hr.selectTable ht⟩
  | seqHead ha hp =>
    change beginStep _ = _ at h
    unfold beginStep at h
    split at h
    · cases h
    · rename_i op rest hd
      split at h
      · cases h
        exact ⟨.of_afterRun ha, hr⟩
      · cases h
      · rename_i cmd args
        have hn := args_length_le_of_decodeSeq (dly := 0) (.inl hd)
        have hp' := State.headAfter_opLen hp hd (by simp)
        cases h
        refine ⟨.frame (.seqTake ha ?_), hr.startFrame false cmd⟩
        rw [BitVec.toNat_ofNat, Nat.mod_eq_of_lt (by omega)]
        exact hp'
      · rename_i cmd dly args
        have hn := args_length_le_of_decodeSeq (.inr hd)
        have hp' := State.headAfter_opLen hp hd (by simp)
        cases h
        refine ⟨.frame (.seqTakeDelay ha ?_), hr.startFrame false cmd⟩
        rw [BitVec.toNat_ofNat, Nat.mod_eq_of_lt (by omega)]
        exact hp'
  | @seqTake n t' ha hp =>
    cases h
    refine ⟨.seqArgs ha ?_, hr⟩
    show State.headAfter _ (BitVec.ofNat 7 n.toNat).toNat = true
    rw [BitVec.ofNat_toNat, BitVec.setWidth_eq]
    exact State.headAfter_advance hp hlen rfl rfl rfl
  | @seqTakeDelay n t' ha hp =>
    cases h
    refine ⟨.seqDelay ha ?_, hr⟩
    show State.headAfter _ (1 + (BitVec.ofNat 7 n.toNat).toNat) = true
    rw [BitVec.ofNat_toNat, BitVec.setWidth_eq]
    exact State.headAfter_advance (n := 2) (by rwa [← Nat.add_assoc]) hlen rfl rfl rfl
  | seqDelay ha hp =>
    obtain ⟨d, hd⟩ := beginDelay_next h
    rw [taskAction, beginDelay_eq hd] at h
    cases h
    have hadv := State.headAfter_advance (u := s.advanceSeqPtr 1) hp hlen rfl rfl rfl
    refine ⟨?_, hr⟩
    dsimp only
    split
    · exact .seqArgs ha hadv
    · exact .seqHold ha hadv
  | seqHold ha hp =>
    cases h
    split
    · exact ⟨.seqArgs ha hp, hr⟩
    · exact ⟨.seqHold ha hp, hr⟩
  | seqArgs ha hp =>
    change beginArg _ = _ at h
    unfold beginArg at h
    split at h
    · rename_i h0
      cases h
      replace h0 : s.seqLeft.toNat = 0 := congrArg BitVec.toNat h0
      rw [h0] at hp
      exact ⟨.seqHead ha hp, hr⟩
    · rename_i h0
      split at h
      · cases h
      · rename_i b _
        cases h
        have h1 : 1 ≤ s.seqLeft.toNat := Nat.one_le_iff_ne_zero.2 (fun h => h0 (BitVec.eq_of_toNat_eq h))
        exact ⟨.frame (.argSent ha h1 hp), hr.startFrame true b⟩
  | argSent ha h1 hp =>
    cases h
    refine ⟨.seqArgs ha ?_, hr⟩
    show State.headAfter _ (BitVec.ofNat 7 (s.seqLeft.toNat - 1)).toNat = true
    have hlt := s.seqLeft.isLt
    rw [BitVec.toNat_ofNat, Nat.mod_eq_of_lt (by omega)]
    exact State.headAfter_advance (n := 1) (by rwa [Nat.add_sub_cancel' h1]) hlen rfl rfl rfl
  | @sendFb a n m hs hl =>
    cases h
    cases n with
    | zero =>
      have hm : s.idx.toNat + m ≤ s.cfg.fbLen := by omega
      exact ⟨.endChunk1 hm, hr⟩
    | succ n =>
      have hs' : a + 1 + n = s.idx.toNat + m := by omega
      have hl' : a + 1 + n ≤ s.cfg.fbLen := by omega
      exact ⟨.frame (.sendFb hs' hl'), hr.startFrame true (Memory.read s.fb a)⟩
  | @endChunk1 m hi =>
    have hr' := State.InRange.advanceIdx (s := { s with work := [] }) hg hr hi
    cases h
    split
    · exact ⟨.nil, hr'.goto .updateRefresh⟩
    · exact ⟨.nil, hr'⟩
  | @rows r h2 hrow hc =>
    cases h
    cases r with
    | zero => exact ⟨.endChunk2 h2, hr.advanceRow hg hrow⟩
    | succ r =>
      unfold beginRowByte
      dsimp only
      split
      · rename_i hlt
        have hlow := (hc.resolve_left (Nat.succ_ne_zero r)).1
        exact ⟨.frame (.colSent h2 (Nat.le_add_left ..) hrow hlow hlt),
          hr.startFrame true (Memory.read s.fb (s.rowAddr s.row.toNat s.col.toNat))⟩
      · have hadv : s.row.toNat + 1 ≤ s.cfg.height := by omega
        have hrow' : (s.row + 1).toNat = s.row.toNat + 1 := State.advanceRow_toNat hg hadv
        have hplace : (s.row + 1).toNat + r ≤ s.cfg.height := by omega
        have hr' : ({ s with row := s.row + 1, work := [.endChunk2] } : State).InRange :=
          ⟨hr.1, fun _ => hrow'.trans_le hadv, hr.2.2⟩
        exact State.startRow_push_places (s := { s with row := s.row + 1, work := [.endChunk2] }) hg h2 hplace hr' rfl
  | @colSent r h2 h1 hrow hc hc' =>
    cases h
    have hcols := Config.columns_range hg s.tgt
    have hb := Config.rowBytes_range hg
    have hcol : (s.col + 1).toNat = s.col.toNat + 1 := by
      rw [BitVec.toNat_add]
      show (s.col.toNat + 1) % 2 ^ 16 = _
      omega
    have hlow : (s.cfg.columns s.tgt).1 ≤ (s.col + 1).toNat := by omega
    exact ⟨.rows h2 hrow (.inr ⟨hlow, hcol.trans_le hc'⟩), hr⟩
  | endChunk2 h2 =>
    cases h
    unfold beginEndChunk2
    split
    · split
      · exact ⟨.goto, hr⟩
      · exact ⟨.run rfl (Config.tableOk_of_valid hv _ (fun _ => h2)), hr⟩
    · exact ⟨.nil, hr⟩
  | @goto d =>
    cases h
    exact ⟨.nil, State.InRange.goto (s := { s with work := [] }) hr d⟩
  | sleepDone =>
    cases h
    exact ⟨.nil, hr⟩
  | switchTarget =>
    cases h
    exact ⟨.nil, hr.1, fun _ => Nat.zero_le _, hr.2.2⟩
  | window =>
    cases h
    split
    · exact ⟨.window, hr⟩
    · exact ⟨.goto, hr⟩

end Sys2Proof.Machine

namespace Sys2Proof.Machine

theorem controlAction_placesOk {s u : State} (hv : s.cfg.valid = true) (hp : s.placesOk = true)
    (h : controlAction s = .next u) : u.placesOk = true := by
  unfold controlAction at h
  split at h
  · cases h
    exact hp
  · rename_i t ts hw
    rw [State.placesOk_iff, hw] at hp
    exact (State.placesOk_iff u).2 (taskAction_places hv hp.1 hp.2 h)

/-! ### Control actions keep the control consistent -/

theorem workFits_cons {c : Config} {d : DState} {t : Task} {ts : List Task} :
    workFits c d (t :: ts) = true ↔
      taskFits c d t = true ∧ workFits c d ts = true ∧ (taskEnds t = true → ts = []) := by
  cases ts with
  | nil => simp [workFits]
  | cons t' ts =>
    cases he : taskEnds t <;> simp [workFits, he]

/-- Tasks that fit and do not end the action go in front of work that fits. -/
theorem workFits_append {c : Config} {d : DState} {ps ts : List Task}
    (hps : ∀ p ∈ ps, taskFits c d p = true ∧ taskEnds p = false) (hts : workFits c d ts = true) :
    workFits c d (ps ++ ts) = true := by
  induction ps with
  | nil => exact hts
  | cons p ps ih =>
    obtain ⟨hf, he⟩ := hps p List.mem_cons_self
    exact workFits_cons.2 ⟨hf, ih (fun q hq => hps q (List.mem_cons_of_mem p hq)), fun h => by simp [he] at h⟩

/-- The tasks of the interpreter and of the encoder. -/
def Task.interprets : Task → Bool
  | .seqHead | .seqTake _ | .seqDelay | .seqHold | .seqArgs | .argSent | .frame => true
  | .action | .run _ | .sendFb _ _ | .endChunk1 _ | .rows _ | .colSent | .endChunk2 | .switchTarget | .window | .sleepDone
  | .goto _ => false

/-- They fit in the states whose action sends frames, and none of them ends the action. -/
theorem Task.fits_of_interprets {t : Task} (h : t.interprets = true) (c : Config) (d : DState) :
    taskFits c d t = d.sends ∧ taskEnds t = false := by
  cases t <;> simp only [Task.interprets, Bool.false_eq_true] at h <;> cases d <;> exact ⟨rfl, rfl⟩

/-- A table is run in a state whose action sends frames. -/
theorem sends_of_taskFits_run {c : Config} {d : DState} {sel : TableSel} (h : taskFits c d (.run sel) = true) :
    d.sends = true := by
  unfold taskFits at h
  cases d with
  | initSendCommands | updatePrepare | updateRefresh | updateSendingData | deepSleep => rfl
  | initStart | initReset | initWaitReset | initWaitResetLow | initWaitResetHigh | initWaitBusy | initDone | idle
  | updateStart | updateWaitBusy | updateWaitRefresh | updateDone => cases h

/-- Interpreter tasks go in front of work that fits. -/
theorem workFits_append_interprets {c : Config} {d : DState} {ps ts : List Task} (hd : d.sends = true)
    (hps : ps.all Task.interprets = true) (hts : workFits c d ts = true) : workFits c d (ps ++ ts) = true :=
  workFits_append (fun p hp => by
    obtain ⟨hf, he⟩ := Task.fits_of_interprets (List.all_eq_true.1 hps p hp) c d
    exact ⟨hf.trans hd, he⟩) hts

theorem State.controlOk_iff (s : State) : s.controlOk = true ↔
    workFits s.cfg s.st s.work = true ∧ (s.ready = true → s.work = [] ∧ s.encBusy = false ∧ s.drawReq = false) ∧
      (s.drawReq = true → s.work.head? = some .window) ∧ (s.encBusy = true → s.work.head? = some .frame) := by
  unfold State.controlOk
  cases s.ready <;> cases s.drawReq <;> cases s.encBusy <;> simp [and_assoc]

/-- In a tick in progress, with no open window and no frame. -/
def State.Calm (s : State) : Prop := s.ready = false ∧ s.drawReq = false ∧ s.encBusy = false

theorem State.Calm.controlOk {s : State} (h : s.Calm) (hw : workFits s.cfg s.st s.work = true) :
    s.controlOk = true := by
  obtain ⟨hr, hd, he⟩ := h
  exact (State.controlOk_iff s).2 ⟨hw, by simp [hr], by simp [hd], by simp [he]⟩

theorem State.controlOk_of_frame {s : State} (hr : s.ready = false) (hd : s.drawReq = false)
    (hw : workFits s.cfg s.st s.work = true) (hf : s.work.head? = some .frame) : s.controlOk = true :=
  (State.controlOk_iff s).2 ⟨hw, by simp [hr], by simp [hd], fun _ => hf⟩

theorem State.controlOk_of_window {s : State} (hr : s.ready = false) (he : s.encBusy = false)
    (hw : workFits s.cfg s.st s.work = true) (hf : s.work.head? = some .window) : s.controlOk = true :=
  (State.controlOk_iff s).2 ⟨hw, by simp [hr], fun _ => hf, by simp [he]⟩

/-- With a task in hand the tick is in progress; the window is open, and a frame in progress, only with its task in front. -/
theorem State.controlOk_cons {s : State} {t : Task} {ts : List Task} (hw : s.work = t :: ts) (hs : s.controlOk = true) :
    taskFits s.cfg s.st t = true ∧ workFits s.cfg s.st ts = true ∧ (taskEnds t = true → ts = []) ∧ s.ready = false ∧
      (t ≠ .window → s.drawReq = false) ∧ (t ≠ .frame → s.encBusy = false) := by
  obtain ⟨hf, hr, hd, he⟩ := (State.controlOk_iff s).1 hs
  rw [hw] at hf hr hd he
  obtain ⟨ht, hts, hend⟩ := workFits_cons.1 hf
  refine ⟨ht, hts, hend, by simpa using hr, fun h => ?_, fun h => ?_⟩
  · simpa [h] using hd
  · simpa [h] using he

theorem State.startRow_calm {s : State} {r : Nat} (h : s.Calm) : (s.startRow r).Calm := by
  unfold State.startRow
  split <;> exact h

@[simp] theorem State.startRow_cfg (s : State) (r : Nat) : (s.startRow r).cfg = s.cfg := by
  unfold State.startRow
  split <;> rfl

@[simp] theorem State.startRow_st (s : State) (r : Nat) : (s.startRow r).st = s.st := by
  unfold State.startRow
  split <;> rfl

theorem beginAction_controlOk {s u : State} (hc : s.Calm) (hw : s.work = []) (h : beginAction s = .next u) :
    u.controlOk = true := by
  cases beginAction_cases h with
  | quiet hs hu =>
    rw [hu.1]
    exact State.Calm.controlOk (s := s.withQuiet u) hc (by show workFits _ _ s.work = true; rw [hw]; rfl)
  | leave hst hreq =>
    have hd : _ = false := hreq.elim (fun h => h.trans hc.2.1) id
    exact State.Calm.controlOk ⟨hc.1, hd, hc.2.2⟩ (by simp [hw, workFits])
  | openWindow hst =>
    refine State.controlOk_of_window hc.1 hc.2.2 ?_ rfl
    simp [hw, hst, workFits, taskFits, taskEnds, transition]
  | run hsel ha hr ht =>
    refine State.Calm.controlOk hc ?_
    simp [hw, workFits, hr, ht, taskEnds]
  | prepare hst =>
    refine State.Calm.controlOk hc ?_
    simp [hw, hst, workFits, taskFits, taskEnds, transition]
  | asleep => exact State.Calm.controlOk hc (by simp [hw, workFits])
  | chunk1 hst h1 hi =>
    refine State.Calm.controlOk hc ?_
    simp [hw, hst, workFits, taskFits, taskEnds]
  | chunk2 hst h1 hr =>
    refine State.Calm.controlOk (State.startRow_calm hc) ?_
    simp [hw, hst, workFits, taskFits, taskEnds]

theorem taskAction_controlOk {s u : State} {t : Task} {ts : List Task} (hw : s.work = t :: ts)
    (hs : s.controlOk = true) (h : taskAction t { s with work := ts } = .next u) : u.controlOk = true := by
  obtain ⟨ht, hts, hend, hr, hd, he⟩ := State.controlOk_cons hw hs
  have hcalm : t ≠ .window → t ≠ .frame → ({ s with work := ts } : State).Calm := fun h1 h2 => ⟨hr, hd h1, he h2⟩
  have hin : t.interprets = true → s.st.sends = true := fun h => (Task.fits_of_interprets h s.cfg s.st).1.symm.trans ht
  cases t with
  | action =>
    obtain rfl := hend rfl
    exact beginAction_controlOk (hcalm (by simp) (by simp)) rfl h
  | frame =>
    have hd := hd (by simp)
    cases h
    split
    · exact State.controlOk_of_frame hr hd (workFits_cons.2 ⟨ht, hts, hend⟩) rfl
    · rename_i hb
      exact State.Calm.controlOk ⟨hr, hd, by simpa using hb⟩ hts
  | window =>
    have he := he (by simp)
    cases h
    split
    · exact State.controlOk_of_window hr he (workFits_cons.2 ⟨ht, hts, hend⟩) rfl
    · rename_i hb
      exact State.Calm.controlOk ⟨hr, by simpa using hb, he⟩ hts
  | run sel =>
    have hc := hcalm (by simp) (by simp)
    cases h
    exact State.Calm.controlOk hc (workFits_append_interprets (sends_of_taskFits_run ht) rfl hts)
  | seqHead =>
    have hc := hcalm (by simp) (by simp)
    have hsend := hin rfl
    change beginStep _ = _ at h
    unfold beginStep at h
    split at h
    · cases h
    · split at h
      · cases h
        exact State.Calm.controlOk hc hts
      · cases h
      · cases h
        exact State.controlOk_of_frame hr hc.2.1 (workFits_append_interprets hsend rfl hts) rfl
      · cases h
        exact State.controlOk_of_frame hr hc.2.1 (workFits_append_interprets hsend rfl hts) rfl
  | seqDelay =>
    have hc := hcalm (by simp) (by simp)
    obtain ⟨d, hdly⟩ := beginDelay_next h
    rw [taskAction, beginDelay_eq hdly] at h
    cases h
    refine State.Calm.controlOk hc ?_
    dsimp only
    split
    · exact hts
    · exact workFits_append_interprets (ps := [.seqHold]) (hin rfl) rfl hts
  | seqHold =>
    have hc := hcalm (by simp) (by simp)
    cases h
    split
    · exact State.Calm.controlOk hc hts
    · exact State.Calm.controlOk hc (workFits_append_interprets (hin rfl) rfl hts)
  | seqArgs =>
    have hc := hcalm (by simp) (by simp)
    have hsend := hin rfl
    change beginArg _ = _ at h
    unfold beginArg at h
    split at h
    · cases h
      exact State.Calm.controlOk hc hts
    · split at h
      · cases h
      · cases h
        exact State.controlOk_of_frame hr hc.2.1 (workFits_append_interprets hsend rfl hts) rfl
  | sendFb a n =>
    have hc := hcalm (by simp) (by simp)
    have hst : s.st = .updateSendingData := by simpa [taskFits] using ht
    cases h
    cases n with
    | zero => exact State.Calm.controlOk hc hts
    | succ n =>
      have hfits : workFits s.cfg s.st ([.frame, .sendFb (a + 1) n] ++ ts) = true :=
        workFits_append (by simp [hst, taskFits, taskEnds]) hts
      exact State.controlOk_of_frame hr hc.2.1 hfits rfl
  | rows r =>
    have hc := hcalm (by simp) (by simp)
    have hst : s.st = .updateSendingData := by simpa [taskFits] using ht
    cases h
    cases r with
    | zero => exact State.Calm.controlOk hc hts
    | succ r =>
      unfold beginRowByte
      dsimp only
      split
      · have hfits : workFits s.cfg s.st ([.frame, .colSent, .rows (r + 1)] ++ ts) = true :=
          workFits_append (by simp [hst, taskFits, taskEnds]) hts
        exact State.controlOk_of_frame hr hc.2.1 hfits rfl
      · have hfits : workFits s.cfg s.st ([.rows r] ++ ts) = true :=
          workFits_append (by simp [hst, taskFits, taskEnds]) hts
        refine State.Calm.controlOk (State.startRow_calm (s := { s with row := s.row + 1, work := ts }) hc) ?_
        simpa using hfits
  | endChunk1 n =>
    have hc := hcalm (by simp) (by simp)
    obtain rfl := hend rfl
    cases h
    split <;> exact State.Calm.controlOk hc rfl
  | endChunk2 =>
    have hc := hcalm (by simp) (by simp)
    have hst : s.st = .updateSendingData := by simpa [taskFits] using ht
    obtain rfl := hend rfl
    cases h
    unfold beginEndChunk2
    split
    · split <;> refine State.Calm.controlOk hc ?_ <;> simp [hst, workFits, taskFits, taskEnds, transition]
    · exact State.Calm.controlOk hc rfl
  | goto d =>
    have hc := hcalm (by simp) (by simp)
    obtain rfl := hend rfl
    cases h
    exact State.Calm.controlOk hc rfl
  | seqTake left | argSent | colSent | switchTarget | sleepDone =>
    have hc := hcalm (by simp) (by simp)
    cases h
    exact State.Calm.controlOk hc hts

theorem controlAction_controlOk {s u : State} (hs : s.controlOk = true) (h : controlAction s = .next u) :
    u.controlOk = true := by
  unfold controlAction at h
  split at h
  · cases h
    exact hs
  · exact taskAction_controlOk ‹_› hs h

end Sys2Proof.Machine

namespace Sys2Proof.Machine

/-! ### A task carried out at once -/

/-- The tasks that are one control action also when they are carried out at once. -/
def Task.instant : Task → Bool
  | .seqTake _ | .argSent | .endChunk1 _ | .colSent | .switchTarget | .window | .sleepDone | .goto _ => true
  | .action | .run _ | .seqHead | .seqDelay | .seqHold | .seqArgs | .frame | .sendFb _ _ | .rows _ | .endChunk2 => false

/-- The control action of such a task is the task, before the rest of the work in hand. -/
theorem taskAction_instant {t : Task} (ht : t.instant = true) (s : State) (ts : List Task) :
    taskAction t { s with work := ts } =
      andThen (performTask t { s with work := [] }) (fun u => .next { u with work := u.work ++ ts }) := by
  cases t with
  | seqTake left | argSent | colSent | switchTarget | sleepDone | goto d => rfl
  | endChunk1 n =>
    change endChunk1 n _ = andThen (endChunk1 n _) _
    unfold endChunk1
    dsimp only [andThen, State.advanceIdx]
    split <;> rfl
  | window =>
    simp only [taskAction, performTask]
    split <;> rfl
  | action | run | seqHead | seqDelay | seqHold | seqArgs | frame | sendFb | rows | endChunk2 => cases ht

/-- The control's registers stay as they were, the encoder's apart. -/
def State.KeepsControl (s u : State) : Prop :=
  u.cfg = s.cfg ∧ u.st = s.st ∧ u.ready = s.ready ∧ u.drawReq = s.drawReq ∧ u.work = s.work

theorem State.Ran.keepsControl {s u : State} (h : s.Ran u) :
    s.KeepsControl u ∧ (s.encBusy = false → u.encBusy = false) :=
  ⟨⟨h.cfg, h.st, h.ready, h.drawReq, h.work⟩, h.encBusy_false⟩

/-- The other tasks, the state action and the end of a cascade tick apart, keep the control and leave no frame open. -/
theorem performTask_keepsControl {t : Task} {s u : State} (ht : t.instant = false) (ha : t ≠ .action)
    (he : t ≠ .endChunk2) (h : performTask t s = .next u) :
    s.KeepsControl u ∧ (t = .frame ∨ s.encBusy = false → u.encBusy = false) := by
  have hran : s.Ran u → s.KeepsControl u ∧ (s.encBusy = false → u.encBusy = false) := State.Ran.keepsControl
  cases t with
  | seqTake | argSent | endChunk1 | colSent | switchTarget | window | sleepDone | goto => cases ht
  | action => exact absurd rfl ha
  | endChunk2 => exact absurd rfl he
  | frame =>
    cases h
    have hf := State.Ran.finishFrame s
    exact ⟨hf.1.keepsControl.1, fun _ => hf.2⟩
  | run sel =>
    have hr := (runSeq_ran h).keepsControl
    exact ⟨hr.1, by simpa using hr.2⟩
  | seqHead => simpa using hran (runRest_ran h)
  | seqDelay => simpa using hran (readDelay_ran h)
  | seqArgs => simpa using hran (sendRestArgs_ran h)
  | seqHold =>
    cases h
    simpa using hran (.finishHold s)
  | sendFb a n =>
    cases h
    simpa using hran (.sendFbBytes a n s)
  | rows r =>
    cases h
    obtain ⟨v, hv, hr⟩ := State.finishRows_ran r s
    have hk := hv.keepsControl
    rw [hr]
    exact ⟨hk.1, by simpa using hk.2⟩

theorem endChunk2_keeps {s u : State} (h : endChunk2 s = .next u) : u.work = s.work ∧ (s.Calm → u.Calm) := by
  unfold endChunk2 at h
  split at h
  · split at h
    · cases h
      exact ⟨rfl, id⟩
    · obtain ⟨v, hv, h⟩ := andThen_eq_next.1 h
      obtain ⟨⟨-, -, hr, hd, hw⟩, he⟩ := (runSeq_ran hv).keepsControl
      cases h
      exact ⟨hw, fun hc => ⟨hr.trans hc.1, hd.trans hc.2.1, he hc.2.2⟩⟩
  · cases h
    exact ⟨rfl, id⟩

/-- A task carried out at once keeps the control consistent. -/
theorem performTask_controlOk {s u : State} {t : Task} {ts : List Task} (ha : t ≠ .action) (hw : s.work = t :: ts)
    (hs : s.controlOk = true) (h : performTask t { s with work := [] } = .next u) :
    ({ u with work := u.work ++ ts } : State).controlOk = true := by
  cases ht : t.instant with
  | true =>
    refine taskAction_controlOk hw hs ?_
    rw [taskAction_instant ht, h]
    rfl
  | false =>
    obtain ⟨-, hts, hend, hr, hd, he⟩ := State.controlOk_cons hw hs
    have hdraw := hd (by rintro rfl; cases ht)
    by_cases he2 : t = .endChunk2
    · subst he2
      obtain rfl := hend rfl
      obtain ⟨hwork, hc⟩ := endChunk2_keeps h
      exact State.Calm.controlOk (hc ⟨hr, hdraw, he (by simp)⟩) (by simp [hwork, workFits])
    · obtain ⟨⟨hcfg, hst, hready, hreq, hwork⟩, hbusy⟩ := performTask_keepsControl ht ha he2 h
      have hb : u.encBusy = false := hbusy ((em (t = .frame)).imp_right he)
      refine State.Calm.controlOk ⟨hready.trans hr, hreq.trans hdraw, hb⟩ ?_
      simpa [hwork, hcfg, hst] using hts

theorem State.finishFrame_withWire (s : State) : s.finishFrame = s.withWire s.finishFrame := by
  unfold State.finishFrame
  split
  · generalize hv : s.microSteps s.encMode s.encByte _ = v
    have h : v = s.withWire v := hv ▸ State.microSteps_withWire ..
    rw [h]
    rfl
  · rfl

theorem readDelay_seq {s u : State} (h : readDelay s = .next u) :
    u.seqPtr = s.seqPtr + BitVec.ofNat 16 1 ∧ u.seqLeft = s.seqLeft := by
  unfold readDelay at h
  split at h <;> cases h
  simp [State.delayStep, State.waitMs_frame]

theorem sendRestArgs_seq {s u : State} (h : sendRestArgs s = .next u) :
    u.seqPtr = s.seqPtr + BitVec.ofNat 16 s.seqLeft.toNat ∧ u.seqLeft = 0 := by
  unfold sendRestArgs at h
  split at h
  · rename_i args after ha
    cases h
    simp [(takeArgs_some.1 ha).1]
  · cases h

theorem State.finishHold_seq (s : State) : s.finishHold.seqPtr = s.seqPtr ∧ s.finishHold.seqLeft = s.seqLeft := by
  unfold State.finishHold
  split <;> exact ⟨rfl, rfl⟩

theorem endChunk2_inRange {s u : State} (hv : s.cfg.valid = true) (h2 : s.cfg.targets = 2) (hr : s.InRange)
    (h : endChunk2 s = .next u) : u.InRange := by
  unfold endChunk2 at h
  split at h
  · split at h
    · cases h
      exact hr.goto _
    · obtain ⟨v, hv', h⟩ := andThen_eq_next.1 h
      have ht := Config.tableOk_of_valid hv .secondaryPrepareSeq (fun _ => h2)
      have hr' := (runSeq_ran hv').inRange (hr.selectTable ht)
      cases h
      exact ⟨hr'.1, fun _ => Nat.zero_le _, hr'.2.2⟩
  · cases h
    exact hr

/-- A task carried out at once keeps everything in its place. -/
theorem performTask_placesOk {s u : State} {t : Task} {ts : List Task} (hv : s.cfg.valid = true) (hact : t ≠ .action)
    (hw : s.work = t :: ts) (hp : s.placesOk = true) (h : performTask t { s with work := [] } = .next u) :
    ({ u with work := u.work ++ ts } : State).placesOk = true := by
  have hg := ((Config.valid_iff s.cfg).1 hv).1
  rw [State.placesOk_iff, hw] at hp
  obtain ⟨hplace, hrange⟩ := hp
  have hlen := hrange.2.2.2.2
  have hr0 : ({ s with work := [] } : State).InRange := hrange
  cases hins : t.instant with
  | true =>
    refine (State.placesOk_iff _).2 (taskAction_places hv hplace hrange ?_)
    rw [taskAction_instant hins, h]
    rfl
  | false =>
    suffices hu : u.work = [] ∧ u.Placed ts ∧ u.InRange by
      obtain ⟨hwork, hts, hr⟩ := hu
      exact (State.placesOk_iff _).2 ⟨by simpa [hwork] using hts.withWork _, hr⟩
    cases hplace with
    | seqTake | seqTakeDelay | argSent | endChunk1 | colSent | switchTarget | window | sleepDone | goto => cases hins
    | action => exact absurd rfl hact
    | frame hp =>
      cases h
      have hf := State.Ran.finishFrame { s with work := [] }
      refine ⟨hf.1.work, ?_, hf.1.inRange hr0⟩
      rw [State.finishFrame_withWire]
      exact hp.congr rfl rfl rfl rfl rfl rfl rfl rfl
    | run ha ht =>
      have hr := runSeq_ran h
      exact ⟨hr.work, .of_afterRun ha, hr.inRange (hr0.selectTable ht)⟩
    | seqHead ha hp =>
      have hr := runRest_ran h
      exact ⟨hr.work, .of_afterRun ha, hr.inRange hr0⟩
    | seqDelay ha hp =>
      have hr := readDelay_ran h
      obtain ⟨hptr, hleft⟩ := readDelay_seq h
      refine ⟨hr.work, .seqArgs ha ?_, hr.inRange hr0⟩
      rw [hleft]
      exact State.headAfter_advance hp hlen hr.cfg hr.seqSel hptr
    | seqHold ha hp =>
      cases h
      have hr := State.Ran.finishHold { s with work := [] }
      obtain ⟨hptr, hleft⟩ := State.finishHold_seq { s with work := [] }
      exact ⟨hr.work, (State.Placed.seqArgs ha hp).congr hr.cfg hr.idx hr.row hr.tgt hr.col hr.seqSel hptr hleft,
        hr.inRange hr0⟩
    | seqArgs ha hp =>
      have hr := sendRestArgs_ran h
      obtain ⟨hptr, -⟩ := sendRestArgs_seq h
      exact ⟨hr.work, .seqHead ha (State.headAfter_advance hp hlen hr.cfg hr.seqSel hptr), hr.inRange hr0⟩
    | @sendFb a n m hs hl =>
      cases h
      have hr := State.Ran.sendFbBytes a n { s with work := [] }
      have hm : s.idx.toNat + m ≤ s.cfg.fbLen := by omega
      exact ⟨hr.work, .endChunk1 (by rwa [hr.idx, hr.cfg]), hr.inRange hr0⟩
    | @rows r h2 hrow hc =>
      cases h
      obtain ⟨v, hr, he⟩ := State.finishRows_ran r { s with work := [] }
      have hrow' : v.row.toNat + r ≤ v.cfg.height := by rwa [hr.row, hr.cfg]
      have hg' : v.cfg.geometryOk = true := by rwa [hr.cfg]
      rw [he]
      exact ⟨hr.work, .endChunk2 (by rwa [State.advanceRow_cfg, hr.cfg]), (hr.inRange hr0).advanceRow hg' hrow'⟩
    | endChunk2 h2 =>
      obtain ⟨hwork, -⟩ := endChunk2_keeps h
      exact ⟨hwork, .nil, endChunk2_inRange (s := { s with work := [] }) hv h2 hr0 h⟩

end Sys2Proof.Machine

namespace Sys2Proof.Machine

/-! ### Frames read and write the wire only -/

/-- A frame is the same on every state with the same wire. -/
theorem State.sendFrame_withWire_comm {v s : State} (hc : v.cfg = s.cfg) (m : Bool) (b : Byte) :
    (v.withWire s).sendFrame m b = v.withWire (s.sendFrame m b) := by
  rw [State.sendFrame_eq, State.sendFrame_eq]
  simp only [State.withWire, hc]

theorem State.sendBytes_withWire_comm {v s : State} (hc : v.cfg = s.cfg) (bytes : List Byte) :
    (v.withWire s).sendBytes bytes = v.withWire (s.sendBytes bytes) := by
  induction bytes generalizing s with
  | nil => rfl
  | cons b bytes ih =>
    rw [State.sendBytes_cons, State.sendBytes_cons, State.sendFrame_withWire_comm hc]
    exact ih (by simpa using hc)

theorem State.sendFbBytes_withWire_comm {v s : State} (hc : v.cfg = s.cfg) (hf : v.fb = s.fb) (a n : Nat) :
    (v.withWire s).sendFbBytes a n = v.withWire (s.sendFbBytes a n) := by
  have h := State.sendBytes_withWire_comm hc ((List.range' a n).map (Memory.read v.fb))
  rw [hf] at h
  rw [State.sendFbBytes, State.sendFbBytes, ← h, ← hf]
  rfl

theorem State.sendRows_withWire_comm {v s : State} (hc : v.cfg = s.cfg) (hf : v.fb = s.fb) (c0 c1 row r : Nat) :
    State.sendRows c0 c1 row r (v.withWire s) = v.withWire (State.sendRows c0 c1 row r s) := by
  induction r generalizing s row with
  | zero => rfl
  | succ r ih =>
    have hran : s.Ran (s.sendRow row c0 c1) := .sendFbBytes _ _ s
    have hrow : (v.withWire s).sendRow row c0 c1 = v.withWire (s.sendRow row c0 c1) := by
      rw [State.sendRow, State.sendRow, ← State.sendFbBytes_withWire_comm hc hf, State.rowAddr, State.rowAddr, ← hc]
      rfl
    rw [State.sendRows, State.sendRows, hrow]
    exact ih (by rw [hran.cfg, hc]) (by rw [hran.fb, hf]) _

/-- Rows do not read or write the column counter. -/
theorem State.sendRows_withCol (c0 c1 row r : Nat) (s : State) (c : BitVec 16) :
    State.sendRows c0 c1 row r { s with col := c } = { State.sendRows c0 c1 row r s with col := c } := by
  have h := State.sendRows_withWire_comm (v := { s with col := c }) (s := s) rfl rfl c0 c1 row r
  have hs := State.sendRows_frame c0 c1 row r s
  generalize State.sendRows c0 c1 row r s = v at h hs
  rw [hs]
  exact h

/-- Rows do not read or write the row cursor. -/
theorem State.sendRows_withRow (c0 c1 row r : Nat) (s : State) (row' : BitVec 16) :
    State.sendRows c0 c1 row r { s with row := row' } = { State.sendRows c0 c1 row r s with row := row' } := by
  have h := State.sendRows_withWire_comm (v := { s with row := row' }) (s := s) rfl rfl c0 c1 row r
  have hs := State.sendRows_frame c0 c1 row r s
  generalize State.sendRows c0 c1 row r s = v at h hs
  rw [hs]
  exact h

/-! ### Carrying a tick to its end -/

/-- Go on with the rest of the tick when a task has been carried out, unless something stays in hand. -/
def resume (ts : List Task) (u : State) : Host.Outcome State Fault Refusal :=
  if u.work = [] then drain { u with work := ts } else .next { u with work := u.work ++ ts }

theorem andThen_congr {o : Host.Outcome State Fault Refusal} {f g : State → Host.Outcome State Fault Refusal}
    (h : ∀ u, o = .next u → f u = g u) : andThen o f = andThen o g := by
  cases o with
  | next u => exact h u rfl
  | fault r => rfl
  | refused r => rfl

/-- `drainTasks` carries out the tasks it is given, not those in the state. -/
theorem drainTasks_withWork (ts : List Task) (s : State) (w : List Task) :
    drainTasks ts { s with work := w } = drainTasks ts s := by
  cases ts <;> rfl

theorem State.withWork_self {s : State} {w : List Task} (h : s.work = w) : ({ s with work := w } : State) = s := by
  subst h
  rfl

theorem drain_nil {s : State} (h : s.work = []) : drain s = .next (s.setReady true) := by
  rw [drain, h, drainTasks, State.withWork_self h]

theorem drain_cons {s : State} {t : Task} {ts : List Task} (h : s.work = t :: ts) :
    drain s = andThen (performTask t { s with work := [] }) (resume ts) := by
  rw [drain, h, drainTasks]
  refine andThen_congr (fun u _ => ?_)
  have hd : drain { u with work := ts } = drainTasks ts u := drainTasks_withWork ts u ts
  rw [resume, hd]

theorem resume_of_nil {u : State} (h : u.work = []) (ts : List Task) : resume ts u = drain { u with work := ts } :=
  if_pos h

/-- A last task in hand. -/
theorem drain_singleton {u : State} (h : u.work = []) (t : Task) :
    drain { u with work := [t] } = andThen (performTask t u) (resume []) := by
  rw [drain_cons rfl]
  show andThen (performTask t { u with work := [] }) _ = _
  rw [State.withWork_self h]

/-- Tasks in front of empty work. -/
theorem drain_push {s : State} (h : s.work = []) (t : Task) (ts : List Task) :
    drain (s.push (t :: ts)) = andThen (performTask t s) (resume ts) := by
  have hs : ({ s.push (t :: ts) with work := [] } : State) = s := State.withWork_self (s := s) h
  rw [drain_cons (t := t) (ts := ts) (by rw [State.push_work, h, List.append_nil]), hs]

/-- Two tasks in front of empty work, the first of which leaves nothing in hand. -/
theorem drain_push_pair {s : State} (h : s.work = []) {t t' : Task}
    (ht : ∀ u, performTask t s = .next u → u.work = s.work) :
    drain (s.push [t, t']) = andThen (andThen (performTask t s) (performTask t')) (resume []) := by
  rw [drain_push h, andThen_assoc]
  refine andThen_congr (fun u hu => ?_)
  have hw : u.work = [] := (ht u hu).trans h
  rw [resume_of_nil hw, drain_singleton hw]

/-- An open drawing window stays in hand (43_display_controller.md R147). -/
theorem drain_window {s : State} {ts : List Task} (h : s.work = .window :: ts) (hd : s.drawReq = true) :
    drain s = .next s := by
  rw [drain_cons h, performTask, if_pos hd]
  exact congrArg Host.Outcome.next (State.withWork_self h)

/-- A table in hand is run, then what is behind it. -/
theorem drain_push_run {s : State} (h : s.work = []) (sel : TableSel) (t : Task) :
    drain (s.push [.run sel, t]) = andThen (andThen (runSeq sel s) (performTask t)) (resume []) :=
  drain_push_pair h (fun _ hu => (runSeq_ran hu).work)

/-- The rows of a whole tick of the cascade transfer, from the first column of its window on. -/
theorem State.finishRows_startRow {s : State} (hg : s.cfg.geometryOk = true) (r : Nat) :
    (s.startRow r).finishRows r =
      (State.sendRows (s.cfg.columns s.tgt).1 (s.cfg.columns s.tgt).2 s.row.toNat r s).advanceRow r := by
  have hcols := Config.columns_range hg s.tgt
  have hb := Config.rowBytes_range hg
  have hcol : (BitVec.ofNat 16 (s.cfg.columns s.tgt).1).toNat = (s.cfg.columns s.tgt).1 := by
    rw [BitVec.toNat_ofNat]
    omega
  cases r with
  | zero => rfl
  | succ r =>
    have h : (s.startRow (r + 1)).finishRows (r + 1) =
        (State.sendRows (s.cfg.columns s.tgt).1 (s.cfg.columns s.tgt).2 s.row.toNat (r + 1)
          { s with col := BitVec.ofNat 16 (s.cfg.columns s.tgt).1 }).advanceRow (r + 1) := by
      simp only [State.startRow, State.finishRows, Nat.add_one_ne_zero, if_false, hcol]
      rfl
    rw [h, State.sendRows_withCol]
    rfl

/-- The transfer's tasks in hand come to the whole tick. -/
theorem drain_beginTransfer {s : State} (hg : s.cfg.geometryOk = true) (h : s.work = []) :
    andThen (beginTransfer s) drain = andThen (execStateUpdateSendingData s) (resume []) := by
  unfold beginTransfer execStateUpdateSendingData chunk1 chunk2
  split
  · split
    · rfl
    · rw [andThen_next, drain_push_pair h]
      · rfl
      · intro u hu
        cases hu
        exact (State.Ran.sendFbBytes ..).work
  · split
    · rfl
    · rw [andThen_next, drain_push_pair (by simpa using h), performTask, State.finishRows_startRow hg]
      · rfl
      · intro u hu
        cases hu
        obtain ⟨v, hv, he⟩ := State.finishRows_ran s.chunkRowCount (s.startRow s.chunkRowCount)
        rw [he]
        exact hv.work

/-- The start of a state action and its tasks come to the whole action (log entry 7). -/
theorem drain_action {s : State} (hg : s.cfg.geometryOk = true) (h : s.work = []) :
    andThen (beginAction s) drain = andThen (tickAction s) (resume []) := by
  cases hq : s.st.sends with
  | false =>
    rw [beginAction_of_not_sends hq]
    refine andThen_congr (fun u hu => ?_)
    have hnil : u.work = [] → drain u = resume [] u := fun hw => by
      rw [resume_of_nil hw, State.withWork_self hw]
    cases beginAction_cases ((beginAction_of_not_sends hq).trans hu) with
    | quiet hs hu => exact hnil (by rw [hu.1]; exact h)
    | leave | asleep => exact hnil h
    | openWindow hst =>
      rw [drain_window (ts := .goto .updateWaitBusy :: s.work) rfl rfl, resume, if_neg (by simp)]
      simp
    | run hsel ha hr ht => simp [sends_of_taskFits_run hr] at hq
    | prepare hst | chunk1 hst | chunk2 hst =>
      rw [hst] at hq
      cases hq
  | true =>
    unfold beginAction tickAction
    generalize s.st = d at hq
    cases d with
    | initSendCommands => exact drain_push_run h .initSeq _
    | updatePrepare => exact drain_push_run (s := s.resetCursor) h .prepareSeq _
    | updateRefresh => exact drain_push_run h s.refreshTable _
    | updateSendingData => exact drain_beginTransfer hg h
    | deepSleep =>
      show drain (if s.sleepDone then s else s.push [.run .sleepSeq, .sleepDone]) =
        andThen (execStateDeepSleep s) (resume [])
      unfold execStateDeepSleep
      split
      · rw [andThen_next, resume_of_nil h, State.withWork_self h]
      · exact drain_push_run h .sleepSeq _
    | initStart | initReset | initWaitReset | initWaitResetLow | initWaitResetHigh | initWaitBusy | initDone | idle
    | updateStart | updateWaitBusy | updateWaitRefresh | updateDone => cases hq

end Sys2Proof.Machine

namespace Sys2Proof.Machine

/-! ### The invariant, and that a tick keeps it -/

/-- The start of a state action puts no state action in hand. -/
theorem BeginsAction.action_not_mem {s u : State} (h : BeginsAction s u) (hw : s.work = []) : .action ∉ u.work := by
  cases h with
  | quiet hs hu =>
    have hwork : u.work = [] := by rw [hu.1]; exact hw
    simp [hwork]
  | run hsel ha =>
    simp only [State.push_work, hw, List.append_nil, List.mem_cons, List.not_mem_nil, or_false, reduceCtorEq, false_or]
    rintro rfl
    cases ha
  | leave | openWindow | prepare | asleep | chunk1 | chunk2 => simp [hw]

/-- A valid configuration and a consistent control; everything in its place where `q` says so. -/
def State.Stands (q : Prop) (s : State) : Prop :=
  s.cfg.valid = true ∧ s.controlOk = true ∧ (q → s.placesOk = true)

/-- `u` has the registers of `s` that `placesOk` reads. -/
def State.SamePlaces (s u : State) : Prop :=
  u.cfg = s.cfg ∧ u.work = s.work ∧ u.encStep = s.encStep ∧ u.encHold = s.encHold ∧ u.idx = s.idx ∧ u.row = s.row ∧
    u.tgt = s.tgt ∧ u.col = s.col ∧ u.seqSel = s.seqSel ∧ u.seqPtr = s.seqPtr ∧ u.seqLeft = s.seqLeft

/-- `u` has the registers of `s` that `controlOk` reads. -/
def State.SameControl (s u : State) : Prop :=
  u.cfg = s.cfg ∧ u.work = s.work ∧ u.st = s.st ∧ u.ready = s.ready ∧ u.drawReq = s.drawReq ∧ u.encBusy = s.encBusy

theorem State.SameControl.controlOk {s u : State} (h : s.SameControl u) : u.controlOk = s.controlOk := by
  obtain ⟨hc, hw, hst, hr, hd, he⟩ := h
  simp only [State.controlOk, hc, hst, hr, hd, hw, he]

theorem State.SamePlaces.placesOk {s u : State} (h : s.SamePlaces u) (hs : s.placesOk = true) : u.placesOk = true := by
  obtain ⟨hc, hw, hstep, hhold, hi, hr, ht, hcol, hsel, hp, hl⟩ := h
  obtain ⟨hplace, hrange⟩ := (State.placesOk_iff s).1 hs
  refine (State.placesOk_iff u).2 ⟨?_, ?_⟩
  · rw [hw]
    exact hplace.congr hc hi hr ht hcol hsel hp hl
  · simpa only [State.InRange, State.seqTable, hc, hi, hr, hstep, hhold, hsel] using hrange

namespace State.Stands

variable {q : Prop} {s u : State}

theorem geometryOk (h : s.Stands q) : s.cfg.geometryOk = true := ((Config.valid_iff s.cfg).1 h.1).1

theorem of_same (h : s.Stands q) (hc : s.SameControl u) (hp : s.SamePlaces u) : u.Stands q :=
  ⟨by rw [hc.1]; exact h.1, by rw [hc.controlOk]; exact h.2.1, fun hq => hp.placesOk (h.2.2 hq)⟩

theorem after_controlAction (h : s.Stands q) (hu : controlAction s = .next u) : u.Stands q :=
  ⟨by rw [(controlAction_formKept h.geometryOk hu).1]; exact h.1, controlAction_controlOk h.2.1 hu,
    fun hq => controlAction_placesOk h.1 (h.2.2 hq) hu⟩

theorem after_performTask {t : Task} {ts : List Task} (h : s.Stands q) (ht : t ≠ .action) (hw : s.work = t :: ts)
    (hu : performTask t { s with work := [] } = .next u) : ({ u with work := u.work ++ ts } : State).Stands q :=
  ⟨by
    have hc := (performTask_formKept (s := { s with work := [] }) h.geometryOk hu).1
    exact (congrArg Config.valid hc).trans h.1,
    performTask_controlOk ht hw h.2.1 hu, fun hq => performTask_placesOk h.1 ht hw (h.2.2 hq) hu⟩

/-- When nothing is left of a tick, `ready <- 1`. -/
theorem after_setReady (h : s.Stands q) (hw : s.work = []) : (s.setReady true).Stands q := by
  obtain ⟨hv, hc, hp⟩ := h
  obtain ⟨hf, hr, hd, he⟩ := (State.controlOk_iff s).1 hc
  have hcalm : s.encBusy = false ∧ s.drawReq = false := by simpa [hw] using And.intro he hd
  exact ⟨hv, (State.controlOk_iff _).2 ⟨hf, fun _ => ⟨hw, hcalm⟩, hd, he⟩,
    fun hq => State.SamePlaces.placesOk (s := s) ⟨rfl, rfl, rfl, rfl, rfl, rfl, rfl, rfl, rfl, rfl, rfl⟩ (hp hq)⟩

/-- The rest of a tick is carried out task by task; the state action itself, where it is in hand, by `hact`. -/
theorem after_drain_of {ts : List Task} {s u : State}
    (hact : .action ∈ ts → ∀ {v w : State}, v.Stands q → v.work = [.action] → drain v = .next w → w.Stands q)
    (hw : s.work = ts) (h : s.Stands q) (hu : drain s = .next u) : u.Stands q := by
  induction ts generalizing s with
  | nil =>
    rw [drain_nil hw] at hu
    cases hu
    exact h.after_setReady hw
  | cons t ts ih =>
    by_cases ht : t = .action
    · subst ht
      obtain rfl := (State.controlOk_cons hw h.2.1).2.2.1 rfl
      exact hact (by simp) h hw hu
    · rw [drain_cons hw] at hu
      obtain ⟨v, hv, hu⟩ := andThen_eq_next.1 hu
      have hk := h.after_performTask ht hw hv
      unfold resume at hu
      split at hu
      · rename_i hnil
        rw [hnil] at hk
        exact ih (fun hm => hact (List.mem_cons_of_mem t hm)) rfl hk hu
      · cases hu
        exact hk

/-- Carrying a tick to its end, or to its open drawing window, keeps the invariant. -/
theorem after_drain (h : s.Stands q) (hu : drain s = .next u) : u.Stands q := by
  refine after_drain_of (fun _ v w hv hw hu => ?_) rfl h hu
  have hs : ({ v with work := [] } : State).work = [] := rfl
  rw [drain_cons hw, performTask, ← drain_action (s := { v with work := [] }) hv.geometryOk hs] at hu
  obtain ⟨x, hx, hu⟩ := andThen_eq_next.1 hu
  have hk : x.Stands q := hv.after_controlAction (by rw [controlAction, hw]; exact hx)
  exact after_drain_of (fun hm => absurd hm ((beginAction_cases hx).action_not_mem hs)) rfl hk hu

end State.Stands

end Sys2Proof.Machine

namespace Sys2Proof.Machine

/-! ### The host's tick and the strobes -/

theorem resume_nil (u : State) : resume [] u = .next u.endTick := by
  unfold resume State.endTick
  split
  · rename_i h
    rw [State.withWork_self h, drain_nil h]
  · rw [List.append_nil]

/-- An accepted tick is the state action in hand, carried to its end (43_display_controller.md R133). -/
theorem execHostTick_eq_drain {s : State} (hr : s.ready = true) (hw : s.work = []) :
    execHostTick s = drain s.acceptTick := by
  have hs : ({ s.acceptTick with work := [] } : State) = s.setReady false := State.withWork_self (s := s.setReady false) hw
  rw [execHostTick, if_pos hr, drain_cons (s := s.acceptTick) rfl, hs, performTask]
  exact andThen_congr (fun u _ => (resume_nil u).symm)

/-- The strobes of an edge but for the tick. -/
theorem State.mem_strobeOps {s : State} {p : Ports} {i : Instr} (hi : i ∈ s.strobeOps p) :
    i = .hostRequestUpdate ∨ i = .hostSleepRequest ∨ i = .hostDrawDone ∨ ∃ x y black, i = .pixelSet x y black := by
  obtain ⟨h, -⟩ | ⟨h, -⟩ | ⟨h, -⟩ | ⟨h, -⟩ | ⟨-, hbit⟩ := mem_decodeHiv hi
  · exact .inl h
  · exact .inr (.inl h)
  · exact .inr (.inr (.inr ⟨_, _, _, h⟩))
  · exact .inr (.inr (.inl h))
  · rw [BitVec.getLsbD_and] at hbit
    exact absurd (Bool.and_eq_true_iff.1 hbit).2 (by decide)

theorem execAll_strobes_ready {s v u : State} {p : Ports} (h : execAll (s.strobeOps p) v = .next u)
    (hr : v.ready = true) : u.ready = true :=
  execAll_keeps (P := fun v => v.ready = true)
    (fun _ hi _ _ hv he => by rw [exec_strobe_frame (State.mem_strobeOps hi) he]; exact hv) hr h

namespace State.Stands

variable {q : Prop} {s u : State}

/-- Between ticks the next tick is taken. -/
theorem after_acceptTick (h : s.Stands q) (hr : s.ready = true) : s.acceptTick.Stands q := by
  obtain ⟨hv, hc, hp⟩ := h
  obtain ⟨-, hd, he⟩ := ((State.controlOk_iff s).1 hc).2.1 hr |>.imp_right And.symm
  exact ⟨hv, State.Calm.controlOk ⟨rfl, hd, he⟩ rfl,
    fun hq => (State.placesOk_iff _).2 ⟨.action, ((State.placesOk_iff s).1 (hp hq)).2⟩⟩

/-- A drawing window may close at any time. -/
theorem after_drawDone (h : s.Stands q) : (s.setDrawReq false).Stands q := by
  obtain ⟨hv, hc, hp⟩ := h
  obtain ⟨hf, hr, hd, he⟩ := (State.controlOk_iff s).1 hc
  exact ⟨hv, (State.controlOk_iff _).2 ⟨hf, fun h => ⟨(hr h).1, (hr h).2.1, rfl⟩, fun h => by simp at h, he⟩,
    fun hq => State.SamePlaces.placesOk (s := s) ⟨rfl, rfl, rfl, rfl, rfl, rfl, rfl, rfl, rfl, rfl, rfl⟩ (hp hq)⟩

/-- The operations an edge's ports can start keep the invariant. -/
theorem after_exec_port {hiv : BitVec 5} {x y : Coord} {black : Bool} {i : Instr} (hi : i ∈ decodeHiv hiv x y black)
    (h : s.Stands q) (hu : exec i s = .next u) : u.Stands q := by
  obtain ⟨rfl, -⟩ | ⟨rfl, -⟩ | ⟨rfl, -⟩ | ⟨rfl, -⟩ | ⟨rfl, -⟩ := mem_decodeHiv hi
  · cases hu
    exact h.of_same ⟨rfl, rfl, rfl, rfl, rfl, rfl⟩ ⟨rfl, rfl, rfl, rfl, rfl, rfl, rfl, rfl, rfl, rfl, rfl⟩
  · cases hu
    exact h.of_same ⟨rfl, rfl, rfl, rfl, rfl, rfl⟩ ⟨rfl, rfl, rfl, rfl, rfl, rfl, rfl, rfl, rfl, rfl, rfl⟩
  · cases hu
    split
    · rw [State.writePixel_frame]
      exact h.of_same ⟨rfl, rfl, rfl, rfl, rfl, rfl⟩ ⟨rfl, rfl, rfl, rfl, rfl, rfl, rfl, rfl, rfl, rfl, rfl⟩
    · exact h
  · cases hu
    split
    · exact h.after_drawDone
    · exact h
  · cases hr : s.ready with
    | false =>
      rw [exec, execHostTick, if_neg (by simp [hr])] at hu
      cases hu
      exact h
    | true =>
      have hw := (((State.controlOk_iff s).1 h.2.1).2.1 hr).1
      rw [exec, execHostTick_eq_drain hr hw] at hu
      exact (h.after_acceptTick hr).after_drain hu

theorem after_execAll_port {hiv : BitVec 5} {x y : Coord} {black : Bool} (h : s.Stands q)
    (hu : execAll (decodeHiv hiv x y black) s = .next u) : u.Stands q :=
  execAll_keeps (P := State.Stands q) (fun _ hi _ _ hk hv => hk.after_exec_port hi hv) h hu

/-- The levels an edge samples, the draws and the record of the pins do not touch the control. -/
theorem after_sample (h : s.Stands q) (p : Ports) (d : Draws) : (s.sample p d).Stands q :=
  h.of_same ⟨rfl, rfl, rfl, rfl, rfl, rfl⟩ ⟨rfl, rfl, rfl, rfl, rfl, rfl, rfl, rfl, rfl, rfl, rfl⟩

theorem after_transactionEdge {p : Ports} {d : Draws} (h : s.Stands q) (hu : transactionEdge p d s = .next u) :
    u.Stands q := by
  obtain ⟨v, hv, hu⟩ := andThen_eq_next.1 hu
  obtain ⟨w, hw, hv⟩ := andThen_eq_next.1 hv
  have hk : v.Stands q := ((h.after_sample p d).after_execAll_port hw).after_drain hv
  cases hu
  exact hk.of_same ⟨rfl, rfl, rfl, rfl, rfl, rfl⟩ ⟨rfl, rfl, rfl, rfl, rfl, rfl, rfl, rfl, rfl, rfl, rfl⟩

end State.Stands

/-! ### A clock edge -/

/-- Make micro-step `i` of the frame in progress. -/
def State.stepPin (i : Nat) (s : State) : State :=
  s.setPin (microStep s.encMode s.encByte i).1 (microStep s.encMode s.encByte i).2

theorem State.stepPin_withWire (i : Nat) (s : State) : s.stepPin i = s.withWire (s.stepPin i) :=
  State.setPin_withWire (microStep_ne_panelRst _ _ _) _ s

/-- What one clock cycle of the encoder can do (41_serial_encoder.md R106). -/
inductive EncoderCycle (s : State) : State → Prop
  | idle (hb : s.encBusy = false) : EncoderCycle s s
  | first (hb : s.encBusy = true) (h0 : s.encHold = 0) : EncoderCycle s { s.stepPin s.encStep.toNat with encHold := 1 }
  | hold (hb : s.encBusy = true) (h0 : s.encHold ≠ 0) (hl : s.encHold < s.cfg.encStepCycles) :
      EncoderCycle s { s with encHold := s.encHold + 1 }
  | finish (hb : s.encBusy = true) (h0 : s.encHold ≠ 0) (hl : s.cfg.encStepCycles ≤ s.encHold)
      (h26 : 26 ≤ s.encStep.toNat) : EncoderCycle s { s with encBusy := false }
  | advance (hb : s.encBusy = true) (h0 : s.encHold ≠ 0) (h26 : s.encStep.toNat < 26) :
      EncoderCycle s { s.stepPin (s.encStep.toNat + 1) with encStep := s.encStep + 1, encHold := 1 }

theorem State.encoderEdge_cases (s : State) : EncoderCycle s s.encoderEdge := by
  unfold State.encoderEdge
  split
  · rename_i hb
    exact .idle (by simpa using hb)
  · rename_i hb
    replace hb : s.encBusy = true := by simpa using hb
    split
    · exact .first hb ‹_›
    · rename_i h0
      split
      · exact .hold hb h0 ‹_›
      · split
        · exact .finish hb h0 (by omega) ‹_›
        · exact .advance hb h0 (by rename_i h26; exact Nat.lt_of_not_le h26)

/-- The encoder's cycle writes the wire only, and starts no frame. -/
theorem EncoderCycle.frame {s u : State} (h : EncoderCycle s u) :
    u = s.withWire u ∧ (u.encBusy = true → s.encBusy = true) := by
  cases h with
  | idle | hold => exact ⟨rfl, id⟩
  | finish hb => exact ⟨rfl, fun _ => hb⟩
  | first hb | advance hb =>
    refine ⟨?_, fun _ => hb⟩
    rw [State.stepPin_withWire]
    rfl

/-- The encoder's counters stay in their ranges (10_state.md R37). -/
theorem EncoderCycle.inRange {s u : State} (hpos : 1 ≤ s.cfg.encStepCycles) (hs : s.InRange) (h : EncoderCycle s u) :
    u.InRange := by
  obtain ⟨hidx, hrow, hstep, hhold, htab⟩ := hs
  cases h with
  | idle => exact ⟨hidx, hrow, hstep, hhold, htab⟩
  | hold hb h0 hl => exact ⟨hidx, hrow, hstep, hl, htab⟩
  | finish => exact ⟨hidx, hrow, hstep, hhold, htab⟩
  | first =>
    simp only [State.InRange, State.stepPin, State.seqTable, State.setPin_cfg, State.setPin_idx, State.setPin_row,
      State.setPin_encStep, State.setPin_seqSel]
    exact ⟨hidx, hrow, hstep, hpos, htab⟩
  | advance hb h0 h26 =>
    have hnext : (s.encStep + 1).toNat ≤ 26 := by
      rw [BitVec.toNat_add]
      exact (Nat.mod_le _ _).trans h26
    simp only [State.InRange, State.stepPin, State.seqTable, State.setPin_cfg, State.setPin_idx, State.setPin_row,
      State.setPin_seqSel]
    exact ⟨hidx, hrow, hnext, hpos, htab⟩

theorem encStepCycles_pos {c : Config} (h : c.valid = true) : 1 ≤ c.encStepCycles := by
  obtain ⟨-, -, -, -, -, -, he⟩ := (Config.valid_iff c).1 h
  exact of_decide_eq_true he

/-- Ending a wait whose time is over is the control action on it. -/
theorem State.endHold_cases (s : State) : s.endHold = s ∨ controlAction s = .next s.endHold := by
  unfold State.endHold
  split
  · rename_i ts hw
    split
    · rename_i ho
      refine .inr ?_
      rw [controlAction, hw]
      exact congrArg Host.Outcome.next (if_pos ho)
    · exact .inl rfl
  · exact .inl rfl

/-- The part of a clock edge that comes before the strobes. -/
def clockControl (n : Nat) (s : State) : Host.Outcome State Fault Refusal :=
  if s.encBusy then .next s.encoderEdge else controlEdge n s

theorem clockEdge_eq (p : Ports) (n : Nat) (s : State) :
    clockEdge p n s =
      andThen (andThen (clockControl n (s.sample p { lapses := [], window := none })) (execAll (s.strobeOps p))) (fun t =>
        .next (if p.hiv.getLsbD 0 && s.ready then t.acceptTick else t).recordLevels) := rfl

namespace State.Stands

variable {q : Prop} {s u : State}

theorem after_encoderEdge (h : s.Stands q) : s.encoderEdge.Stands q := by
  obtain ⟨hv, hc, hp⟩ := h
  have hcycle := s.encoderEdge_cases
  generalize s.encoderEdge = u at hcycle
  obtain ⟨hw, hb⟩ := hcycle.frame
  have hcfg : u.cfg = s.cfg := by rw [hw]; rfl
  have hwork : u.work = s.work := by rw [hw]; rfl
  refine ⟨by rwa [hcfg], ?_, fun hq => ?_⟩
  · obtain ⟨hf, hr, hd, he⟩ := (State.controlOk_iff s).1 hc
    refine (State.controlOk_iff u).2 ⟨?_, fun h => ?_, ?_, fun h => ?_⟩
    · rw [hw]
      exact hf
    · obtain ⟨hnil, hidle, hclosed⟩ := hr (by rw [hw] at h; exact h)
      refine ⟨hwork.trans hnil, ?_, by rw [hw]; exact hclosed⟩
      exact Bool.eq_false_iff.2 (fun hbusy => by simp [hidle] at hb; simp [hb] at hbusy)
    · rw [hw]
      exact hd
    · rw [hwork]
      exact he (hb h)
  · obtain ⟨hplace, hrange⟩ := (State.placesOk_iff s).1 (hp hq)
    refine (State.placesOk_iff u).2 ⟨?_, hcycle.inRange (encStepCycles_pos hv) hrange⟩
    rw [hw]
    exact hplace.congr rfl rfl rfl rfl rfl rfl rfl rfl

theorem after_endHold (h : s.Stands q) : s.endHold.Stands q := by
  obtain he | he := s.endHold_cases
  · rwa [he]
  · exact h.after_controlAction he

theorem after_clockControl {n : Nat} (h : s.Stands q) (hu : clockControl n s = .next u) : u.Stands q := by
  unfold clockControl controlEdge at hu
  split at hu
  · cases hu
    exact h.after_encoderEdge
  · split at hu
    · cases hu
      exact h.after_setReady ‹_›
    · exact controlActions_keeps (P := State.Stands q) (fun hk hv => hk.after_controlAction hv) h.after_endHold hu

theorem after_recordLevels (h : s.Stands q) : s.recordLevels.Stands q :=
  h.of_same ⟨rfl, rfl, rfl, rfl, rfl, rfl⟩ ⟨rfl, rfl, rfl, rfl, rfl, rfl, rfl, rfl, rfl, rfl, rfl⟩

end State.Stands

/-- Between ticks a clock edge leaves the block ready until its strobes. -/
theorem clockControl_ready {n : Nat} {s u : State} (hc : s.controlOk = true) (hr : s.ready = true)
    (hu : clockControl n s = .next u) : u = s := by
  obtain ⟨hw, he, -⟩ := ((State.controlOk_iff s).1 hc).2.1 hr
  rw [clockControl, controlEdge, he, if_neg (by simp), if_neg (by simp), if_pos hw] at hu
  cases hu
  rw [State.setReady, ← hr]

namespace State.Stands

variable {q : Prop} {s u : State}

theorem after_clockEdge {p : Ports} {n : Nat} (h : s.Stands q) (hu : clockEdge p n s = .next u) : u.Stands q := by
  rw [clockEdge_eq] at hu
  obtain ⟨v, hv, hu⟩ := andThen_eq_next.1 hu
  obtain ⟨w, hw, hv⟩ := andThen_eq_next.1 hv
  have hs := h.after_sample p { lapses := [], window := none }
  have hk : v.Stands q := (hs.after_clockControl hw).after_execAll_port hv
  cases hu
  split
  · rename_i htick
    have hr : s.ready = true := (Bool.and_eq_true_iff.1 htick).2
    have hwr : w.ready = true := by
      rw [clockControl_ready hs.2.1 hr hw]
      exact hr
    exact (hk.after_acceptTick (execAll_strobes_ready hv hwr)).after_recordLevels
  · exact hk.after_recordLevels

end State.Stands

/-- Every step keeps the control consistent, and everything in its place where it was. -/
theorem step_stands {q : Prop} {s t : State} (hc : s.controlOk = true) (hp : q → s.placesOk = true)
    (h : step s = .next t) : t.Stands q := by
  obtain ⟨hv, i, is, -, h⟩ := step_next h
  have hs : State.Stands q { s with inputs := is } :=
    State.Stands.of_same (s := s) ⟨hv, hc, hp⟩ ⟨rfl, rfl, rfl, rfl, rfl, rfl⟩
      ⟨rfl, rfl, rfl, rfl, rfl, rfl, rfl, rfl, rfl, rfl, rfl⟩
  cases i with
  | reset fb =>
    cases h
    exact ⟨hv, State.controlOk_ofConfig s.cfg, fun _ =>
      State.SamePlaces.placesOk (s := State.ofConfig s.cfg) ⟨rfl, rfl, rfl, rfl, rfl, rfl, rfl, rfl, rfl, rfl, rfl⟩
        (State.placesOk_ofConfig hv)⟩
  | edge p d => exact hs.after_transactionEdge h
  | clock p n => exact hs.after_clockEdge h

/-- Settles O52: each control action and each task of a tick keeps the control consistent and everything in its place, so each
edge does; a reset edge starts afresh. -/
theorem controlConsistencyKept : Obligations.ControlConsistencyKept := by
  intro s t hc h
  obtain ⟨-, htc, htp⟩ := step_stands (q := s.placesOk = true) hc id h
  refine ⟨htc, fun hp => ⟨htp hp, ?_⟩⟩
  obtain ⟨-, hidx, hrow, -⟩ := (State.placesOk_iff t).1 (htp hp)
  exact ⟨hidx, hrow⟩

end Sys2Proof.Machine

namespace Sys2Proof.Machine

/-! ### The record of the pins is not read -/

/-- The state with another record of levels. -/
def State.withWave (w : List PinLevels) (s : State) : State := { s with wave := w }

/-- The outcome with another record of levels. -/
def waved (w : List PinLevels) (o : Host.Outcome State Fault Refusal) : Host.Outcome State Fault Refusal :=
  andThen o (fun u => .next (u.withWave w))

theorem State.writePixels_withWave (ws : List PixelWrite) (w : List PinLevels) (s : State) :
    ws.foldl State.writePixel (s.withWave w) = (ws.foldl State.writePixel s).withWave w := by
  refine List.foldl_hom (State.withWave w) (fun x y => ?_)
  unfold State.writePixel State.setPixel
  dsimp only [State.withWave]
  split <;> rfl

theorem drawWindow_withWave (w : List PinLevels) (s : State) :
    drawWindow (s.withWave w) = (drawWindow s).withWave w := by
  unfold drawWindow
  dsimp only [State.withWave]
  split
  · rename_i writes _
    have h := State.writePixels_withWave writes w (s.setDrawReq true)
    generalize writes.foldl State.writePixel (s.setDrawReq true) = v at h ⊢
    change State.goto .updateWaitBusy (State.setDrawReq false (writes.foldl State.writePixel
      ((s.setDrawReq true).withWave w))) = _
    rw [h]
    rfl
  · rfl

theorem State.sampleBusy_withWave (w : List PinLevels) (s : State) :
    (s.withWave w).sampleBusy = s.sampleBusy.withWave w := by
  change (if s.cfg.hasBusyPin then _ else _) = _
  unfold State.sampleBusy
  split <;> rfl

theorem waitBusy_withWave (timeout : Word32) (exit : DState) (w : List PinLevels) (s : State) :
    waitBusy timeout exit (s.withWave w) = (waitBusy timeout exit s).withWave w := by
  unfold waitBusy
  rw [State.sampleBusy_withWave]
  change (if s.busyLineIdle || s.timeUp timeout then _ else _) = _
  split <;> rfl

theorem tickAction_withWave {s : State} (hq : s.st.sends = false) (w : List PinLevels) :
    tickAction (s.withWave w) = waved w (tickAction s) := by
  unfold tickAction
  rw [show (s.withWave w).st = s.st from rfl]
  generalize s.st = d at hq
  cases d with
  | initStart | initDone | updateDone => rfl
  | initReset =>
    change Host.Outcome.next (if s.cfg.hasResetPin then _ else _) = waved w (execStateInitReset s)
    unfold execStateInitReset
    split <;> rfl
  | initWaitReset =>
    change Host.Outcome.next (if s.timeUp s.cfg.tRstPreMs then _ else _) = waved w (execStateInitWaitReset s)
    unfold execStateInitWaitReset
    split <;> rfl
  | initWaitResetLow =>
    change Host.Outcome.next (if s.timeUp s.cfg.tRstLowMs then _ else _) = waved w (execStateInitWaitResetLow s)
    unfold execStateInitWaitResetLow
    split <;> rfl
  | initWaitResetHigh =>
    change Host.Outcome.next (if s.timeUp s.cfg.tRstPostMs then _ else _) = waved w (execStateInitWaitResetHigh s)
    unfold execStateInitWaitResetHigh
    split <;> rfl
  | initWaitBusy | updateWaitBusy | updateWaitRefresh =>
    exact congrArg Host.Outcome.next (waitBusy_withWave ..)
  | idle =>
    dsimp only [execStateIdle, waved, andThen, State.withWave]
    split
    · rfl
    · split <;> rfl
  | updateStart =>
    change Host.Outcome.next (if s.cfg.hasDrawCb then
      drawWindow (State.withWave w ((s.setIsFull (cadenceFull s.cfg s.updCnt)).fill false)) else _) =
        waved w (execStateUpdateStart s)
    rw [drawWindow_withWave]
    unfold execStateUpdateStart
    dsimp only
    split <;> rfl
  | initSendCommands | updatePrepare | updateSendingData | updateRefresh | deepSleep => cases hq

theorem State.startRow_withWave (r : Nat) (w : List PinLevels) (s : State) :
    (s.withWave w).startRow r = (s.startRow r).withWave w := by
  unfold State.startRow
  split <;> rfl

theorem beginAction_withWave (w : List PinLevels) (s : State) :
    beginAction (s.withWave w) = waved w (beginAction s) := by
  cases hq : s.st.sends with
  | false => rw [beginAction_of_not_sends (s := s.withWave w) hq, beginAction_of_not_sends hq, tickAction_withWave hq]
  | true =>
    unfold beginAction
    rw [show (s.withWave w).st = s.st from rfl]
    generalize s.st = d at hq
    cases d with
    | initSendCommands | updatePrepare | updateRefresh => rfl
    | deepSleep =>
      change Host.Outcome.next (if s.sleepDone then _ else _) = .next ((if s.sleepDone then _ else _ : State).withWave w)
      split <;> rfl
    | updateSendingData =>
      change (if s.cfg.targets = 1 then (if s.cfg.fbLen < s.idx.toNat then _ else _)
        else if s.cfg.height < s.row.toNat then _ else
          .next (((s.withWave w).startRow s.chunkRowCount).push _)) = waved w (beginTransfer s)
      rw [State.startRow_withWave]
      unfold beginTransfer
      split <;> split <;> rfl
    | initStart | initReset | initWaitReset | initWaitResetLow | initWaitResetHigh | initWaitBusy | initDone | idle
    | updateStart | updateWaitBusy | updateWaitRefresh | updateDone => cases hq

theorem beginStep_withWave (w : List PinLevels) (s : State) : beginStep (s.withWave w) = waved w (beginStep s) := by
  unfold beginStep
  rw [show (s.withWave w).seqBytes = s.seqBytes from rfl]
  cases decodeSeq s.seqBytes with
  | error e => rfl
  | ok r =>
    obtain ⟨op, rest⟩ := r
    cases op <;> rfl

/-- No control action reads or writes the record of levels. -/
theorem taskAction_withWave (t : Task) (w : List PinLevels) (s : State) :
    taskAction t (s.withWave w) = waved w (taskAction t s) := by
  cases t with
  | run sel | seqTake left | argSent | colSent | switchTarget | sleepDone | goto d => rfl
  | action => exact beginAction_withWave w s
  | seqHead => exact beginStep_withWave w s
  | seqDelay =>
    change beginDelay (s.withWave w) = waved w (beginDelay s)
    cases hd : s.romByte? with
    | some d =>
      rw [beginDelay_eq hd, beginDelay_eq (s := s.withWave w) hd]
      rfl
    | none =>
      have hd' : (s.withWave w).romByte? = none := hd
      rw [beginDelay, beginDelay, hd, hd']
      rfl
  | seqArgs =>
    change beginArg (s.withWave w) = waved w (beginArg s)
    unfold beginArg
    rw [show (s.withWave w).romByte? = s.romByte? from rfl, show (s.withWave w).seqLeft = s.seqLeft from rfl]
    split
    · rfl
    · cases s.romByte? <;> rfl
  | seqHold =>
    change Host.Outcome.next (if s.holdOver then _ else _) = waved w (.next (if s.holdOver then _ else _))
    split <;> rfl
  | frame =>
    change Host.Outcome.next (if s.encBusy then _ else _) = waved w (.next (if s.encBusy then _ else _))
    split <;> rfl
  | window =>
    change Host.Outcome.next (if s.drawReq then _ else _) = waved w (.next (if s.drawReq then _ else _))
    split <;> rfl
  | sendFb a n => cases n <;> rfl
  | rows r =>
    cases r with
    | zero => rfl
    | succ r =>
      change Host.Outcome.next (if s.col.toNat < (s.cfg.columns s.tgt).2 then _ else
        ((State.withWave w { s with row := s.row + 1 }).startRow r).push [.rows r]) = waved w (.next (beginRowByte (r + 1) s))
      rw [State.startRow_withWave]
      unfold beginRowByte
      dsimp only
      split <;> rfl
  | endChunk1 n =>
    change endChunk1 n (s.withWave w) = waved w (endChunk1 n s)
    change Host.Outcome.next (if (s.idx + BitVec.ofNat 32 n).toNat = s.cfg.fbLen then _ else _) =
      waved w (.next (if (s.idx + BitVec.ofNat 32 n).toNat = s.cfg.fbLen then _ else _))
    split <;> rfl
  | endChunk2 =>
    change Host.Outcome.next (if s.row.toNat = s.cfg.height then (if s.tgt then _ else _) else _) =
      waved w (.next (if s.row.toNat = s.cfg.height then (if s.tgt then _ else _) else _))
    split
    · split <;> rfl
    · rfl

theorem controlAction_withWave (w : List PinLevels) (s : State) :
    controlAction (s.withWave w) = waved w (controlAction s) := by
  unfold controlAction
  rw [show (s.withWave w).work = s.work from rfl]
  cases s.work with
  | nil => rfl
  | cons t ts => exact taskAction_withWave t w { s with work := ts }

theorem controlActions_withWave (n : Nat) (w : List PinLevels) (s : State) :
    controlActions n (s.withWave w) = waved w (controlActions n s) := by
  induction n generalizing s with
  | zero => rfl
  | succ n ih =>
    rw [controlActions, controlActions, controlAction_withWave, waved, waved, andThen_assoc, andThen_assoc]
    exact andThen_congr (fun u _ => ih u)

theorem State.endHold_withWave (w : List PinLevels) (s : State) : (s.withWave w).endHold = s.endHold.withWave w := by
  unfold State.endHold
  rw [show (s.withWave w).work = s.work from rfl]
  split
  · change (if s.holdOver then _ else _) = _
    split <;> rfl
  · rfl

/-- A micro-step is the same on every state with the same wire. -/
theorem State.stepPin_withWire_comm (v s : State) (i : Nat) :
    (v.withWire s).stepPin i = v.withWire (s.stepPin i) := by
  unfold State.stepPin
  change (v.withWire s).setPin (microStep s.encMode s.encByte i).1 (microStep s.encMode s.encByte i).2 = _
  cases h : (microStep s.encMode s.encByte i).1 with
  | panelRst => exact absurd h (microStep_ne_panelRst _ _ _)
  | dc | csN | sclk | sdin => rfl

/-- The encoder's cycle is the same on every state with the same wire. -/
theorem State.encoderEdge_withWire_comm {v s : State} (hc : v.cfg = s.cfg) :
    (v.withWire s).encoderEdge = v.withWire s.encoderEdge := by
  unfold State.encoderEdge
  change (if !s.encBusy then _ else if s.encHold = 0 then { (v.withWire s).stepPin s.encStep.toNat with encHold := 1 }
    else if s.encHold < v.cfg.encStepCycles then _ else if lastMicroStep ≤ s.encStep.toNat then _ else
      { (v.withWire s).stepPin (s.encStep.toNat + 1) with encStep := s.encStep + 1, encHold := 1 }) = _
  rw [hc, State.stepPin_withWire_comm, State.stepPin_withWire_comm]
  repeat' split
  all_goals rfl

theorem State.encoderEdge_withWave (w : List PinLevels) (s : State) :
    (s.withWave w).encoderEdge = s.encoderEdge.withWave w := by
  have hw : (s.withWave w).encoderEdge = (s.withWave w).withWire s.encoderEdge :=
    State.encoderEdge_withWire_comm (v := s.withWave w) (s := s) rfl
  have hs := s.encoderEdge_cases.frame.1
  generalize s.encoderEdge = v at hw hs
  rw [hw, hs]
  rfl

theorem clockControl_withWave (n : Nat) (w : List PinLevels) (s : State) :
    clockControl n (s.withWave w) = waved w (clockControl n s) := by
  unfold clockControl controlEdge
  rw [State.encoderEdge_withWave, State.endHold_withWave, controlActions_withWave]
  change (if s.encBusy then _ else if s.encBusy then _ else if s.work = [] then _ else _) = _
  split
  · rfl
  · split <;> rfl

end Sys2Proof.Machine

namespace Sys2Proof.Machine

/-! ### A frame, cycle by cycle -/

/-- Micro-steps do not read or write the encoder's registers. -/
theorem State.microSteps_withEncoder (m : Bool) (b : Byte) (is : List Nat) (s : State) (mode : Bool) (byte : Byte)
    (k : BitVec 5) (h : Nat) (busy : Bool) :
    ({ s with encMode := mode, encByte := byte, encStep := k, encHold := h, encBusy := busy } : State).microSteps m b is =
      { s.microSteps m b is with encMode := mode, encByte := byte, encStep := k, encHold := h, encBusy := busy } := by
  induction is generalizing s with
  | nil => rfl
  | cons i is ih =>
    rw [State.microSteps_cons, State.microSteps_cons, ← ih]
    cases (microStep m b i).1 <;> rfl

/-- What a frame leaves does not depend on the encoder's registers before it. -/
theorem State.frameEnded_withEncoder (m : Bool) (b : Byte) (is : List Nat) (s : State) (mode : Bool) (byte : Byte)
    (k : BitVec 5) (h : Nat) (busy : Bool) :
    (({ s with encMode := mode, encByte := byte, encStep := k, encHold := h, encBusy := busy } : State).microSteps m b
      is).frameEnded m b = (s.microSteps m b is).frameEnded m b := by
  rw [State.microSteps_withEncoder]
  rfl

/-- What is left of a frame in progress: its micro-steps, then its end. -/
theorem State.finishFrame_of_busy {s : State} (hb : s.encBusy = true) {i : Nat} (hi : s.nextMicroStep = i) :
    s.finishFrame = (s.microSteps s.encMode s.encByte (List.range' i (27 - i))).frameEnded s.encMode s.encByte := by
  rw [State.finishFrame, if_pos hb, hi]

theorem State.finishFrame_startFrame (m : Bool) (b : Byte) (s : State) :
    (s.startFrame m b).finishFrame = s.sendFrame m b := by
  rw [State.finishFrame_of_busy (s := s.startFrame m b) rfl (i := 0) rfl, State.sendFrame, List.range_eq_range']
  exact State.frameEnded_withEncoder m b _ s m b 0 0 true

/-- The rest of a frame from a micro-step on: the micro-step, then the rest. -/
theorem State.finishFrame_stepPin {s : State} (hb : s.encBusy = true) {i : Nat} (hi : s.nextMicroStep = i) (h26 : i ≤ 26)
    {k : BitVec 5} (hk : k.toNat = i) :
    ({ s.stepPin i with encStep := k, encHold := 1 } : State).finishFrame = s.finishFrame := by
  have hrange : List.range' i (27 - i) = i :: List.range' (i + 1) (27 - (i + 1)) := by
    rw [show 27 - i = 27 - (i + 1) + 1 by omega, List.range'_succ]
  have hmode : (s.stepPin i).encMode = s.encMode := State.setPin_encMode ..
  have hbyte : (s.stepPin i).encByte = s.encByte := State.setPin_encByte ..
  have hbusy : (s.stepPin i).encBusy = true := (State.setPin_encBusy ..).trans hb
  have hnext : ({ s.stepPin i with encStep := k, encHold := 1 } : State).nextMicroStep = i + 1 := by
    rw [← hk]
    rfl
  rw [State.finishFrame_of_busy hb hi, hrange, State.microSteps_cons, ← State.stepPin,
    State.finishFrame_of_busy (s := { s.stepPin i with encStep := k, encHold := 1 }) hbusy hnext]
  dsimp only
  rw [hmode, hbyte]
  exact State.frameEnded_withEncoder s.encMode s.encByte _ (s.stepPin i) _ _ k 1 _

/-- The rest of a frame is the same after a clock cycle of it (41_serial_encoder.md R106). -/
theorem State.finishFrame_encoderEdge {s : State} (hstep : s.encStep.toNat ≤ 26)
    (hhold : s.encHold ≤ s.cfg.encStepCycles) : s.encoderEdge.finishFrame = s.finishFrame := by
  have hcycle := s.encoderEdge_cases
  generalize s.encoderEdge = u at hcycle
  cases hcycle with
  | idle => rfl
  | first hb h0 =>
    exact State.finishFrame_stepPin hb (if_pos h0) hstep (congrArg BitVec.toNat (State.setPin_encStep ..))
  | hold hb h0 hl =>
    rw [State.finishFrame_of_busy hb (if_neg h0), State.finishFrame_of_busy (s := { s with encHold := s.encHold + 1 }) hb
      (if_neg (Nat.succ_ne_zero _))]
    exact State.frameEnded_withEncoder s.encMode s.encByte _ s s.encMode s.encByte s.encStep (s.encHold + 1) s.encBusy
  | finish hb h0 hl h26 =>
    have h : s.encStep.toNat + 1 = 27 := by omega
    have hstep' : s.encStep = 26 := BitVec.eq_of_toNat_eq (by simpa using h)
    have hhold' : s.encHold = s.cfg.encStepCycles := Nat.le_antisymm hhold hl
    rw [State.finishFrame_of_busy hb ((if_neg h0).trans h), State.finishFrame, if_neg (by simp)]
    show _ = s.frameEnded s.encMode s.encByte
    rw [State.frameEnded, ← hstep', ← hhold']
  | advance hb h0 h26 =>
    have hnext : (s.encStep + 1).toNat = s.encStep.toNat + 1 := by
      rw [BitVec.toNat_add]
      exact Nat.mod_eq_of_lt (by show s.encStep.toNat + 1 < 32; omega)
    exact State.finishFrame_stepPin hb (if_neg h0) h26 hnext

end Sys2Proof.Machine

namespace Sys2Proof.Machine

/-! ### One task of the work in hand, for another -/

/-- A task that leaves nothing in hand is carried out, then the rest. -/
theorem drain_next {s v : State} {t : Task} (hw : s.work = []) (h : performTask t s = .next v) (hv : v.work = s.work)
    (ts : List Task) : drain { s with work := t :: ts } = drain { v with work := ts } := by
  have hs : ({ s with work := [] } : State) = s := State.withWork_self hw
  have hd : drain { s with work := t :: ts } = andThen (performTask t { s with work := [] }) (resume ts) := drain_cons rfl
  rw [hd, hs, h, andThen_next, resume_of_nil (hv.trans hw)]

/-- The rest of a tick is the same behind two tasks that come to the same. -/
theorem drain_task_congr {s v : State} {t t' : Task} (hs : s.work = []) (hv : v.work = [])
    (h : performTask t s = performTask t' v) (ts : List Task) :
    drain { s with work := t :: ts } = drain { v with work := t' :: ts } := by
  have hd : ∀ {x : State} (p : Task), x.work = [] →
      drain { x with work := p :: ts } = andThen (performTask p x) (resume ts) := fun {x} p hx => by
    have hx' : ({ x with work := [] } : State) = x := State.withWork_self hx
    have hc : drain { x with work := p :: ts } = andThen (performTask p { x with work := [] }) (resume ts) := drain_cons rfl
    rw [hc, hx']
  rw [hd t hs, hd t' hv, h]

/-- A frame that starts is a whole frame when the rest of the tick is carried out at once. -/
theorem drain_startFrame {s : State} (hw : s.work = []) (m : Bool) (b : Byte) (ts : List Task) :
    drain { s.startFrame m b with work := .frame :: ts } = drain { s.sendFrame m b with work := ts } := by
  refine drain_next (s := s.startFrame m b) hw ?_ (by simp [State.startFrame]) ts
  rw [performTask, State.finishFrame_startFrame]

/-! ### The transfer's tasks -/

theorem State.sendFbBytes_succ (a n : Nat) (s : State) :
    s.sendFbBytes a (n + 1) = (s.sendFrame true (Memory.read s.fb a)).sendFbBytes (a + 1) n := by
  rw [State.sendFbBytes, List.range'_succ, List.map_cons, State.sendBytes_cons, State.sendFbBytes, State.sendFrame_fb]

/-- A byte of the chunk in hand, then the rest of the chunk. -/
theorem drain_beginFbByte {s : State} (hw : s.work = []) (a n : Nat) (ts : List Task) :
    drain (beginFbByte a n { s with work := ts }) = drain { s with work := .sendFb a n :: ts } := by
  cases n with
  | zero => exact (drain_next hw rfl rfl ts).symm
  | succ n =>
    calc drain (beginFbByte a (n + 1) { s with work := ts })
        = drain { s.sendFrame true (Memory.read s.fb a) with work := .sendFb (a + 1) n :: ts } :=
          drain_startFrame hw true (Memory.read s.fb a) (.sendFb (a + 1) n :: ts)
      _ = drain { s with work := .sendFb a (n + 1) :: ts } := by
          refine drain_task_congr (by simpa using hw) hw ?_ ts
          rw [performTask, performTask, State.sendFbBytes_succ]

/-- The bytes `finishRows` sends, from column `c` of the row in hand on. -/
def State.sendRest (r c : Nat) (s : State) : State :=
  State.sendRows (s.cfg.columns s.tgt).1 (s.cfg.columns s.tgt).2 (s.row.toNat + 1) r
    (s.sendRow s.row.toNat c (s.cfg.columns s.tgt).2)

theorem State.sendRest_withWire_comm {v s : State} (hc : v.cfg = s.cfg) (hf : v.fb = s.fb) (ht : v.tgt = s.tgt)
    (hr : v.row = s.row) (r c : Nat) : (v.withWire s).sendRest r c = v.withWire (s.sendRest r c) := by
  have hrow : (v.withWire s).sendRow s.row.toNat c (s.cfg.columns s.tgt).2 =
      v.withWire (s.sendRow s.row.toNat c (s.cfg.columns s.tgt).2) := by
    have haddr : (v.withWire s).rowAddr s.row.toNat c = s.rowAddr s.row.toNat c := by
      rw [State.rowAddr, State.rowAddr, ← hc]
      rfl
    rw [State.sendRow, State.sendRow, haddr]
    exact State.sendFbBytes_withWire_comm hc hf _ _
  have hran : s.Ran (s.sendRow s.row.toNat c (s.cfg.columns s.tgt).2) := .sendFbBytes _ _ s
  have hcols : (v.withWire s).cfg.columns (v.withWire s).tgt = s.cfg.columns s.tgt := by
    rw [← hc, ← ht]
    rfl
  rw [State.sendRest, State.sendRest, hcols, show (v.withWire s).row = s.row from hr, hrow]
  exact State.sendRows_withWire_comm (hc.trans hran.cfg.symm) (hf.trans hran.fb.symm) _ _ _ _

theorem State.sendRest_frame (r c : Nat) (s : State) : s.sendRest r c = s.withWire (s.sendRest r c) :=
  State.sendRest_withWire_comm (v := s) (s := s) rfl rfl rfl rfl r c

/-- The rest of the rows, whatever the column counter is when it is given the column to start from. -/
theorem State.finishRows_withCol (r : Nat) (c : BitVec 16) (s : State) :
    ({ s with col := c } : State).finishRows (r + 1) = (s.sendRest r c.toNat).advanceRow (r + 1) := by
  have h : ({ s with col := c } : State).sendRest r c.toNat = { s with col := c }.withWire (s.sendRest r c.toNat) :=
    State.sendRest_withWire_comm (v := { s with col := c }) (s := s) rfl rfl rfl rfl r c.toNat
  have hs := s.sendRest_frame r c.toNat
  show (({ s with col := c } : State).sendRest r c.toNat).advanceRow (r + 1) = _
  rw [h, hs]
  rfl

/-- The byte in column `c` of the row in hand is the first of those from `c` on. -/
theorem State.sendRest_byte {s : State} {c : Nat} (hlt : c < (s.cfg.columns s.tgt).2) (r : Nat) :
    (s.sendFrame true (Memory.read s.fb (s.rowAddr s.row.toNat c))).sendRest r (c + 1) = s.sendRest r c := by
  obtain ⟨k, hk⟩ : ∃ k, (s.cfg.columns s.tgt).2 - c = k + 1 := ⟨_, (Nat.succ_pred (by omega)).symm⟩
  have hk' : (s.cfg.columns s.tgt).2 - (c + 1) = k := by omega
  simp only [State.sendRest, State.sendRow, State.rowAddr, State.sendFrame_cfg, State.sendFrame_tgt, State.sendFrame_row,
    hk, hk', State.sendFbBytes_succ, Nat.add_assoc]

/-- A byte of the window, then the rest of its rows. -/
theorem State.finishRows_byte {s : State} (hcol : (s.col + 1).toNat = s.col.toNat + 1)
    (hlt : s.col.toNat < (s.cfg.columns s.tgt).2) (r : Nat) :
    (s.sendFrame true (Memory.read s.fb (s.rowAddr s.row.toNat s.col.toNat))).passByte.finishRows (r + 1) =
      s.finishRows (r + 1) := by
  have h := State.sendRest_byte hlt r
  generalize Memory.read s.fb (s.rowAddr s.row.toNat s.col.toNat) = b at h
  calc (s.sendFrame true b).passByte.finishRows (r + 1)
      = ((s.sendFrame true b).sendRest r (s.col + 1).toNat).advanceRow (r + 1) := by
        rw [State.passByte, State.sendFrame_col, State.finishRows_withCol]
    _ = s.finishRows (r + 1) := by
        rw [hcol, h]
        rfl

/-- A row whose bytes have all been sent, then the rows after it. -/
theorem State.finishRows_row {s : State} (hg : s.cfg.geometryOk = true) {r : Nat} (hrow : (s.row + 1).toNat = s.row.toNat + 1)
    (hge : (s.cfg.columns s.tgt).2 ≤ s.col.toNat) :
    (({ s with row := s.row + 1 } : State).startRow r).finishRows r = s.finishRows (r + 1) := by
  have hnone : s.sendRow s.row.toNat s.col.toNat (s.cfg.columns s.tgt).2 = s := by
    rw [State.sendRow, Nat.sub_eq_zero_of_le hge]
    rfl
  have hadd : s.row + 1 + BitVec.ofNat 16 r = s.row + BitVec.ofNat 16 (r + 1) := by
    rw [BitVec.add_assoc, Nat.add_comm, BitVec.ofNat_add]
    rfl
  rw [State.finishRows_startRow (s := { s with row := s.row + 1 }) hg, State.finishRows, hnone]
  dsimp only
  rw [State.sendRows_withRow, hrow]
  have hs := State.sendRows_frame (s.cfg.columns s.tgt).1 (s.cfg.columns s.tgt).2 (s.row.toNat + 1) r s
  generalize State.sendRows (s.cfg.columns s.tgt).1 (s.cfg.columns s.tgt).2 (s.row.toNat + 1) r s = v at hs
  rw [hs]
  show ({ s.withWire v with row := s.row + 1 + BitVec.ofNat 16 r, col := 0 } : State) = _
  rw [hadd]
  rfl

/-- A byte of the window or its next row, then the rest of the rows. -/
theorem drain_beginRowByte {s : State} (hg : s.cfg.geometryOk = true) (hw : s.work = []) {r : Nat} {ts : List Task}
    (hrow : s.row.toNat + r ≤ s.cfg.height) :
    drain (beginRowByte r { s with work := ts }) = drain { s with work := .rows r :: ts } := by
  cases r with
  | zero => exact (drain_next (v := s.advanceRow 0) hw rfl rfl ts).symm
  | succ r =>
    by_cases hlt : s.col.toNat < (s.cfg.columns s.tgt).2
    · have hcols := Config.columns_range hg s.tgt
      have hb := Config.rowBytes_range hg
      have hcol : (s.col + 1).toNat = s.col.toNat + 1 := by
        rw [BitVec.toNat_add]
        show (s.col.toNat + 1) % 2 ^ 16 = _
        omega
      have hpass : ∀ v : State, v.work = [] → drain { v with work := .colSent :: .rows (r + 1) :: ts } =
          drain { v.passByte with work := .rows (r + 1) :: ts } := fun v hv =>
        drain_next (v := v.passByte) hv rfl rfl _
      generalize hbyte : Memory.read s.fb (s.rowAddr s.row.toNat s.col.toNat) = b
      have hv : (s.sendFrame true b).work = [] := by simpa using hw
      calc drain (beginRowByte (r + 1) { s with work := ts })
          = drain { s.startFrame true b with work := .frame :: .colSent :: .rows (r + 1) :: ts } := by
            rw [← hbyte, beginRowByte]
            dsimp only
            rw [if_pos hlt]
            rfl
        _ = drain { s.sendFrame true b with work := .colSent :: .rows (r + 1) :: ts } := drain_startFrame hw true b _
        _ = drain { (s.sendFrame true b).passByte with work := .rows (r + 1) :: ts } := hpass _ hv
        _ = drain { s with work := .rows (r + 1) :: ts } := by
            refine drain_task_congr (s := (s.sendFrame true b).passByte) hv hw ?_ ts
            rw [performTask, performTask, ← hbyte, State.finishRows_byte hcol hlt]
    · have hnext : (s.row + 1).toNat = s.row.toNat + 1 := State.advanceRow_toNat (r := 1) hg (by omega)
      calc drain (beginRowByte (r + 1) { s with work := ts })
          = drain { ({ s with row := s.row + 1 } : State).startRow r with work := .rows r :: ts } := by
            rw [beginRowByte]
            dsimp only
            rw [if_neg hlt, State.push, State.startRow_work]
            unfold State.startRow
            split <;> rfl
        _ = drain { s with work := .rows (r + 1) :: ts } := by
            refine drain_task_congr (by simpa using hw) hw ?_ ts
            rw [performTask, performTask, State.finishRows_row hg hnext (by omega)]

/-- The end of a cascade tick, put in hand. -/
theorem drain_beginEndChunk2 {s : State} (hw : s.work = []) :
    drain (beginEndChunk2 s) = drain { s with work := [.endChunk2] } := by
  rw [drain_singleton hw, performTask]
  unfold beginEndChunk2 endChunk2
  split
  · split
    · exact drain_push hw (.goto .updateRefresh) []
    · rw [drain_push_run hw]
      rfl
  · rw [andThen_next, resume_of_nil hw, State.withWork_self hw]

end Sys2Proof.Machine

namespace Sys2Proof.Machine

/-! ### The interpreter's pointer and registers -/

theorem State.seqBytes_of_romByte {s : State} {b : Byte} (h : s.romByte? = some b) :
    s.seqBytes = b :: s.seqTable.drop (s.seqPtr.toNat + 1) := by
  obtain ⟨hlt, rfl⟩ := List.getElem?_eq_some_iff.1 h
  exact List.drop_eq_getElem_cons hlt

theorem State.romByte_of_seqBytes {s : State} {b : Byte} {bytes : List Byte} (h : s.seqBytes = b :: bytes) :
    s.romByte? = some b := by
  have hd : s.seqBytes[0]? = some b := by rw [h]; rfl
  rwa [State.seqBytes, List.getElem?_drop] at hd

/-- The bytes left when the pointer has advanced over bytes of its table. -/
theorem State.seqBytes_advance {s u : State} {bytes after : List Byte} (hb : s.seqBytes = bytes ++ after)
    (hlen : s.seqTable.length ≤ 65535) (hcfg : u.cfg = s.cfg) (hsel : u.seqSel = s.seqSel)
    (hptr : u.seqPtr = s.seqPtr + BitVec.ofNat 16 bytes.length) : u.seqBytes = after := by
  have hl : s.seqTable.length - s.seqPtr.toNat = bytes.length + after.length := by
    rw [← List.length_append, ← hb]
    exact List.length_drop.symm
  have ht : u.seqTable = s.seqTable := by rw [State.seqTable, State.seqTable, hcfg, hsel]
  have hp : s.seqTable.drop u.seqPtr.toNat = s.seqTable.drop (s.seqPtr.toNat + bytes.length) := by
    rw [hptr, BitVec.toNat_add, BitVec.toNat_ofNat]
    by_cases h0 : bytes.length = 0
    · rw [h0, Nat.zero_mod, Nat.add_zero, Nat.mod_eq_of_lt s.seqPtr.isLt]
    · congr 1
      omega
  rw [State.seqBytes, ht, hp, ← List.drop_drop, ← State.seqBytes, hb, List.drop_left]

/-- Frames do not read or write the interpreter's registers. -/
theorem State.sendBytes_withSeq (bytes : List Byte) (p : BitVec 16) (l : BitVec 7) (s : State) :
    ({ s with seqPtr := p, seqLeft := l } : State).sendBytes bytes =
      { s.sendBytes bytes with seqPtr := p, seqLeft := l } := by
  have h := State.sendBytes_withWire_comm (v := { s with seqPtr := p, seqLeft := l }) (s := s) rfl bytes
  have hs := State.sendBytes_frame bytes s
  generalize s.sendBytes bytes = v at h hs
  rw [hs]
  exact h

/-! ### The parts of a step -/

/-- The arguments that stand at the pointer are sent, and passed. -/
theorem sendRestArgs_eq {s : State} {args after : List Byte} (hb : s.seqBytes = args ++ after)
    (hl : args.length = s.seqLeft.toNat) :
    sendRestArgs s = .next (((s.sendBytes args).advanceSeqPtr args.length).setSeqLeft 0) := by
  have h : takeArgs s.seqLeft.toNat s.seqBytes = some (args, after) := takeArgs_some.2 ⟨hl, hb⟩
  rw [sendRestArgs, h]

/-- The arguments behind bytes of a step that have been passed. -/
theorem sendRestArgs_behind {s : State} {head args after : List Byte} {p : BitVec 16} {l : BitVec 7}
    (hb : s.seqBytes = head ++ (args ++ after)) (hlen : s.seqTable.length ≤ 65535)
    (hp : p = s.seqPtr + BitVec.ofNat 16 head.length) (hl : l.toNat = args.length) :
    sendRestArgs { s with seqPtr := p, seqLeft := l } =
      .next (((s.sendBytes args).advanceSeqPtr (head.length + args.length)).setSeqLeft 0) := by
  have hbytes : ({ s with seqPtr := p, seqLeft := l } : State).seqBytes = args ++ after :=
    State.seqBytes_advance hb hlen rfl rfl hp
  have hptr : p + BitVec.ofNat 16 args.length =
      (s.sendBytes args).seqPtr + BitVec.ofNat 16 (head.length + args.length) := by
    rw [hp, State.sendBytes_seqPtr, BitVec.ofNat_add, BitVec.add_assoc]
  rw [sendRestArgs_eq hbytes hl.symm, State.sendBytes_withSeq, State.advanceSeqPtr, State.advanceSeqPtr, ← hptr]
  rfl

/-- The first argument is sent and passed, then the rest. -/
theorem sendRestArgs_passArg {s : State} {b : Byte} {args after : List Byte} (hb : s.seqBytes = b :: (args ++ after))
    (hl : s.seqLeft.toNat = args.length + 1) (hlen : s.seqTable.length ≤ 65535) :
    sendRestArgs (s.sendFrame true b).passArg = sendRestArgs s := by
  have hlt := s.seqLeft.isLt
  have hframe := State.sendFrame_frame true b s
  rw [sendRestArgs_eq (args := b :: args) hb hl.symm, State.sendBytes_cons]
  generalize s.sendFrame true b = v at hframe
  have hleft : (BitVec.ofNat 7 (v.seqLeft.toNat - 1)).toNat = args.length := by
    have hv : v.seqLeft = s.seqLeft := by rw [hframe]; rfl
    rw [hv, BitVec.toNat_ofNat]
    omega
  have hvb : v.seqBytes = [b] ++ (args ++ after) := by rw [hframe]; exact hb
  have hvl : v.seqTable.length ≤ 65535 := by rw [hframe]; exact hlen
  have h := sendRestArgs_behind (p := v.seqPtr + BitVec.ofNat 16 1) hvb hvl rfl hleft
  rw [List.length_cons, Nat.add_comm]
  exact h

theorem sendRestArgs_of_seqLeft_zero {s : State} (hz : s.seqLeft = 0) : sendRestArgs s = .next s := by
  have hptr : s.advanceSeqPtr 0 = s := by
    rw [State.advanceSeqPtr, BitVec.add_zero]
  have hleft : s.setSeqLeft 0 = s := (congrArg (fun l => ({ s with seqLeft := l } : State)) hz).symm
  rw [sendRestArgs_eq (args := []) (after := s.seqBytes) rfl (by rw [hz]; rfl), State.sendBytes_nil, List.length_nil, hptr,
    hleft]

/-- The arguments of a step, or one of them and then the rest. -/
theorem drain_beginArg {s u : State} {ts : List Task} (hw : s.work = []) (hlen : s.seqTable.length ≤ 65535)
    (hp : s.headAfter s.seqLeft.toNat = true) (h : beginArg { s with work := ts } = .next u) :
    drain u = drain { s with work := .seqArgs :: ts } := by
  unfold beginArg at h
  split at h
  · rename_i h0
    have hz : s.seqLeft = 0 := h0
    cases h
    exact (drain_next (t := .seqArgs) hw (sendRestArgs_of_seqLeft_zero hz) rfl ts).symm
  · rename_i h0
    have hz : s.seqLeft.toNat ≠ 0 := fun h => h0 (BitVec.eq_of_toNat_eq h)
    obtain ⟨k, hk⟩ : ∃ k, s.seqLeft.toNat = k + 1 := ⟨_, (Nat.succ_pred hz).symm⟩
    split at h
    · cases h
    · rename_i b hb
      cases h
      have hcons : s.seqBytes = b :: s.seqTable.drop (s.seqPtr.toNat + 1) := State.seqBytes_of_romByte hb
      have hlong := State.headAfter_lt hp
      generalize s.seqTable.drop (s.seqPtr.toNat + 1) = tail at hcons
      have htail : k ≤ tail.length := by
        rw [hcons, List.length_cons] at hlong
        omega
      rw [← List.take_append_drop k tail] at hcons
      have hv : (s.sendFrame true b).work = [] := by simpa using hw
      have hpass : ∀ v : State, v.work = [] →
          drain { v with work := .argSent :: .seqArgs :: ts } = drain { v.passArg with work := .seqArgs :: ts } :=
        fun v hv => drain_next (v := v.passArg) hv rfl rfl _
      calc drain { s.startFrame true b with work := .frame :: .argSent :: .seqArgs :: ts }
          = drain { s.sendFrame true b with work := .argSent :: .seqArgs :: ts } := drain_startFrame hw true b _
        _ = drain { (s.sendFrame true b).passArg with work := .seqArgs :: ts } := hpass _ hv
        _ = drain { s with work := .seqArgs :: ts } :=
          drain_task_congr (t := .seqArgs) (t' := .seqArgs) (s := (s.sendFrame true b).passArg) hv hw
            (sendRestArgs_passArg hcons (by rw [hk, List.length_take_of_le htail]) hlen) ts

/-- The delay byte `d` is read and its wait begins. -/
def State.holdBegun (d : Byte) (s : State) : State :=
  { s with waitD := d, seqPtr := s.seqPtr + BitVec.ofNat 16 1, trace := s.trace ++ [.wait d], waitT0 := s.now }

/-- A delay byte when no draw of time is left. -/
theorem readDelay_of_no_lapses {s : State} {d : Byte} (hl : s.lapses = []) (hd : s.romByte? = some d) :
    readDelay s = .next (if d = 0 then
      { s with waitD := d, seqPtr := s.seqPtr + BitVec.ofNat 16 1, trace := s.trace ++ [.wait d] }
    else (s.holdBegun d).hold d) := by
  rw [readDelay, hd]
  show Host.Outcome.next ((s.delayStep d).advanceSeqPtr 1) = _
  rw [State.delayStep, State.waitMs_frame]
  by_cases h0 : d = 0
  · simp only [if_pos h0]
    rfl
  · simp only [if_neg h0, State.lapse, hl, List.headD_nil, List.tail_nil, BitVec.add_zero]
    rw [← hl]
    rfl

/-- A wait that has just begun ends its `d + 1` counts later. -/
theorem State.finishHold_holdBegun (d : Byte) (s : State) : (s.holdBegun d).finishHold = (s.holdBegun d).hold d := by
  have hn : (s.holdBegun d).holdOver = false := by simp [State.holdOver, State.holdBegun]
  rw [State.finishHold, if_neg (by simp [hn])]
  rfl

/-- The delay byte read and its wait begun, then the wait. -/
theorem drain_beginDelay {s u : State} {ts : List Task} (hw : s.work = []) (hl : s.lapses = [])
    (h : beginDelay { s with work := ts } = .next u) : drain u = drain { s with work := .seqDelay :: ts } := by
  obtain ⟨d, hd⟩ := beginDelay_next h
  have hread := readDelay_of_no_lapses hl (show s.romByte? = some d from hd)
  rw [beginDelay_eq hd] at h
  cases h
  by_cases h0 : d = 0
  · simp only [if_pos h0] at hread ⊢
    exact (drain_next (t := .seqDelay) hw hread rfl ts).symm
  · simp only [if_neg h0] at hread ⊢
    have hhold : performTask .seqHold (s.holdBegun d) = .next ((s.holdBegun d).hold d) :=
      congrArg Host.Outcome.next (State.finishHold_holdBegun d s)
    rw [drain_next (t := .seqDelay) hw hread rfl ts, ← drain_next (s := s.holdBegun d) hw hhold rfl ts]
    rfl

end Sys2Proof.Machine

namespace Sys2Proof.Machine

/-! ### The rest of a run, step by step -/

/-- More fuel does not change a run that ends. -/
theorem runSteps_succ {n : Nat} {s u : State} (h : runSteps n s = .next u) : runSteps (n + 1) s = .next u := by
  induction n generalizing s with
  | zero => cases h
  | succ n ih =>
    unfold runSteps at h ⊢
    split at h
    · cases h
    · split at h
      · exact h
      · cases h
      · obtain ⟨v, hv, h⟩ := andThen_eq_next.1 h
        exact andThen_eq_next.2 ⟨v, hv, ih h⟩
      · obtain ⟨v, hv, h⟩ := andThen_eq_next.1 h
        exact andThen_eq_next.2 ⟨v, hv, ih h⟩

/-- A run with no draw of time left. -/
theorem runRest_of_no_lapses {s : State} (hl : s.lapses = []) : runRest s = runSteps (s.seqTable.length + 1) s := by
  have hb : s.boundDraws (tableOps s.seqBytes) = s := by
    rw [State.boundDraws, hl, capDraws, ← hl]
  rw [runRest, hb]

/-- `v` is `s` after the step at its pointer. -/
def State.Stepped (s v : State) (op : SeqOp) : Prop :=
  (∀ n, runSteps (n + 1) s = runSteps n v) ∧ v.cfg = s.cfg ∧ v.seqSel = s.seqSel ∧ v.lapses = [] ∧
    v.seqPtr = s.seqPtr + BitVec.ofNat 16 (opLen op)

/-- The rest of a run is what comes after its first step. -/
theorem runRest_stepped {s v : State} {op : SeqOp} {rest : List Byte} (hp : s.headAfter 0 = true)
    (hlen : s.seqTable.length ≤ 65535) (hl : s.lapses = []) (hd : decodeSeq s.seqBytes = .ok (op, rest))
    (hop : op ≠ .finish) (hv : s.Stepped v op) : runRest v = runRest s := by
  obtain ⟨hrun, hcfg, hsel, hlv, hptr⟩ := hv
  obtain ⟨hb, -, ht⟩ := State.seqBytes_after hd hlen hcfg hsel hptr
  have hshort : rest.length < s.seqTable.length := by
    have h2 := two_le_opLen op
    have hbytes := congrArg List.length (decodeSeq_ok hd).1
    rw [List.length_append, SeqOp.length_bytes] at hbytes
    have hdrop : s.seqBytes.length = s.seqTable.length - s.seqPtr.toNat := List.length_drop
    omega
  have hwf : wfWalk s.seqTable.length v.seqBytes = true := by
    rw [hb]
    exact wfWalk_of_length_lt ((wfTable_after hp hd).resolve_left hop) hshort
  obtain ⟨u, hu, -⟩ := runSteps_complete hwf (ht.symm ▸ hlen)
  rw [runRest_of_no_lapses hlv, runRest_of_no_lapses hl, ht, hrun, hu, runSteps_succ hu]

/-! ### A step, task by task -/

/-- A step with no draw of time left leaves none. -/
theorem execSeqStep_stepped {cmd : Byte} {args rest : List Byte} {s v : State} (hl : s.lapses = [])
    (hd : decodeSeq s.seqBytes = .ok (.step cmd args, rest)) (h : execSeqStep cmd args s = .next v) :
    s.Stepped v (.step cmd args) := by
  refine ⟨fun n => ?_, ?_⟩
  · rw [runSteps, hd]
    exact (congrArg (andThen · (runSteps n)) h).trans (andThen_next ..)
  · cases h
    simp [hl, opLen]

theorem execSeqStepDelay_stepped {cmd dly : Byte} {args rest : List Byte} {s v : State} (hl : s.lapses = [])
    (hd : decodeSeq s.seqBytes = .ok (.stepDelay cmd dly args, rest)) (h : execSeqStepDelay cmd dly args s = .next v) :
    s.Stepped v (.stepDelay cmd dly args) := by
  refine ⟨fun n => ?_, ?_⟩
  · rw [runSteps, hd]
    exact (congrArg (andThen · (runSteps n)) h).trans (andThen_next ..)
  · cases h
    simp [hl, opLen, State.delayStep, State.waitMs_frame]

theorem toNat_ofNat_length {args : List Byte} (h : args.length ≤ 127) :
    (BitVec.ofNat 7 args.length).toNat = args.length := by
  rw [BitVec.toNat_ofNat]
  omega

/-- Behind the command frame of a step: its counts, then its arguments (42_sequence_interpreter.md R118, R122). -/
theorem sendRestArgs_takeCounts {s : State} {cmd : Byte} {args after : List Byte}
    (hb : s.seqBytes = stepBytes cmd args ++ after) (hlen : s.seqTable.length ≤ 65535) (hargs : args.length ≤ 127) :
    sendRestArgs ((s.sendFrame false cmd).takeCounts (BitVec.ofNat 7 args.length)) = execSeqStep cmd args s := by
  have hframe := State.sendFrame_frame false cmd s
  rw [execSeqStep]
  generalize s.sendFrame false cmd = v at hframe
  have hvb : v.seqBytes = [cmd, countByte false args.length] ++ (args ++ after) := by rw [hframe]; exact hb
  have hvl : v.seqTable.length ≤ 65535 := by rw [hframe]; exact hlen
  have hn : (BitVec.ofNat 7 (BitVec.ofNat 7 args.length).toNat).toNat = args.length := by
    rw [toNat_ofNat_length hargs, toNat_ofNat_length hargs]
  have h := sendRestArgs_behind (p := v.seqPtr + BitVec.ofNat 16 2) hvb hvl rfl hn
  exact h

/-- A wait does not read or write the interpreter's pointer and counts. -/
theorem State.delayStep_withSeq (d : Byte) (p : BitVec 16) (l : BitVec 7) (s : State) :
    ({ s with seqPtr := p, seqLeft := l } : State).delayStep d = { s.delayStep d with seqPtr := p, seqLeft := l } := by
  rw [State.delayStep, State.waitMs_frame, State.delayStep, State.waitMs_frame]
  rfl

theorem State.delayStep_seq (d : Byte) (s : State) :
    (s.delayStep d).seqBytes = s.seqBytes ∧ (s.delayStep d).seqTable = s.seqTable ∧ (s.delayStep d).seqPtr = s.seqPtr := by
  rw [State.delayStep, State.waitMs_frame]
  exact ⟨rfl, rfl, rfl⟩

/-- Behind the command frame of a step with delay: its counts, its wait, then its arguments (42_sequence_interpreter.md
R119, R122). -/
theorem readDelay_takeCounts {s : State} {cmd dly : Byte} {args after : List Byte}
    (hb : s.seqBytes = stepDelayBytes cmd dly args ++ after) (hlen : s.seqTable.length ≤ 65535)
    (hargs : args.length ≤ 127) :
    andThen (readDelay ((s.sendFrame false cmd).takeCounts (BitVec.ofNat 7 args.length))) sendRestArgs =
      execSeqStepDelay cmd dly args s := by
  have hframe := State.sendFrame_frame false cmd s
  rw [execSeqStepDelay]
  generalize s.sendFrame false cmd = v at hframe
  have hvb : v.seqBytes = [cmd, countByte true args.length] ++ (dly :: (args ++ after)) := by rw [hframe]; exact hb
  have hvl : v.seqTable.length ≤ 65535 := by rw [hframe]; exact hlen
  have hn : (BitVec.ofNat 7 (BitVec.ofNat 7 args.length).toNat).toNat = args.length := by
    rw [toNat_ofNat_length hargs, toNat_ofNat_length hargs]
  have hrom : (v.takeCounts (BitVec.ofNat 7 args.length)).romByte? = some dly :=
    State.romByte_of_seqBytes (State.seqBytes_advance hvb hvl rfl rfl rfl)
  have hread : readDelay (v.takeCounts (BitVec.ofNat 7 args.length)) = .next { v.delayStep dly with
      seqPtr := v.seqPtr + BitVec.ofNat 16 2 + BitVec.ofNat 16 1
      seqLeft := BitVec.ofNat 7 (BitVec.ofNat 7 args.length).toNat } := by
    rw [readDelay, hrom]
    exact congrArg (fun u => Host.Outcome.next (State.advanceSeqPtr 1 u)) (State.delayStep_withSeq dly _ _ v)
  obtain ⟨hdb, hdt, hdp⟩ := State.delayStep_seq dly v
  rw [hread, andThen_next]
  generalize v.delayStep dly = w at hdb hdt hdp
  have hwb : w.seqBytes = [cmd, countByte true args.length, dly] ++ (args ++ after) := hdb.trans hvb
  have hptr : v.seqPtr + BitVec.ofNat 16 2 + BitVec.ofNat 16 1 = w.seqPtr + BitVec.ofNat 16 3 := by
    rw [hdp, BitVec.add_assoc]
    rfl
  have h := sendRestArgs_behind hwb (hdt ▸ hvl) hptr hn
  exact h

/-- A step of a table that is run at once, or its command frame and then the tasks behind it. -/
theorem drain_beginStep {s u : State} {ts : List Task} (hw : s.work = []) (hl : s.lapses = [])
    (hlen : s.seqTable.length ≤ 65535) (hp : s.headAfter 0 = true) (h : beginStep { s with work := ts } = .next u) :
    drain u = drain { s with work := .seqHead :: ts } := by
  have hafter : ∀ {v : State} {op : SeqOp} {rest : List Byte}, decodeSeq s.seqBytes = .ok (op, rest) → op ≠ .finish →
      s.Ran v → s.Stepped v op → drain { v with work := .seqHead :: ts } = drain { s with work := .seqHead :: ts } :=
    fun hd hop hran hv =>
      drain_task_congr (t := .seqHead) (t' := .seqHead) (hran.work.trans hw) hw (runRest_stepped hp hlen hl hd hop hv) ts
  have hcounts : ∀ (v : State) (n : BitVec 7) (ps : List Task), v.work = [] →
      drain { v with work := .seqTake n :: ps } = drain { v.takeCounts n with work := ps } :=
    fun v n ps hv => drain_next (v := v.takeCounts n) hv rfl rfl ps
  unfold beginStep at h
  split at h
  · cases h
  · rename_i op rest hd
    change decodeSeq s.seqBytes = .ok (op, rest) at hd
    have hb := (decodeSeq_ok hd).1
    split at h
    · cases h
      have hrun : performTask .seqHead s = .next s := by
        rw [performTask, runRest_of_no_lapses hl, runSteps, hd]
        rfl
      exact (drain_next (t := .seqHead) hw hrun rfl ts).symm
    · cases h
    · rename_i cmd args
      cases h
      have hargs := args_length_le_of_decodeSeq (dly := 0) (.inl hd)
      obtain ⟨v, hv, -⟩ := execSeqStep_next cmd args s
      have hx : (s.sendFrame false cmd).work = [] := by simpa using hw
      have hrest := (sendRestArgs_takeCounts hb hlen hargs).trans hv
      calc drain { s.startFrame false cmd with
              work := .frame :: .seqTake (BitVec.ofNat 7 args.length) :: .seqArgs :: .seqHead :: ts }
          = drain { s.sendFrame false cmd with
              work := .seqTake (BitVec.ofNat 7 args.length) :: .seqArgs :: .seqHead :: ts } := drain_startFrame hw ..
        _ = drain { (s.sendFrame false cmd).takeCounts (BitVec.ofNat 7 args.length) with
              work := .seqArgs :: .seqHead :: ts } := hcounts _ _ _ hx
        _ = drain { v with work := .seqHead :: ts } :=
            drain_next (t := .seqArgs) (s := (s.sendFrame false cmd).takeCounts (BitVec.ofNat 7 args.length)) hx hrest
              ((sendRestArgs_ran hrest).work) _
        _ = drain { s with work := .seqHead :: ts } :=
            hafter hd (by simp) (execSeqStep_ran hv) (execSeqStep_stepped hl hd hv)
    · rename_i cmd dly args
      cases h
      have hargs := args_length_le_of_decodeSeq (.inr hd)
      obtain ⟨v, hv, -⟩ := execSeqStepDelay_next cmd dly args s
      have hx : (s.sendFrame false cmd).work = [] := by simpa using hw
      obtain ⟨w, hdelay, hrest⟩ := andThen_eq_next.1 ((readDelay_takeCounts hb hlen hargs).trans hv)
      have hwait := (readDelay_ran hdelay).work
      calc drain { s.startFrame false cmd with
              work := .frame :: .seqTake (BitVec.ofNat 7 args.length) :: .seqDelay :: .seqArgs :: .seqHead :: ts }
          = drain { s.sendFrame false cmd with
              work := .seqTake (BitVec.ofNat 7 args.length) :: .seqDelay :: .seqArgs :: .seqHead :: ts } :=
            drain_startFrame hw ..
        _ = drain { (s.sendFrame false cmd).takeCounts (BitVec.ofNat 7 args.length) with
              work := .seqDelay :: .seqArgs :: .seqHead :: ts } := hcounts _ _ _ hx
        _ = drain { w with work := .seqArgs :: .seqHead :: ts } :=
            drain_next (t := .seqDelay) (s := (s.sendFrame false cmd).takeCounts (BitVec.ofNat 7 args.length)) hx hdelay
              hwait _
        _ = drain { v with work := .seqHead :: ts } :=
            drain_next (t := .seqArgs) (hwait.trans hx) hrest (sendRestArgs_ran hrest).work _
        _ = drain { s with work := .seqHead :: ts } :=
            hafter hd (by simp) (execSeqStepDelay_ran hv) (execSeqStepDelay_stepped hl hd hv)

end Sys2Proof.Machine

namespace Sys2Proof.Machine

/-! ### A control action does not change what the tick comes to -/

/-- Such a task leaves nothing in hand, an open drawing window apart. -/
theorem performTask_instant_work {t : Task} {s v : State} (ht : t.instant = true) (hwin : t = .window → s.drawReq = false)
    (h : performTask t s = .next v) : v.work = s.work := by
  cases t with
  | seqTake | argSent | colSent | switchTarget | sleepDone =>
    cases h
    rfl
  | goto d =>
    cases h
    rfl
  | endChunk1 n =>
    cases h
    split <;> rfl
  | window =>
    rw [performTask, if_neg (by simp [hwin rfl])] at h
    cases h
    rfl
  | action | run | seqHead | seqDelay | seqHold | seqArgs | frame | sendFb | rows | endChunk2 => cases ht

/-- A control action that carries a whole task out. -/
theorem drain_instant {s u : State} {t : Task} {ts : List Task} (ht : t.instant = true) (hw : s.work = [])
    (h : taskAction t { s with work := ts } = .next u) : drain u = drain { s with work := t :: ts } := by
  by_cases hopen : t = .window ∧ s.drawReq = true
  · obtain ⟨rfl, hd⟩ := hopen
    rw [taskAction, if_pos hd] at h
    cases h
    rfl
  · rw [taskAction_instant ht] at h
    obtain ⟨v, hv, h⟩ := andThen_eq_next.1 h
    have hs : ({ s with work := [] } : State) = s := State.withWork_self hw
    rw [hs] at hv
    have hvw := performTask_instant_work ht (fun h => by simpa [h] using hopen) hv
    rw [hvw, hw] at h
    cases h
    exact (drain_next hw hv hvw ts).symm

theorem drain_taskAction {s u : State} {t : Task} {ts : List Task} (hw : s.work = []) (hg : s.cfg.geometryOk = true)
    (hl : s.lapses = []) (hlen : s.seqTable.length ≤ 65535) (hp : s.Placed (t :: ts))
    (hend : taskEnds t = true → ts = []) (h : taskAction t { s with work := ts } = .next u) :
    drain u = drain { s with work := t :: ts } := by
  cases ht : t.instant with
  | true => exact drain_instant ht hw h
  | false =>
    cases t with
    | seqTake | argSent | endChunk1 | colSent | switchTarget | window | sleepDone | goto => cases ht
    | action =>
      obtain rfl := hend rfl
      have hs : ({ s with work := [] } : State) = s := State.withWork_self hw
      rw [hs] at h
      have hb := drain_action hg hw
      rw [show beginAction s = .next u from h, andThen_next] at hb
      rw [hb, drain_singleton hw, performTask]
    | run sel =>
      cases h
      exact drain_task_congr (s := s.selectTable sel) (t := .seqHead) (t' := .run sel) hw hw rfl ts
    | seqHead =>
      cases hp with
      | seqHead ha hp => exact drain_beginStep hw hl hlen hp h
    | seqDelay => exact drain_beginDelay hw hl h
    | seqHold =>
      cases h
      split
      · rename_i hover
        have hdone : performTask .seqHold s = .next s := congrArg Host.Outcome.next (if_pos hover)
        exact (drain_next hw hdone rfl ts).symm
      · rfl
    | seqArgs =>
      cases hp with
      | seqArgs ha hp => exact drain_beginArg hw hlen hp h
    | frame =>
      cases h
      split
      · rfl
      · rename_i hb
        have hdone : performTask .frame s = .next s := congrArg Host.Outcome.next (if_neg hb)
        exact (drain_next hw hdone rfl ts).symm
    | sendFb a n =>
      cases h
      exact drain_beginFbByte hw a n ts
    | rows r =>
      cases h
      cases hp with
      | rows h2 hr hc => exact drain_beginRowByte hg hw hr
    | endChunk2 =>
      obtain rfl := hend rfl
      cases h
      have hs : ({ s with work := [] } : State) = s := State.withWork_self hw
      rw [hs]
      exact drain_beginEndChunk2 hw

/-- A control action does not change what the rest of the tick comes to (10_state.md R36). -/
theorem drain_controlAction {s u : State} (hs : s.Stands True) (hl : s.lapses = []) (h : controlAction s = .next u) :
    drain u = drain s := by
  unfold controlAction at h
  split at h
  · cases h
    rfl
  · rename_i t ts hw
    obtain ⟨hplace, hrange⟩ := (State.placesOk_iff s).1 (hs.2.2 trivial)
    rw [hw] at hplace
    have hend := (State.controlOk_cons hw hs.2.1).2.2.1
    have hself : ({ s with work := t :: ts } : State) = s := State.withWork_self hw
    have hd := drain_taskAction (s := { s with work := [] }) rfl hs.geometryOk hl hrange.2.2.2.2 (hplace.withWork [])
      hend h
    exact hd.trans (congrArg drain hself)

end Sys2Proof.Machine

namespace Sys2Proof.Machine

/-! ### A clock edge takes no draw of time -/

theorem State.goto_lapses_nil {s : State} (hl : s.lapses = []) (d : DState) : (s.goto d).lapses = [] := by
  show s.lapses.tail = []
  rw [hl, List.tail_nil]

theorem beginAction_lapses_nil {s u : State} (hl : s.lapses = []) (h : beginAction s = .next u) : u.lapses = [] := by
  cases beginAction_cases h with
  | quiet hs hu =>
    obtain ⟨-, h | h⟩ := hu
    · rw [h, hl]
    · rw [h, hl, List.tail_nil]
  | @leave full m req =>
    exact State.goto_lapses_nil (s := { s with isFull := full, fb := m, drawReq := req }) hl .updateWaitBusy
  | openWindow | run | prepare | asleep | chunk1 => exact hl
  | chunk2 =>
    unfold State.startRow
    split <;> exact hl

theorem taskAction_lapses_nil {t : Task} {s u : State} (hl : s.lapses = []) (h : taskAction t s = .next u) :
    u.lapses = [] := by
  cases t with
  | action => exact beginAction_lapses_nil hl h
  | seqDelay =>
    obtain ⟨d, hd⟩ := beginDelay_next h
    cases (beginDelay_eq hd).symm.trans h
    exact hl
  | run | seqTake | argSent | colSent | switchTarget | sleepDone =>
    cases h
    exact hl
  | goto d =>
    cases h
    exact State.goto_lapses_nil hl d
  | seqHold | frame | window =>
    cases h
    split <;> exact hl
  | seqHead =>
    change beginStep s = _ at h
    unfold beginStep at h
    repeat' split at h
    all_goals cases h
    all_goals exact hl
  | seqArgs =>
    change beginArg s = _ at h
    unfold beginArg at h
    repeat' split at h
    all_goals cases h
    all_goals exact hl
  | sendFb a n =>
    cases h
    cases n <;> exact hl
  | endChunk1 n =>
    cases h
    split
    · exact State.goto_lapses_nil (s := s.advanceIdx n) hl _
    · exact hl
  | rows r =>
    cases h
    cases r with
    | zero => exact hl
    | succ r =>
      unfold beginRowByte State.startRow
      dsimp only
      repeat' split
      all_goals exact hl
  | endChunk2 =>
    cases h
    unfold beginEndChunk2
    repeat' split
    all_goals exact hl

theorem controlAction_lapses_nil {s u : State} (hl : s.lapses = []) (h : controlAction s = .next u) : u.lapses = [] := by
  unfold controlAction at h
  split at h
  · cases h
    exact hl
  · rename_i t ts hw
    exact taskAction_lapses_nil (s := { s with work := ts }) hl h

/-! ### A clock edge does not change what the tick comes to -/

/-- `u` stands with no draw of time left, and what is left of its tick comes to what is left in `s`. -/
def State.SameTick (s u : State) : Prop := u.Stands True ∧ u.lapses = [] ∧ drain u = drain s

theorem State.SameTick.after_controlAction {s v u : State} (h : s.SameTick v) (hu : controlAction v = .next u) :
    s.SameTick u := by
  obtain ⟨hv, hl, hd⟩ := h
  exact ⟨hv.after_controlAction hu, controlAction_lapses_nil hl hu, (drain_controlAction hv hl hu).trans hd⟩

theorem State.SameTick.after_endHold {s v : State} (h : s.SameTick v) : s.SameTick v.endHold := by
  obtain he | he := v.endHold_cases
  · rwa [he]
  · exact h.after_controlAction he

/-- A cycle of the encoder goes on with the frame in front of the work. -/
theorem drain_encoderEdge {s : State} (hs : s.Stands True) (hb : s.encBusy = true) :
    drain s.encoderEdge = drain s := by
  obtain ⟨-, hc, hp⟩ := hs
  obtain ⟨-, hrange⟩ := (State.placesOk_iff s).1 (hp trivial)
  obtain ⟨-, -, hstep, hhold, -⟩ := hrange
  have hframe := ((State.controlOk_iff s).1 hc).2.2.2 hb
  obtain ⟨ts, hw⟩ : ∃ ts, s.work = .frame :: ts := List.head?_eq_some_iff.1 hframe
  have hwork : s.encoderEdge.work = .frame :: ts := by
    rw [s.encoderEdge_cases.frame.1]
    exact hw
  have hcomm : ({ s.encoderEdge with work := [] } : State) = ({ s with work := [] } : State).encoderEdge := by
    have h := State.encoderEdge_withWire_comm (v := { s with work := [] }) (s := s) rfl
    have hf := s.encoderEdge_cases.frame.1
    generalize s.encoderEdge = v at h hf
    rw [hf]
    exact h.symm
  rw [drain_cons hwork, drain_cons hw, hcomm, performTask, performTask,
    State.finishFrame_encoderEdge (s := { s with work := [] }) hstep hhold]

/-- The control's part of a clock edge does not change what the rest of the tick comes to. -/
theorem drain_clockControl {n : Nat} {s u : State} (hs : s.Stands True) (hl : s.lapses = [])
    (h : clockControl n s = .next u) : drain u = drain s := by
  unfold clockControl controlEdge at h
  split at h
  · rename_i hb
    cases h
    exact drain_encoderEdge hs hb
  · split at h
    · rename_i hw
      cases h
      rw [drain_nil hw, drain_nil (s := s.setReady true) hw]
      rfl
    · have hk : s.SameTick s.endHold := State.SameTick.after_endHold ⟨hs, hl, rfl⟩
      exact (controlActions_keeps (P := s.SameTick) (fun hk hv => hk.after_controlAction hv) hk h).2.2

/-- An edge whose strobes are none, or the tick alone, starts no other operation. -/
theorem State.strobeOps_of_tick {p : Ports} (h : p.hiv = 0 ∨ p.hiv = 1) (s : State) : s.strobeOps p = [] := by
  have hmask : p.hiv &&& s.gate &&& 0b11110 = 0 := by
    rw [BitVec.and_assoc, BitVec.and_comm s.gate, ← BitVec.and_assoc]
    obtain h | h := h <;> rw [h] <;> exact BitVec.zero_and
  rw [State.strobeOps, hmask]
  rfl

/-! The levels an edge records are those of the pins, whatever else the edge does to the state. -/

theorem State.recordLevels_eq (s : State) : s.recordLevels = s.withWave (s.wave ++ [s.levels]) := rfl

theorem State.acceptTick_recordLevels (s : State) :
    s.acceptTick.recordLevels = (s.withWave (s.wave ++ [s.levels])).acceptTick := rfl

theorem State.recordLevels_levels (s : State) : s.recordLevels.levels = s.levels := rfl

theorem State.acceptTick_levels (s : State) : s.acceptTick.levels = s.levels := rfl

theorem State.sample_levels (p : Ports) (d : Draws) (s : State) : (s.sample p d).levels = s.levels := rfl

/-- The control's part of a clock edge leaves the record of the pins. -/
theorem clockControl_wave {n : Nat} {s u : State} (h : clockControl n s = .next u) : u.wave = s.wave := by
  have hw := clockControl_withWave n s.wave s
  rw [h, show s.withWave s.wave = s from rfl, h] at hw
  injection hw with hw
  rw [hw]
  rfl

/-- The control's part of a clock edge, with a level of the pins recorded before it or after. -/
theorem drain_clockControl_withWave {n : Nat} {s u : State} (hs : s.Stands True) (hl : s.lapses = [])
    (h : clockControl n s = .next u) (w : List PinLevels) : drain (u.withWave w) = drain (s.withWave w) := by
  have hw : clockControl n (s.withWave w) = .next (u.withWave w) := by
    rw [clockControl_withWave, h]
    rfl
  exact drain_clockControl (State.Stands.of_same hs ⟨rfl, rfl, rfl, rfl, rfl, rfl⟩
    ⟨rfl, rfl, rfl, rfl, rfl, rfl, rfl, rfl, rfl, rfl, rfl⟩) hl hw

/-- Settles O59: each control action and each cycle of the encoder leaves what the rest of the tick comes to, and the tick
that an edge accepts is its state action. -/
theorem controlActionRefines : Obligations.ControlActionRefines := by
  intro s t p n hv hc hp h
  have hs : (s.sample p { lapses := [], window := none }).Stands True :=
    State.Stands.after_sample ⟨hv, hc, fun _ => hp⟩ p _
  rw [clockEdge_eq] at h
  obtain ⟨v, hv, h⟩ := andThen_eq_next.1 h
  obtain ⟨u, hu, hv⟩ := andThen_eq_next.1 hv
  have hquiet : p.hiv = 0 ∨ p.hiv = 1 → v = u := fun hiv => by
    rw [State.strobeOps_of_tick hiv] at hv
    cases hv
    rfl
  have hwave : u.wave = (s.sample p { lapses := [], window := none }).wave := clockControl_wave hu
  refine ⟨fun hiv => ?_, fun hiv hr => ?_⟩
  · obtain rfl := hquiet (.inl hiv)
    rw [hiv, if_neg (by simp)] at h
    cases h
    rw [State.recordLevels_levels, State.recordLevels_eq, hwave]
    exact drain_clockControl_withWave hs rfl hu (s.wave ++ [v.levels])
  · obtain rfl := hquiet (.inr hiv)
    obtain rfl := clockControl_ready hs.2.1 hr hu
    rw [hiv, if_pos (by simp [hr])] at h
    cases h
    have hnil : s.work = [] := (((State.controlOk_iff s).1 hc).2.1 hr).1
    rw [State.recordLevels_levels, State.acceptTick_levels, State.acceptTick_recordLevels, State.sample_levels]
    exact (execHostTick_eq_drain (s := (s.sample p { lapses := [], window := none }).withWave (s.wave ++ [s.levels]))
      hr hnil).symm

end Sys2Proof.Machine

namespace Sys2Proof

/-! ### The address generator is injective -/

theorem Config.rotate_inj {c : Config} {x y x' y' : Int} {p : Int × Int} (h : c.rotate x y = some p)
    (h' : c.rotate x' y' = some p) : x = x' ∧ y = y' := by
  obtain ⟨u, v⟩ := p
  unfold Config.rotate at h h'
  split_ifs at h h' <;> simp only [Option.some.injEq, Prod.mk.injEq] at h h' <;> omega

/-- A native pixel tells what the rotation gave: the mirror is its own inverse (40_framebuffer.md R94 to R96). -/
theorem Config.rotate_of_nativePixel {c : Config} {x y : Int} {u v : Nat} (h : c.nativePixel x y = some (u, v)) :
    c.rotate x y = some (if c.mirrorX then (c.width : Int) - 1 - u else u, (v : Int)) := by
  unfold Config.nativePixel at h
  split at h
  · cases h
  · rename_i u' v' hr
    split at h
    · cases h
    · simp only [Option.some.injEq, Prod.mk.injEq] at h
      rw [hr, Option.some.injEq, Prod.mk.injEq]
      split_ifs at h ⊢ <;> omega

/-- A byte address and a bit are those of one native pixel, the `v * W + u`-th of the panel (40_framebuffer.md R98). -/
theorem Config.nativePixel_of_pixelAddr {c : Config} {x y : Int} {a k : Nat} (h : c.pixelAddr x y = some (a, k)) :
    ∃ u v, c.nativePixel x y = some (u, v) ∧ (v * c.width + u) / 8 = a ∧ 7 - u % 8 = k := by
  unfold Config.pixelAddr at h
  split at h
  · cases h
  · rename_i u v hn
    exact ⟨u, v, hn, by simpa using h⟩

/-- Two logical pixels with one byte address and bit are one (40_framebuffer.md R101): address and bit give `v * W + u`,
since `W` is a multiple of 8, and that gives `u` and `v`, since `u < W`. -/
theorem Config.pixelAddr_inj {c : Config} (hg : c.geometryOk = true) {x y x' y' : Int} {q : Nat × Nat}
    (h : c.pixelAddr x y = some q) (h' : c.pixelAddr x' y' = some q) : x = x' ∧ y = y' := by
  obtain ⟨u, v, hn, ha, hk⟩ := Config.nativePixel_of_pixelAddr h
  obtain ⟨u', v', hn', ha', hk'⟩ := Config.nativePixel_of_pixelAddr h'
  obtain ⟨hu, -⟩ := Config.nativePixel_range hn
  obtain ⟨hu', -⟩ := Config.nativePixel_range hn'
  have hindex : v * c.width + u = v' * c.width + u' := by
    have h8 : v * c.width % 8 = 0 ∧ v' * c.width % 8 = 0 := by simp [Config.width_eq hg, Nat.mul_left_comm _ 8]
    omega
  have hv : v = v' := by
    have hdiv := congrArg (· / c.width) hindex
    simpa [Nat.mul_comm _ c.width, Nat.mul_add_div (Nat.zero_lt_of_lt hu), Nat.div_eq_of_lt, hu, hu'] using hdiv
  obtain rfl := hv
  obtain rfl : u = u' := Nat.add_left_cancel hindex
  exact Config.rotate_inj (Config.rotate_of_nativePixel hn) (Config.rotate_of_nativePixel hn')

end Sys2Proof

namespace Sys2Proof.Machine

/-! ### What a pixel reads as -/

theorem State.pixelAt_of_addr {s : State} {x y : Int} {a k : Nat} (h : s.cfg.pixelAddr x y = some (a, k)) :
    s.pixelAt x y = some ((Memory.read s.fb a).getLsbD k) := by
  rw [State.pixelAt, h]

/-- After FILL every pixel reads as the colour filled (40_framebuffer.md R92, R104). -/
theorem State.pixelAt_fill {s : State} (hg : s.cfg.geometryOk = true) {x y : Int} (hp : s.cfg.pixelAddr x y ≠ none)
    (black : Bool) : (s.fill black).pixelAt x y = some (bitval black) := by
  obtain ⟨⟨a, k⟩, hak⟩ := Option.ne_none_iff_exists'.1 hp
  obtain ⟨ha, hk⟩ := Config.pixelAddr_range hg hak
  rw [State.pixelAt_of_addr (s := s.fill black) hak, State.read_fill black s ha]
  cases black <;> interval_cases k <;> rfl

/-- After SET_PIXEL its pixel reads as the colour written and every other pixel as before (40_framebuffer.md R93, R101). -/
theorem State.pixelAt_setPixel {s : State} (hg : s.cfg.geometryOk = true) (hm : Memory.wf s.fb) {x y : Int}
    (hp : s.cfg.pixelAddr x y ≠ none) (x' y' : Int) (black : Bool) :
    (s.setPixel x' y' black).pixelAt x y = if x' = x ∧ y' = y then some (bitval black) else s.pixelAt x y := by
  obtain ⟨⟨a, k⟩, hak⟩ := Option.ne_none_iff_exists'.1 hp
  have hcfg : (s.setPixel x' y' black).cfg = s.cfg := by rw [State.setPixel_frame]
  rw [State.pixelAt_of_addr (by rwa [hcfg]), State.pixelAt_of_addr hak, State.setPixel]
  split
  · rename_i hnone
    rw [if_neg]
    rintro ⟨rfl, rfl⟩
    exact hp hnone
  · rename_i a' k' hak'
    obtain ⟨-, hk'⟩ := Config.pixelAddr_range hg hak'
    rw [Memory.read_write hm]
    by_cases hxy : x' = x ∧ y' = y
    · obtain ⟨rfl, rfl⟩ := hxy
      obtain ⟨rfl, rfl⟩ : a' = a ∧ k' = k := by simpa using hak'.symm.trans hak
      rw [if_pos rfl, setBit_getLsbD _ _ _ _ hk', if_pos rfl, if_pos ⟨rfl, rfl⟩]
    · have hne : a' = a → k ≠ k' := by
        rintro rfl rfl
        exact hxy (Config.pixelAddr_inj hg hak' hak)
      rw [if_neg hxy]
      split
      · rename_i ha
        rw [setBit_getLsbD _ _ _ _ hk', if_neg (hne ha), ha]
      · rfl

/-- The last write of a drawing window to the logical pixel `(x, y)`. -/
def lastWrite (ws : List PixelWrite) (x y : Int) : Option PixelWrite :=
  ws.reverse.find? (fun w => w.x.toInt = x ∧ w.y.toInt = y)

theorem lastWrite_concat (ws : List PixelWrite) (w : PixelWrite) (x y : Int) :
    lastWrite (ws ++ [w]) x y = if w.x.toInt = x ∧ w.y.toInt = y then some w else lastWrite ws x y := by
  simp only [lastWrite, List.reverse_concat, List.find?_cons]
  split <;> simp_all

/-- After a drawing window's writes a pixel reads as the colour of the last write to it, or as before. -/
theorem State.pixelAt_writePixels {s : State} (hg : s.cfg.geometryOk = true) (hs : s.fbOk) {x y : Int}
    (hp : s.cfg.pixelAddr x y ≠ none) (ws : List PixelWrite) :
    (ws.foldl State.writePixel s).pixelAt x y =
      (lastWrite ws x y).elim (s.pixelAt x y) (fun w => some (bitval w.black)) := by
  induction ws using List.reverseRecOn with
  | nil => rfl
  | append_singleton ws w ih =>
    obtain ⟨hcfg, hok⟩ := State.FormKept.writePixels (s := s) hg ws
    rw [List.foldl_concat, State.writePixel,
      State.pixelAt_setPixel (by rwa [hcfg]) (hok hs).1 (by rwa [hcfg]), ih, lastWrite_concat, sext16, sext16]
    split_ifs <;> rfl

/-- Settles O33: FILL makes every pixel white, and each write of the window makes its own pixel its colour and no other, by
induction on the window from its end. -/
theorem updateStartImage : Obligations.UpdateStartImage := by
  intro s ws hg hdraw hwin
  generalize hs0 : ((s.setIsFull (cadenceFull s.cfg s.updCnt)).fill false).setDrawReq true = s0
  have hcfg : s0.cfg = s.cfg := hs0 ▸ rfl
  have hok : s0.fbOk := hs0 ▸ State.fbOk_fill false (s.setIsFull (cadenceFull s.cfg s.updCnt))
  refine ⟨((ws.foldl State.writePixel s0).setDrawReq false).goto .updateWaitBusy, ?_, ?_, fun x y hp => ?_⟩
  · rw [exec, execStateUpdateStart, if_pos hdraw, drawWindow, ← hs0]
    simp [hwin]
  · rw [State.goto_cfg, State.setDrawReq_cfg, State.writePixels_frame]
    exact hcfg
  · have hwhite : s0.pixelAt x y = some true :=
      hs0 ▸ State.pixelAt_fill (s := s.setIsFull (cadenceFull s.cfg s.updCnt)) hg hp false
    have hlast := State.pixelAt_writePixels (s := s0) (by rwa [hcfg]) hok (by rwa [hcfg]) ws (x := x) (y := y)
    refine hlast.trans ?_
    rw [hwhite, lastWrite]
    cases ws.reverse.find? _ <;> rfl

end Sys2Proof.Machine

namespace Sys2Proof.Machine

/-! ### Who writes the framebuffer -/

/-- The framebuffer stays, and UPDATE_START is not entered. -/
def State.KeepsImage (s u : State) : Prop := u.fb = s.fb ∧ (u.st = .updateStart → s.st = .updateStart)

theorem State.KeepsImage.of_same {s u : State} (hf : u.fb = s.fb) (hst : u.st = s.st) : s.KeepsImage u :=
  ⟨hf, fun h => hst.symm.trans h⟩

theorem State.Ran.keepsImage {s u : State} (h : s.Ran u) : s.KeepsImage u := .of_same h.fb h.st

theorem taskFits_goto_updateStart (c : Config) (d : DState) : taskFits c d (.goto .updateStart) = false := by
  cases d <;> rfl

theorem endChunk1_keepsImage {n : Nat} {s u : State} (h : endChunk1 n s = .next u) : s.KeepsImage u := by
  cases h
  split
  · exact ⟨rfl, fun h => nomatch h⟩
  · exact .of_same rfl rfl

theorem endChunk2_keepsImage {s u : State} (h : endChunk2 s = .next u) : s.KeepsImage u := by
  unfold endChunk2 at h
  split at h
  · split at h
    · cases h
      exact ⟨rfl, fun h => nomatch h⟩
    · obtain ⟨v, hv, h⟩ := andThen_eq_next.1 h
      have hr := runSeq_ran hv
      cases h
      exact .of_same hr.fb hr.st
  · cases h
    exact .of_same rfl rfl

/-- No task but the state action writes the framebuffer or enters UPDATE_START, as a control action. -/
theorem taskAction_keepsImage {t : Task} {s u : State} (ht : taskFits s.cfg s.st t = true) (ha : t ≠ .action)
    (h : taskAction t s = .next u) : s.KeepsImage u := by
  cases t with
  | action => exact absurd rfl ha
  | goto d =>
    cases h
    refine ⟨rfl, ?_⟩
    rintro rfl
    simp [taskFits_goto_updateStart] at ht
  | endChunk1 n => exact endChunk1_keepsImage h
  | seqHead =>
    change beginStep s = _ at h
    unfold beginStep at h
    split at h
    · cases h
    · split at h <;> cases h <;> exact .of_same rfl rfl
  | seqDelay =>
    obtain ⟨d, hd⟩ := beginDelay_next h
    rw [taskAction, beginDelay_eq hd] at h
    cases h
    exact .of_same rfl rfl
  | seqArgs =>
    change beginArg s = _ at h
    unfold beginArg at h
    split at h
    · cases h
      exact .of_same rfl rfl
    · split at h <;> cases h
      exact .of_same rfl rfl
  | sendFb a n =>
    cases h
    cases n <;> exact .of_same rfl rfl
  | rows r =>
    cases h
    unfold beginRowByte State.startRow
    repeat' split
    all_goals exact .of_same rfl rfl
  | endChunk2 =>
    cases h
    unfold beginEndChunk2
    repeat' split
    all_goals exact .of_same rfl rfl
  | seqHold | frame | window =>
    cases h
    split <;> exact .of_same rfl rfl
  | run sel | seqTake left | argSent | colSent | switchTarget | sleepDone =>
    cases h
    exact .of_same rfl rfl

/-- No task but the state action writes the framebuffer or enters UPDATE_START, carried out at once. -/
theorem performTask_keepsImage {t : Task} {s u : State} (ht : taskFits s.cfg s.st t = true) (ha : t ≠ .action)
    (h : performTask t { s with work := [] } = .next u) : s.KeepsImage u := by
  have hinstant : t.instant = true → s.KeepsImage u := fun hi =>
    taskAction_keepsImage (s := { s with work := [] }) (u := { u with work := u.work ++ [] }) ht ha
      (by rw [taskAction_instant hi, h]; rfl)
  cases t with
  | action => exact absurd rfl ha
  | seqTake | argSent | endChunk1 | colSent | switchTarget | window | sleepDone | goto => exact hinstant rfl
  | endChunk2 => exact endChunk2_keepsImage (s := { s with work := [] }) h
  | run sel => exact (runSeq_ran h).keepsImage
  | seqHead => exact (runRest_ran h).keepsImage
  | seqDelay => exact (readDelay_ran h).keepsImage
  | seqArgs => exact (sendRestArgs_ran h).keepsImage
  | seqHold =>
    cases h
    exact (State.Ran.finishHold { s with work := [] }).keepsImage
  | frame =>
    cases h
    exact (State.Ran.finishFrame { s with work := [] }).1.keepsImage
  | sendFb a n =>
    cases h
    exact (State.Ran.sendFbBytes a n { s with work := [] }).keepsImage
  | rows r =>
    cases h
    obtain ⟨v, hv, hr⟩ := State.finishRows_ran r { s with work := [] }
    rw [hr]
    exact hv.keepsImage

/-- The start of a state action other than UPDATE_START leaves the framebuffer; where it enters UPDATE_START it is all of
its tick. -/
theorem beginAction_keepsImage {s u : State} (hst : s.st ≠ .updateStart) (hw : s.work = []) (h : beginAction s = .next u) :
    u.fb = s.fb ∧ (u.st = .updateStart → u.work = []) := by
  cases beginAction_cases h with
  | quiet hs hu =>
    rw [hu.1]
    exact ⟨rfl, fun _ => hw⟩
  | leave hd | openWindow hd => exact absurd hd hst
  | run | prepare | asleep | chunk1 => exact ⟨rfl, fun h => absurd h hst⟩
  | chunk2 =>
    refine ⟨?_, fun h => absurd ((State.startRow_st ..).symm.trans h) hst⟩
    unfold State.startRow
    split <;> rfl

/-! ### What each part of a tick keeps, the tick keeps -/

section

variable {P : State → Prop} (hstands : ∀ {s : State}, P s → s.Stands False)
  (hready : ∀ {s : State}, P s → s.work = [] → P (s.setReady true))
  (htask : ∀ {s u : State} {t : Task} {ts : List Task}, P s → t ≠ .action → s.work = t :: ts →
    performTask t { s with work := [] } = .next u → P { u with work := u.work ++ ts })

include hstands hready htask

/-- The rest of a tick is carried out task by task; the state action itself, where it is in hand, by `hact`. -/
theorem drain_keeps_of {ts : List Task} {s u : State}
    (hact : .action ∈ ts → ∀ {v w : State}, P v → v.work = [.action] → drain v = .next w → P w)
    (hw : s.work = ts) (h : P s) (hu : drain s = .next u) : P u := by
  induction ts generalizing s with
  | nil =>
    rw [drain_nil hw] at hu
    cases hu
    exact hready h hw
  | cons t ts ih =>
    by_cases ht : t = .action
    · subst ht
      obtain ⟨-, -, hend, -⟩ := State.controlOk_cons hw (hstands h).2.1
      obtain rfl := hend rfl
      exact hact (by simp) h hw hu
    · rw [drain_cons hw] at hu
      obtain ⟨v, hv, hu⟩ := andThen_eq_next.1 hu
      have hk := htask h ht hw hv
      unfold resume at hu
      split at hu
      · rename_i hnil
        rw [hnil] at hk
        exact ih (fun hm => hact (List.mem_cons_of_mem t hm)) rfl hk hu
      · cases hu
        exact hk

/-- A state action carried out at once is its first control action, then the rest of the tick. -/
theorem drain_keeps (haction : ∀ {s u : State}, P s → controlAction s = .next u → P u) {s u : State} (h : P s)
    (hu : drain s = .next u) : P u := by
  refine drain_keeps_of hstands hready htask (fun _ v w hv hw hu => ?_) rfl h hu
  have hnil : ({ v with work := [] } : State).work = [] := rfl
  rw [drain_cons hw, performTask, ← drain_action (s := { v with work := [] }) (hstands hv).geometryOk hnil] at hu
  obtain ⟨x, hx, hu⟩ := andThen_eq_next.1 hu
  have hk : P x := haction hv (by rw [controlAction, hw]; exact hx)
  have hnot : .action ∉ x.work := (beginAction_cases hx).action_not_mem hnil
  exact drain_keeps_of hstands hready htask (fun hm => absurd hm hnot) rfl hk hu

end

/-! ### Edges that start outside UPDATE_START -/

/-- A consistent state with the framebuffer `m` that is not drawing: in UPDATE_START nothing is in hand. -/
structure State.Holds (m : List Host.Cell) (s : State) : Prop where
  stands : s.Stands False
  fb_eq : s.fb = m
  work_nil : s.st = .updateStart → s.work = []

namespace State.Holds

variable {m : List Host.Cell} {s u : State}

theorem of_same (h : s.Holds m) (hu : u.Stands False) (hf : u.fb = s.fb) (hst : u.st = s.st) (hw : u.work = s.work) :
    u.Holds m :=
  ⟨hu, hf.trans h.fb_eq, fun h' => hw.trans (h.work_nil (hst.symm.trans h'))⟩

theorem controlOk (h : s.Holds m) : s.controlOk = true := h.stands.2.1

/-- With a task in hand the state is not UPDATE_START. -/
theorem st_ne {t : Task} {ts : List Task} (h : s.Holds m) (hw : s.work = t :: ts) : s.st ≠ .updateStart := fun hst => by
  simp [h.work_nil hst] at hw

/-- No drawing window is open: its task would be in hand. -/
theorem drawReq (h : s.Holds m) : s.drawReq = false := by
  obtain ⟨-, -, hopen, -⟩ := (State.controlOk_iff s).1 h.controlOk
  refine Bool.eq_false_iff.2 fun hd => ?_
  obtain ⟨ts, hw⟩ := List.head?_eq_some_iff.1 (hopen hd)
  obtain ⟨hfit, -⟩ := State.controlOk_cons hw h.controlOk
  exact h.st_ne hw (by simpa [taskFits] using hfit)

theorem after_controlAction (h : s.Holds m) (hu : controlAction s = .next u) : u.Holds m := by
  have hstand := h.stands.after_controlAction hu
  unfold controlAction at hu
  split at hu
  · cases hu
    exact h
  · rename_i t ts hw
    have hst := h.st_ne hw
    obtain ⟨hfit, -, hend, -⟩ := State.controlOk_cons hw h.controlOk
    by_cases ha : t = .action
    · subst ha
      obtain rfl := hend rfl
      obtain ⟨hf, hnil⟩ := beginAction_keepsImage (s := { s with work := [] }) hst rfl hu
      exact ⟨hstand, hf.trans h.fb_eq, hnil⟩
    · obtain ⟨hf, hstay⟩ := taskAction_keepsImage (s := { s with work := ts }) hfit ha hu
      exact ⟨hstand, hf.trans h.fb_eq, fun h' => absurd (hstay h') hst⟩

theorem after_performTask {t : Task} {ts : List Task} (h : s.Holds m) (ht : t ≠ .action) (hw : s.work = t :: ts)
    (hu : performTask t { s with work := [] } = .next u) : ({ u with work := u.work ++ ts } : State).Holds m := by
  obtain ⟨hfit, -⟩ := State.controlOk_cons hw h.controlOk
  obtain ⟨hf, hstay⟩ := performTask_keepsImage hfit ht hu
  exact ⟨h.stands.after_performTask ht hw hu, hf.trans h.fb_eq, fun h' => absurd (hstay h') (h.st_ne hw)⟩

/-- A tick carried to its end. -/
theorem after_drain (h : s.Holds m) (hu : drain s = .next u) : u.Holds m :=
  drain_keeps (P := State.Holds m) State.Holds.stands
    (fun hs hw => hs.of_same (hs.stands.after_setReady hw) rfl rfl rfl) State.Holds.after_performTask
    State.Holds.after_controlAction h hu

theorem after_clockControl {n : Nat} (h : s.Holds m) (hu : clockControl n s = .next u) : u.Holds m := by
  have hstand := h.stands.after_clockControl hu
  unfold clockControl controlEdge at hu
  split at hu
  · cases hu
    have hwire := s.encoderEdge_cases.frame.1
    exact h.of_same hstand (by rw [hwire]; rfl) (by rw [hwire]; rfl) (by rw [hwire]; rfl)
  · split at hu
    · cases hu
      exact h.of_same hstand rfl rfl rfl
    · have hhold : s.endHold.Holds m := by
        obtain he | he := s.endHold_cases
        · rwa [he]
        · exact h.after_controlAction he
      exact controlActions_keeps (P := State.Holds m) (fun hk hv => hk.after_controlAction hv) hhold hu

end State.Holds

/-! ### The strobes -/

/-- With no window open, the strobes but for the tick write the request flags only (40_framebuffer.md R99,
43_display_controller.md R160, R161). -/
theorem execAll_strobes_closed {p : Ports} {s v u : State} (hd : v.drawReq = false)
    (h : execAll (s.strobeOps p) v = .next u) :
    u = { v with pending := u.pending, sleepPending := u.sleepPending } := by
  refine execAll_keeps (P := fun u => u = { v with pending := u.pending, sleepPending := u.sleepPending })
    (fun i hi a b ha hb => ?_) rfl h
  have hclosed : a.drawReq = false := by rw [ha]; exact hd
  obtain rfl | rfl | rfl | ⟨x, y, black, rfl⟩ := State.mem_strobeOps hi
  · cases hb
    rw [ha]
    rfl
  · cases hb
    rw [ha]
    rfl
  · rw [exec, execHostDrawDone, hclosed] at hb
    cases hb
    exact ha
  · rw [exec, execPixelSet, hclosed] at hb
    cases hb
    exact ha

theorem execAll_append (is js : List Instr) (s : State) :
    execAll (is ++ js) s = andThen (execAll is s) (execAll js) := by
  induction is generalizing s with
  | nil => rfl
  | cons i is ih =>
    rw [List.cons_append, execAll, execAll, andThen_assoc]
    exact andThen_congr fun u _ => ih u

/-- The tick is the last operation of an edge (43_display_controller.md R162). -/
theorem State.portOps_eq (s : State) (p : Ports) :
    s.portOps p = s.strobeOps p ++ if (p.hiv &&& s.gate).getLsbD 0 then [.hostTick] else [] := by
  simp [State.portOps, State.strobeOps, decodeHiv]

/-! ### The step -/

namespace State.Holds

variable {m : List Host.Cell} {s u : State}

theorem after_flags (h : s.Holds m) (hu : u = { s with pending := u.pending, sleepPending := u.sleepPending }) :
    u.Holds m := by
  rw [hu]
  exact h.of_same (h.stands.of_same ⟨rfl, rfl, rfl, rfl, rfl, rfl⟩ ⟨rfl, rfl, rfl, rfl, rfl, rfl, rfl, rfl, rfl, rfl, rfl⟩)
    rfl rfl rfl

theorem after_hostTick (h : s.Holds m) (hst : s.st ≠ .updateStart) (hu : execHostTick s = .next u) : u.Holds m := by
  cases hr : s.ready with
  | false =>
    rw [execHostTick, hr] at hu
    cases hu
    exact h
  | true =>
    obtain ⟨-, hready, -⟩ := (State.controlOk_iff s).1 h.controlOk
    rw [execHostTick_eq_drain hr (hready hr).1] at hu
    exact State.Holds.after_drain (s := s.acceptTick) ⟨h.stands.after_acceptTick hr, h.fb_eq, fun h' => absurd h' hst⟩ hu

theorem fb_of_transactionEdge {p : Ports} {d : Draws} (h : s.Holds m) (hst : s.st ≠ .updateStart)
    (hu : transactionEdge p d s = .next u) : u.fb = m := by
  obtain ⟨v, hv, hu⟩ := andThen_eq_next.1 hu
  obtain ⟨w, hw, hv⟩ := andThen_eq_next.1 hv
  rw [State.portOps_eq, execAll_append] at hw
  obtain ⟨x, hx, hw⟩ := andThen_eq_next.1 hw
  have hsample : (s.sample p d).Holds m := h.of_same (h.stands.after_sample p d) rfl rfl rfl
  have hflags := execAll_strobes_closed hsample.drawReq hx
  have hx' : x.Holds m := hsample.after_flags hflags
  have hw' : w.Holds m := by
    split at hw
    · obtain ⟨y, hy, hw⟩ := andThen_eq_next.1 hw
      cases hw
      exact hx'.after_hostTick (by rw [hflags]; exact hst) hy
    · cases hw
      exact hx'
  cases hu
  exact (hw'.after_drain hv).fb_eq

theorem fb_of_clockEdge {p : Ports} {n : Nat} (h : s.Holds m) (hu : clockEdge p n s = .next u) : u.fb = m := by
  rw [clockEdge_eq] at hu
  obtain ⟨v, hv, hu⟩ := andThen_eq_next.1 hu
  obtain ⟨w, hw, hv⟩ := andThen_eq_next.1 hv
  have hsample : (s.sample p { lapses := [], window := none }).Holds m := h.of_same (h.stands.after_sample p _) rfl rfl rfl
  have hw' := hsample.after_clockControl hw
  have hv' : v.Holds m := hw'.after_flags (execAll_strobes_closed hw'.drawReq hv)
  cases hu
  split <;> exact hv'.fb_eq

end State.Holds

/-- Settles O58: no task but the state action writes the framebuffer, no action but UPDATE_START's does, and an edge that
enters UPDATE_START has nothing more in hand; a pixel write needs the drawing window, which only UPDATE_START opens. -/
theorem framebufferWrittenInUpdateStart : Obligations.FramebufferWrittenInUpdateStart := by
  intro s t hc hst h hreset
  obtain ⟨hv, i, is, hi, h⟩ := step_next h
  have hs : State.Holds s.fb { s with inputs := is } := ⟨⟨hv, hc, False.elim⟩, rfl, fun h' => absurd h' hst⟩
  cases i with
  | reset fb => exact absurd (by rw [hi]; rfl) (hreset fb)
  | edge p d => exact hs.fb_of_transactionEdge hst h
  | clock p n => exact hs.fb_of_clockEdge h

end Sys2Proof.Machine

namespace Sys2Proof

/-! ### The count byte, by its number -/

theorem cntArgs_eq_mod (k : Byte) : cntArgs k = k.toNat % 128 := BitVec.extractLsb'_toNat 0 7 k

/-- The count byte is `128 D + N` (30_encoding.md R73). -/
theorem countByte_eq_ofNat (d : Bool) {n : Nat} (h : n ≤ 127) : countByte d n = BitVec.ofNat 8 (128 * d.toNat + n) := by
  have hn : n < 2 ^ 7 := by omega
  have hd : d.toNat ≤ 1 := Bool.toNat_le d
  apply BitVec.eq_of_toNat_eq
  rw [countByte, BitVec.toNat_append, BitVec.toNat_ofBool, BitVec.toNat_ofNat, BitVec.toNat_ofNat, Nat.mod_eq_of_lt hn,
    ← Nat.shiftLeft_add_eq_or_of_lt hn, Nat.shiftLeft_eq]
  omega

/-! ### A step position, case by case (30_encoding.md R77) -/

theorem decodeSeq_end (rest : List Byte) : decodeSeq (0xFF :: 0xFF :: rest) = .ok (.finish, rest) := rfl

theorem decodeSeq_illegal {k : Byte} (hk : k ≠ 0xFF) (rest : List Byte) :
    decodeSeq (0xFF :: k :: rest) = .ok (.illegal k, rest) := if_neg hk

theorem decodeSeq_step {c k : Byte} {args : List Byte} (hc : c ≠ 0xFF) (hd : cntDelay k = false)
    (hn : args.length = cntArgs k) (after : List Byte) :
    decodeSeq (c :: k :: (args ++ after)) = .ok (.step c args, after) := by
  have htake : takeArgs (cntArgs k) (args ++ after) = some (args, after) := takeArgs_some.2 ⟨hn, rfl⟩
  have hc' : c ≠ 255#8 := hc
  simp [decodeSeq, hc', hd, htake]

theorem decodeSeq_stepDelay {c k : Byte} {args : List Byte} (hc : c ≠ 0xFF) (hd : cntDelay k = true)
    (hn : args.length = cntArgs k) (dly : Byte) (after : List Byte) :
    decodeSeq (c :: k :: dly :: (args ++ after)) = .ok (.stepDelay c dly args, after) := by
  have htake : takeArgs (cntArgs k) (args ++ after) = some (args, after) := takeArgs_some.2 ⟨hn, rfl⟩
  have hc' : c ≠ 255#8 := hc
  simp [decodeSeq, hc', hd, htake]

theorem wf_seqStep_iff {cmd : Byte} {args : List Byte} :
    (Instr.seqStep cmd args).wf = true ↔ cmd ≠ 0xFF ∧ args.length ≤ 127 := by
  simp [Instr.wf]

theorem wf_seqStepDelay_iff {cmd dly : Byte} {args : List Byte} :
    (Instr.seqStepDelay cmd dly args).wf = true ↔ cmd ≠ 0xFF ∧ args.length ≤ 127 := wf_seqStep_iff

/-- The decoder reads a well-formed step position back from its bytes and leaves what follows: the converse of
`decodeSeq_ok`. -/
theorem decodeSeq_bytes {op : SeqOp} (h : op.instr.wf = true) (rest : List Byte) :
    decodeSeq (op.bytes ++ rest) = .ok (op, rest) := by
  cases op with
  | finish => exact decodeSeq_end rest
  | illegal cnt => exact decodeSeq_illegal (by simpa [SeqOp.instr, Instr.wf] using h) rest
  | step cmd args =>
    obtain ⟨hc, hlen⟩ := wf_seqStep_iff.1 h
    exact decodeSeq_step hc (cntDelay_countByte false _) (cntArgs_countByte false hlen).symm rest
  | stepDelay cmd dly args =>
    obtain ⟨hc, hlen⟩ := wf_seqStepDelay_iff.1 h
    exact decodeSeq_stepDelay hc (cntDelay_countByte true _) (cntArgs_countByte true hlen).symm dly rest

/-! ### The words of the other formats -/

theorem decode_seq_bytes {op : SeqOp} (h : op.instr.wf = true) : decode (.seq op.bytes) = .ok op.instr := by
  have hread : decodeSeq op.bytes = .ok (op, []) := by simpa using decodeSeq_bytes h []
  rw [decode, hread]

/-- `{mode, byte}` is the frame of that mode and byte (30_encoding.md R81). -/
theorem decode_frame (m : Bool) (b : Byte) :
    decode (.frame (BitVec.ofBool m ++ b)) = .ok (if m then .sendData b else .sendCommand b) := by
  have hm : (BitVec.ofBool m ++ b).getLsbD 8 = m := by
    rw [BitVec.getLsbD_append]
    cases m <;> rfl
  rw [decode, hm, BitVec.extractLsb'_append_eq_right]

/-- `{TAG, opcode}` is the command byte of that target (30_encoding.md R80). -/
theorem decode_tag (secondary : Bool) (op : BitVec 7) :
    decode (.tag (BitVec.ofBool secondary ++ op)) =
      .ok (if secondary then .cmdTagSecondary op else .cmdTagPrimary op) := by
  have ht : (BitVec.ofBool secondary ++ op).getLsbD 7 = secondary := by
    rw [BitVec.getLsbD_append]
    cases secondary <;> rfl
  rw [decode, ht, BitVec.extractLsb'_append_eq_right]

/-- Settles O1, format by format: a step by `decode_seq_bytes`, a frame and a tagged byte by the split of their word, and
the strobes, the fill, the state codes and the transfer words by evaluation of their constant word. -/
theorem decodeOfEncode : Obligations.DecodeOfEncode := by
  intro i h
  cases i with
  | seqEnd => exact decode_seq_bytes (op := .finish) h
  | seqIllegalFF cnt => exact decode_seq_bytes (op := .illegal cnt) h
  | seqStep cmd args => exact decode_seq_bytes (op := .step cmd args) h
  | seqStepDelay cmd dly args => exact decode_seq_bytes (op := .stepDelay cmd dly args) h
  | sendCommand b => exact decode_frame false b
  | sendData b => exact decode_frame true b
  | cmdTagPrimary opcode => exact decode_tag false opcode
  | cmdTagSecondary opcode => exact decode_tag true opcode
  | _ => rfl

/-- Settles O2: the decoder reads every well-formed step position back, and the count byte is `128 D + N`. -/
theorem stepBytesReadBack : Obligations.StepBytesReadBack := by
  intro cmd dly args rest hc hlen
  have hstep : (stepBytes cmd args).length = 2 + args.length := SeqOp.length_bytes (.step cmd args)
  have hdelay : (stepDelayBytes cmd dly args).length = 3 + args.length := SeqOp.length_bytes (.stepDelay cmd dly args)
  refine ⟨decodeSeq_bytes (op := .step cmd args) (wf_seqStep_iff.2 ⟨hc, hlen⟩) rest,
    decodeSeq_bytes (op := .stepDelay cmd dly args) (wf_seqStepDelay_iff.2 ⟨hc, hlen⟩) rest, ?_, ?_,
    hstep, hdelay, by omega, by omega⟩
  · rw [stepBytes, countByte_eq_ofNat false hlen, Bool.toNat_false, Nat.mul_zero, Nat.zero_add]
  · rw [stepDelayBytes, countByte_eq_ofNat true hlen, Bool.toNat_true, Nat.mul_one]

/-- Settles O3, by evaluation of the decoder on each word. -/
theorem specWordsDecode : Obligations.SpecWordsDecode := by
  unfold Obligations.SpecWordsDecode
  decide

/-- Settles O4: one lemma about `decodeSeq` for each case of R77, with the count read as a number. -/
theorem stepHeadDecides : Obligations.StepHeadDecides := by
  intro c k rest
  refine ⟨?_, ?_, ?_, ?_⟩
  · rintro rfl rfl
    exact decodeSeq_end rest
  · rintro rfl hk
    exact decodeSeq_illegal hk rest
  · rintro hc hd args after rfl hn
    exact decodeSeq_step hc hd (hn.trans (cntArgs_eq_mod k).symm) after
  · rintro hc hd dly args after rfl hn
    exact decodeSeq_stepDelay hc hd (hn.trans (cntArgs_eq_mod k).symm) dly after

/-! ### The table notation (30_encoding.md R88, R89) -/

theorem AsmLine.bytes_step (c : Byte) (args : List Byte) :
    (AsmLine.step c args).bytes = if (Instr.seqStep c args).wf then some (stepBytes c args) else none := rfl

theorem AsmLine.bytes_stepd (c d : Byte) (args : List Byte) :
    (AsmLine.stepd c d args).bytes = if (Instr.seqStepDelay c d args).wf then some (stepDelayBytes c d args) else none :=
  rfl

/-- A tagged opcode with bit 7 clear is a step of the opcode with its target's tag added (30_encoding.md R80, R89). -/
theorem AsmLine.bytes_taggedStep {op : Byte} (h : op.toNat < 0x80) (secondary : Bool) (args : List Byte) :
    (AsmLine.taggedStep secondary op args).bytes = (AsmLine.step (op + if secondary then 0x80 else 0) args).bytes := by
  have hbit : op.getLsbD 7 = false := Nat.testBit_lt_two_pow h
  rw [AsmLine.bytes, AsmLine.expand, hbit]
  rfl

/-- Settles O5: a line assembles to its step's bytes exactly where the step is well formed, and a pseudo-step is its
expansion. -/
theorem tableNotation : Obligations.TableNotation := by
  intro c d op args
  refine ⟨fun hc hlen => ?_, fun hbad => ?_, rfl, rfl, rfl, fun hop => ⟨?_, AsmLine.bytes_taggedStep hop true args⟩⟩
  · obtain ⟨-, -, hstep, hdelay, -⟩ := stepBytesReadBack c d args [] hc hlen
    rw [AsmLine.bytes_step, AsmLine.bytes_stepd, if_pos (wf_seqStep_iff.2 ⟨hc, hlen⟩),
      if_pos (wf_seqStepDelay_iff.2 ⟨hc, hlen⟩), hstep, hdelay]
    exact ⟨rfl, rfl⟩
  · have hill : ¬(c ≠ 0xFF ∧ args.length ≤ 127) := fun ⟨hc, hlen⟩ => hbad.elim hc (by omega)
    exact ⟨if_neg (mt wf_seqStep_iff.1 hill), if_neg (mt wf_seqStepDelay_iff.1 hill)⟩
  · simp [AsmLine.bytes_taggedStep hop]

end Sys2Proof

namespace Sys2Proof.Machine

/-! ### Tagged command bytes (30_encoding.md R80) -/

/-- `opcode + TAG` is `opcode | TAG`: the opcode's bit 7 is clear. -/
theorem add_tag_eq_or (op : BitVec 7) : op.setWidth 8 + 0x80 = op.setWidth 8 ||| 0x80 := by
  revert op
  decide

theorem exec_cmdTagPrimary (op : BitVec 7) (s : State) :
    exec (.cmdTagPrimary op) s = exec (.sendCommand (op.setWidth 8)) s := by
  have hword : 0#1 ++ op = op.setWidth 8 := by
    revert op
    decide
  rw [← hword]
  rfl

theorem exec_cmdTagSecondary (op : BitVec 7) (s : State) :
    exec (.cmdTagSecondary op) s = exec (.sendCommand (op.setWidth 8 ||| 0x80)) s := by
  have hword : 1#1 ++ op = op.setWidth 8 ||| 0x80 := by
    revert op
    decide
  rw [← hword]
  rfl

/-- SEND_COMMAND completes, appends the byte's command frame to the trace and writes the wire only (41_serial_encoder.md
R108). -/
theorem exec_sendCommand (b : Byte) (s : State) :
    ∃ t, exec (.sendCommand b) s = .next t ∧ t.trace = s.trace ++ frameEvents false b ∧ t = s.withWire t :=
  ⟨s.sendFrame false b, rfl, by rw [State.sendFrame_eq], State.sendFrame_frame false b s⟩

/-- Settles O19: each TAG row is SEND_COMMAND of `opcode | TAG`, which is `opcode + TAG`. -/
theorem taggedCommandBytes : Obligations.TaggedCommandBytes := by
  intro s op
  have hzero : op.setWidth 8 + 0x00 = op.setWidth 8 := BitVec.add_zero _
  rw [hzero, add_tag_eq_or, exec_cmdTagPrimary, exec_cmdTagSecondary]
  obtain ⟨t, ht, htrace, hframe⟩ := exec_sendCommand (op.setWidth 8) s
  obtain ⟨u, hu, hutrace, huframe⟩ := exec_sendCommand (op.setWidth 8 ||| 0x80) s
  exact ⟨⟨t, ht, ht, htrace, hframe⟩, ⟨u, hu, hu, hutrace, huframe⟩⟩

/-! ### A requested frame -/

/-- What a frame's word decodes to is the whole frame of its mode and byte (30_encoding.md R81). -/
theorem exec_of_decode_frame {m : Bool} {b : Byte} {i : Instr} (h : decode (.frame (BitVec.ofBool m ++ b)) = .ok i)
    (s : State) : exec i s = .next (s.sendFrame m b) := by
  rw [decode_frame] at h
  cases h
  cases m <;> rfl

/-- A frame of which no micro-step has been made is carried out whole (41_serial_encoder.md R106). -/
theorem State.finishFrame_of_requested {s : State} (hb : s.encBusy = true) (hstep : s.encStep = 0) (hhold : s.encHold = 0) :
    s.finishFrame = s.sendFrame s.encMode s.encByte := by
  have hnext : s.nextMicroStep = 0 := by rw [State.nextMicroStep, if_pos hhold, hstep]; rfl
  rw [State.finishFrame_of_busy hb hnext, State.sendFrame, List.range_eq_range']

/-- With a frame requested in front, the rest of a tick is what the frame's word decodes to, then the tasks behind it. -/
theorem drain_requested_frame {s : State} {ts : List Task} {i : Instr} (hw : s.work = .frame :: ts)
    (hb : s.encBusy = true) (hstep : s.encStep = 0) (hhold : s.encHold = 0)
    (hdec : decode (.frame (BitVec.ofBool s.encMode ++ s.encByte)) = .ok i) :
    drain s = andThen (exec i { s with work := [] }) (drainTasks ts) := by
  rw [drain, hw, drainTasks, performTask, State.finishFrame_of_requested (s := { s with work := [] }) hb hstep hhold,
    exec_of_decode_frame hdec, andThen_next, andThen_next, if_pos (by simp)]

/-- An edge whose ports start nothing carries the work in hand to its end. -/
theorem step_of_no_strobe {s : State} {p : Ports} {d : Draws} {rest : List Input} (hv : s.cfg.valid = true)
    (hi : s.inputs = .edge p d :: rest) (hp : p.hiv &&& s.gate = 0) :
    step s = andThen (drain (State.sample p d { s with inputs := rest })) (fun t => .next t.dropDraws) := by
  have hops : State.portOps { s with inputs := rest } p = [] := by
    show decodeHiv (p.hiv &&& s.gate) _ _ _ = []
    rw [hp]
    rfl
  rw [step_of_valid hv hi, takeInput, transactionEdge, hops]
  rfl

/-- Settles O11: the rest of a frame no micro-step of which has been made is the whole frame, which is what its word
decodes to. -/
theorem stepRunsRequestedFrame : Obligations.StepRunsRequestedFrame := by
  intro s p d rest ts i hv hi hw hp hb hstep hhold hdec
  have hdrain := drain_requested_frame (s := State.sample p d { s with inputs := rest }) hw hb hstep hhold hdec
  rw [step_of_no_strobe hv hi hp, hdrain, andThen_assoc]
  rfl

end Sys2Proof.Machine

namespace Sys2Proof.Machine

/-! ### FILL, byte by byte (40_framebuffer.md R92) -/

/-- An address that is not listed reads blank. -/
theorem Memory.read_of_not_listed {m : List Host.Cell} {a : Nat} (h : ∀ p ∈ m, p.1 ≠ a) :
    Memory.read m a = Memory.blank := by
  induction m with
  | nil => rfl
  | cons p m ih =>
    rw [Memory.read, if_neg (h p List.mem_cons_self)]
    exact ih (fun q hq => h q (List.mem_cons_of_mem p hq))

/-- Past the end of the framebuffer nothing is listed (20_memory.md R54). -/
theorem State.read_of_fbLen_le {s : State} (h : s.fbOk) {a : Nat} (ha : s.cfg.fbLen ≤ a) :
    Memory.read s.fb a = Memory.blank :=
  Memory.read_of_not_listed fun p hp => Nat.ne_of_lt (Nat.lt_of_lt_of_le (h.2 p hp) ha)

/-- FILL leaves nothing of an earlier FILL (40_framebuffer.md R103). -/
theorem State.fill_fill (black other : Bool) (s : State) : (s.fill other).fill black = s.fill black := rfl

theorem exec_fbFill (black : Bool) (s : State) : exec (.fbFill black) s = .next (s.fill black) := rfl

/-- Settles O29: FILL puts a constant memory in the framebuffer's place, which depends on the colour and on `L` alone. -/
theorem fillResult : Obligations.FillResult := by
  intro s black
  refine ⟨s.fill black, exec_fbFill black s, rfl, fun _ => State.read_fill black s, fun hs a ha => ?_, ?_, ?_⟩
  · rw [State.read_of_fbLen_le (State.fbOk_fill black s) ha, State.read_of_fbLen_le hs ha]
  · rw [exec_fbFill, State.fill_fill]
  · intro other u hu
    cases hu
    rw [exec_fbFill, State.fill_fill]

/-! ### SET_PIXEL, byte by byte (40_framebuffer.md R93, R99) -/

/-- Outside the drawing window a pixel write is ignored (40_framebuffer.md R99). -/
theorem exec_pixelSet_closed {s : State} (h : s.drawReq = false) (x y : Coord) (black : Bool) :
    exec (.pixelSet x y black) s = .next s := by
  rw [exec, execPixelSet, h]
  rfl

theorem exec_pixelSet_open {s : State} (h : s.drawReq = true) (x y : Coord) (black : Bool) :
    exec (.pixelSet x y black) s = .next (s.setPixel x.toInt y.toInt black) := by
  rw [exec, execPixelSet, if_pos h]
  rfl

theorem State.setPixel_of_none {s : State} {x y : Int} (h : s.cfg.pixelAddr x y = none) (black : Bool) :
    s.setPixel x y black = s := by
  rw [State.setPixel, h]

/-- After SET_PIXEL its byte reads with the bit set to the colour's, every other byte as before. -/
theorem State.read_setPixel {s : State} (hm : Memory.wf s.fb) {x y : Int} {a k : Nat}
    (h : s.cfg.pixelAddr x y = some (a, k)) (black : Bool) (c : Nat) :
    Memory.read (s.setPixel x y black).fb c =
      if a = c then setBit (Memory.read s.fb a) k (bitval black) else Memory.read s.fb c := by
  rw [State.setPixel, h]
  exact Memory.read_write hm a c _

/-- Settles O30: outside the window, and where the generator gives no pixel, the state stays; a pixel's byte is read,
changed in one bit and written back. -/
theorem pixelSetResult : Obligations.PixelSetResult := by
  intro s x y black hg hm
  refine ⟨fun hd => exec_pixelSet_closed hd x y black, fun hd hnone => ?_, fun hd a k hak => ?_⟩
  · rw [exec_pixelSet_open hd, State.setPixel_of_none hnone]
  · obtain ⟨ha, hk⟩ := Config.pixelAddr_range hg hak
    have hread := State.read_setPixel hm hak black
    refine ⟨ha, hk, s.setPixel x.toInt y.toInt black, exec_pixelSet_open hd x y black, State.setPixel_frame .., ?_, ?_, ?_⟩
    · rw [hread, if_pos rfl, setBit_getLsbD _ _ _ _ hk, if_pos rfl, bitval]
    · intro j hj
      rw [hread, if_pos rfl, setBit_getLsbD _ _ _ _ hk, if_neg hj]
    · intro c hc
      rw [hread, if_neg hc.symm]

theorem State.pixelAt_of_none {s : State} {x y : Int} (h : s.cfg.pixelAddr x y = none) : s.pixelAt x y = none := by
  rw [State.pixelAt, h]

/-- Settles O31: the generator is injective, so a write to one pixel is read back there and at no other. -/
theorem pixelReadBack : Obligations.PixelReadBack := by
  intro s x y black hg hm
  have hcfg : (s.setPixel x y black).cfg = s.cfg := by rw [State.setPixel_frame]
  refine ⟨fun x' y' hp heq => ?_, fun hp => ⟨?_, fun x' y' hne => ?_⟩, fun hnone => ?_⟩
  · obtain ⟨q, hq⟩ := Option.ne_none_iff_exists'.1 hp
    exact Config.pixelAddr_inj hg (heq.trans hq) hq
  · rw [State.pixelAt_setPixel hg hm hp, if_pos ⟨rfl, rfl⟩]
  · by_cases hp' : s.cfg.pixelAddr x' y' = none
    · rw [State.pixelAt_of_none hp', State.pixelAt_of_none (by rwa [hcfg])]
    · rw [State.pixelAt_setPixel hg hm hp', if_neg fun h => hne ⟨h.1.symm, h.2.symm⟩]
  · rw [State.setPixel_of_none hnone]

end Sys2Proof.Machine

namespace Sys2Proof

/-! ### The address generator, stage by stage (40_framebuffer.md R94 to R98) -/

/-- The table of R94, read both ways. -/
theorem Config.rotate_eq_some_iff {c : Config} {x y u v : Int} :
    c.rotate x y = some (u, v) ↔
      c.rotation = 0 ∧ u = x ∧ v = y ∨
      c.rotation = 90 ∧ u = y ∧ v = c.width - 1 - x ∨
      c.rotation = 180 ∧ u = c.width - 1 - x ∧ v = c.height - 1 - y ∨
      c.rotation = 270 ∧ u = c.height - 1 - y ∧ v = x := by
  unfold Config.rotate
  split_ifs <;> simp only [Option.some.injEq, Prod.mk.injEq, false_iff] <;> omega

/-- Every point of the plane is the rotation of one (40_framebuffer.md R101). -/
theorem Config.rotate_surjective {c : Config}
    (h : c.rotation = 0 ∨ c.rotation = 90 ∨ c.rotation = 180 ∨ c.rotation = 270) (u v : Int) :
    ∃ x y, c.rotate x y = some (u, v) := by
  simp only [Config.rotate_eq_some_iff]
  obtain h | h | h | h := h
  · exact ⟨u, v, .inl ⟨h, rfl, rfl⟩⟩
  · exact ⟨c.width - 1 - v, u, by omega⟩
  · exact ⟨c.width - 1 - u, c.height - 1 - v, by omega⟩
  · exact ⟨v, c.height - 1 - u, by omega⟩

theorem Config.rotate_of_invalid {c : Config} (h0 : c.rotation ≠ 0) (h90 : c.rotation ≠ 90) (h180 : c.rotation ≠ 180)
    (h270 : c.rotation ≠ 270) (x y : Int) : c.rotate x y = none := by
  rw [Config.rotate, if_neg h0, if_neg h90, if_neg h180, if_neg h270]

/-- A pixel that the bounds check passes is mirrored (40_framebuffer.md R95, R96). -/
theorem Config.nativePixel_of_rotate {c : Config} {x y u v : Int} (h : c.rotate x y = some (u, v)) :
    c.nativePixel x y =
      if 0 ≤ u ∧ u < c.width ∧ 0 ≤ v ∧ v < c.height then
        some ((if c.mirrorX then c.width - 1 - u else u).toNat, v.toNat)
      else none := by
  have hcheck : (u < 0 ∨ (c.width : Int) ≤ u ∨ v < 0 ∨ (c.height : Int) ≤ v) ↔
      ¬(0 ≤ u ∧ u < c.width ∧ 0 ≤ v ∧ v < c.height) := by omega
  rw [Config.nativePixel, h]
  simp only [hcheck, ite_not]
  refine ite_congr rfl (fun hin => ?_) (fun _ => rfl)
  rw [Option.some.injEq, Prod.mk.injEq]
  refine ⟨?_, rfl⟩
  split_ifs <;> omega

/-- The native pixels are those of the panel, each the mirror of what the rotation gives (40_framebuffer.md R95, R96). -/
theorem Config.nativePixel_eq_some_iff {c : Config} {x y : Int} {u v : Nat} :
    c.nativePixel x y = some (u, v) ↔ u < c.width ∧ v < c.height ∧
      c.rotate x y = some (if c.mirrorX then (c.width : Int) - 1 - u else u, (v : Int)) := by
  refine ⟨fun h => ?_, fun ⟨hu, hv, h⟩ => ?_⟩
  · obtain ⟨hu, hv⟩ := Config.nativePixel_range h
    exact ⟨hu, hv, Config.rotate_of_nativePixel h⟩
  · rw [Config.nativePixel_of_rotate h, if_pos (by split_ifs <;> omega), Option.some.injEq, Prod.mk.injEq]
    exact ⟨by split_ifs <;> omega, Int.toNat_natCast v⟩

/-- The byte and bit of a rotated pixel, after the bounds check and the mirror (40_framebuffer.md R98). -/
theorem Config.pixelAddr_of_rotate {c : Config} {x y u v : Int} (h : c.rotate x y = some (u, v)) :
    c.pixelAddr x y =
      if 0 ≤ u ∧ u < c.width ∧ 0 ≤ v ∧ v < c.height then
        let m : Int := if c.mirrorX then c.width - 1 - u else u
        some (((v * c.width + m) / 8).toNat, (7 - m % 8).toNat)
      else none := by
  rw [Config.pixelAddr, Config.nativePixel_of_rotate h]
  by_cases hin : 0 ≤ u ∧ u < c.width ∧ 0 ≤ v ∧ v < c.height
  · have hm : (0 : Int) ≤ if c.mirrorX then c.width - 1 - u else u := by split_ifs <;> omega
    simp only [if_pos hin]
    generalize (if c.mirrorX then (c.width : Int) - 1 - u else u) = m at hm
    lift m to Nat using hm
    lift v to Nat using hin.2.2.1
    simp only [Int.toNat_natCast, Option.some.injEq, Prod.mk.injEq]
    exact ⟨by omega, by omega⟩
  · simp only [if_neg hin]

/-- The generator gives a pixel exactly where the rotation lies in the panel (40_framebuffer.md R95). -/
theorem Config.pixelAddr_ne_none_iff {c : Config} {x y u v : Int} (h : c.rotate x y = some (u, v)) :
    c.pixelAddr x y ≠ none ↔ 0 ≤ u ∧ u < c.width ∧ 0 ≤ v ∧ v < c.height := by
  rw [Config.pixelAddr_of_rotate h]
  split_ifs with hin <;> simp [hin]

theorem Config.pixelAddr_of_rotate_none {c : Config} {x y : Int} (h : c.rotate x y = none) : c.pixelAddr x y = none := by
  rw [Config.pixelAddr, Config.nativePixel, h]

end Sys2Proof

namespace Sys2Proof.Machine

/-- Settles O32: the formulas stage by stage; the reach of the two quarter turns is the bounds check of their formula; each
rotation and the mirror are bijections of the plane. -/
theorem pixelAddressGenerator : Obligations.PixelAddressGenerator := by
  intro c
  refine ⟨fun x y u v h => Config.pixelAddr_of_rotate (Config.rotate_eq_some_iff.2 h), fun h90 x y => ?_,
    fun h270 x y => ?_, fun hvalid u v hu hv => ?_, fun h0 h90 h180 h270 => ?_⟩
  · rw [Config.pixelAddr_ne_none_iff (Config.rotate_eq_some_iff.2 (.inr (.inl ⟨h90, rfl, rfl⟩)))]
    omega
  · rw [Config.pixelAddr_ne_none_iff (Config.rotate_eq_some_iff.2 (.inr (.inr (.inr ⟨h270, rfl, rfl⟩))))]
    omega
  · obtain ⟨x, y, hxy⟩ := Config.rotate_surjective hvalid (if c.mirrorX then (c.width : Int) - 1 - u else u) v
    refine ⟨(x, y), Config.nativePixel_eq_some_iff.2 ⟨hu, hv, hxy⟩, fun q hq => ?_⟩
    obtain ⟨-, -, hrot⟩ := Config.nativePixel_eq_some_iff.1 hq
    exact Prod.ext_iff.2 (Config.rotate_inj hrot hxy)
  · have hnone : ∀ x y, c.pixelAddr x y = none := fun x y =>
      Config.pixelAddr_of_rotate_none (Config.rotate_of_invalid h0 h90 h180 h270 x y)
    refine ⟨hnone, ?_⟩
    rintro s x y black rfl
    cases hd : s.drawReq with
    | false => exact exec_pixelSet_closed hd x y black
    | true => rw [exec_pixelSet_open hd, State.setPixel_of_none (hnone _ _)]

end Sys2Proof.Machine

namespace Sys2Proof.Machine

/-! ### What a tick leaves in hand -/

/-- Nothing is in hand but, at most, an open drawing window and what is behind it (43_display_controller.md R147). -/
def State.AtRest (s : State) : Prop := s.work = [] ∨ ∃ ts, s.work = .window :: ts ∧ s.drawReq = true

/-- At rest, carrying the tick to its end is the end of the tick, or leaves the window open. -/
theorem drain_of_atRest {s : State} (h : s.AtRest) : drain s = .next s.endTick := by
  unfold State.endTick
  obtain hw | ⟨ts, hw, hd⟩ := h
  · rw [drain_nil hw, if_pos hw]
  · rw [drain_window hw hd, if_neg (by simp [hw])]

theorem endChunk1_work {n : Nat} {s u : State} (h : endChunk1 n s = .next u) : u.work = s.work := by
  cases h
  split <;> rfl

theorem execStateUpdateSendingData_work {s u : State} (h : execStateUpdateSendingData s = .next u) :
    u.work = s.work := by
  unfold execStateUpdateSendingData chunk1 chunk2 at h
  split at h
  · split at h
    · cases h
    · exact (endChunk1_work h).trans (State.Ran.sendFbBytes ..).work
  · split at h
    · cases h
    · exact (endChunk2_keeps h).1.trans (State.Ran.sendRows ..).work

theorem execStateDeepSleep_work {s u : State} (h : execStateDeepSleep s = .next u) : u.work = s.work := by
  unfold execStateDeepSleep at h
  split at h
  · cases h
    rfl
  · obtain ⟨v, hv, h⟩ := andThen_eq_next.1 h
    cases h
    exact (runSeq_ran hv).work

/-- A state action leaves nothing in hand but UPDATE_START's open window (43_display_controller.md R147). -/
theorem tickAction_atRest {s u : State} (hw : s.work = []) (h : tickAction s = .next u) : u.AtRest := by
  by_cases hq : s.st.sends = false ∧ s.st ≠ .updateStart
  · refine .inl ?_
    rw [(tickAction_quiet hq.1 hq.2 h).1]
    exact hw
  · unfold tickAction at h
    generalize s.st = d at hq h
    cases d with
    | updateStart =>
      obtain ⟨full, m, req, -, rfl⟩ | ⟨full, m, rfl⟩ := execStateUpdateStart_cases h
      · exact .inl hw
      · exact .inr ⟨_, rfl, rfl⟩
    | initSendCommands | updatePrepare | updateRefresh =>
      obtain ⟨v, hv, h⟩ := andThen_eq_next.1 h
      cases h
      exact .inl ((runSeq_ran hv).work.trans hw)
    | updateSendingData => exact .inl ((execStateUpdateSendingData_work h).trans hw)
    | deepSleep => exact .inl ((execStateDeepSleep_work h).trans hw)
    | initStart | initReset | initWaitReset | initWaitResetLow | initWaitResetHigh | initWaitBusy | initDone | idle
    | updateWaitBusy | updateWaitRefresh | updateDone => exact absurd ⟨rfl, by decide⟩ hq

theorem State.AtRest.endTick {s : State} (h : s.AtRest) : s.endTick.AtRest := by
  unfold State.endTick
  split <;> exact h

theorem exec_hostTick_atRest {s u : State} (hw : s.work = []) (h : exec .hostTick s = .next u) : u.AtRest := by
  rw [exec, execHostTick] at h
  split at h
  · obtain ⟨v, hv, h⟩ := andThen_eq_next.1 h
    cases h
    exact (tickAction_atRest (s := s.setReady false) hw hv).endTick
  · cases h
    exact .inl hw

theorem exec_port_atRest {hiv : BitVec 5} {x y : Coord} {black : Bool} {i : Instr} (hi : i ∈ decodeHiv hiv x y black)
    {s u : State} (hw : s.work = []) (h : exec i s = .next u) : u.AtRest := by
  by_cases ht : i = .hostTick
  · exact exec_hostTick_atRest hw (ht ▸ h)
  · refine .inl ?_
    rw [exec_strobe_frame ?_ h]
    · exact hw
    · obtain ⟨hi, -⟩ | ⟨hi, -⟩ | ⟨hi, -⟩ | ⟨hi, -⟩ | ⟨hi, -⟩ := mem_decodeHiv hi
      · exact .inl hi
      · exact .inr (.inl hi)
      · exact .inr (.inr (.inr ⟨_, _, _, hi⟩))
      · exact .inr (.inr (.inl hi))
      · exact absurd hi ht

/-! ### The strobes of an edge, in the order of 43_display_controller.md R162 -/

theorem execAll_singleton (i : Instr) (s : State) : execAll [i] s = exec i s := by
  rw [execAll]
  cases exec i s <;> rfl

/-- The request strobes set their flags (43_display_controller.md R160, R161). -/
def State.portRequests (p : Ports) (s : State) : State :=
  { s with pending := p.hiv.getLsbD 1 || s.pending, sleepPending := p.hiv.getLsbD 2 || s.sleepPending }

/-- The pixel port writes in the drawing window (40_framebuffer.md R99). -/
def State.portPixel (p : Ports) (s : State) : State :=
  if s.drawReq && p.hiv.getLsbD 4 then s.setPixel p.px.x.toInt p.px.y.toInt p.px.black else s

/-- `draw_done` closes the drawing window (43_display_controller.md R147). -/
def State.portDrawDone (p : Ports) (s : State) : State := if p.hiv.getLsbD 3 then { s with drawReq := false } else s

/-- What the strobes of an edge but for the tick come to. -/
def State.strobed (p : Ports) (s : State) : State := ((s.portRequests p).portPixel p).portDrawDone p

theorem State.portPixel_drawReq (p : Ports) (s : State) : (s.portPixel p).drawReq = s.drawReq := by
  unfold State.portPixel
  split
  · rw [State.setPixel_frame]
  · rfl

theorem State.portPixel_work (p : Ports) (s : State) : (s.portPixel p).work = s.work := by
  unfold State.portPixel
  split
  · rw [State.setPixel_frame]
  · rfl

theorem State.portDrawDone_work (p : Ports) (s : State) : (s.portDrawDone p).work = s.work := by
  unfold State.portDrawDone
  split <;> rfl

theorem State.strobed_work (p : Ports) (s : State) : (s.strobed p).work = s.work :=
  (State.portDrawDone_work p _).trans (State.portPixel_work p _)

theorem execAll_requests (p : Ports) (s : State) :
    execAll ((if p.hiv.getLsbD 1 then [.hostRequestUpdate] else []) ++ if p.hiv.getLsbD 2 then [.hostSleepRequest] else [])
      s = .next (s.portRequests p) := by
  unfold State.portRequests
  cases p.hiv.getLsbD 1 <;> cases p.hiv.getLsbD 2 <;> rfl

theorem execAll_pixelSet {s : State} {d : Bool} (hd : s.drawReq = d) (p : Ports) :
    execAll (if p.hiv.getLsbD 4 && d then [.pixelSet p.px.x p.px.y p.px.black] else []) s = .next (s.portPixel p) := by
  rw [State.portPixel, hd, Bool.and_comm]
  split
  · rename_i h
    rw [execAll_singleton, exec_pixelSet_open (hd.trans (Bool.and_eq_true_iff.1 h).1)]
  · rfl

theorem execAll_drawDone {s : State} {d : Bool} (hd : s.drawReq = d) (p : Ports) :
    execAll (if p.hiv.getLsbD 3 && d then [.hostDrawDone] else []) s = .next (s.portDrawDone p) := by
  subst hd
  unfold State.portDrawDone
  cases p.hiv.getLsbD 3 with
  | false => rfl
  | true =>
    cases hd : s.drawReq with
    | false => exact congrArg Host.Outcome.next (by rw [if_pos rfl, ← hd])
    | true =>
      rw [Bool.and_self, if_pos rfl, execAll_singleton, exec, execHostDrawDone, if_pos hd]
      rfl

/-- The gates of an edge: the tick while `ready = 1`, the requests always, `draw_done` and the pixel in the drawing window
(43_display_controller.md R133, R147, 40_framebuffer.md R99). -/
theorem State.gate_getLsbD (s : State) :
    s.gate.getLsbD 0 = s.ready ∧ s.gate.getLsbD 1 = true ∧ s.gate.getLsbD 2 = true ∧ s.gate.getLsbD 3 = s.drawReq ∧
      s.gate.getLsbD 4 = s.drawReq := by
  unfold State.gate
  generalize s.drawReq = d
  generalize s.ready = r
  revert d r
  decide

theorem State.strobeOps_eq (s : State) (p : Ports) :
    s.strobeOps p =
      (if p.hiv.getLsbD 1 then [.hostRequestUpdate] else []) ++ (if p.hiv.getLsbD 2 then [.hostSleepRequest] else []) ++
      (if p.hiv.getLsbD 4 && s.drawReq then [.pixelSet p.px.x p.px.y p.px.black] else []) ++
      (if p.hiv.getLsbD 3 && s.drawReq then [.hostDrawDone] else []) := by
  obtain ⟨-, h1, h2, h3, h4⟩ := s.gate_getLsbD
  obtain ⟨m0, m1, m2, m3, m4⟩ : (0b11110 : BitVec 5).getLsbD 0 = false ∧ (0b11110 : BitVec 5).getLsbD 1 = true ∧
    (0b11110 : BitVec 5).getLsbD 2 = true ∧ (0b11110 : BitVec 5).getLsbD 3 = true ∧
    (0b11110 : BitVec 5).getLsbD 4 = true := by decide
  simp only [State.strobeOps, decodeHiv, BitVec.getLsbD_and, h1, h2, h3, h4, m0, m1, m2, m3, m4, Bool.and_true,
    Bool.and_false, Bool.false_eq_true, if_false, List.append_nil]

/-- The operations of an edge are its strobes, then the tick where the block is ready for it. -/
theorem State.portOps_eq_strobeOps_append (s : State) (p : Ports) :
    s.portOps p = s.strobeOps p ++ if p.hiv.getLsbD 0 && s.ready then [.hostTick] else [] := by
  rw [State.portOps_eq, BitVec.getLsbD_and, s.gate_getLsbD.1]

/-- The strobes but for the tick, one after the other, come to `State.strobed`. -/
theorem execAll_strobes {s v : State} (hd : v.drawReq = s.drawReq) (p : Ports) :
    execAll (s.strobeOps p) v = .next (v.strobed p) := by
  have h1 : (v.portRequests p).drawReq = s.drawReq := hd
  have h2 : ((v.portRequests p).portPixel p).drawReq = s.drawReq := (State.portPixel_drawReq p _).trans h1
  rw [State.strobeOps_eq, execAll_append, execAll_append, execAll_requests, andThen_next, execAll_pixelSet h1,
    andThen_next, execAll_drawDone h2]
  rfl

/-! ### The edge -/

/-- An edge of the transaction level runs the operations of its ports, then the rest of the tick (10_state.md R21). -/
theorem step_edge {s : State} {p : Ports} {d : Draws} {rest : List Input} (hv : s.cfg.valid = true)
    (hi : s.inputs = .edge p d :: rest) :
    step s = andThen (andThen (execAll (s.portOps p) (State.sample p d { s with inputs := rest })) drain)
      (fun t => .next t.dropDraws) := by
  rw [step_of_valid hv hi]
  rfl

/-- An operation that ends at rest, then the end of its edge. -/
theorem andThen_drain_dropDraws {o : Host.Outcome State Fault Refusal} (h : ∀ u, o = .next u → u.AtRest) :
    andThen (andThen o drain) (fun t => .next t.dropDraws) = andThen o (fun t => .next t.endTick.dropDraws) := by
  rw [andThen_assoc]
  exact andThen_congr fun u hu => by rw [drain_of_atRest (h u hu), andThen_next]

/-- The end of an edge as one record. -/
theorem State.dropDraws_endTick (s : State) :
    s.endTick.dropDraws =
      if s.work = [] then { s with ready := true, lapses := [], window := none }
      else { s with lapses := [], window := none } := by
  unfold State.endTick
  split <;> rfl

/-- The strobes of an edge, with the tick behind them where its gate is open. -/
theorem execAll_portOps {s v : State} (hd : v.drawReq = s.drawReq) (p : Ports) :
    execAll (s.portOps p) v =
      execAll (if p.hiv.getLsbD 0 && s.ready then [.hostTick] else []) (v.strobed p) := by
  rw [State.portOps_eq_strobeOps_append, execAll_append, execAll_strobes hd, andThen_next]

/-- Settles O8: the strobes of an edge come to `State.strobed`, the tick runs on what they leave, and each operation of the
ports ends at rest. -/
theorem stepRunsPortOperation : Obligations.StepRunsPortOperation := by
  intro s p d rest hv hi hw s0 done s1 s2 s3
  have hs3 : s3.work = [] := (State.strobed_work p s0).trans hw
  have hdone : (fun t => .next (done t) : State → Host.Outcome State Fault Refusal) = fun t => .next t.endTick.dropDraws :=
    funext fun t => congrArg _ (State.dropDraws_endTick t).symm
  have hops : execAll (s.portOps p) s0 = execAll (if p.hiv.getLsbD 0 && s.ready then [.hostTick] else []) s3 :=
    execAll_portOps (s := s) (v := s0) rfl p
  have hstep : step s = andThen (andThen (execAll (s.portOps p) s0) drain) (fun t => .next t.dropDraws) := step_edge hv hi
  rw [hdone, hstep]
  refine ⟨fun i hdec => ?_, fun hr ht => ?_, fun hno => ?_⟩
  · rw [State.portOps, hdec, execAll_singleton]
    exact andThen_drain_dropDraws fun u hu => exec_port_atRest (s := s0) (hdec ▸ List.mem_singleton_self i) hw hu
  · rw [hops, hr, ht, Bool.and_self, if_pos rfl, execAll_singleton]
    exact andThen_drain_dropDraws fun u hu => exec_hostTick_atRest hs3 hu
  · have hgate : (p.hiv.getLsbD 0 && s.ready) = false := by
      rw [Bool.and_eq_false_iff]
      exact hno.symm
    rw [hops, hgate, if_neg Bool.false_ne_true, execAll, andThen_drain_dropDraws fun u hu => ?_]
    · exact congrFun hdone.symm s3
    · cases hu
      exact .inl hs3

end Sys2Proof.Machine

namespace Sys2Proof.Machine

/-! ### Micro-steps, one by one (41_serial_encoder.md R107) -/

/-- The first `i + 1` micro-steps of a frame are the first `i`, then micro-step `i`. -/
theorem State.microSteps_range_succ (m : Bool) (b : Byte) (i : Nat) (s : State) :
    s.microSteps m b (List.range (i + 1)) =
      (s.microSteps m b (List.range i)).setPin (microStep m b i).1 (microStep m b i).2 := by
  simp only [State.microSteps, List.range_succ, List.foldl_append, List.foldl_cons, List.foldl_nil]

@[simp] theorem State.microSteps_cfg (m : Bool) (b : Byte) (is : List Nat) (s : State) :
    (s.microSteps m b is).cfg = s.cfg := by
  rw [State.microSteps_withWire]
  rfl

/-- Each micro-step records its pin change. -/
theorem State.microSteps_trace (m : Bool) (b : Byte) (is : List Nat) (s : State) :
    (s.microSteps m b is).trace = s.trace ++ is.map (fun i => .pin (microStep m b i).1 (microStep m b i).2) := by
  induction is generalizing s with
  | nil => simp [State.microSteps]
  | cons i is ih =>
    rw [State.microSteps_cons, ih, State.setPin_trace, List.append_assoc]
    rfl

/-- The first micro-steps of a frame record its first events. -/
theorem State.microSteps_range_trace (m : Bool) (b : Byte) {i : Nat} (h : i ≤ 27) (s : State) :
    (s.microSteps m b (List.range i)).trace = s.trace ++ (frameEvents m b).take i := by
  rw [State.microSteps_trace, frameEvents, ← List.map_take, List.take_range, Nat.min_eq_left h]

/-- The three micro-steps of data bit `7 - j`: the clock falls, the data line takes the bit, the clock rises
(41_serial_encoder.md R107). -/
theorem microStep_bit (m : Bool) (b : Byte) {j : Nat} (h : j < 8) :
    microStep m b (2 + 3 * j) = (.sclk, false) ∧ microStep m b (3 + 3 * j) = (.sdin, b.getLsbD (7 - j)) ∧
      microStep m b (4 + 3 * j) = (.sclk, true) := by
  interval_cases j <;> exact ⟨rfl, rfl, rfl⟩

/-- Settles O16: the mode line and the chip select, the three micro-steps of each of the eight bits, the chip select, each by
evaluation at its index. -/
theorem frameMicroSteps : Obligations.FrameMicroSteps := fun _ _ => rfl

/-! ### The pins during a frame (41_serial_encoder.md R110) -/

theorem microStep_fst_eq_dc_iff (m : Bool) (b : Byte) (i : Nat) : (microStep m b i).1 = .dc ↔ i = 0 := by
  unfold microStep
  repeat' split
  all_goals simp_all

theorem microStep_fst_eq_csN_iff (m : Bool) (b : Byte) (i : Nat) : (microStep m b i).1 = .csN ↔ i = 1 ∨ i = 26 := by
  unfold microStep lastMicroStep
  repeat' split
  all_goals simp_all

/-- The mode line has its level from micro-step 0 on. -/
theorem State.microSteps_range_dc (m : Bool) (b : Byte) {i : Nat} (h : 1 ≤ i) (s : State) :
    (s.microSteps m b (List.range i)).dc = m := by
  induction i, h using Nat.le_induction with
  | base => rfl
  | succ i hi ih =>
    have hpin : (microStep m b i).1 ≠ .dc := (microStep_fst_eq_dc_iff m b i).not.2 (by omega)
    rw [State.microSteps_range_succ, State.setPin_dc, if_neg hpin, ih]

/-- The chip select is low from micro-step 1 until micro-step 26. -/
theorem State.microSteps_range_csN (m : Bool) (b : Byte) {i : Nat} (h : 2 ≤ i) (h26 : i ≤ 26) (s : State) :
    (s.microSteps m b (List.range i)).csN = false := by
  induction i, h using Nat.le_induction with
  | base => rfl
  | succ i hi ih =>
    have hpin : (microStep m b i).1 ≠ .csN := (microStep_fst_eq_csN_iff m b i).not.2 (by omega)
    rw [State.microSteps_range_succ, State.setPin_csN, if_neg hpin, ih (by omega)]

/-- The data line has bit `7 - j` when the clock is about to rise for it. -/
theorem State.microSteps_range_sdin (m : Bool) (b : Byte) {j : Nat} (h : j < 8) (s : State) :
    (s.microSteps m b (List.range (4 + 3 * j))).sdin = b.getLsbD (7 - j) := by
  obtain ⟨-, hdata, -⟩ := microStep_bit m b h
  rw [show 4 + 3 * j = 3 + 3 * j + 1 by omega, State.microSteps_range_succ, hdata]
  rfl

/-- The clock's level after the first `i` micro-steps of a frame that finds it at `c`: it stays until micro-step 2, and is
high between the rise of one bit and the fall of the next, and at the end (41_serial_encoder.md R107). -/
def clockAfter (c : Bool) (i : Nat) : Bool := if i ≤ 2 then c else decide (i % 3 = 2 ∨ i = 27)

theorem clockAfter_succ (m : Bool) (b : Byte) (c : Bool) {i : Nat} (h : i ≤ 26) :
    clockAfter c (i + 1) = if (microStep m b i).1 = .sclk then (microStep m b i).2 else clockAfter c i := by
  interval_cases i <;> rfl

theorem State.microSteps_range_sclk (m : Bool) (b : Byte) {i : Nat} (h : i ≤ 27) (s : State) :
    (s.microSteps m b (List.range i)).sclk = clockAfter s.sclk i := by
  induction i with
  | zero => rfl
  | succ i ih => rw [State.microSteps_range_succ, State.setPin_sclk, ih (by omega), ← clockAfter_succ m b _ (by omega)]

/-- The clock rises in the third micro-step of each bit. -/
theorem filter_clockAfter_rise (c : Bool) :
    (List.range 27).filter (fun i => !clockAfter c i && clockAfter c (i + 1)) = (List.range 8).map (fun j => 4 + 3 * j) := by
  cases c <;> decide

/-- The clock falls in the first micro-step of each bit, of the first one only from 1. -/
theorem length_filter_clockAfter_fall (c : Bool) :
    ((List.range 27).filter (fun i => clockAfter c i && !clockAfter c (i + 1))).length = if c then 8 else 7 := by
  cases c <;> decide

/-- Settles O17: the clock's level after each micro-step decides where it rises and falls; the data line is the bit's at each
rise; no micro-step but the first writes the mode line, and none between micro-steps 1 and 26 the chip select. -/
theorem frameClockEdges : Obligations.FrameClockEdges := by
  intro s m b after
  have hsclk : ∀ i ∈ List.range 27, (after i).sclk = clockAfter s.sclk i ∧ (after (i + 1)).sclk = clockAfter s.sclk (i + 1) :=
    fun i hi => by
      have h := List.mem_range.1 hi
      exact ⟨State.microSteps_range_sclk m b (by omega) s, State.microSteps_range_sclk m b (by omega) s⟩
  refine ⟨?_, ?_, fun i h1 _ => State.microSteps_range_dc m b h1 s, fun i h2 h26 => State.microSteps_range_csN m b h2 h26 s,
    rfl⟩
  · have hrise := List.filter_congr (l := List.range 27) (p := fun i => !(after i).sclk && (after (i + 1)).sclk)
      (q := fun i => !clockAfter s.sclk i && clockAfter s.sclk (i + 1)) fun i hi => by
        obtain ⟨h, h'⟩ := hsclk i hi
        rw [h, h']
    rw [hrise, filter_clockAfter_rise, List.map_map]
    exact List.map_congr_left fun j hj =>
      congrArg (Prod.mk (4 + 3 * j)) (State.microSteps_range_sdin m b (List.mem_range.1 hj) s)
  · rw [← length_filter_clockAfter_fall]
    refine congrArg List.length (List.filter_congr fun i hi => ?_)
    obtain ⟨h, h'⟩ := hsclk i hi
    rw [h, h']

/-! ### The whole frame (41_serial_encoder.md R108, R109) -/

theorem exec_send (m : Bool) (b : Byte) (s : State) :
    exec (if m then .sendData b else .sendCommand b) s = .next (s.sendFrame m b) := by
  cases m <;> rfl

/-- Either operation completes, leaves the bus pins at its frame's last levels and writes the wire only. -/
theorem exec_send_result (m : Bool) (b : Byte) (s : State) :
    ∃ t, exec (if m then .sendData b else .sendCommand b) s = .next t ∧ t.trace = s.trace ++ frameEvents m b ∧
      t.dc = m ∧ t.csN = true ∧ t.sclk = true ∧ t.sdin = b.getLsbD 0 ∧ t.encBusy = false ∧ t = s.withWire t :=
  ⟨s.sendFrame m b, exec_send m b s, State.sendFrame_trace s m b, State.sendFrame_dc s m b, State.sendFrame_csN s m b,
    State.sendFrame_sclk s m b, State.sendFrame_sdin s m b, State.sendFrame_encBusy s m b, State.sendFrame_frame m b s⟩

/-- Settles O18: SEND_COMMAND is the frame in mode 0, SEND_DATA the frame in mode 1. -/
theorem sendByteResults : Obligations.SendByteResults := fun s b =>
  ⟨exec_send_result false b s, exec_send_result true b s⟩

/-! ### A frame at the cycle level, edge by edge (41_serial_encoder.md R106) -/

/-- Without a frame in progress the encoder's cycle does nothing. -/
theorem State.encoderEdge_of_idle {s : State} (h : s.encBusy = false) : s.encoderEdge = s := by
  simp [State.encoderEdge, h]

theorem State.encoderEdge_of_hold {s : State} (hb : s.encBusy = true) (h0 : s.encHold ≠ 0)
    (hl : s.encHold < s.cfg.encStepCycles) : s.encoderEdge = { s with encHold := s.encHold + 1 } := by
  simp [State.encoderEdge, hb, h0, hl]

theorem State.encoderEdge_of_finish {s : State} (hb : s.encBusy = true) (h0 : s.encHold ≠ 0)
    (hl : s.cfg.encStepCycles ≤ s.encHold) (h26 : 26 ≤ s.encStep.toNat) : s.encoderEdge = { s with encBusy := false } := by
  simp [State.encoderEdge, lastMicroStep, hb, h0, hl.not_gt, h26]

theorem State.encoderEdge_of_advance {s : State} (hb : s.encBusy = true) (h0 : s.encHold ≠ 0)
    (hl : s.cfg.encStepCycles ≤ s.encHold) (h26 : s.encStep.toNat < 26) :
    s.encoderEdge = { s.stepPin (s.encStep.toNat + 1) with encStep := s.encStep + 1, encHold := 1 } := by
  simp [State.encoderEdge, State.stepPin, lastMicroStep, hb, h0, hl.not_gt, h26.not_ge]

/-- The frame of `m` and `b` with micro-step `i` the last one made, its levels held for `k` cycles. -/
def State.inFrame (m : Bool) (b : Byte) (i k : Nat) (s : State) : State :=
  { s.microSteps m b (List.range (i + 1)) with
    encMode := m, encByte := b, encStep := BitVec.ofNat 5 i, encHold := k, encBusy := true }

section

variable {m : Bool} {b : Byte} {i k : Nat} {s : State}

@[simp] theorem State.inFrame_cfg : (s.inFrame m b i k).cfg = s.cfg := State.microSteps_cfg ..

theorem State.inFrame_encStep (hi : i ≤ 26) : (s.inFrame m b i k).encStep.toNat = i :=
  (BitVec.toNat_ofNat ..).trans (Nat.mod_eq_of_lt (by omega))

theorem State.inFrame_trace (hi : i ≤ 26) : (s.inFrame m b i k).trace = s.trace ++ (frameEvents m b).take (i + 1) :=
  State.microSteps_range_trace m b (by omega) s

/-- The first edge after the start makes micro-step 0. -/
theorem State.encoderEdge_startFrame : (s.startFrame m b).encoderEdge = s.inFrame m b 0 1 := rfl

/-- A micro-step's levels are held for `ENC_STEP_CYCLES` cycles. -/
theorem State.encoderEdge_inFrame_hold (h0 : k ≠ 0) (hk : k < s.cfg.encStepCycles) :
    (s.inFrame m b i k).encoderEdge = s.inFrame m b i (k + 1) :=
  State.encoderEdge_of_hold (s := s.inFrame m b i k) rfl h0 (by rwa [State.inFrame_cfg])

/-- Then the next micro-step is made. -/
theorem State.encoderEdge_inFrame_advance (h1 : 1 ≤ s.cfg.encStepCycles) (hi : i < 26) :
    (s.inFrame m b i s.cfg.encStepCycles).encoderEdge = s.inFrame m b (i + 1) 1 := by
  have hstep : (s.inFrame m b i s.cfg.encStepCycles).encStep.toNat = i := State.inFrame_encStep hi.le
  rw [State.encoderEdge_of_advance (s := s.inFrame m b i s.cfg.encStepCycles) rfl (Nat.ne_of_gt h1)
    (by rw [State.inFrame_cfg]; exact le_rfl) (hstep.trans_lt hi), hstep, State.stepPin, State.inFrame, State.inFrame,
    State.microSteps_range_succ m b (i + 1), BitVec.ofNat_add]
  dsimp only
  cases (microStep m b (i + 1)).1 <;> rfl

/-- After the last micro-step's cycles the frame ends as a whole frame does (log entry 8). -/
theorem State.encoderEdge_inFrame_last (h1 : 1 ≤ s.cfg.encStepCycles) :
    (s.inFrame m b 26 s.cfg.encStepCycles).encoderEdge = s.sendFrame m b := by
  have hcycles : (s.microSteps m b (List.range 27)).cfg.encStepCycles = s.cfg.encStepCycles := by rw [State.microSteps_cfg]
  rw [State.encoderEdge_of_finish (s := s.inFrame m b 26 s.cfg.encStepCycles) rfl (Nat.ne_of_gt h1)
    (by rw [State.inFrame_cfg]; exact le_rfl) le_rfl, State.sendFrame, State.frameEnded, hcycles]
  rfl

/-- Micro-step `i` holds its levels. -/
theorem State.iterate_encoderEdge_inFrame (hk : k < s.cfg.encStepCycles) :
    State.encoderEdge^[k] (s.inFrame m b i 1) = s.inFrame m b i (k + 1) := by
  induction k with
  | zero => rfl
  | succ k ih =>
    rw [Function.iterate_succ_apply', ih (by omega), State.encoderEdge_inFrame_hold (Nat.succ_ne_zero k) hk]

/-- The edges that a micro-step's levels are held, and the one that changes them. -/
theorem State.iterate_encoderEdge_microStep (h1 : 1 ≤ s.cfg.encStepCycles) :
    State.encoderEdge^[s.cfg.encStepCycles] (s.inFrame m b i 1) = (s.inFrame m b i s.cfg.encStepCycles).encoderEdge := by
  obtain ⟨c, hc⟩ : ∃ c, s.cfg.encStepCycles = c + 1 := ⟨s.cfg.encStepCycles - 1, by omega⟩
  rw [hc, Function.iterate_succ_apply', State.iterate_encoderEdge_inFrame (by omega)]

/-- Micro-step `i` is made at edge `1 + i * ENC_STEP_CYCLES`. -/
theorem State.iterate_encoderEdge_startFrame (h1 : 1 ≤ s.cfg.encStepCycles) (hi : i ≤ 26) :
    State.encoderEdge^[1 + i * s.cfg.encStepCycles] (s.startFrame m b) = s.inFrame m b i 1 := by
  induction i with
  | zero =>
    rw [Nat.zero_mul]
    exact State.encoderEdge_startFrame
  | succ i ih =>
    rw [show 1 + (i + 1) * s.cfg.encStepCycles = s.cfg.encStepCycles + (1 + i * s.cfg.encStepCycles) by ring,
      Function.iterate_add_apply, ih (by omega), State.iterate_encoderEdge_microStep h1,
      State.encoderEdge_inFrame_advance h1 (by omega)]

/-- The frame ends at edge `1 + 27 * ENC_STEP_CYCLES`, and no later edge changes what it leaves. -/
theorem State.iterate_encoderEdge_sendFrame (h1 : 1 ≤ s.cfg.encStepCycles) :
    State.encoderEdge^[k + (1 + 27 * s.cfg.encStepCycles)] (s.startFrame m b) = s.sendFrame m b := by
  rw [show k + (1 + 27 * s.cfg.encStepCycles) = k + s.cfg.encStepCycles + (1 + 26 * s.cfg.encStepCycles) by ring,
    Function.iterate_add_apply, State.iterate_encoderEdge_startFrame h1 le_rfl, Function.iterate_add_apply,
    State.iterate_encoderEdge_microStep h1, State.encoderEdge_inFrame_last h1]
  exact Function.iterate_fixed (State.encoderEdge_of_idle (State.sendFrame_encBusy s m b)) k

end

/-- Settles O14: the edges before the frame's end are those of its micro-steps, `ENC_STEP_CYCLES` each, and the edge that
ends it leaves what the whole frame leaves. -/
theorem encoderCycleTiming : Obligations.EncoderCycleTiming := by
  intro s m b h1 _ at'
  refine ⟨⟨rfl, rfl⟩, fun i n hi hlo hhi => ?_, fun n hn => ?_⟩
  · obtain ⟨k, rfl⟩ := Nat.exists_eq_add_of_le' hlo
    have hk : k < s.cfg.encStepCycles := by
      rw [Nat.add_mul] at hhi
      omega
    have hat : at' (k + (1 + i * s.cfg.encStepCycles)) = s.inFrame m b i (k + 1) := by
      rw [← State.iterate_encoderEdge_inFrame hk, ← State.iterate_encoderEdge_startFrame h1 hi]
      exact Function.iterate_add_apply ..
    rw [hat]
    exact ⟨State.inFrame_trace hi, rfl⟩
  · obtain ⟨k, rfl⟩ := Nat.exists_eq_add_of_le' hn
    have hat : at' (k + (1 + 27 * s.cfg.encStepCycles)) = s.sendFrame m b := State.iterate_encoderEdge_sendFrame h1
    rw [hat]
    exact ⟨State.sendFrame_encBusy s m b, exec_send m b s⟩

/-! ### What the control does to the bus pins (41_serial_encoder.md R112) -/

/-- The bus pins and the record of their events. -/
def State.bus (s : State) : Bool × Bool × Bool × Bool × List TraceEvent :=
  (s.dc, s.csN, s.sclk, s.sdin, s.trace.filter isBusEvent)

theorem State.withWire_bus (s t : State) : (s.withWire t).bus = t.bus := rfl

theorem State.emit_bus {e : TraceEvent} (h : isBusEvent e = false) (s : State) : (s.emit e).bus = s.bus := by
  simp [State.bus, List.filter_append, h]

theorem State.setPin_panelRst_bus (v : Bool) (s : State) : (s.setPin .panelRst v).bus = s.bus :=
  State.emit_bus rfl (s.drive .panelRst v)

theorem waitBusy_bus (timeout : Word32) (exit : DState) (s : State) : (waitBusy timeout exit s).bus = s.bus := by
  have hsample : s.sampleBusy.bus = s.bus := by
    unfold State.sampleBusy
    split
    · exact State.emit_bus rfl s
    · rfl
  unfold waitBusy
  split <;> exact hsample

/-- An action without frames leaves the bus pins. -/
theorem tickAction_bus {s u : State} (hs : s.st.sends = false) (h : tickAction s = .next u) : u.bus = s.bus := by
  unfold tickAction at h
  generalize s.st = d at hs h
  cases d with
  | initStart | initDone | updateDone =>
    cases h
    rfl
  | initReset =>
    cases h
    split
    · exact State.setPin_panelRst_bus true s
    · rfl
  | initWaitReset | initWaitResetLow =>
    cases h
    split
    · exact State.setPin_panelRst_bus _ s
    · rfl
  | initWaitResetHigh =>
    cases h
    split <;> rfl
  | initWaitBusy | updateWaitBusy | updateWaitRefresh =>
    cases h
    exact waitBusy_bus ..
  | idle =>
    cases h
    split
    · rfl
    · split <;> rfl
  | updateStart =>
    obtain ⟨_, _, _, -, rfl⟩ | ⟨_, _, rfl⟩ := execStateUpdateStart_cases h <;> rfl
  | initSendCommands | updatePrepare | updateSendingData | updateRefresh | deepSleep => cases hs

theorem beginAction_bus {s u : State} (h : beginAction s = .next u) : u.bus = s.bus := by
  cases beginAction_cases h with
  | quiet hs => exact tickAction_bus hs (beginAction_of_not_sends hs ▸ h)
  | chunk2 =>
    unfold State.startRow
    split <;> rfl
  | leave | openWindow | run | prepare | asleep | chunk1 => rfl

/-- A control action leaves the bus pins: it starts frames, and makes no micro-step. -/
theorem taskAction_bus {t : Task} {s u : State} (h : taskAction t s = .next u) : u.bus = s.bus := by
  cases t with
  | action => exact beginAction_bus h
  | seqDelay =>
    obtain ⟨d, hd⟩ := beginDelay_next h
    cases (beginDelay_eq hd).symm.trans h
    exact State.emit_bus (e := .wait d) rfl s
  | seqHead =>
    change beginStep s = _ at h
    unfold beginStep at h
    repeat' split at h
    all_goals cases h
    all_goals rfl
  | seqArgs =>
    change beginArg s = _ at h
    unfold beginArg at h
    repeat' split at h
    all_goals cases h
    all_goals rfl
  | run | seqTake | argSent | colSent | switchTarget | sleepDone | goto =>
    cases h
    rfl
  | seqHold | frame | window | endChunk1 =>
    cases h
    split <;> rfl
  | sendFb a n =>
    cases h
    cases n <;> rfl
  | rows r =>
    cases h
    unfold beginRowByte State.startRow
    repeat' split
    all_goals rfl
  | endChunk2 =>
    cases h
    unfold beginEndChunk2
    repeat' split
    all_goals rfl

theorem controlAction_bus {s u : State} (h : controlAction s = .next u) : u.bus = s.bus := by
  unfold controlAction at h
  split at h
  · cases h
    rfl
  · rename_i t ts _
    exact taskAction_bus (s := { s with work := ts }) h

theorem State.endHold_bus (s : State) : s.endHold.bus = s.bus := by
  obtain h | h := s.endHold_cases
  · rw [h]
  · exact controlAction_bus h

/-- Before the strobes, an edge leaves the bus pins to the encoder's cycle. -/
theorem clockControl_bus {n : Nat} {s u : State} (h : clockControl n s = .next u) : u.bus = s.encoderEdge.bus := by
  unfold clockControl controlEdge at h
  split at h
  · cases h
    rfl
  · rename_i hb
    rw [State.encoderEdge_of_idle (Bool.eq_false_iff.2 hb)]
    split at h
    · cases h
      rfl
    · exact controlActions_keeps (P := fun v => v.bus = s.bus) (fun hk hv => (controlAction_bus hv).trans hk) s.endHold_bus h

/-! ### A clock edge and the wire -/

/-- The strobes but for the tick write the two request flags, `draw_req` and the framebuffer. -/
theorem execAll_strobes_frame {s v u : State} {p : Ports} (h : execAll (s.strobeOps p) v = .next u) :
    ∃ pending sleepPending drawReq fb,
      u = { v with pending := pending, sleepPending := sleepPending, drawReq := drawReq, fb := fb } := by
  refine execAll_keeps (P := fun u => ∃ pending sleepPending drawReq fb,
    u = { v with pending := pending, sleepPending := sleepPending, drawReq := drawReq, fb := fb }) ?_ ⟨_, _, _, _, rfl⟩ h
  rintro i hi a b ⟨_, _, _, _, rfl⟩ hb
  have hframe := exec_strobe_frame (State.mem_strobeOps hi) hb
  exact ⟨_, _, _, _, hframe⟩

/-- After its control's part an edge leaves the wire, and records the levels. -/
theorem clockEdge_next {p : Ports} {n : Nat} {s t : State} (h : clockEdge p n s = .next t) :
    ∃ u, clockControl n (s.sample p { lapses := [], window := none }) = .next u ∧ t = t.withWire u ∧
      t.wave = u.wave ++ [t.levels] := by
  rw [clockEdge_eq] at h
  obtain ⟨v, hv, h⟩ := andThen_eq_next.1 h
  obtain ⟨u, hu, hv⟩ := andThen_eq_next.1 hv
  obtain ⟨_, _, _, _, rfl⟩ := execAll_strobes_frame hv
  refine ⟨u, hu, ?_⟩
  cases h
  split <;> exact ⟨rfl, rfl⟩

/-- The encoder's cycle does not write the frame's mode and byte. -/
theorem EncoderCycle.mode_byte {s u : State} (h : EncoderCycle s u) : u.encMode = s.encMode ∧ u.encByte = s.encByte := by
  cases h with
  | idle | hold | finish => exact ⟨rfl, rfl⟩
  | first | advance => exact ⟨State.setPin_encMode .., State.setPin_encByte ..⟩

/-- The encoder's cycle does not look at the ports. -/
theorem State.sample_encoderEdge (p : Ports) (d : Draws) (s : State) :
    (s.sample p d).encoderEdge = (s.sample p d).withWire s.encoderEdge :=
  State.encoderEdge_withWire_comm (v := s.sample p d) (s := s) rfl

/-- Settles O15: a control action makes no micro-step, the strobes and the tick leave the wire, and with a frame in progress
the control does nothing, so that the wire is that of the encoder's cycle. -/
theorem busPinsOnlyByEncoder : Obligations.BusPinsOnlyByEncoder := by
  intro s t p n h
  obtain ⟨u, hu, hwire, hwave⟩ := clockEdge_next h
  have hcycle := State.sample_encoderEdge p { lapses := [], window := none } s
  have hbus : t.bus = s.encoderEdge.bus :=
    calc t.bus = u.bus := (congrArg State.bus hwire).trans (State.withWire_bus t u)
      _ = (s.sample p { lapses := [], window := none }).encoderEdge.bus := clockControl_bus hu
      _ = s.encoderEdge.bus := (congrArg State.bus hcycle).trans (State.withWire_bus _ s.encoderEdge)
  simp only [State.bus, Prod.mk.injEq] at hbus
  obtain ⟨hdc, hcsN, hsclk, hsdin, hevents⟩ := hbus
  refine ⟨⟨hdc, hcsN, hsclk, hsdin⟩, hevents, ?_, fun hb => ?_⟩
  · rw [hwave, clockControl_wave hu]
    rfl
  · have hu' : u = (s.sample p { lapses := [], window := none }).withWire s.encoderEdge := by
      rw [clockControl, if_pos (by exact hb), hcycle] at hu
      exact (Host.Outcome.next.inj hu).symm
    obtain ⟨hmode, hbyte⟩ := s.encoderEdge_cases.mode_byte
    rw [hwire, hu']
    exact ⟨hmode, hbyte, rfl, rfl, rfl, rfl⟩

end Sys2Proof.Machine

namespace Sys2Proof

/-! ### The steps of a table, one after another (42_sequence_interpreter.md R127, R128) -/

/-- A position of a table that is neither its end nor ill formed: a step, with or without delay, that the encoding holds
(30_encoding.md R78, R79). -/
inductive SeqOp.IsStep : SeqOp → Prop
  | step {cmd : Byte} {args : List Byte} (hc : cmd ≠ 0xFF) (hl : args.length ≤ 127) : IsStep (.step cmd args)
  | stepDelay {cmd dly : Byte} {args : List Byte} (hc : cmd ≠ 0xFF) (hl : args.length ≤ 127) :
      IsStep (.stepDelay cmd dly args)

theorem SeqOp.isStep_iff (op : SeqOp) :
    op.IsStep ↔ op ≠ .finish ∧ (∀ k, op ≠ .illegal k) ∧ op.instr.wf = true := by
  constructor
  · rintro (⟨hc, hl⟩ | ⟨hc, hl⟩)
    · exact ⟨nofun, nofun, wf_seqStep_iff.2 ⟨hc, hl⟩⟩
    · exact ⟨nofun, nofun, wf_seqStepDelay_iff.2 ⟨hc, hl⟩⟩
  · rintro ⟨hfin, hill, hwf⟩
    cases op with
    | finish => exact absurd rfl hfin
    | illegal k => exact absurd rfl (hill k)
    | step cmd args => exact .step (wf_seqStep_iff.1 hwf).1 (wf_seqStep_iff.1 hwf).2
    | stepDelay cmd dly args => exact .stepDelay (wf_seqStepDelay_iff.1 hwf).1 (wf_seqStepDelay_iff.1 hwf).2

/-- The hypothesis the statements put on a list of steps. -/
theorem forall_isStep_iff (ops : List SeqOp) :
    (∀ op ∈ ops, op.IsStep) ↔ ∀ op ∈ ops, op ≠ .finish ∧ (∀ k, op ≠ .illegal k) ∧ op.instr.wf = true := by
  simp only [SeqOp.isStep_iff]

theorem SeqOp.IsStep.wf {op : SeqOp} (h : op.IsStep) : op.instr.wf = true := ((SeqOp.isStep_iff op).1 h).2.2

theorem SeqOp.IsStep.ne_finish {op : SeqOp} (h : op.IsStep) : op ≠ .finish := ((SeqOp.isStep_iff op).1 h).1

/-- What a decoded position is. -/
theorem isStep_of_decodeSeq {bytes rest : List Byte} {op : SeqOp} (hd : decodeSeq bytes = .ok (op, rest)) :
    op = .finish ∨ (∃ k, op = .illegal k) ∨ op.IsStep := by
  rw [SeqOp.isStep_iff]
  have hwf := (decodeSeq_ok hd).2
  cases op with
  | finish => exact .inl rfl
  | illegal k => exact .inr (.inl ⟨k, rfl⟩)
  | step | stepDelay => exact .inr (.inr ⟨nofun, nofun, hwf⟩)

/-! ### The walk and the steps, whatever bounds them -/

theorem wfWalk_eq_wfTable {n : Nat} {bytes : List Byte} (h : bytes.length < n) : wfWalk n bytes = wfTable bytes :=
  Bool.eq_iff_iff.2 ⟨fun hw => wfWalk_of_length_lt hw (Nat.lt_succ_self _), fun hw => wfWalk_of_length_lt hw h⟩

/-- What stands behind a decoded position is shorter by two bytes or more (30_encoding.md R75). -/
theorem length_of_decodeSeq {bytes rest : List Byte} {op : SeqOp} (hd : decodeSeq bytes = .ok (op, rest)) :
    bytes.length = Machine.opLen op + rest.length := by
  rw [(decodeSeq_ok hd).1, List.length_append, SeqOp.length_bytes]

/-- The bound on the steps does not matter once it passes the bytes. -/
theorem seqOps_fuel {n m : Nat} {bytes : List Byte} (hn : bytes.length < n) (hm : bytes.length < m) :
    seqOps n bytes = seqOps m bytes := by
  induction n generalizing m bytes with
  | zero => exact absurd hn (Nat.not_lt_zero _)
  | succ n ih =>
    obtain ⟨m, rfl⟩ : ∃ k, m = k + 1 := ⟨m - 1, by omega⟩
    cases hd : decodeSeq bytes with
    | error e => simp [seqOps, hd]
    | ok p =>
      obtain ⟨op, rest⟩ := p
      have hlen := length_of_decodeSeq hd
      have h2 := two_le_opLen op
      have hrest : seqOps n rest = seqOps m rest := ih (by omega) (by omega)
      cases op <;> simp [seqOps, hd, hrest]

theorem seqOps_eq_tableOps {n : Nat} {bytes : List Byte} (h : bytes.length < n) : seqOps n bytes = tableOps bytes :=
  seqOps_fuel h (Nat.lt_succ_self _)

/-- The walk passes a head and the delay byte and arguments its count byte announces. -/
theorem wfWalk_head {c k : Byte} {body : List Byte} (hc : c ≠ 0xFF) (hb : body.length = (cntDelay k).toNat + cntArgs k)
    (n : Nat) (rest : List Byte) : wfWalk (n + 1) (c :: k :: (body ++ rest)) = wfWalk n rest := by
  have hfits : ¬(body ++ rest).length < (cntDelay k).toNat + cntArgs k := by
    rw [List.length_append]
    omega
  rw [wfWalk, if_neg hc, if_neg hfits, ← hb, List.drop_left]

theorem wfWalk_bytes_append {op : SeqOp} (h : op.IsStep) (n : Nat) (rest : List Byte) :
    wfWalk (n + 1) (op.bytes ++ rest) = wfWalk n rest := by
  cases h with
  | @step cmd args hc hl =>
    refine wfWalk_head (body := args) hc ?_ n rest
    rw [cntDelay_countByte, cntArgs_countByte _ hl, Bool.toNat_false, Nat.zero_add]
  | @stepDelay cmd dly args hc hl =>
    refine wfWalk_head (body := dly :: args) hc ?_ n rest
    rw [cntDelay_countByte, cntArgs_countByte _ hl, Bool.toNat_true, List.length_cons, Nat.add_comm]

theorem seqOps_bytes_append {op : SeqOp} (h : op.IsStep) (n : Nat) (rest : List Byte) :
    seqOps (n + 1) (op.bytes ++ rest) = op :: seqOps n rest := by
  have hd := decodeSeq_bytes h.wf rest
  cases h <;> simp [seqOps, hd]

/-- A step in front of a table does not change whether the table is well formed. -/
theorem wfTable_bytes_append {op : SeqOp} (h : op.IsStep) (rest : List Byte) :
    wfTable (op.bytes ++ rest) = wfTable rest := by
  have h2 := two_le_opLen op
  rw [wfTable, wfWalk_bytes_append h, wfWalk_eq_wfTable]
  rw [List.length_append, SeqOp.length_bytes]
  omega

theorem tableOps_bytes_append {op : SeqOp} (h : op.IsStep) (rest : List Byte) :
    tableOps (op.bytes ++ rest) = op :: tableOps rest := by
  have h2 := two_le_opLen op
  rw [tableOps, seqOps_bytes_append h, seqOps_eq_tableOps]
  rw [List.length_append, SeqOp.length_bytes]
  omega

/-! ### A list of steps in front -/

theorem wfTable_steps_append {ops : List SeqOp} (h : ∀ op ∈ ops, op.IsStep) (rest : List Byte) :
    wfTable (ops.flatMap SeqOp.bytes ++ rest) = wfTable rest := by
  induction ops with
  | nil => rfl
  | cons op ops ih =>
    rw [List.forall_mem_cons] at h
    rw [List.flatMap_cons, List.append_assoc, wfTable_bytes_append h.1, ih h.2]

theorem tableOps_steps_append {ops : List SeqOp} (h : ∀ op ∈ ops, op.IsStep) (rest : List Byte) :
    tableOps (ops.flatMap SeqOp.bytes ++ rest) = ops ++ tableOps rest := by
  induction ops with
  | nil => rfl
  | cons op ops ih =>
    rw [List.forall_mem_cons] at h
    rw [List.flatMap_cons, List.append_assoc, tableOps_bytes_append h.1, ih h.2, List.cons_append]

theorem wfTable_end (junk : List Byte) : wfTable (0xFF :: 0xFF :: junk) = true := rfl

theorem tableOps_end (junk : List Byte) : tableOps (0xFF :: 0xFF :: junk) = [] := rfl

theorem wfTable_illegal {cnt : Byte} (h : cnt ≠ 0xFF) (after : List Byte) : wfTable (0xFF :: cnt :: after) = false :=
  decide_eq_false h

/-- A list of steps and an end marker has those steps. -/
theorem tableOps_of_shape {ops : List SeqOp} (h : ∀ op ∈ ops, op.IsStep) (junk : List Byte) :
    tableOps (ops.flatMap SeqOp.bytes ++ 0xFF :: 0xFF :: junk) = ops := by
  rw [tableOps_steps_append h, tableOps_end, List.append_nil]

/-- A well-formed walk is at its end marker, or at a step with a well-formed walk behind it. -/
theorem decodeSeq_of_wfWalk {n : Nat} {bytes : List Byte} (h : wfWalk (n + 1) bytes = true) :
    ∃ op rest, decodeSeq bytes = .ok (op, rest) ∧ (op = .finish ∨ op.IsStep ∧ wfWalk n rest = true) := by
  obtain ⟨rest, hd⟩ | ⟨cmd, args, rest, hd, hw⟩ | ⟨cmd, dly, args, rest, hd, hw⟩ := wfWalk_decode h
  · exact ⟨_, _, hd, .inl rfl⟩
  · exact ⟨_, _, hd, .inr ⟨(SeqOp.isStep_iff _).2 ⟨nofun, nofun, (decodeSeq_ok hd).2⟩, hw⟩⟩
  · exact ⟨_, _, hd, .inr ⟨(SeqOp.isStep_iff _).2 ⟨nofun, nofun, (decodeSeq_ok hd).2⟩, hw⟩⟩

/-- A walk to the end marker passes a list of steps: induction on the walk, one step at a time. -/
theorem exists_steps_of_wfWalk {n : Nat} {bytes : List Byte} (h : wfWalk n bytes = true) :
    ∃ (ops : List SeqOp) (junk : List Byte),
      (∀ op ∈ ops, op.IsStep) ∧ bytes = ops.flatMap SeqOp.bytes ++ 0xFF :: 0xFF :: junk := by
  induction n generalizing bytes with
  | zero => cases h
  | succ n ih =>
    obtain ⟨op, rest, hd, rfl | ⟨hop, hw⟩⟩ := decodeSeq_of_wfWalk h
    · exact ⟨[], rest, nofun, (decodeSeq_ok hd).1⟩
    · obtain ⟨ops, junk, hops, rfl⟩ := ih hw
      exact ⟨op :: ops, junk, List.forall_mem_cons.2 ⟨hop, hops⟩, (decodeSeq_ok hd).1.trans (by simp)⟩

/-- A well-formed table is its steps, the end marker and what stands behind it. -/
theorem shape_of_wfTable {t : List Byte} (h : wfTable t = true) :
    (∀ op ∈ tableOps t, op.IsStep) ∧
      ∃ junk, t = (tableOps t).flatMap SeqOp.bytes ++ 0xFF :: 0xFF :: junk := by
  obtain ⟨ops, junk, hops, rfl⟩ := exists_steps_of_wfWalk h
  rw [tableOps_of_shape hops]
  exact ⟨hops, junk, rfl⟩

/-- Settles O7: steps in front of a table do not change whether it is well formed, and a walk that answers true passes such
steps up to its end marker. -/
theorem wellFormedTableShape : Obligations.WellFormedTableShape := by
  intro t
  simp only [← forall_isStep_iff]
  refine ⟨⟨exists_steps_of_wfWalk, ?_⟩, ?_⟩
  · rintro ⟨ops, junk, hops, rfl⟩
    rw [wfTable_steps_append hops, wfTable_end]
  · rintro ops junk hops rfl
    exact tableOps_of_shape hops junk

/-! ### Another table at a selector -/

theorem Config.table_withTable (c : Config) (sel : TableSel) (t : List Byte) : (c.withTable sel t).table sel = t := by
  cases sel <;> rfl

theorem Config.encStepCycles_withTable (c : Config) (sel : TableSel) (t : List Byte) :
    (c.withTable sel t).encStepCycles = c.encStepCycles := by
  cases sel <;> rfl

end Sys2Proof

namespace Sys2Proof.Machine

/-! ### One step and one wait (42_sequence_interpreter.md R118, R119, R125) -/

/-- Settles O20: the frames are on the wire only, and the registers are written after them. -/
theorem seqStepResult : Obligations.SeqStepResult := by
  intro s cmd args
  refine ⟨_, rfl, by simp [State.sendBytes_trace], by simp, ?_⟩
  have hcmd := State.sendFrame_frame false cmd s
  generalize s.sendFrame false cmd = v at hcmd ⊢
  have hargs := State.sendBytes_frame args v
  generalize v.sendBytes args = u at hargs ⊢
  rw [hargs, hcmd]
  rfl

theorem State.waitMs_eq (d : Byte) (s : State) : s.waitMs d = s.waited d := State.waitMs_frame d s

/-- Settles O21: the wait stands between the command frame and the arguments, and reads no register a frame writes. -/
theorem seqStepDelayResult : Obligations.SeqStepDelayResult := by
  intro s cmd dly args
  refine ⟨_, rfl, by simp [State.sendBytes_trace, State.delayStep, State.waitMs_frame],
    by simp [State.delayStep, State.waitMs_frame], ?_⟩
  rw [State.delayStep, State.waitMs_eq]
  have hcmd := State.sendFrame_frame false cmd s
  generalize s.sendFrame false cmd = v at hcmd ⊢
  have hargs := State.sendBytes_frame args (State.waited dly { v with waitD := dly })
  generalize State.sendBytes args (State.waited dly { v with waitD := dly }) = u at hargs ⊢
  rw [hargs, hcmd]
  rfl

/-- A wait with `d > 0` is the hold of its time, after the environment's draw. -/
theorem State.waitMs_of_ne_zero {d : Byte} (h : d ≠ 0) (s : State) :
    s.waitMs d = (((s.emit (.wait d)).advance s.lapse).dropLapse).hold d := if_neg h

/-- A wait in hand ends at the control action that finds its time over. -/
theorem controlAction_seqHold {s : State} {ts : List Task} (hw : s.work = .seqHold :: ts) :
    controlAction s = .next s.endHold := by
  have hback : ({ s with work := .seqHold :: ts } : State) = s := State.withWork_self hw
  rw [controlAction, State.endHold, hw]
  show Host.Outcome.next (if s.holdOver then { s with work := ts } else { s with work := .seqHold :: ts }) = _
  rw [hback]

/-- A wait in hand stays until its time is over. -/
theorem State.endHold_seqHold {s : State} {ts : List Task} (hw : s.work = .seqHold :: ts) :
    s.endHold = { s with work := if s.waitD.toNat < (s.now - s.waitT0).toNat then ts else .seqHold :: ts } := by
  rw [State.endHold, hw, State.holdOver]
  by_cases h : s.waitD.toNat < (s.now - s.waitT0).toNat
  · simp only [h, decide_true, if_true]
  · simp only [h, decide_false, if_false, Bool.false_eq_true]
    exact (State.withWork_self hw).symm

/-- A clock edge without strobes and control actions, no frame in progress and a tick in hand, ends a wait whose time is
over and records the levels. -/
theorem clockEdge_quiet {s : State} {p : Ports} (hp : p.hiv = 0) (hb : s.encBusy = false) (hw : s.work ≠ [])
    (hr : s.ready = false) :
    clockEdge p 0 s = .next (s.sample p { lapses := [], window := none }).endHold.recordLevels := by
  have hcontrol : clockControl 0 (s.sample p { lapses := [], window := none }) =
      .next (s.sample p { lapses := [], window := none }).endHold := by
    rw [clockControl, State.sample_encBusy, hb, if_neg nofun, controlEdge, State.sample_encBusy, hb, if_neg nofun,
      State.sample_work, if_neg hw, controlActions]
  rw [clockEdge_eq, hcontrol, State.strobeOps_of_tick (.inl hp), hr, Bool.and_false]
  rfl

/-- Settles O26: the wait's time is that of the hold, and both a control action and a clock edge end it by `endHold`. -/
theorem waitLasts : Obligations.WaitLasts := by
  intro s d
  refine ⟨State.waitMs_eq d s, fun hd => ?_, fun ts hw => ⟨?_, fun p hp hb hr => ?_⟩⟩
  · rw [State.waitMs_of_ne_zero hd]
    exact State.hold_length d _
  · rw [controlAction_seqHold hw, State.endHold_seqHold hw]
    by_cases h : s.waitD.toNat < (s.now - s.waitT0).toNat
    · simp only [if_pos h]
    · simp only [if_neg h, State.withWork_self hw]
  · rw [clockEdge_quiet hp hb (by simp [hw]) hr, State.endHold_seqHold (s := s.sample p _) hw]
    rfl

/-! ### The end of a run and a place that is ill formed (42_sequence_interpreter.md R120, R121) -/

/-- Draws that leave room for the waits are not cut. -/
theorem State.boundDraws_of_sum_le {s : State} {ops : List SeqOp} (h : s.lapses.sum ≤ 2 ^ 32 - 1 - waitSum ops) :
    s.boundDraws ops = s := by
  rw [State.boundDraws, capDraws_of_sum_le h]

/-- Settles O22: at the end marker no step is left, so no draw is cut and the run ends; in an argument list the decoder
takes the marker's bytes as the arguments they are. -/
theorem seqEndResult : Obligations.SeqEndResult := by
  intro s after
  refine ⟨rfl, decodeSeq_end after, fun hb hsum => ?_, fun c pre post hc hlen => ⟨?_, ?_⟩⟩
  · have hops : tableOps s.seqBytes = [] := by rw [hb, tableOps_end]
    rw [runRest, hops, State.boundDraws_of_sum_le (by rw [waitSum]; omega), runSteps, hb, decodeSeq_end]
    rfl
  · refine decodeSeq_bytes (op := .step c _) (SeqOp.IsStep.step hc ?_).wf after
    simp only [List.length_append, List.length_cons]
    omega
  · refine decodeSeq_bytes (op := .stepDelay c 0xFF _) (SeqOp.IsStep.stepDelay hc ?_).wf after
    simp only [List.length_cons]
    omega

/-- No step is made with a configuration that uses an ill-formed table (60_exceptions.md R188.6). -/
theorem step_of_illFormed_table {s : State} {sel : TableSel} (hsel : sel = .secondaryPrepareSeq → s.cfg.targets = 2)
    (h : wfTable (s.cfg.table sel) = false) : ∃ e, step s = .refused (.configuration e) := by
  cases hc : s.cfg.check with
  | some e => exact ⟨e, by rw [step, hc]⟩
  | none =>
    have hok := Config.tableOk_of_valid ((Config.check_eq_none _).1 hc) sel hsel
    rw [tableOk, h] at hok
    cases hok

/-- Settles O23: the steps before it do not change that the walk stops at the ill-formed place. -/
theorem seqIllegalRefused : Obligations.SeqIllegalRefused := by
  intro s cnt ops after hcnt hops
  have hwf : wfTable (ops.flatMap SeqOp.bytes ++ 0xFF :: cnt :: after) = false := by
    rw [wfTable_steps_append ((forall_isStep_iff ops).2 hops), wfTable_illegal hcnt]
  exact ⟨rfl, decodeSeq_illegal hcnt after, hwf, fun sel hsel htab => step_of_illFormed_table hsel (htab ▸ hwf)⟩

end Sys2Proof.Machine

namespace Sys2Proof.Machine

/-! ### The steps of a run as updates of the state (42_sequence_interpreter.md R122) -/

/-- What a step of a table makes of the state. -/
def runOp : SeqOp → State → State
  | .step cmd args, s => (((s.sendFrame false cmd).sendBytes args).advanceSeqPtr (2 + args.length)).setSeqLeft 0
  | .stepDelay cmd dly args, s =>
    ((((s.sendFrame false cmd).delayStep dly).sendBytes args).advanceSeqPtr (3 + args.length)).setSeqLeft 0
  | .finish, s | .illegal _, s => s

/-- What steps in a row make of the state. -/
def runOps (ops : List SeqOp) (s : State) : State := ops.foldl (fun t op => runOp op t) s

theorem runOps_cons (op : SeqOp) (ops : List SeqOp) (s : State) : runOps (op :: ops) s = runOps ops (runOp op s) := rfl

theorem exec_instr {op : SeqOp} (h : op.IsStep) (s : State) : exec op.instr s = .next (runOp op s) := by
  cases h <;> rfl

theorem runOp_ran {op : SeqOp} (h : op.IsStep) (s : State) : s.Ran (runOp op s) := by
  cases h with
  | step => exact execSeqStep_ran rfl
  | stepDelay => exact execSeqStepDelay_ran rfl

theorem runOp_seqPtr {op : SeqOp} (h : op.IsStep) (s : State) :
    (runOp op s).seqPtr = s.seqPtr + BitVec.ofNat 16 (opLen op) := by
  cases h with
  | step => simp [runOp, opLen]
  | stepDelay => simp [runOp, opLen, State.delayStep, State.waitMs_frame]

/-- A step takes draws and makes none. -/
theorem runOp_lapses_sum_le {op : SeqOp} (h : op.IsStep) (s : State) : (runOp op s).lapses.sum ≤ s.lapses.sum := by
  cases h with
  | step => simp [runOp]
  | @stepDelay cmd dly args =>
    have htail : s.lapses.tail.sum ≤ s.lapses.sum := (List.tail_sublist _).sum_le_sum (fun _ _ => Nat.zero_le _)
    have hlapses : (runOp (.stepDelay cmd dly args) s).lapses = if dly = 0 then s.lapses else s.lapses.tail := by
      simp [runOp, State.delayStep, State.waitMs_frame]
    rw [hlapses]
    split
    · exact Nat.le_refl _
    · exact htail

/-- A run makes the step decoded at its pointer, then the rest. -/
theorem runSteps_step {s : State} {op : SeqOp} {rest : List Byte} (hd : decodeSeq s.seqBytes = .ok (op, rest))
    (h : op.IsStep) (n : Nat) : runSteps (n + 1) s = runSteps n (runOp op s) := by
  rw [runSteps, hd]
  cases h <;> rfl

/-- After a step of a table within the pointer's reach the interpreter stands behind it. -/
theorem runOp_seqBytes {s : State} {op : SeqOp} {rest : List Byte} (hd : decodeSeq s.seqBytes = .ok (op, rest))
    (hlen : s.seqTable.length ≤ 65535) (h : op.IsStep) :
    (runOp op s).seqBytes = rest ∧ (runOp op s).seqTable = s.seqTable := by
  have hran := runOp_ran h s
  obtain ⟨hb, -, ht⟩ := State.seqBytes_after hd hlen hran.cfg hran.seqSel (runOp_seqPtr h s)
  exact ⟨hb, ht⟩

/-! ### Tables that are not well formed (42_sequence_interpreter.md R127; log entry 12) -/

/-- A run that is not a walk to an end marker is refused where the walk stops. -/
theorem runSteps_of_illFormed {n : Nat} {s : State} (hwf : wfWalk n s.seqBytes = false)
    (hlen : s.seqTable.length ≤ 65535) : runSteps n s = .refused .illFormedSequence := by
  induction n generalizing s with
  | zero => rfl
  | succ n ih =>
    cases hd : decodeSeq s.seqBytes with
    | error e => rw [runSteps, hd]
    | ok p =>
      obtain ⟨op, rest⟩ := p
      obtain rfl | ⟨k, rfl⟩ | hop := isStep_of_decodeSeq hd
      · rw [(decodeSeq_ok hd).1] at hwf
        cases hwf
      · rw [runSteps, hd]
        rfl
      · obtain ⟨hb, ht⟩ := runOp_seqBytes hd hlen hop
        rw [(decodeSeq_ok hd).1, wfWalk_bytes_append hop, ← hb] at hwf
        rw [runSteps_step hd hop, ih hwf (ht ▸ hlen)]

theorem State.length_seqBytes_lt (s : State) : s.seqBytes.length < s.seqTable.length + 1 := by
  have hdrop : s.seqBytes.length = s.seqTable.length - s.seqPtr.toNat := List.length_drop
  omega

theorem runSeq_of_illFormed {s : State} {sel : TableSel} (hwf : wfTable (s.cfg.table sel) = false)
    (hlen : (s.cfg.table sel).length ≤ 65535) : runSeq sel s = .refused .illFormedSequence := by
  refine runSteps_of_illFormed ?_ hlen
  rw [State.boundDraws_seqBytes, wfWalk_eq_wfTable (State.length_seqBytes_lt _)]
  exact hwf

/-- A tick of the cascade transfer that sends the last rows of the primary window comes to the switch's table
(44_data_transfer.md R178). -/
theorem chunk2_of_switch_refused {s : State} {r : Refusal} (hh : s.cfg.height ≤ 65535) (hrow : s.row.toNat ≤ s.cfg.height)
    (hlast : s.cfg.height ≤ s.row.toNat + s.cfg.chunkRows) (htgt : s.tgt = false)
    (hrun : ∀ u : State, u.cfg = s.cfg → runSeq .secondaryPrepareSeq u = .refused r) : chunk2 s = .refused r := by
  have hcount : s.chunkRowCount = s.cfg.height - s.row.toNat := Nat.min_eq_right (by omega)
  have hran := State.Ran.sendRows (s.cfg.columns s.tgt).1 (s.cfg.columns s.tgt).2 s.row.toNat s.chunkRowCount s
  rw [chunk2, if_neg (Nat.not_lt.2 hrow)]
  generalize State.sendRows _ _ _ _ s = v at hran
  have hend : (v.advanceRow s.chunkRowCount).row.toNat = s.cfg.height := by
    rw [State.advanceRow_row, hran.row, hcount, BitVec.toNat_add, BitVec.toNat_ofNat]
    omega
  rw [endChunk2, State.advanceRow_cfg, hran.cfg, if_pos hend, State.advanceRow_tgt, hran.tgt, htgt,
    hrun _ ((State.advanceRow_cfg ..).trans hran.cfg)]
  rfl

theorem andThen_of_refused {o : Host.Outcome State Fault Refusal} {r : Refusal} (h : o = .refused r)
    (f : State → Host.Outcome State Fault Refusal) : andThen o f = .refused r := by
  rw [h, andThen_refused]

/-- Settles O28: the run is refused whatever the rest of the state holds, and a state action stops where its run does. -/
theorem illFormedRunRefused : Obligations.IllFormedRunRefused := by
  intro s sel hwf hlen
  have hrun : ∀ u : State, u.cfg = s.cfg → runSeq sel u = .refused .illFormedSequence := fun u hu =>
    runSeq_of_illFormed (hu ▸ hwf) (hu ▸ hlen)
  refine ⟨hrun s rfl, ?_, ?_, fun hsel => ?_, ?_, ?_⟩
  · rintro rfl
    exact andThen_of_refused (hrun s rfl) _
  · rintro rfl
    exact andThen_of_refused (hrun s.resetCursor rfl) _
  · have hrefresh : sel = s.refreshTable := hsel
    exact andThen_of_refused (hrefresh ▸ hrun s rfl) _
  · rintro rfl hsleep
    show execStateDeepSleep s = _
    rw [execStateDeepSleep, hsleep, hrun s rfl]
    rfl
  · rintro rfl hh hrow hlast htgt
    have hchunk := chunk2_of_switch_refused hh hrow hlast htgt hrun
    refine ⟨hchunk, fun h2 => ?_⟩
    show execStateUpdateSendingData s = _
    rw [execStateUpdateSendingData, if_neg (by omega), hchunk]

/-! ### The rest of a run from a step position -/

/-- The bound on the steps does not matter once it passes the bytes that are left. -/
theorem runSteps_fuel {n : Nat} {s : State} (hn : s.seqBytes.length < n) (hlen : s.seqTable.length ≤ 65535) :
    runSteps (n + 1) s = runSteps n s := by
  have hwalk : wfWalk (n + 1) s.seqBytes = wfWalk n s.seqBytes := by
    rw [wfWalk_eq_wfTable hn, wfWalk_eq_wfTable (by omega)]
  cases hw : wfWalk n s.seqBytes with
  | true =>
    obtain ⟨u, hu, -⟩ := runSteps_complete hw hlen
    rw [hu, runSteps_succ hu]
  | false => rw [runSteps_of_illFormed hw hlen, runSteps_of_illFormed (hwalk.trans hw) hlen]

theorem waitSum_le_cons (op : SeqOp) (ops : List SeqOp) : waitSum ops ≤ waitSum (op :: ops) := by
  cases op <;> simp [waitSum]

/-- The draws left after a step are not cut again: they leave room for the waits behind it, as they did for all of them. -/
theorem runOp_boundDraws {op : SeqOp} (h : op.IsStep) (ops : List SeqOp) (s : State) :
    (runOp op (s.boundDraws (op :: ops))).boundDraws ops = runOp op (s.boundDraws (op :: ops)) := by
  have hstep := runOp_lapses_sum_le h (s.boundDraws (op :: ops))
  have hcut := State.boundDraws_sum s (op :: ops)
  have hwait := waitSum_le_cons op ops
  exact State.boundDraws_of_sum_le (by omega)

/-- The rest of a run is the operation decoded at its pointer, then what comes after it (42_sequence_interpreter.md R122;
log entry 4 for the draws). -/
theorem runRest_decoded {s : State} {op : SeqOp} {rest : List Byte} (hd : decodeSeq s.seqBytes = .ok (op, rest))
    (hlen : s.seqTable.length ≤ 65535) :
    runRest s = andThen (exec op.instr (s.boundDraws (tableOps s.seqBytes)))
      (fun t => if op = .finish then .next t else runRest t) := by
  have hfirst : decodeSeq (s.boundDraws (tableOps s.seqBytes)).seqBytes = .ok (op, rest) := hd
  obtain rfl | ⟨k, rfl⟩ | hop := isStep_of_decodeSeq hd
  · rw [runRest, runSteps, hfirst]
    rfl
  · rw [runRest, runSteps, hfirst]
    rfl
  · have hops : tableOps s.seqBytes = op :: tableOps rest := by
      rw [(decodeSeq_ok hd).1, tableOps_bytes_append hop]
    obtain ⟨hb, ht⟩ := runOp_seqBytes hfirst hlen hop
    have h2 := two_le_opLen op
    have hshort := length_of_decodeSeq hd
    have htable := State.length_seqBytes_lt s
    rw [runRest, runSteps_step hfirst hop, exec_instr hop, andThen_next, if_neg hop.ne_finish, runRest, hb, ht, hops,
      runOp_boundDraws hop, ← hops, State.boundDraws_seqTable]
    refine (runSteps_fuel ?_ ?_).symm
    · rw [hb]
      omega
    · rw [ht]
      exact hlen

/-- With the interpreter in front, the rest of a tick is what is decoded at its pointer, the rest of the table, then the
tasks behind it. -/
theorem drain_decoded {s : State} {ts : List Task} {op : SeqOp} {rest : List Byte} (hw : s.work = .seqHead :: ts)
    (hd : decodeSeq s.seqBytes = .ok (op, rest)) (hlen : s.seqTable.length ≤ 65535) :
    drain s = andThen (exec op.instr ({ s with work := [] }.boundDraws (tableOps s.seqBytes)))
      (fun t => andThen (if op = .finish then .next t else runRest t) (drainTasks ts)) := by
  have hrun : drain s = andThen (runRest { s with work := [] }) (drainTasks ts) := by
    rw [drain_cons hw]
    refine andThen_congr (fun u hu => ?_)
    rw [resume_of_nil (runRest_ran hu).work]
    exact drainTasks_withWork ts u ts
  rw [hrun, runRest_decoded (s := { s with work := [] }) hd hlen, andThen_assoc]
  rfl

/-- Settles O10: an edge whose ports start nothing carries the work in hand to its end, and the interpreter stands in front
of it. -/
theorem stepRunsTableStep : Obligations.StepRunsTableStep := by
  intro s p d rest ts op after hv hi hw hp hlen hd
  rw [step_of_no_strobe hv hi hp, drain_decoded (s := State.sample p d { s with inputs := rest }) hw hd hlen, andThen_assoc]
  exact andThen_congr (fun t _ => andThen_assoc ..)

/-! ### The run of a well-formed table -/

/-- Settles O24: the walk to the end marker from the table's first byte. -/
theorem tableRunEvents : Obligations.TableRunEvents := by
  intro s sel h
  simp only [tableOk, Bool.and_eq_true, decide_eq_true_eq] at h
  obtain ⟨t, hrun, htrace, hptr, hsel⟩ := runSteps_complete (s := (s.selectTable sel).boundDraws _) h.1 h.2
  refine ⟨t, hrun, htrace, hsel, ?_, runSeq_frame hrun⟩
  apply BitVec.eq_of_toNat_eq
  have hend : t.seqPtr.toNat = endAddr (s.cfg.table sel) := hptr.trans (Nat.zero_add _)
  rw [BitVec.toNat_ofNat, ← hend, Nat.mod_eq_of_lt t.seqPtr.isLt]

/-- The bytes left, and the pointer, after bytes of the table that the pointer can pass without wrapping. -/
theorem State.seqBytes_advance_of_lt {s u : State} {bytes after : List Byte} (hb : s.seqBytes = bytes ++ after)
    (hlt : s.seqPtr.toNat + bytes.length < 2 ^ 16) (hcfg : u.cfg = s.cfg) (hsel : u.seqSel = s.seqSel)
    (hptr : u.seqPtr = s.seqPtr + BitVec.ofNat 16 bytes.length) :
    u.seqBytes = after ∧ u.seqPtr.toNat = s.seqPtr.toNat + bytes.length := by
  have ht : u.seqTable = s.seqTable := by rw [State.seqTable, State.seqTable, hcfg, hsel]
  have hp : u.seqPtr.toNat = s.seqPtr.toNat + bytes.length := by
    rw [hptr, BitVec.toNat_add, BitVec.toNat_ofNat]
    omega
  refine ⟨?_, hp⟩
  rw [State.seqBytes, ht, hp, ← List.drop_drop, ← State.seqBytes, hb, List.drop_left]

/-- A run over a list of steps up to an end marker makes those steps, whatever stands behind the marker. -/
theorem runSteps_steps {ops : List SeqOp} (hops : ∀ op ∈ ops, op.IsStep) {n : Nat} (hn : ops.length < n) {s : State}
    {junk : List Byte} (hb : s.seqBytes = ops.flatMap SeqOp.bytes ++ 0xFF :: 0xFF :: junk)
    (hp : s.seqPtr.toNat + (ops.flatMap SeqOp.bytes).length < 2 ^ 16) : runSteps n s = .next (runOps ops s) := by
  induction ops generalizing n s with
  | nil =>
    obtain ⟨n, rfl⟩ : ∃ k, n = k + 1 := ⟨n - 1, by simp at hn; omega⟩
    rw [runSteps, hb, List.flatMap_nil, List.nil_append, decodeSeq_end]
    rfl
  | cons op ops ih =>
    rw [List.forall_mem_cons] at hops
    rw [List.length_cons] at hn
    obtain ⟨n, rfl⟩ : ∃ k, n = k + 1 := ⟨n - 1, by omega⟩
    rw [List.flatMap_cons, List.append_assoc] at hb
    rw [List.flatMap_cons, List.length_append] at hp
    have hran := runOp_ran hops.1 s
    have hd : decodeSeq s.seqBytes = .ok (op, _) := hb ▸ decodeSeq_bytes hops.1.wf _
    obtain ⟨hrest, hptr⟩ := State.seqBytes_advance_of_lt hb (by omega) hran.cfg hran.seqSel
      ((runOp_seqPtr hops.1 s).trans (by rw [SeqOp.length_bytes]))
    rw [runSteps_step hd hops.1, runOps_cons]
    exact ih hops.2 (by omega) hrest (by omega)

/-- The steps of a table take the bytes up to its end marker (30_encoding.md R75). -/
theorem length_flatMap_bytes (ops : List SeqOp) : (ops.flatMap SeqOp.bytes).length = (ops.map opLen).sum := by
  simp only [List.length_flatMap, SeqOp.length_bytes]

theorem length_le_length_flatMap_bytes (ops : List SeqOp) : ops.length ≤ (ops.flatMap SeqOp.bytes).length := by
  rw [length_flatMap_bytes, ← List.length_map (f := opLen)]
  refine List.length_le_sum_of_one_le _ (fun n hn => ?_)
  obtain ⟨op, -, rfl⟩ := List.mem_map.1 hn
  exact Nat.le_trans (by decide) (two_le_opLen op)

/-- The run of a table that is a list of steps and an end marker. -/
theorem runSeq_steps {s : State} {sel : TableSel} {ops : List SeqOp} {junk : List Byte} (hops : ∀ op ∈ ops, op.IsStep)
    (ht : s.cfg.table sel = ops.flatMap SeqOp.bytes ++ 0xFF :: 0xFF :: junk)
    (hlen : (ops.flatMap SeqOp.bytes).length < 2 ^ 16) :
    runSeq sel s = .next (runOps ops ((s.selectTable sel).boundDraws ops)) := by
  have hbytes : (s.selectTable sel).seqBytes = ops.flatMap SeqOp.bytes ++ 0xFF :: 0xFF :: junk := ht
  have hfuel : ops.length < (s.selectTable sel).seqTable.length + 1 := by
    have htable : (s.selectTable sel).seqTable.length = (ops.flatMap SeqOp.bytes).length + (junk.length + 2) :=
      (congrArg List.length ht).trans List.length_append
    have hle := length_le_length_flatMap_bytes ops
    omega
  rw [runSeq, runRest, hbytes, tableOps_of_shape hops]
  exact runSteps_steps hops hfuel hbytes (by simpa using hlen)

/-! ### A run and the configuration -/

theorem State.sendFrame_withCfg {s : State} {c : Config} (h : c.encStepCycles = s.cfg.encStepCycles) (m : Bool) (b : Byte) :
    ({ s with cfg := c } : State).sendFrame m b = { s.sendFrame m b with cfg := c } := by
  rw [State.sendFrame_eq, State.sendFrame_eq]
  simp only [h]

theorem State.sendBytes_withCfg {s : State} {c : Config} (h : c.encStepCycles = s.cfg.encStepCycles) (bytes : List Byte) :
    ({ s with cfg := c } : State).sendBytes bytes = { s.sendBytes bytes with cfg := c } := by
  induction bytes generalizing s with
  | nil => rfl
  | cons b bytes ih =>
    rw [State.sendBytes_cons, State.sendBytes_cons, State.sendFrame_withCfg h]
    exact ih (by rw [State.sendFrame_cfg, h])

theorem State.delayStep_withCfg (s : State) (c : Config) (d : Byte) :
    ({ s with cfg := c } : State).delayStep d = { s.delayStep d with cfg := c } := by
  simp only [State.delayStep, State.waitMs_frame, State.lapse]

/-- Of the configuration a step reads `ENC_STEP_CYCLES` alone. -/
theorem runOp_withCfg {s : State} {c : Config} (h : c.encStepCycles = s.cfg.encStepCycles) (op : SeqOp) :
    runOp op { s with cfg := c } = { runOp op s with cfg := c } := by
  cases op with
  | finish | illegal => rfl
  | step cmd args =>
    rw [runOp, State.sendFrame_withCfg h, State.sendBytes_withCfg (by rw [State.sendFrame_cfg, h])]
    rfl
  | stepDelay cmd dly args =>
    have hcfg : ((s.sendFrame false cmd).delayStep dly).cfg = s.cfg :=
      (State.Ran.delayStep dly _).cfg.trans (State.sendFrame_cfg ..)
    rw [runOp, State.sendFrame_withCfg h, State.delayStep_withCfg, State.sendBytes_withCfg (by rw [hcfg, h])]
    rfl

theorem runOps_withCfg {ops : List SeqOp} (hops : ∀ op ∈ ops, op.IsStep) {s : State} {c : Config}
    (h : c.encStepCycles = s.cfg.encStepCycles) : runOps ops { s with cfg := c } = { runOps ops s with cfg := c } := by
  induction ops generalizing s with
  | nil => rfl
  | cons op ops ih =>
    rw [List.forall_mem_cons] at hops
    rw [runOps_cons, runOps_cons, runOp_withCfg h]
    exact ih hops.2 (by rw [(runOp_ran hops.1 s).cfg, h])

/-! ### Counting a run's events (42_sequence_interpreter.md R128) -/

/-- The arguments of a step. -/
def argCount : SeqOp → Nat
  | .step _ args | .stepDelay _ _ args => args.length
  | .finish | .illegal _ => 0

/-- The step has a delay. -/
def hasDelay : SeqOp → Bool
  | .stepDelay _ _ _ => true
  | .step _ _ | .finish | .illegal _ => false

/-- The event is a wait. -/
def isWait : TraceEvent → Bool
  | .wait _ => true
  | .pin _ _ | .busySample _ => false

/-- A frame sets its mode line once, to its mode (41_serial_encoder.md R107). -/
theorem count_dc_frameEvents (m v : Bool) (b : Byte) :
    (frameEvents m b).count (.pin .dc v) = if m = v then 1 else 0 := by
  have hrest : .pin .dc v ∉ ((List.range 26).map Nat.succ).map
      (fun i => TraceEvent.pin (microStep m b i).1 (microStep m b i).2) := by
    simp only [List.map_map, List.mem_map, Function.comp_apply, TraceEvent.pin.injEq, microStep_fst_eq_dc_iff]
    rintro ⟨i, -, hi, -⟩
    exact Nat.succ_ne_zero i hi
  rw [frameEvents, List.range_succ_eq_map, List.map_cons, List.count_cons, List.count_eq_zero.2 hrest]
  cases m <;> cases v <;> rfl

theorem countP_isWait_frameEvents (m : Bool) (b : Byte) : (frameEvents m b).countP isWait = 0 := by
  rw [frameEvents, List.countP_map]
  exact List.countP_eq_zero.2 (fun i _ => Bool.false_ne_true)

theorem count_dc_dataEvents (v : Bool) (bytes : List Byte) :
    (dataEvents bytes).count (.pin .dc v) = if v then bytes.length else 0 := by
  induction bytes with
  | nil => cases v <;> rfl
  | cons b bytes ih =>
    rw [dataEvents, List.flatMap_cons, List.count_append, ← dataEvents, ih, count_dc_frameEvents]
    cases v <;> simp [Nat.add_comm]

theorem countP_isWait_dataEvents (bytes : List Byte) : (dataEvents bytes).countP isWait = 0 := by
  rw [dataEvents, List.countP_flatMap, List.sum_eq_zero]
  intro n hn
  obtain ⟨b, -, rfl⟩ := List.mem_map.1 hn
  exact countP_isWait_frameEvents true b

/-- A run makes one command frame for each step. -/
theorem count_command_frames {ops : List SeqOp} (h : ∀ op ∈ ops, op.IsStep) :
    (ops.flatMap opEvents).count (.pin .dc false) = ops.length := by
  induction ops with
  | nil => rfl
  | cons op ops ih =>
    rw [List.forall_mem_cons] at h
    have hop : (opEvents op).count (.pin .dc false) = 1 := by
      cases h.1 <;> simp [opEvents, count_dc_frameEvents, count_dc_dataEvents]
    rw [List.flatMap_cons, List.count_append, ih h.2, hop, List.length_cons, Nat.add_comm]

/-- A run makes one data frame for each argument. -/
theorem count_data_frames (ops : List SeqOp) :
    (ops.flatMap opEvents).count (.pin .dc true) = (ops.map argCount).sum := by
  induction ops with
  | nil => rfl
  | cons op ops ih =>
    have hop : (opEvents op).count (.pin .dc true) = argCount op := by
      cases op <;> simp [opEvents, argCount, count_dc_frameEvents, count_dc_dataEvents]
    rw [List.flatMap_cons, List.count_append, ih, hop, List.map_cons, List.sum_cons]

/-- A run makes one wait for each step with delay. -/
theorem countP_waits (ops : List SeqOp) : (ops.flatMap opEvents).countP isWait = ops.countP hasDelay := by
  induction ops with
  | nil => rfl
  | cons op ops ih =>
    have hop : (opEvents op).countP isWait = if hasDelay op then 1 else 0 := by
      cases op <;> simp [opEvents, hasDelay, isWait, List.countP_cons, countP_isWait_frameEvents, countP_isWait_dataEvents]
    rw [List.flatMap_cons, List.countP_append, ih, hop, List.countP_cons, Nat.add_comm]

/-- The end marker stands where the walk ends, and the bytes up to it are the steps'. -/
theorem endMarker_of_wfTable {t : List Byte} (h : wfTable t = true) :
    t[endAddr t]? = some 0xFF ∧ t[endAddr t + 1]? = some 0xFF ∧
      t.take (endAddr t + 2) = (tableOps t).flatMap SeqOp.bytes ++ [0xFF, 0xFF] := by
  obtain ⟨-, junk, hshape⟩ := shape_of_wfTable h
  rw [endAddr, ← length_flatMap_bytes]
  generalize (tableOps t).flatMap SeqOp.bytes = steps at hshape
  subst hshape
  exact ⟨by simp, by simp, List.take_length_add_append ..⟩

/-- Settles O25: the events of R123 counted step by step, and the run of a table that is its steps, its end marker and any
bytes behind it. -/
theorem tableRunCounts : Obligations.TableRunCounts := by
  intro s sel h
  obtain ⟨t, hrun, htrace, -⟩ := tableRunEvents s sel h
  simp only [tableOk, Bool.and_eq_true, decide_eq_true_eq] at h
  obtain ⟨hops, junk, hshape⟩ := shape_of_wfTable h.1
  obtain ⟨hfirst, hsecond, htake⟩ := endMarker_of_wfTable h.1
  refine ⟨t, _, hrun, htrace, rfl, count_command_frames hops, ?_, ?_, hfirst, hsecond, fun junk' => ?_⟩
  · rw [count_data_frames]
    exact congrArg List.sum (List.map_congr_left fun op _ => by cases op <;> rfl)
  · refine (List.countP_congr fun e _ => ?_).trans ((countP_waits _).trans (List.countP_congr fun op _ => ?_))
    · cases e <;> exact Iff.rfl
    · cases op <;> exact Iff.rfl
  have hreach : ((tableOps (s.cfg.table sel)).flatMap SeqOp.bytes).length < 2 ^ 16 := by
    have htable := (congrArg List.length hshape).trans List.length_append
    omega
  generalize tableOps (s.cfg.table sel) = ops at *
  have ht : t = runOps ops ((s.selectTable sel).boundDraws ops) :=
    Host.Outcome.next.inj (hrun.symm.trans (runSeq_steps hops hshape hreach))
  dsimp only
  rw [htake, List.append_assoc]
  generalize hcfg : s.cfg.withTable sel (ops.flatMap SeqOp.bytes ++ ([0xFF, 0xFF] ++ junk')) = c
  have htab : c.table sel = ops.flatMap SeqOp.bytes ++ 0xFF :: 0xFF :: junk' := hcfg ▸ Config.table_withTable ..
  have hcycles : c.encStepCycles = s.cfg.encStepCycles := hcfg ▸ Config.encStepCycles_withTable ..
  rw [runSeq_steps (s := { s with cfg := c }) hops htab hreach, ht]
  exact congrArg Host.Outcome.next (runOps_withCfg (s := (s.selectTable sel).boundDraws ops) hops hcycles)

end Sys2Proof.Machine

namespace Sys2Proof.Machine

/-! ### What a task does to the controller's registers -/

/-- The registers that the state action and the strobes write, and no other task, with the draw of the drawing window. -/
def State.hostSide (s : State) : Word32 × Bool × Bool × Bool × Bool × Option (List PixelWrite) :=
  (s.updCnt, s.pending, s.sleepPending, s.drawReq, s.ready, s.window)

/-- The state that a task goes to when it ends the state action (43_display_controller.md R134, 44_data_transfer.md R174,
R178). -/
def Task.exit : Task → Option DState
  | .goto d => some d
  | .endChunk1 _ | .endChunk2 => some .updateRefresh
  | .action | .run _ | .seqHead | .seqTake _ | .seqDelay | .seqHold | .seqArgs | .argSent | .frame | .sendFb _ _ | .rows _
  | .colSent | .switchTarget | .window | .sleepDone => none

/-- A task that fits the state leaves it along the transition table only, and stands last. -/
theorem Task.exit_follows {t : Task} {c : Config} {d e : DState} (hfit : taskFits c d t = true) (he : t.exit = some e) :
    transition c d e = true ∧ taskEnds t = true := by
  cases t with
  | goto d' =>
    obtain rfl : d' = e := Option.some.inj he
    exact ⟨(Bool.and_eq_true_iff.1 hfit).2, rfl⟩
  | endChunk1 | endChunk2 =>
    obtain rfl : d = .updateSendingData := of_decide_eq_true hfit
    obtain rfl : .updateRefresh = e := Option.some.inj he
    exact ⟨rfl, rfl⟩
  | _ => cases he

/-- `u` comes from `s` by the task `t`: the host's side stays, and the state does too, or it is left by the task's exit with
nothing more in hand. -/
def State.TaskDone (t : Task) (s u : State) : Prop :=
  u.hostSide = s.hostSide ∧ (u.st = s.st ∧ u.tEntry = s.tEntry ∨ t.exit = some u.st ∧ u.work = s.work)

theorem State.TaskDone.of_stay {t : Task} {s u : State} (hh : u.hostSide = s.hostSide) (hst : u.st = s.st)
    (ht : u.tEntry = s.tEntry) : s.TaskDone t u := ⟨hh, .inl ⟨hst, ht⟩⟩

theorem State.TaskDone.of_leave {t : Task} {s u : State} (hh : u.hostSide = s.hostSide) (he : t.exit = some u.st)
    (hw : u.work = s.work) : s.TaskDone t u := ⟨hh, .inr ⟨he, hw⟩⟩

theorem State.Ran.taskDone {t : Task} {s u : State} (h : s.Ran u) : s.TaskDone t u := by
  rw [h.1]
  exact .of_stay rfl rfl rfl

theorem endChunk1_taskDone {n : Nat} {s u : State} (h : endChunk1 n s = .next u) : s.TaskDone (.endChunk1 n) u := by
  cases h
  split
  · exact .of_leave rfl rfl rfl
  · exact .of_stay rfl rfl rfl

theorem endChunk2_taskDone {s u : State} (h : endChunk2 s = .next u) : s.TaskDone .endChunk2 u := by
  unfold endChunk2 at h
  split at h
  · split at h
    · cases h
      exact .of_leave rfl rfl rfl
    · obtain ⟨v, hv, h⟩ := andThen_eq_next.1 h
      have hrun := (runSeq_ran hv).1
      cases h
      rw [hrun]
      exact .of_stay rfl rfl rfl
  · cases h
    exact .of_stay rfl rfl rfl

/-- As a control action. -/
theorem taskAction_taskDone {t : Task} {s u : State} (ha : t ≠ .action) (h : taskAction t s = .next u) :
    s.TaskDone t u := by
  cases t with
  | action => exact absurd rfl ha
  | endChunk1 n => exact endChunk1_taskDone h
  | goto d =>
    cases h
    exact .of_leave rfl rfl rfl
  | seqHead =>
    change beginStep s = _ at h
    unfold beginStep at h
    repeat' split at h
    all_goals cases h
    all_goals exact .of_stay rfl rfl rfl
  | seqDelay =>
    obtain ⟨d, hd⟩ := beginDelay_next h
    cases (beginDelay_eq hd).symm.trans h
    exact .of_stay rfl rfl rfl
  | seqArgs =>
    change beginArg s = _ at h
    unfold beginArg at h
    repeat' split at h
    all_goals cases h
    all_goals exact .of_stay rfl rfl rfl
  | sendFb a n =>
    cases h
    cases n <;> exact .of_stay rfl rfl rfl
  | rows r =>
    cases h
    unfold beginRowByte State.startRow
    repeat' split
    all_goals exact .of_stay rfl rfl rfl
  | endChunk2 =>
    cases h
    unfold beginEndChunk2
    repeat' split
    all_goals exact .of_stay rfl rfl rfl
  | seqHold | frame | window =>
    cases h
    split <;> exact .of_stay rfl rfl rfl
  | run | seqTake | argSent | colSent | switchTarget | sleepDone =>
    cases h
    exact .of_stay rfl rfl rfl

/-- Carried out at once. -/
theorem performTask_taskDone {t : Task} {s u : State} (ha : t ≠ .action) (h : performTask t s = .next u) :
    s.TaskDone t u := by
  cases t with
  | action => exact absurd rfl ha
  | endChunk1 n => exact endChunk1_taskDone h
  | endChunk2 => exact endChunk2_taskDone h
  | goto d =>
    cases h
    exact .of_leave rfl rfl rfl
  | run sel => exact (runSeq_ran h).taskDone
  | seqHead => exact (runRest_ran h).taskDone
  | seqDelay => exact (readDelay_ran h).taskDone
  | seqArgs => exact (sendRestArgs_ran h).taskDone
  | seqHold =>
    cases h
    exact (State.Ran.finishHold s).taskDone
  | frame =>
    cases h
    exact (State.Ran.finishFrame s).1.taskDone
  | sendFb a n =>
    cases h
    exact (State.Ran.sendFbBytes a n s).taskDone
  | rows r =>
    cases h
    obtain ⟨v, hv, hr⟩ := State.finishRows_ran r s
    rw [hr]
    exact hv.taskDone (t := .rows r)
  | window =>
    cases h
    split <;> exact .of_stay rfl rfl rfl
  | seqTake | argSent | colSent | switchTarget | sleepDone =>
    cases h
    exact .of_stay rfl rfl rfl

/-! ### What a part of a tick does to the controller -/

/-- The controller stays in its state, and the requests stay. -/
def State.Stays (s u : State) : Prop :=
  u.st = s.st ∧ u.tEntry = s.tEntry ∧ u.updCnt = s.updCnt ∧ u.pending = s.pending ∧ u.sleepPending = s.sleepPending

/-- The controller makes one transition, after which nothing is in hand; only those of IDLE take a request
(43_display_controller.md R145, R155). -/
def State.Leaves (s u : State) : Prop :=
  transition s.cfg s.st u.st = true ∧ u.work = [] ∧
    (s.pending = true → u.pending = true ∨ s.st = .idle ∧ u.st = .updateStart ∧ u.updCnt = s.updCnt + 1) ∧
    (s.sleepPending = true → u.sleepPending = true ∨ s.st = .idle ∧ u.st = .deepSleep)

/-- What a part of a tick does to the controller. -/
def State.Advances (s u : State) : Prop := s.Stays u ∨ s.Leaves u

theorem State.Stays.refl (s : State) : s.Stays s := ⟨rfl, rfl, rfl, rfl, rfl⟩

/-- A transition that takes no request. -/
theorem State.Leaves.of_transition {s u : State} (htr : transition s.cfg s.st u.st = true) (hw : u.work = [])
    (hp : u.pending = s.pending) (hsp : u.sleepPending = s.sleepPending) : s.Leaves u :=
  ⟨htr, hw, fun h => .inl (hp.trans h), fun h => .inl (hsp.trans h)⟩

theorem State.Stays.advances {s v u : State} (h1 : s.Stays v) (hc : v.cfg = s.cfg) (h2 : v.Advances u) :
    s.Advances u := by
  obtain ⟨hst, ht, hcnt, hp, hsp⟩ := h1
  obtain ⟨hst', ht', hcnt', hp', hsp'⟩ | ⟨htr, hw, hp', hsp'⟩ := h2
  · exact .inl ⟨hst'.trans hst, ht'.trans ht, hcnt'.trans hcnt, hp'.trans hp, hsp'.trans hsp⟩
  · rw [hc, hst] at htr
    rw [hst, hp, hcnt] at hp'
    rw [hst, hsp] at hsp'
    exact .inr ⟨htr, hw, hp', hsp'⟩

/-- No transition leaves DEEP_SLEEP (43_display_controller.md R154). -/
theorem transition_deepSleep (c : Config) (d : DState) : transition c .deepSleep d = false := by
  cases d <;> rfl

namespace State.Advances

variable {s u : State}

theorem st_follows (h : s.Advances u) : u.st = s.st ∨ transition s.cfg s.st u.st = true :=
  h.imp And.left And.left

theorem pending (h : s.Advances u) (hp : s.pending = true) :
    u.pending = true ∨ s.st = .idle ∧ u.st = .updateStart ∧ u.updCnt = s.updCnt + 1 := by
  obtain ⟨-, -, -, hstay, -⟩ | ⟨-, -, htake, -⟩ := h
  · exact .inl (hstay.trans hp)
  · exact htake hp

theorem sleepPending (h : s.Advances u) (hp : s.sleepPending = true) :
    u.sleepPending = true ∨ s.st = .idle ∧ u.st = .deepSleep := by
  obtain ⟨-, -, -, -, hstay⟩ | ⟨-, -, -, htake⟩ := h
  · exact .inl (hstay.trans hp)
  · exact htake hp

theorem of_deepSleep (h : s.Advances u) (hst : s.st = .deepSleep) : u.st = .deepSleep ∧ u.tEntry = s.tEntry := by
  obtain ⟨hstay, ht, -⟩ | ⟨htr, -⟩ := h
  · exact ⟨hstay.trans hst, ht⟩
  · simp [hst, transition_deepSleep] at htr

end State.Advances

/-- A task that was in front of the work in hand, carried out. -/
theorem State.advances_of_task {t : Task} {ts : List Task} {s u : State} (hw : s.work = t :: ts)
    (hc : s.controlOk = true) (hstay : u.st = s.st ∧ u.tEntry = s.tEntry ∨ t.exit = some u.st ∧ u.work = ts)
    (hside : u.hostSide = s.hostSide) : s.Advances u := by
  obtain ⟨hfit, -, hend, -⟩ := State.controlOk_cons hw hc
  simp only [State.hostSide, Prod.mk.injEq] at hside
  obtain ⟨hcnt, hp, hsp, -⟩ := hside
  obtain ⟨hst, ht⟩ | ⟨he, hwork⟩ := hstay
  · exact .inl ⟨hst, ht, hcnt, hp, hsp⟩
  · obtain ⟨htr, hlast⟩ := Task.exit_follows hfit he
    exact .inr (.of_transition htr (hwork.trans (hend hlast)) hp hsp)

theorem waitBusy_advances {timeout : Word32} {exit : DState} {s : State} (htr : transition s.cfg s.st exit = true)
    (hw : s.work = []) : s.Advances (waitBusy timeout exit s) := by
  have hsample : s.Stays s.sampleBusy ∧ s.sampleBusy.work = s.work := by
    unfold State.sampleBusy
    split <;> exact ⟨.refl s, rfl⟩
  obtain ⟨hstay, hwork⟩ := hsample
  unfold waitBusy
  split
  · obtain ⟨-, -, -, hp, hsp⟩ := hstay
    exact .inr (.of_transition htr (hwork.trans hw) hp hsp)
  · exact .inl hstay

/-- An action without frames stays in its state or goes along the table of R155. -/
theorem tickAction_advances {s u : State} (hw : s.work = []) (hs : s.st.sends = false) (h : tickAction s = .next u) :
    s.Advances u := by
  have hgo : ∀ {v : State} (d : DState), transition s.cfg s.st d = true → v.work = s.work → v.pending = s.pending →
      v.sleepPending = s.sleepPending → s.Advances (v.goto d) :=
    fun d htr hvw hp hsp => .inr (.of_transition htr (hvw.trans hw) hp hsp)
  unfold tickAction at h
  cases hst : s.st with
  | initSendCommands | updatePrepare | updateSendingData | updateRefresh | deepSleep =>
    rw [hst] at hs
    cases hs
  | initStart | initDone | updateDone =>
    rw [hst] at h
    cases h
    exact hgo _ (by rw [hst]; rfl) rfl rfl rfl
  | initReset =>
    rw [hst] at h
    cases h
    split
    · exact hgo _ (by rw [hst]; assumption) rfl rfl rfl
    · rename_i hpin
      exact hgo _ (by rw [hst]; simpa [transition] using hpin) rfl rfl rfl
  | initWaitReset | initWaitResetLow | initWaitResetHigh =>
    rw [hst] at h
    cases h
    split
    · exact hgo _ (by rw [hst]; rfl) rfl rfl rfl
    · exact .inl (.refl s)
  | initWaitBusy | updateWaitBusy | updateWaitRefresh =>
    rw [hst] at h
    cases h
    exact waitBusy_advances (by rw [hst]; rfl) hw
  | updateStart =>
    rw [hst] at h
    obtain ⟨full, m, req, -, rfl⟩ | ⟨full, m, rfl⟩ := execStateUpdateStart_cases h
    · exact hgo _ (by rw [hst]; rfl) rfl rfl rfl
    · exact .inl (.refl s)
  | idle =>
    rw [hst] at h
    cases h
    split
    · exact .inr ⟨by rw [hst]; rfl, hw, fun _ => .inr ⟨hst, rfl, rfl⟩, .inl⟩
    · rename_i hpending
      split
      · exact .inr ⟨by rw [hst]; rfl, hw, fun hp => absurd hp hpending, fun _ => .inr ⟨hst, rfl⟩⟩
      · exact .inl (.refl s)

theorem beginAction_advances {s u : State} (hw : s.work = []) (h : beginAction s = .next u) : s.Advances u := by
  cases hs : s.st.sends with
  | false => exact tickAction_advances hw hs (beginAction_of_not_sends hs ▸ h)
  | true =>
    cases beginAction_cases h with
    | quiet hq => simp [hs] at hq
    | leave hst | openWindow hst => simp [hst, DState.sends] at hs
    | run | prepare | asleep | chunk1 => exact .inl (.refl s)
    | chunk2 =>
      unfold State.startRow
      split <;> exact .inl (.refl s)

theorem controlAction_advances {s u : State} (hc : s.controlOk = true) (h : controlAction s = .next u) :
    s.Advances u := by
  unfold controlAction at h
  split at h
  · cases h
    exact .inl (.refl _)
  · rename_i t ts hw
    by_cases ha : t = .action
    · subst ha
      obtain ⟨-, -, hend, -⟩ := State.controlOk_cons hw hc
      obtain rfl := hend rfl
      exact beginAction_advances (s := { s with work := [] }) rfl h
    · obtain ⟨hside, hstay⟩ := taskAction_taskDone ha h
      exact State.advances_of_task hw hc hstay hside

end Sys2Proof.Machine

namespace Sys2Proof.Machine

/-! ### A transaction edge as the rest of a tick -/

/-- What the strobes of an edge but for the tick leave, before what is in hand is carried to its end. -/
def State.edgeStart (p : Ports) (s : State) : State :=
  if p.hiv.getLsbD 0 && s.ready then (s.strobed p).acceptTick else s.strobed p

theorem State.strobed_frame (p : Ports) (s : State) :
    ∃ drawReq fb, s.strobed p = { s with
      pending := p.hiv.getLsbD 1 || s.pending, sleepPending := p.hiv.getLsbD 2 || s.sleepPending
      drawReq := drawReq, fb := fb } := by
  have hpix : ∃ fb, (s.portRequests p).portPixel p = { s.portRequests p with fb := fb } := by
    unfold State.portPixel
    split
    · exact ⟨_, State.setPixel_frame ..⟩
    · exact ⟨_, rfl⟩
  obtain ⟨fb, hfb⟩ := hpix
  rw [State.strobed, hfb]
  unfold State.portDrawDone
  split
  · exact ⟨false, fb, rfl⟩
  · exact ⟨s.drawReq, fb, rfl⟩

theorem State.endTick_endTick (s : State) : s.endTick.endTick = s.endTick := by
  by_cases hw : s.work = []
  · rw [State.endTick, State.endTick, if_pos hw]
    exact if_pos hw
  · rw [State.endTick, State.endTick, if_neg hw, if_neg hw]

/-- The tick of an edge leaves nothing more to carry to its end. -/
theorem andThen_hostTick_drain {s : State} (hr : s.ready = true) (hw : s.work = []) :
    andThen (exec .hostTick s) drain = exec .hostTick s := by
  rw [exec, execHostTick, if_pos hr, andThen_assoc]
  refine andThen_congr fun u hu => ?_
  have hrest : u.AtRest := tickAction_atRest (s := s.setReady false) hw hu
  rw [andThen_next, drain_of_atRest hrest.endTick, State.endTick_endTick]

/-- An edge of the transaction level: its strobes, then the tick that is in hand or that it accepts (10_state.md R21). -/
theorem transactionEdge_eq_drain {s : State} (hw : s.ready = true → s.work = []) (p : Ports) (d : Draws) :
    transactionEdge p d s = andThen (drain ((s.sample p d).edgeStart p)) (fun t => .next t.dropDraws) := by
  have hops : execAll (s.portOps p) (s.sample p d) =
      execAll (if p.hiv.getLsbD 0 && s.ready then [.hostTick] else []) ((s.sample p d).strobed p) :=
    execAll_portOps (s := s) (v := s.sample p d) rfl p
  rw [transactionEdge, hops, State.edgeStart, State.sample_ready]
  split
  · rename_i htick
    obtain ⟨-, hr⟩ := Bool.and_eq_true_iff.1 htick
    have hr' : ((s.sample p d).strobed p).ready = true := by
      obtain ⟨_, _, h⟩ := (s.sample p d).strobed_frame p
      rw [h]
      exact hr
    have hw' : ((s.sample p d).strobed p).work = [] := (State.strobed_work ..).trans (hw hr)
    rw [execAll_singleton, andThen_hostTick_drain hr' hw', exec, execHostTick_eq_drain hr' hw']
  · rfl

theorem State.Stands.after_strobed {q : Prop} {s : State} (h : s.Stands q) (p : Ports) : (s.strobed p).Stands q :=
  State.Stands.after_execAll_port h (execAll_strobes (s := s) rfl p)

theorem State.Stands.after_edgeStart {q : Prop} {s : State} (h : s.Stands q) (p : Ports) : (s.edgeStart p).Stands q := by
  unfold State.edgeStart
  split
  · rename_i htick
    refine (h.after_strobed p).after_acceptTick ?_
    obtain ⟨_, _, hs⟩ := s.strobed_frame p
    rw [hs]
    exact (Bool.and_eq_true_iff.1 htick).2
  · exact h.after_strobed p

/-! ### A tick advances the controller once -/

/-- `u` stands, and comes from `s` by parts of one tick. -/
structure State.Follows (s u : State) : Prop where
  stands : u.Stands False
  cfg_eq : u.cfg = s.cfg
  advances : s.Advances u

namespace State.Follows

variable {s v u : State}

protected theorem refl (h : s.Stands False) : s.Follows s := ⟨h, rfl, .inl (.refl s)⟩

/-- With work left no transition has been made, so what follows may make one. -/
theorem next (h : s.Follows v) (hw : v.work ≠ []) (hs : u.Stands False) (hc : u.cfg = v.cfg) (hu : v.Advances u) :
    s.Follows u := by
  refine ⟨hs, hc.trans h.cfg_eq, ?_⟩
  obtain hstay | ⟨-, hnil, -⟩ := h.advances
  · exact hstay.advances h.cfg_eq hu
  · exact absurd hnil hw

theorem after_setReady (h : s.Follows v) (hw : v.work = []) : s.Follows (v.setReady true) :=
  ⟨h.stands.after_setReady hw, h.cfg_eq, h.advances⟩

theorem after_controlAction (h : s.Follows v) (hu : controlAction v = .next u) : s.Follows u := by
  by_cases hw : v.work = []
  · rw [controlAction, hw] at hu
    cases hu
    exact h
  · exact h.next hw (h.stands.after_controlAction hu) (controlAction_formKept h.stands.geometryOk hu).1
      (controlAction_advances h.stands.2.1 hu)

theorem after_performTask {t : Task} {ts : List Task} (h : s.Follows v) (ht : t ≠ .action) (hw : v.work = t :: ts)
    (hu : performTask t { v with work := [] } = .next u) : s.Follows { u with work := u.work ++ ts } := by
  obtain ⟨hside, hstay⟩ := performTask_taskDone ht hu
  have hstay' : u.st = v.st ∧ u.tEntry = v.tEntry ∨ t.exit = some u.st ∧ u.work ++ ts = ts :=
    hstay.imp_right fun ⟨he, hnil⟩ => ⟨he, by rw [hnil]; rfl⟩
  exact h.next (by simp [hw]) (h.stands.after_performTask ht hw hu)
    (performTask_formKept (s := { v with work := [] }) h.stands.geometryOk hu).1
    (State.advances_of_task (u := { u with work := u.work ++ ts }) hw h.stands.2.1 hstay' hside)

theorem after_drain (h : s.Follows v) (hu : drain v = .next u) : s.Follows u :=
  drain_keeps (P := s.Follows) State.Follows.stands State.Follows.after_setReady State.Follows.after_performTask
    State.Follows.after_controlAction h hu

theorem after_endHold (h : s.Follows v) : s.Follows v.endHold := by
  obtain he | he := v.endHold_cases
  · rwa [he]
  · exact h.after_controlAction he

end State.Follows

theorem clockControl_follows {n : Nat} {s u : State} (h : s.Stands False) (hu : clockControl n s = .next u) :
    s.Follows u := by
  have hstands := h.after_clockControl hu
  unfold clockControl controlEdge at hu
  split at hu
  · cases hu
    have hcycle := s.encoderEdge_cases.frame.1
    exact ⟨hstands, by rw [hcycle]; rfl, by rw [hcycle]; exact .inl (.refl s)⟩
  · split at hu
    · cases hu
      exact State.Follows.after_setReady (.refl h) ‹_›
    · exact controlActions_keeps (P := s.Follows) State.Follows.after_controlAction
        (State.Follows.after_endHold (.refl h)) hu

/-- A transaction edge advances the controller by the tick in hand. -/
theorem transactionEdge_follows {p : Ports} {d : Draws} {s t : State} (h : s.Stands False)
    (ht : transactionEdge p d s = .next t) :
    ∃ u, ((s.sample p d).edgeStart p).Follows u ∧ t = u.dropDraws := by
  obtain ⟨-, hready, -⟩ := (State.controlOk_iff s).1 h.2.1
  rw [transactionEdge_eq_drain (fun hr => (hready hr).1)] at ht
  obtain ⟨u, hu, ht⟩ := andThen_eq_next.1 ht
  cases ht
  exact ⟨u, State.Follows.after_drain (.refl ((h.after_sample p d).after_edgeStart p)) hu, rfl⟩

/-! ### A clock edge, its control and its strobes -/

/-- `u` comes from `s` by control actions of a clock edge, whose draw has no drawing window: an open window stays open
(43_display_controller.md R147), and the tick is neither accepted nor ended. -/
def State.EdgeKept (s u : State) : Prop :=
  u.window = none ∧ u.ready = s.ready ∧ (s.drawReq = true → u.drawReq = true)

theorem State.EdgeKept.refl {s : State} (hwin : s.window = none) : s.EdgeKept s := ⟨hwin, rfl, id⟩

theorem State.EdgeKept.trans {s v u : State} (h1 : s.EdgeKept v) (h2 : v.EdgeKept u) : s.EdgeKept u :=
  ⟨h2.1, h2.2.1.trans h1.2.1, fun h => h2.2.2 (h1.2.2 h)⟩

theorem execStateUpdateStart_edgeKept {s u : State} (hwin : s.window = none) (h : execStateUpdateStart s = .next u) :
    s.EdgeKept u := by
  cases h
  unfold drawWindow
  split
  · dsimp only [State.fill_window, State.setIsFull_window]
    rw [hwin]
    exact ⟨hwin, rfl, fun _ => rfl⟩
  · exact .refl hwin

theorem beginAction_edgeKept {s u : State} (hwin : s.window = none) (h : beginAction s = .next u) : s.EdgeKept u := by
  by_cases hst : s.st = .updateStart
  · rw [beginAction_of_not_sends (by rw [hst]; rfl), tickAction, hst] at h
    exact execStateUpdateStart_edgeKept hwin h
  · cases beginAction_cases h with
    | quiet hs hu =>
      rw [hu.1]
      exact .refl hwin
    | leave hst' | openWindow hst' => exact absurd hst' hst
    | run | prepare | asleep | chunk1 => exact .refl hwin
    | chunk2 =>
      unfold State.startRow
      split <;> exact .refl hwin

theorem controlAction_edgeKept {s u : State} (hwin : s.window = none) (h : controlAction s = .next u) :
    s.EdgeKept u := by
  unfold controlAction at h
  split at h
  · cases h
    exact .refl hwin
  · rename_i t ts _
    by_cases ha : t = .action
    · subst ha
      exact beginAction_edgeKept (s := { s with work := ts }) hwin h
    · have hside := (taskAction_taskDone ha h).1
      simp only [State.hostSide, Prod.mk.injEq] at hside
      obtain ⟨-, -, -, hd, hr, hw⟩ := hside
      exact ⟨hw.trans hwin, hr, hd.trans⟩

/-- The control of a clock edge leaves an open window open, and writes `ready <- 1` where it finds neither a frame nor work
(10_state.md R36, 43_display_controller.md R133, R147). -/
theorem clockControl_kept {n : Nat} {s u : State} (hwin : s.window = none) (h : clockControl n s = .next u) :
    (s.drawReq = true → u.drawReq = true) ∧
      u.ready = if s.encBusy = false ∧ s.work = [] then true else s.ready := by
  unfold clockControl controlEdge at h
  split at h
  · rename_i hb
    cases h
    rw [s.encoderEdge_cases.frame.1, if_neg (by simp [hb])]
    exact ⟨id, rfl⟩
  · rename_i hb
    split at h
    · rename_i hw
      cases h
      rw [if_pos ⟨Bool.eq_false_iff.2 hb, hw⟩]
      exact ⟨id, rfl⟩
    · rename_i hw
      have hhold : s.EdgeKept s.endHold := by
        obtain he | he := s.endHold_cases
        · rw [he]
          exact .refl hwin
        · exact controlAction_edgeKept hwin he
      obtain ⟨-, hr, hd⟩ := controlActions_keeps (P := s.EdgeKept)
        (fun hv hu => hv.trans (controlAction_edgeKept hv.1 hu)) hhold h
      exact ⟨hd, hr.trans (if_neg fun hidle => hw hidle.2).symm⟩

/-- What the strobes of a clock edge but for the tick come to, the drawing window being open before the edge or not. -/
def State.served (isOpen : Bool) (p : Ports) (s : State) : State := if isOpen then s.strobed p else s.portRequests p

theorem execAll_strobes_served {s v : State} (hd : s.drawReq = true → v.drawReq = true) (p : Ports) :
    execAll (s.strobeOps p) v = .next (v.served s.drawReq p) := by
  unfold State.served
  cases hs : s.drawReq with
  | true => exact execAll_strobes ((hd hs).trans hs.symm) p
  | false =>
    rw [State.strobeOps_eq, hs]
    simpa using execAll_requests p v

/-- A clock edge: the encoder's cycle or the control, the strobes, the tick, the record of the levels. -/
theorem clockEdge_eq_served (p : Ports) (n : Nat) (s : State) :
    clockEdge p n s = andThen (clockControl n (s.sample p { lapses := [], window := none })) (fun v =>
      .next (if p.hiv.getLsbD 0 && s.ready then (v.served s.drawReq p).acceptTick
        else v.served s.drawReq p).recordLevels) := by
  rw [clockEdge_eq, andThen_assoc]
  refine andThen_congr fun v hv => ?_
  rw [execAll_strobes_served (s := s) (clockControl_kept (s := s.sample p _) rfl hv).1, andThen_next]

end Sys2Proof.Machine

namespace Sys2Proof.Machine

/-! ### The transitions and the requests of a step (43_display_controller.md R155, R160 to R162) -/

theorem State.served_frame (isOpen : Bool) (p : Ports) (s : State) :
    ∃ drawReq fb, s.served isOpen p = { s with
      pending := p.hiv.getLsbD 1 || s.pending, sleepPending := p.hiv.getLsbD 2 || s.sleepPending
      drawReq := drawReq, fb := fb } := by
  unfold State.served
  split
  · exact s.strobed_frame p
  · exact ⟨_, _, rfl⟩

/-- What a clock edge leaves of its control's part. -/
theorem clockEdge_inv {p : Ports} {n : Nat} {s t : State} (h : clockEdge p n s = .next t) :
    ∃ u, clockControl n (s.sample p { lapses := [], window := none }) = .next u ∧
      ∃ drawReq ready fb wave work, t = { u with
        pending := p.hiv.getLsbD 1 || u.pending, sleepPending := p.hiv.getLsbD 2 || u.sleepPending
        drawReq := drawReq, ready := ready, fb := fb, wave := wave, work := work } := by
  rw [clockEdge_eq_served] at h
  obtain ⟨u, hu, h⟩ := andThen_eq_next.1 h
  obtain ⟨drawReq, fb, hserved⟩ := u.served_frame s.drawReq p
  rw [hserved] at h
  cases h
  refine ⟨u, hu, ?_⟩
  split <;> exact ⟨_, _, _, _, _, rfl⟩

theorem State.edgeStart_frame (p : Ports) (s : State) :
    ∃ drawReq ready fb work, s.edgeStart p = { s with
      pending := p.hiv.getLsbD 1 || s.pending, sleepPending := p.hiv.getLsbD 2 || s.sleepPending
      drawReq := drawReq, ready := ready, fb := fb, work := work } := by
  obtain ⟨drawReq, fb, hs⟩ := s.strobed_frame p
  unfold State.edgeStart
  rw [hs]
  split <;> exact ⟨_, _, _, _, rfl⟩

/-- An edge of the transaction level: its strobes, which keep the controller's state, then a part of one tick. -/
theorem transactionEdge_advances {p : Ports} {d : Draws} {s t : State} (h : s.Stands False)
    (ht : transactionEdge p d s = .next t) :
    ∃ drawReq ready fb work, State.Advances { s.sample p d with
      pending := p.hiv.getLsbD 1 || s.pending, sleepPending := p.hiv.getLsbD 2 || s.sleepPending
      drawReq := drawReq, ready := ready, fb := fb, work := work } t := by
  obtain ⟨u, hu, rfl⟩ := transactionEdge_follows h ht
  obtain ⟨drawReq, ready, fb, work, hstart⟩ := (s.sample p d).edgeStart_frame p
  exact ⟨drawReq, ready, fb, work, hstart ▸ hu.advances⟩

/-- An edge of the cycle level: a part of one tick, then the strobes, which keep the controller's state. -/
theorem clockEdge_advances {p : Ports} {n : Nat} {s t : State} (h : s.Stands False) (ht : clockEdge p n s = .next t) :
    ∃ u, s.Advances u ∧ t.st = u.st ∧ t.tEntry = u.tEntry ∧ t.pending = (p.hiv.getLsbD 1 || u.pending) ∧
      t.sleepPending = (p.hiv.getLsbD 2 || u.sleepPending) := by
  obtain ⟨u, hu, _, _, _, _, _, rfl⟩ := clockEdge_inv ht
  exact ⟨u, (clockControl_follows (h.after_sample p _) hu).advances, rfl, rfl, rfl, rfl⟩

/-- Settles O53: a part of one tick stays in its state or makes one transition, after which nothing is in hand, and the
strobes do not write `st`. -/
theorem stepFollowsTransitions : Obligations.StepFollowsTransitions := by
  intro s t hc h
  obtain ⟨hv, i, is, hi, h⟩ := step_next h
  have hs : State.Stands False { s with inputs := is } := ⟨hv, hc, False.elim⟩
  cases i with
  | reset fb =>
    cases h
    exact .inr (.inr ⟨rfl, fb, by rw [hi]; rfl⟩)
  | edge p d =>
    obtain ⟨_, _, _, _, hadv⟩ := transactionEdge_advances hs h
    exact hadv.st_follows.imp_right .inl
  | clock p n =>
    obtain ⟨u, hadv, hst, -⟩ := clockEdge_advances hs h
    rw [hst]
    exact hadv.st_follows.imp_right .inl

/-- Settles O51: the strobes come after the control at a clock edge and before the tick at the transaction level, and a part
of a tick clears a flag only by the transition of IDLE that takes it. -/
theorem requestsNeverLost : Obligations.RequestsNeverLost := by
  intro s t p rest hc h
  obtain ⟨hv, i, is, hi, h⟩ := step_next h
  have hs : State.Stands False { s with inputs := is } := ⟨hv, hc, False.elim⟩
  refine ⟨fun n hin => ?_, fun d hin => ?_⟩
  · obtain ⟨rfl, rfl⟩ : i = .clock p n ∧ is = rest := by simpa using hi.symm.trans hin
    obtain ⟨u, hadv, hst, -, hpending, hsleep⟩ := clockEdge_advances hs h
    rw [hst, hpending, hsleep]
    simp only [Bool.or_eq_true]
    refine ⟨.inl, .inl, fun hp => ?_, fun hp => ?_⟩
    · exact (hadv.pending hp).imp .inr (And.imp_right And.left)
    · exact (hadv.sleepPending hp).imp_left .inr
  · obtain ⟨rfl, rfl⟩ : i = .edge p d ∧ is = rest := by simpa using hi.symm.trans hin
    obtain ⟨_, _, _, _, hadv⟩ := transactionEdge_advances hs h
    exact ⟨fun hp => hadv.pending (Bool.or_eq_true_iff.2 hp), fun hp => hadv.sleepPending (Bool.or_eq_true_iff.2 hp)⟩

end Sys2Proof.Machine

namespace Sys2Proof.Machine

/-! ### DEEP_SLEEP after its table (43_display_controller.md R154, R198) -/

theorem State.strobed_of_closed {s : State} (hd : s.drawReq = false) (p : Ports) : s.strobed p = s.portRequests p := by
  have hclosed : (s.portRequests p).drawReq = false := hd
  have hpixel : (s.portRequests p).portPixel p = s.portRequests p := by
    rw [State.portPixel, hclosed]
    rfl
  rw [State.strobed, hpixel, State.portDrawDone]
  split
  · exact congrArg (fun d => ({ s.portRequests p with drawReq := d } : State)) hd.symm
  · rfl

/-- Once its table has run, the action of DEEP_SLEEP does nothing. -/
theorem execStateDeepSleep_of_done {s : State} (hdone : s.sleepDone = true) : execStateDeepSleep s = .next s :=
  if_pos hdone

theorem tickAction_of_asleep {s : State} (hst : s.st = .deepSleep) (hdone : s.sleepDone = true) :
    tickAction s = .next s := by
  rw [tickAction, hst]
  exact execStateDeepSleep_of_done hdone

theorem beginAction_of_asleep {s : State} (hst : s.st = .deepSleep) (hdone : s.sleepDone = true) :
    beginAction s = .next s := by
  rw [beginAction, hst]
  exact congrArg Host.Outcome.next (if_pos hdone)

/-- The state `s` with the request flags, the tick's own acceptance, and what an edge samples and records taken from `t`. -/
def State.withIdle (s t : State) : State :=
  { s with
    pending := t.pending, sleepPending := t.sleepPending, ready := t.ready, work := t.work
    now := t.now, busyIn := t.busyIn, lapses := t.lapses, window := t.window
    inputs := t.inputs, wave := t.wave }

/-- `u` comes from `s`, asleep, by parts of edges whose ticks do nothing. -/
def State.Asleep (s u : State) : Prop := (u.work = [] ∨ u.work = [.action]) ∧ u = s.withIdle u

namespace State.Asleep

variable {s v u : State}

theorem drawReq (h : s.Asleep v) : v.drawReq = s.drawReq := by
  rw [h.2]
  rfl

theorem encBusy (h : s.Asleep v) : v.encBusy = s.encBusy := by
  rw [h.2]
  rfl

/-- What an edge writes without a tick, whatever it is, keeps the block asleep. -/
theorem of_withIdle (h : s.Asleep v) (hu : u = v.withIdle u) (hw : u.work = [] ∨ u.work = [.action]) : s.Asleep u := by
  refine ⟨hw, ?_⟩
  rw [h.2] at hu
  exact hu

theorem st_eq (h : s.Asleep v) (hst : s.st = .deepSleep) : v.st = .deepSleep := by
  rw [h.2]
  exact hst

theorem sleepDone (h : s.Asleep v) (hdone : s.sleepDone = true) : v.sleepDone = true := by
  rw [h.2]
  exact hdone

theorem after_controlAction (hst : s.st = .deepSleep) (hdone : s.sleepDone = true) (h : s.Asleep v)
    (hu : controlAction v = .next u) : s.Asleep u := by
  obtain hw | hw := h.1
  · rw [controlAction, hw] at hu
    cases hu
    exact h
  · have hnone : s.Asleep { v with work := [] } := h.of_withIdle rfl (.inl rfl)
    rw [controlAction, hw] at hu
    cases (beginAction_of_asleep (hnone.st_eq hst) (hnone.sleepDone hdone)).symm.trans hu
    exact hnone

theorem after_clockControl (hst : s.st = .deepSleep) (hdone : s.sleepDone = true) (hb : s.encBusy = false) {n : Nat}
    (h : s.Asleep v) (hu : clockControl n v = .next u) : s.Asleep u := by
  rw [clockControl, controlEdge, h.encBusy, hb, if_neg Bool.false_ne_true, if_neg Bool.false_ne_true] at hu
  split at hu
  · cases hu
    exact h.of_withIdle rfl h.1
  · have hhold : s.Asleep v.endHold := by
      obtain he | he := v.endHold_cases
      · rwa [he]
      · exact h.after_controlAction hst hdone he
    exact controlActions_keeps (P := s.Asleep) (State.Asleep.after_controlAction hst hdone) hhold hu

theorem after_drain (hst : s.st = .deepSleep) (hdone : s.sleepDone = true) (h : s.Asleep v) (hu : drain v = .next u) :
    s.Asleep u := by
  obtain hw | hw := h.1
  · rw [drain_nil hw] at hu
    cases hu
    exact h.of_withIdle rfl h.1
  · have hnone : s.Asleep { v with work := [] } := h.of_withIdle rfl (.inl rfl)
    rw [drain_cons hw, performTask, tickAction_of_asleep (hnone.st_eq hst) (hnone.sleepDone hdone), andThen_next,
      resume_nil, State.endTick, if_pos rfl] at hu
    cases hu
    exact hnone.of_withIdle rfl (.inl rfl)

theorem after_edgeStart (hd : s.drawReq = false) (h : s.Asleep v) (p : Ports) : s.Asleep (v.edgeStart p) := by
  rw [State.edgeStart, State.strobed_of_closed (h.drawReq.trans hd)]
  split
  · exact h.of_withIdle rfl (.inr rfl)
  · exact h.of_withIdle rfl h.1

theorem after_transactionEdge (hst : s.st = .deepSleep) (hdone : s.sleepDone = true) (hd : s.drawReq = false)
    {p : Ports} {d : Draws} (h : s.Asleep v) (hr : v.ready = true → v.work = []) (hu : transactionEdge p d v = .next u) :
    s.Asleep u := by
  rw [transactionEdge_eq_drain hr] at hu
  obtain ⟨w, hw, hu⟩ := andThen_eq_next.1 hu
  have hsample : s.Asleep (v.sample p d) := h.of_withIdle rfl h.1
  have hdrain := (hsample.after_edgeStart hd p).after_drain hst hdone hw
  cases hu
  exact hdrain.of_withIdle rfl hdrain.1

theorem after_clockEdge (hst : s.st = .deepSleep) (hdone : s.sleepDone = true) (hd : s.drawReq = false)
    (hb : s.encBusy = false) {p : Ports} {n : Nat} (h : s.Asleep v) (hu : clockEdge p n v = .next u) : s.Asleep u := by
  rw [clockEdge_eq_served, h.drawReq, hd] at hu
  obtain ⟨w, hw, hu⟩ := andThen_eq_next.1 hu
  have hsample : s.Asleep (v.sample p { lapses := [], window := none }) := h.of_withIdle rfl h.1
  have hcontrol := hsample.after_clockControl hst hdone hb hw
  cases hu
  split
  · exact hcontrol.of_withIdle rfl (.inr rfl)
  · exact hcontrol.of_withIdle rfl hcontrol.1

end State.Asleep

/-- Between ticks, and with the state action alone in hand, no window is open and no frame in progress. -/
theorem State.closed_of_controlOk {s : State} (hc : s.controlOk = true) (hw : s.work = [] ∨ s.work = [.action]) :
    s.drawReq = false ∧ s.encBusy = false := by
  obtain ⟨-, -, hopen, hframe⟩ := (State.controlOk_iff s).1 hc
  obtain hw | hw := hw <;> simpa [hw] using And.intro hopen hframe

/-- Settles O57: no transition leaves DEEP_SLEEP; after its table its action does nothing, and with no window open and no
frame in progress an edge writes what it samples, the request flags and the tick's acceptance. -/
theorem deepSleepKept : Obligations.DeepSleepKept := by
  intro s t hc hst h hreset
  have hfb := framebufferWrittenInUpdateStart s t hc (by rw [hst]; decide) h hreset
  obtain ⟨hv, i, is, hi, h⟩ := step_next h
  have hs : State.Stands False { s with inputs := is } := ⟨hv, hc, False.elim⟩
  cases i with
  | reset fb => exact absurd (by rw [hi]; rfl) (hreset fb)
  | edge p d =>
    obtain ⟨_, _, _, _, hadv⟩ := transactionEdge_advances hs h
    obtain ⟨hst', ht⟩ := hadv.of_deepSleep hst
    refine ⟨hst', ht, hfb, fun hdone hw => ?_⟩
    obtain ⟨-, hready, -⟩ := (State.controlOk_iff s).1 hc
    have hasleep : s.Asleep { s with inputs := is } := ⟨hw, rfl⟩
    exact hasleep.after_transactionEdge hst hdone (State.closed_of_controlOk hc hw).1 (fun hr => (hready hr).1) h
  | clock p n =>
    obtain ⟨u, hadv, hst', ht, -⟩ := clockEdge_advances hs h
    obtain ⟨hust, hut⟩ := hadv.of_deepSleep hst
    refine ⟨hst'.trans hust, ht.trans hut, hfb, fun hdone hw => ?_⟩
    have hasleep : s.Asleep { s with inputs := is } := ⟨hw, rfl⟩
    obtain ⟨hd, hb⟩ := State.closed_of_controlOk hc hw
    exact hasleep.after_clockEdge hst hdone hd hb h

end Sys2Proof.Machine

namespace Sys2Proof.Machine

/-! ### The time of a run (42_sequence_interpreter.md R131, 43_display_controller.md R134) -/

/-- A wait with `d > 0` takes the next draw and `d + 1` counts. -/
theorem State.delayStep_time (d : Byte) (s : State) :
    (s.delayStep d).now =
        s.now + BitVec.ofNat 32 ((if d = 0 then 0 else d.toNat + 1) + (s.lapses.take (if d = 0 then 0 else 1)).sum) ∧
      (s.delayStep d).lapses = s.lapses.drop (if d = 0 then 0 else 1) := by
  rw [State.delayStep, State.waitMs_frame]
  by_cases h0 : d = 0
  · simp [h0]
  · have htake : (s.lapses.take 1).sum = s.lapses.headD 0 := by cases s.lapses <;> simp
    simp only [if_neg h0, htake, State.lapse, List.drop_one, and_true]
    rw [Nat.add_comm (d.toNat + 1), BitVec.ofNat_add (s.lapses.headD 0), BitVec.add_assoc]

/-- The draws a step takes, and the time it takes with them. -/
theorem runOp_time {op : SeqOp} (h : op.IsStep) (s : State) :
    (runOp op s).now = s.now + BitVec.ofNat 32 (waitSum [op] + (s.lapses.take (waitCount [op])).sum) ∧
      (runOp op s).lapses = s.lapses.drop (waitCount [op]) := by
  cases h with
  | step => simp [runOp, waitSum, waitCount]
  | @stepDelay cmd dly args => simpa [runOp, waitSum, waitCount] using State.delayStep_time dly (s.sendFrame false cmd)

theorem waitSum_cons (op : SeqOp) (ops : List SeqOp) : waitSum (op :: ops) = waitSum [op] + waitSum ops := by
  cases op <;> simp [waitSum]

theorem waitCount_cons (op : SeqOp) (ops : List SeqOp) : waitCount (op :: ops) = waitCount [op] + waitCount ops := by
  cases op <;> simp [waitCount]

/-- Steps in a row take the sum of their waits and of their draws. -/
theorem runOps_time {ops : List SeqOp} (h : ∀ op ∈ ops, op.IsStep) (s : State) :
    (runOps ops s).now = s.now + BitVec.ofNat 32 (waitSum ops + (s.lapses.take (waitCount ops)).sum) ∧
      (runOps ops s).lapses = s.lapses.drop (waitCount ops) := by
  induction ops generalizing s with
  | nil => simp [runOps, waitSum, waitCount]
  | cons op ops ih =>
    rw [List.forall_mem_cons] at h
    obtain ⟨hnow, hlapses⟩ := runOp_time h.1 s
    obtain ⟨hnow', hlapses'⟩ := ih h.2 (runOp op s)
    rw [runOps_cons, hnow', hlapses', hnow, hlapses, waitSum_cons op ops, waitCount_cons op ops,
      List.drop_drop, List.take_add, List.sum_append, BitVec.add_assoc, ← BitVec.ofNat_add]
    refine ⟨?_, rfl⟩
    congr 2
    omega

/-- A wait lasts at most 256 counts (42_sequence_interpreter.md R131). -/
theorem waitSum_le (ops : List SeqOp) : waitSum ops ≤ 256 * waitCount ops := by
  induction ops with
  | nil => exact Nat.le_refl 0
  | cons op ops ih =>
    have hop : waitSum [op] ≤ 256 * waitCount [op] := by
      cases op with
      | stepDelay cmd dly args =>
        have := dly.isLt
        simp only [waitSum, waitCount]
        split <;> omega
      | step | finish | illegal => exact Nat.le_refl 0
    rw [waitSum_cons, waitCount_cons]
    omega

/-- A step waits at most once. -/
theorem waitCount_le_length (ops : List SeqOp) : waitCount ops ≤ ops.length := by
  induction ops with
  | nil => exact Nat.le_refl 0
  | cons op ops ih =>
    have hop : waitCount [op] ≤ 1 := by
      cases op with
      | stepDelay cmd dly args =>
        simp only [waitCount]
        split <;> omega
      | step | finish | illegal => exact Nat.zero_le 1
    rw [waitCount_cons, List.length_cons]
    omega

/-- A step has its two bytes of head and its arguments (30_encoding.md R75). -/
theorem two_mul_length_add_argCount_le (ops : List SeqOp) :
    2 * ops.length + (ops.map argCount).sum ≤ (ops.map opLen).sum := by
  induction ops with
  | nil => exact Nat.le_refl 0
  | cons op ops ih =>
    have hop : 2 + argCount op ≤ opLen op := by cases op <;> simp only [argCount, opLen] <;> omega
    simp only [List.length_cons, List.map_cons, List.sum_cons]
    omega

/-- The steps of a well-formed table with their arguments, and the end marker, fit in the table. -/
theorem tableOps_length_le {t : List Byte} (h : wfTable t = true) :
    2 * (tableOps t).length + ((tableOps t).map argCount).sum + 2 ≤ t.length := by
  obtain ⟨-, junk, hshape⟩ := shape_of_wfTable h
  have hsteps := two_mul_length_add_argCount_le (tableOps t)
  have htotal := congrArg List.length hshape
  rw [List.length_append, length_flatMap_bytes, List.length_cons, List.length_cons] at htotal
  omega

/-- The run of a well-formed table is its steps, after the draws are bounded. -/
theorem runSeq_tableOps {s : State} {sel : TableSel} (h : tableOk (s.cfg.table sel) = true) :
    runSeq sel s =
      .next (runOps (tableOps (s.cfg.table sel)) ((s.selectTable sel).boundDraws (tableOps (s.cfg.table sel)))) := by
  simp only [tableOk, Bool.and_eq_true, decide_eq_true_eq] at h
  obtain ⟨hops, junk, hshape⟩ := shape_of_wfTable h.1
  have htable := congrArg List.length hshape
  rw [List.length_append] at htable
  exact runSeq_steps hops hshape (by omega)

/-- The run of a well-formed table takes its waits and the draws before them. -/
theorem runSeq_time {s : State} {sel : TableSel} (h : tableOk (s.cfg.table sel) = true) {ops : List SeqOp}
    (hops : tableOps (s.cfg.table sel) = ops) {draws : List Nat}
    (hdraws : capDraws (2 ^ 32 - 1 - waitSum ops) s.lapses = draws) :
    ∃ t, runSeq sel s = .next t ∧ t.now = s.now + BitVec.ofNat 32 (waitSum ops + (draws.take (waitCount ops)).sum) ∧
      t.lapses = draws.drop (waitCount ops) := by
  have hrun := runSeq_tableOps h
  simp only [tableOk, Bool.and_eq_true] at h
  obtain ⟨hsteps, -⟩ := shape_of_wfTable h.1
  subst hops hdraws
  exact ⟨_, hrun, runOps_time hsteps _⟩

/-- Time that advances by less than `2 ^ 32` counts shows all of them. -/
theorem toNat_add_ofNat_sub {a n : Nat} (now : Word32) (h : a + n < 2 ^ 32) :
    a ≤ (now + BitVec.ofNat 32 (a + n) - now).toNat := by
  rw [BitVec.add_comm, BitVec.add_sub_cancel, BitVec.toNat_ofNat, Nat.mod_eq_of_lt h]
  exact Nat.le_add_right a n

/-- Settles O27: the steps take their waits and the draws before them, and the draws are cut so that all of them leave the
count below `2 ^ 32`. -/
theorem runTimeSpansWaits : Obligations.RunTimeSpansWaits := by
  intro s sel h
  dsimp only
  generalize hops : tableOps (s.cfg.table sel) = ops
  generalize hdraws : capDraws (2 ^ 32 - 1 - waitSum ops) s.lapses = draws
  obtain ⟨t, hrun, hnow, hlapses⟩ := runSeq_time h hops hdraws
  simp only [tableOk, Bool.and_eq_true, decide_eq_true_eq] at h
  have hfit := hops ▸ tableOps_length_le h.1
  have hcount := waitCount_le_length ops
  have hwaits := waitSum_le ops
  have hcap : draws.sum ≤ 2 ^ 32 - 1 - waitSum ops := hdraws ▸ capDraws_sum_le ..
  have hsplit := List.sum_take_add_sum_drop draws (waitCount ops)
  have hhead : (draws.drop (waitCount ops)).headD 0 ≤ (draws.drop (waitCount ops)).sum := by
    cases draws.drop (waitCount ops) <;> simp
  refine ⟨t, hrun, hnow, hlapses, by omega, fun hsum => ?_, ?_, by omega, ?_, hcount, hwaits, fun d => ?_⟩
  · rw [← hdraws, capDraws_of_sum_le (by omega)]
  · rw [hnow]
    exact toNat_add_ofNat_sub s.now (by omega)
  · calc _ = (ops.map argCount).sum := congrArg List.sum (List.map_congr_left fun op _ => by cases op <;> rfl)
      _ ≤ (s.cfg.table sel).length - 4 := ?_
    cases ops with
    | nil => exact Nat.zero_le _
    | cons op ops =>
      rw [List.length_cons] at hfit
      omega
  · show waitSum ops ≤ (t.now + BitVec.ofNat 32 (t.lapses.headD 0) - s.now).toNat
    rw [hnow, hlapses, BitVec.add_assoc, ← BitVec.ofNat_add, Nat.add_assoc]
    exact toNat_add_ofNat_sub s.now (by omega)

end Sys2Proof.Machine

namespace Sys2Proof.Machine

/-! ### The states without frames (43_display_controller.md R137 to R153) -/

/-- Settles O34, by the two meanings: a pin change and a `goto`. -/
theorem initStartAndReset : Obligations.InitStartAndReset := by
  intro s
  refine ⟨rfl, fun h => ?_, fun h => ?_⟩ <;> rw [exec, execStateInitReset, h] <;> rfl

/-- "After T ms" is the strict comparison of R136. -/
theorem State.timeUp_iff (s : State) (t : Word32) : s.timeUp t = true ↔ t.toNat < (s.now - s.tEntry).toNat :=
  decide_eq_true_iff

/-- What a timed state chooses by `timeUp` it chooses by that comparison. -/
theorem ite_timeUp (s : State) (t : Word32) (a b : State) :
    (if s.timeUp t then a else b) = if t.toNat < (s.now - s.tEntry).toNat then a else b :=
  if_congr (s.timeUp_iff t) rfl rfl

/-- Settles O35: each state's condition is the strict comparison, its effect a pin change and a `goto`. -/
theorem resetPulseTimed : Obligations.ResetPulseTimed := fun s =>
  ⟨congrArg Host.Outcome.next (ite_timeUp s ..), congrArg Host.Outcome.next (ite_timeUp s ..),
    congrArg Host.Outcome.next (ite_timeUp s ..)⟩

/-- A wait state samples the line where there is one, and is left when it is idle or the time is up (R135, R158). -/
theorem waitBusy_eq (timeout : Word32) (exit : DState) (s : State) :
    waitBusy timeout exit s =
      let sampled : State := { s with trace := s.trace ++ if s.cfg.hasBusyPin then [.busySample s.busyIn] else [] }
      if (!s.cfg.hasBusyPin || decide (s.busyIn.toNat ≠ s.cfg.busyActiveLevel)) = true ∨
          timeout.toNat < (s.now - s.tEntry).toNat then sampled.entered exit
      else sampled := by
  have hsample : s.sampleBusy =
      { s with trace := s.trace ++ if s.cfg.hasBusyPin then [.busySample s.busyIn] else [] } := by
    unfold State.sampleBusy
    split
    · rfl
    · rw [List.append_nil]
  rw [waitBusy, ← hsample]
  refine if_congr ?_ (State.goto_eq ..) rfl
  rw [Bool.or_eq_true, s.timeUp_iff, State.busyLineIdle]

/-- Settles O37: the three states are one, with their timeout and their exit. -/
theorem waitStatesPollBusy : Obligations.WaitStatesPollBusy := fun _ =>
  ⟨congrArg Host.Outcome.next (waitBusy_eq ..), congrArg Host.Outcome.next (waitBusy_eq ..),
    congrArg Host.Outcome.next (waitBusy_eq ..)⟩

/-- Settles O38: each is a `goto`. -/
theorem doneStatesEnterIdle : Obligations.DoneStatesEnterIdle := fun _ => ⟨rfl, rfl⟩

/-- Settles O39, by the two flags IDLE looks at. -/
theorem idleTakesRequests : Obligations.IdleTakesRequests := by
  intro s
  refine ⟨fun hp => ?_, fun hp hs => ?_, fun hp hs => ?_⟩
  · rw [exec, execStateIdle, if_pos hp]
    rfl
  · rw [exec, execStateIdle, if_neg (ne_true_of_eq_false hp), if_pos hs]
    rfl
  · rw [exec, execStateIdle, if_neg (ne_true_of_eq_false hp), if_neg (ne_true_of_eq_false hs)]

/-- A tick that brings its window's writes draws them and goes on (R147). -/
theorem drawWindow_some {s : State} {ws : List PixelWrite} (h : s.window = some ws) :
    drawWindow s = ((ws.foldl State.writePixel (s.setDrawReq true)).setDrawReq false).goto .updateWaitBusy := by
  rw [drawWindow, h]

/-- A tick without the window's writes leaves it open for later edges (R147, log entry 6). -/
theorem drawWindow_none {s : State} (h : s.window = none) :
    drawWindow s = { s.setDrawReq true with work := [.window, .goto .updateWaitBusy] ++ s.work } := by
  rw [drawWindow, h]

/-- Settles O40: FILL after the latch, then no window, the tick's own window, or one that stays open. -/
theorem updateStartFillsAndDraws : Obligations.UpdateStartFillsAndDraws := by
  intro s
  refine ⟨_, exec_fbFill false _, fun hcb => ?_, fun hcb ws hwin => ?_, fun hcb hwin => ?_⟩
  · rw [exec, execStateUpdateStart, hcb]
    rfl
  · rw [exec, execStateUpdateStart, if_pos hcb]
    exact congrArg Host.Outcome.next (drawWindow_some hwin)
  · rw [exec, execStateUpdateStart, if_pos hcb]
    exact congrArg Host.Outcome.next (drawWindow_none hwin)

/-- Settles O42, by the three modes. -/
theorem cadenceRule : Obligations.CadenceRule := by
  intro c n
  have hone : n = 1 ↔ n.toNat = 1 := by rw [← BitVec.toNat_inj]; rfl
  refine ⟨fun h => ?_, fun h => ?_, fun h => ?_⟩ <;> rw [cadenceFull, h]
  rw [decide_eq_true_eq, hone]

/-- Settles O50: each strobe writes its one register, which a second one finds written. -/
theorem strobesSetFlags : Obligations.StrobesSetFlags := by
  intro s
  refine ⟨rfl, rfl, fun h => ?_, fun h => ?_, fun h => ?_, fun h => ?_⟩
  · exact congrArg (fun v => Host.Outcome.next { s with pending := v }) h.symm
  · exact congrArg (fun v => Host.Outcome.next { s with sleepPending := v }) h.symm
  · rw [exec, execHostDrawDone, if_pos h]
    rfl
  · rw [exec, execHostDrawDone, h]
    rfl

end Sys2Proof.Machine

namespace Sys2Proof.Machine

/-! ### The action of a state (43_display_controller.md R132) -/

/-- The instruction that is the action of a state. -/
def DState.action : DState → Instr
  | .initStart => .stateInitStart
  | .initReset => .stateInitReset
  | .initWaitReset => .stateInitWaitReset
  | .initWaitResetLow => .stateInitWaitResetLow
  | .initWaitResetHigh => .stateInitWaitResetHigh
  | .initSendCommands => .stateInitSendCommands
  | .initWaitBusy => .stateInitWaitBusy
  | .initDone => .stateInitDone
  | .idle => .stateIdle
  | .updateStart => .stateUpdateStart
  | .updateWaitBusy => .stateUpdateWaitBusy
  | .updatePrepare => .stateUpdatePrepare
  | .updateSendingData => .stateUpdateSendingData
  | .updateRefresh => .stateUpdateRefresh
  | .updateWaitRefresh => .stateUpdateWaitRefresh
  | .updateDone => .stateUpdateDone
  | .deepSleep => .stateDeepSleep

theorem decodeState_code (d : DState) : decodeState d.code = .ok d.action := by
  cases d <;> rfl

theorem exec_action (s : State) : exec s.st.action s = tickAction s := by
  rw [tickAction]
  cases s.st <;> rfl

/-- An accepted tick is the action of the state, then its end. -/
theorem exec_hostTick_of_ready {s : State} (hr : s.ready = true) :
    exec .hostTick s = andThen (exec s.st.action { s with ready := false }) (fun t => .next t.endTick) := by
  rw [exec, execHostTick, if_pos hr]
  exact congrArg (andThen · _) (exec_action (s.setReady false)).symm

/-- Settles O9: the code of a state decodes to its action. -/
theorem tickRunsDecodedState : Obligations.TickRunsDecodedState := by
  intro s i hr hi
  obtain rfl : s.st.action = i := Except.ok.inj ((decodeState_code s.st).symm.trans hi)
  rw [exec_hostTick_of_ready hr]
  cases exec s.st.action { s with ready := false } <;> rfl

/-! ### The states that run a table (43_display_controller.md R142, R149, R151, R154) -/

/-- A run of a well-formed table gains its events and takes at least its waits, and writes nothing but its own registers. -/
theorem runSeq_next {s : State} {sel : TableSel} {tbl : List Byte} (hsel : s.cfg.table sel = tbl)
    (h : tableOk tbl = true) :
    ∃ t, runSeq sel s = .next t ∧ t.trace = s.trace ++ tableEvents tbl ∧ t = s.withRun t ∧
      ∀ d, waitSum (tableOps tbl) ≤ ((t.entered d).tEntry - s.now).toNat := by
  subst hsel
  obtain ⟨t, hrun, htrace, -, -, hframe⟩ := tableRunEvents s sel h
  obtain ⟨t', hrun', -, -, -, -, -, -, -, -, -, htime⟩ := runTimeSpansWaits s sel h
  obtain rfl : t = t' := Host.Outcome.next.inj (hrun.symm.trans hrun')
  exact ⟨t, hrun, htrace, hframe, htime⟩

/-- A run, then the `goto` that stamps the time after it. -/
theorem runSeq_goto {s : State} {sel : TableSel} {tbl : List Byte} (hsel : s.cfg.table sel = tbl)
    (h : tableOk tbl = true) (d : DState) :
    ∃ t, andThen (runSeq sel s) (fun u => .next (u.goto d)) = .next t ∧ t.trace = s.trace ++ tableEvents tbl ∧
      t.tEntry = t.now ∧ waitSum (tableOps tbl) ≤ (t.tEntry - s.now).toNat ∧
      t = { s.withRun t with st := d, tEntry := t.tEntry } := by
  obtain ⟨u, hrun, htrace, hframe, htime⟩ := runSeq_next hsel h
  refine ⟨u.goto d, by rw [hrun, andThen_next], htrace, rfl, htime d, ?_⟩
  rw [hframe]
  rfl

/-- Settles O36: each state is the run of its table and a `goto`. -/
theorem tableStatesRunTheirTable : Obligations.TableStatesRunTheirTable := by
  intro s
  refine ⟨fun h => runSeq_goto (sel := .initSeq) rfl h _,
    fun h => runSeq_goto (s := s.resetCursor) (sel := .prepareSeq) rfl h _, fun hfull h => ?_, fun hfull h => ?_⟩
  · have hsel : s.cfg.table s.refreshTable = s.cfg.fullRefreshSeq := by rw [State.refreshTable, if_pos hfull]; rfl
    exact runSeq_goto hsel h _
  · have hsel : s.cfg.table s.refreshTable = s.cfg.partialRefreshSeq := by
      rw [State.refreshTable, if_neg (ne_true_of_eq_false hfull)]
      rfl
    exact runSeq_goto hsel h _

/-- Settles O43: `sleep_done` chooses between the table and nothing, and the run of the table sets it. -/
theorem deepSleepRunsTableOnce : Obligations.DeepSleepRunsTableOnce := by
  intro s
  refine ⟨execStateDeepSleep_of_done, fun hdone h => ?_⟩
  obtain ⟨u, hrun, htrace, hframe, -⟩ := runSeq_next (s := s) (sel := .sleepSeq) rfl h
  refine ⟨u.setSleepDone true, ?_, htrace, ?_, execStateDeepSleep_of_done rfl⟩
  · rw [exec, execStateDeepSleep, if_neg (ne_true_of_eq_false hdone), hrun, andThen_next]
  · rw [hframe]
    rfl

/-! ### The ticks accepted (43_display_controller.md R133) -/

/-- The run of any table of a valid configuration completes. -/
theorem runSeq_andThen_next {s : State} {sel : TableSel} (hv : s.cfg.valid = true)
    (hsel : sel = .secondaryPrepareSeq → s.cfg.targets = 2) (f : State → State) :
    ∃ t, andThen (runSeq sel s) (fun u => .next (f u)) = .next t := by
  obtain ⟨u, hrun, -⟩ := runSeq_next rfl (Config.tableOk_of_valid hv sel hsel)
  exact ⟨f u, by rw [hrun, andThen_next]⟩

theorem endChunk2_next {s : State} (hv : s.cfg.valid = true) (h2 : s.cfg.targets = 2) : ∃ t, endChunk2 s = .next t := by
  unfold endChunk2
  split
  · split
    · exact ⟨_, rfl⟩
    · exact runSeq_andThen_next hv (fun _ => h2) _
  · exact ⟨s, rfl⟩

/-- A transfer whose cursor is within the image completes (44_data_transfer.md R181). -/
theorem execStateUpdateSendingData_next {s : State} (hv : s.cfg.valid = true)
    (h1 : s.cfg.targets = 1 → s.idx.toNat ≤ s.cfg.fbLen) (h2 : s.cfg.targets = 2 → s.row.toNat ≤ s.cfg.height) :
    ∃ t, execStateUpdateSendingData s = .next t := by
  obtain ⟨-, htargets, -⟩ := (Config.valid_iff s.cfg).1 hv
  unfold execStateUpdateSendingData
  split
  · rename_i ht
    rw [chunk1, if_neg (Nat.not_lt.2 (h1 ht))]
    exact ⟨_, rfl⟩
  · rename_i ht
    have ht2 : s.cfg.targets = 2 := (of_decide_eq_true htargets).resolve_left ht
    have hcfg := (State.Ran.sendRows (s.cfg.columns s.tgt).1 (s.cfg.columns s.tgt).2 s.row.toNat s.chunkRowCount s).cfg
    rw [chunk2, if_neg (Nat.not_lt.2 (h2 ht2))]
    refine endChunk2_next ?_ ?_ <;> rw [State.advanceRow_cfg, hcfg] <;> assumption

/-- The action of every state completes: its tables are well formed, and the cursor is within the image. -/
theorem tickAction_next {s : State} (hv : s.cfg.valid = true) (h1 : s.cfg.targets = 1 → s.idx.toNat ≤ s.cfg.fbLen)
    (h2 : s.cfg.targets = 2 → s.row.toNat ≤ s.cfg.height) : ∃ t, tickAction s = .next t := by
  unfold tickAction
  cases s.st with
  | initSendCommands => exact runSeq_andThen_next (sel := .initSeq) hv nofun _
  | updatePrepare => exact runSeq_andThen_next (s := s.resetCursor) (sel := .prepareSeq) hv nofun _
  | updateSendingData => exact execStateUpdateSendingData_next hv h1 h2
  | updateRefresh =>
    have hsel : s.refreshTable = .secondaryPrepareSeq → s.cfg.targets = 2 := by
      unfold State.refreshTable
      split <;> nofun
    exact runSeq_andThen_next hv hsel _
  | deepSleep =>
    dsimp only
    unfold execStateDeepSleep
    split
    · exact ⟨s, rfl⟩
    · exact runSeq_andThen_next (sel := .sleepSeq) hv nofun _
  | _ => exact ⟨_, rfl⟩

/-- Settles O49: the action of the state completes; at a clock edge `ready` is written by the strobe last, and before it by
the control's end of the tick. -/
theorem tickAcceptance : Obligations.TickAcceptance := by
  intro s
  refine ⟨fun hr => ?_, fun hv hr _ h1 h2 => ?_, fun p n t ht => ?_⟩
  · rw [exec, execHostTick, if_neg (ne_true_of_eq_false hr)]
  · obtain ⟨t, ht⟩ := tickAction_next (s := { s with ready := false }) hv h1 h2
    have hexec : exec s.st.action { s with ready := false } = .next t :=
      (exec_action { s with ready := false }).trans ht
    refine ⟨s.st.action, t, decodeState_code s.st, hexec, ?_⟩
    rw [exec_hostTick_of_ready hr, hexec]
    rfl
  · rw [clockEdge_eq_served] at ht
    obtain ⟨u, hu, ht⟩ := andThen_eq_next.1 ht
    obtain ⟨-, hready⟩ := clockControl_kept (s := s.sample p _) rfl hu
    obtain ⟨_, _, hserved⟩ := u.served_frame s.drawReq p
    rw [hserved] at ht
    refine ⟨fun hr htick => ?_, fun hr => ?_⟩
    · rw [hr, htick] at ht
      cases ht
      exact ⟨rfl, rfl⟩
    · rw [hr, Bool.and_false] at ht
      cases ht
      show u.ready = true ↔ _
      rw [hready, State.sample_ready, hr]
      exact ite_eq_left_iff.trans (by simp)

end Sys2Proof.Machine

namespace Sys2Proof.Machine

/-! ### The drawing window at later edges (43_display_controller.md R147) -/

/-- The strobes of an edge with the ports' gate written out: the pixel and `draw_done` while the window is open. -/
theorem State.served_eq {isOpen : Bool} {s : State} (hd : isOpen = true → s.drawReq = true) (p : Ports) :
    let pixel : State → State := fun u =>
      if p.hiv.getLsbD 4 then u.setPixel p.px.x.toInt p.px.y.toInt p.px.black else u
    let u1 := if isOpen then pixel (s.portRequests p) else s.portRequests p
    s.served isOpen p = if isOpen && p.hiv.getLsbD 3 then { u1 with drawReq := false } else u1 := by
  cases isOpen with
  | false => rfl
  | true =>
    have hopen : (s.portRequests p).drawReq = true := hd rfl
    show ((s.portRequests p).portPixel p).portDrawDone p = _
    rw [State.portPixel, hopen, Bool.true_and]
    rfl

theorem State.served_of_no_strobe {p : Ports} (h : p.hiv = 0) (isOpen : Bool) (s : State) : s.served isOpen p = s := by
  unfold State.served State.strobed State.portPixel State.portDrawDone State.portRequests
  simp [h]

theorem State.setPixel_recordLevels (x y : Int) (black : Bool) (s : State) :
    (s.setPixel x y black).recordLevels = s.recordLevels.setPixel x y black := by
  unfold State.setPixel
  rw [State.recordLevels_cfg]
  split <;> rfl

/-- The strobes and the record of the levels do not touch each other. -/
theorem State.served_recordLevels (isOpen : Bool) (p : Ports) (s : State) :
    (s.served isOpen p).recordLevels = s.recordLevels.served isOpen p := by
  have hpixel : ((s.portRequests p).portPixel p).recordLevels = (s.portRequests p).recordLevels.portPixel p := by
    unfold State.portPixel
    rw [State.recordLevels_drawReq, ← State.setPixel_recordLevels]
    split <;> rfl
  have hdone : ∀ v : State, (v.portDrawDone p).recordLevels = v.recordLevels.portDrawDone p := fun v => by
    unfold State.portDrawDone
    split <;> rfl
  cases isOpen with
  | false => rfl
  | true => exact (hdone _).trans (congrArg (State.portDrawDone p) hpixel)

/-- A window that is closed is passed, and the tick ends with the `goto` behind it. -/
theorem drain_window_closed {s : State} {d : DState} (hw : s.work = [.window, .goto d]) (hd : s.drawReq = false) :
    drain s = .next { s.entered d with work := [], ready := true } := by
  have hwin : performTask .window { s with work := [] } = .next { s with work := [] } :=
    congrArg Host.Outcome.next (if_neg (ne_true_of_eq_false hd))
  rw [drain_cons hw, hwin, andThen_next, resume_of_nil rfl, drain_singleton rfl]
  rfl

/-- A window that is open keeps its place under any number of control actions. -/
theorem controlActions_window {s : State} {ts : List Task} (hw : s.work = .window :: ts) (hd : s.drawReq = true)
    (n : Nat) : controlActions n s = .next s := by
  have hstep : controlAction s = .next s := by
    have hstay : taskAction .window { s with work := ts } = .next { s with work := .window :: ts } :=
      congrArg Host.Outcome.next (if_pos hd)
    rw [controlAction, hw]
    exact hstay.trans (congrArg Host.Outcome.next (State.withWork_self hw))
  induction n with
  | zero => rfl
  | succ n ih => rw [controlActions, hstep, andThen_next, ih]

theorem clockControl_window {s : State} {ts : List Task} (hb : s.encBusy = false) (hw : s.work = .window :: ts)
    (hd : s.drawReq = true) (n : Nat) : clockControl n s = .next s := by
  have hhold : s.endHold = s := by rw [State.endHold, hw]
  rw [clockControl, hb, if_neg Bool.false_ne_true, controlEdge, hb, if_neg Bool.false_ne_true,
    if_neg (by simp [hw]), hhold, controlActions_window hw hd]

theorem State.strobed_drawReq (p : Ports) (s : State) : (s.strobed p).drawReq = (s.drawReq && !p.hiv.getLsbD 3) := by
  have hpixel : ((s.portRequests p).portPixel p).drawReq = s.drawReq := State.portPixel_drawReq p _
  rw [State.strobed, State.portDrawDone]
  cases p.hiv.getLsbD 3 with
  | true => exact (Bool.and_false _).symm
  | false => exact hpixel.trans (Bool.and_true _).symm

/-- An edge of the transaction level with the window open (43_display_controller.md R147). -/
theorem transactionEdge_window {s : State} {e : DState} (hw : s.work = [.window, .goto e]) (hd : s.drawReq = true)
    (hr : s.ready = false) (p : Ports) (d : Draws) :
    let u := (s.sample p d).served true p
    transactionEdge p d s = .next (if p.hiv.getLsbD 3 then
      { u.entered e with work := [], ready := true, lapses := [], window := none } else u.dropDraws) := by
  intro u
  have hstart : (s.sample p d).edgeStart p = u := by
    rw [State.edgeStart, State.sample_ready, hr, Bool.and_false]
    rfl
  have hwork : u.work = [.window, .goto e] := (State.strobed_work p _).trans hw
  have hreq : u.drawReq = !p.hiv.getLsbD 3 :=
    (State.strobed_drawReq p _).trans (by rw [State.sample_drawReq, hd, Bool.true_and])
  rw [transactionEdge_eq_drain (by simp [hr]), hstart]
  cases hdone : p.hiv.getLsbD 3 with
  | true =>
    rw [drain_window_closed hwork (by rw [hreq, hdone]; rfl)]
    rfl
  | false =>
    rw [drain_window hwork (by rw [hreq, hdone]; rfl)]
    rfl

/-- An edge of the cycle level with the window open. -/
theorem clockEdge_window {s : State} {ts : List Task} (hb : s.encBusy = false) (hw : s.work = .window :: ts)
    (hd : s.drawReq = true) (hr : s.ready = false) (p : Ports) (n : Nat) :
    clockEdge p n s = .next ((s.sample p { lapses := [], window := none }).recordLevels.served true p) := by
  rw [clockEdge_eq_served, clockControl_window (s := s.sample p _) hb hw hd, andThen_next, hr, Bool.and_false, hd,
    if_neg Bool.false_ne_true, State.served_recordLevels]

/-- A clock edge is the same edge without strobes, then the strobes by `draw_req` and `ready` as they stand before it. -/
theorem clockEdge_strobes {p : Ports} {n : Nat} {s u : State} (h : clockEdge { p with hiv := 0 } n s = .next u) :
    (s.drawReq = true → u.drawReq = true) ∧ clockEdge p n s = .next
      (if s.ready && p.hiv.getLsbD 0 then (u.served s.drawReq p).acceptTick else u.served s.drawReq p) := by
  rw [clockEdge_eq_served] at h
  obtain ⟨v, hv, hu⟩ := andThen_eq_next.1 h
  rw [State.served_of_no_strobe rfl, if_neg (by simp)] at hu
  obtain rfl : v.recordLevels = u := Host.Outcome.next.inj hu
  have hcontrol : clockControl n (s.sample p { lapses := [], window := none }) = .next v := hv
  refine ⟨(clockControl_kept rfl hcontrol).1, ?_⟩
  rw [clockEdge_eq_served, hcontrol, andThen_next, Bool.and_comm, apply_ite State.recordLevels,
    ← State.served_recordLevels]
  rfl

/-- Settles O41: the window task stays while `draw_req = 1`, so an edge with it in hand is its strobes, and the `goto` behind
it when they close it; a clock edge is its control, which leaves an open window open, and then its strobes. -/
theorem drawWindowServed : Obligations.DrawWindowServed := by
  intro s p rest
  refine ⟨fun hv hw hd hr => ⟨fun d hi => ?_, fun n hi hb => ?_⟩, fun n u hu => ?_⟩
  · refine (step_of_valid hv hi).trans ((transactionEdge_window (s := { s with inputs := rest }) hw hd hr p d).trans ?_)
    rw [State.served_eq (isOpen := true)]
    · cases p.hiv.getLsbD 3 <;> rfl
    · exact fun _ => hd
  · refine (step_of_valid hv hi).trans ((clockEdge_window (s := { s with inputs := rest }) hb hw hd hr p n).trans ?_)
    rw [State.served_eq (isOpen := true)]
    · rfl
    · exact fun _ => hd
  · obtain ⟨hopen, hedge⟩ := clockEdge_strobes hu
    rw [hedge, State.served_eq hopen]
    rfl

end Sys2Proof.Machine

namespace Sys2Proof

/-! ### The windows of a cascade panel (44_data_transfer.md R176, R177) -/

/-- An address of a window is an address of the framebuffer (44_data_transfer.md R181). -/
theorem Config.window_lt_fbLen {c : Config} (hg : c.geometryOk = true) {tgt : Bool} {v col : Nat} (hv : v < c.height)
    (hcol : col < (c.columns tgt).2) : v * c.rowBytes + col < c.fbLen := by
  have hin : col < c.rowBytes := hcol.trans_le (Config.columns_range hg tgt).2
  calc v * c.rowBytes + col < (v + 1) * c.rowBytes := by rw [Nat.succ_mul]; omega
    _ ≤ c.height * c.rowBytes := Nat.mul_le_mul_right _ hv
    _ = c.fbLen := by rw [Config.fbLen_eq hg, Nat.mul_comm]

/-- The windows share one byte column where a row has an odd number of bytes (44_data_transfer.md R177). -/
theorem Config.windows_overlap (c : Config) (h : c.rowBytes % 2 = 1) : c.secondaryBegin + 1 = c.primaryEnd := by
  unfold Config.secondaryBegin Config.primaryEnd
  omega

theorem Config.windows_meet (c : Config) (h : c.rowBytes % 2 = 0) : c.secondaryBegin = c.primaryEnd := by
  unfold Config.secondaryBegin Config.primaryEnd
  omega

end Sys2Proof

namespace Sys2Proof.Machine

/-! ### One tick of the transfer (44_data_transfer.md R174, R178) -/

/-- The byte cursor, advanced within the image, is where its sum says. -/
theorem State.advanceIdx_toNat {s : State} {n : Nat} (hg : s.cfg.geometryOk = true)
    (h : s.idx.toNat + n ≤ s.cfg.fbLen) : (s.advanceIdx n).idx.toNat = s.idx.toNat + n := by
  have hlt := Config.fbLen_lt hg
  rw [State.advanceIdx_idx, BitVec.toNat_add, BitVec.toNat_ofNat]
  omega

/-- Settles O44: the chunk is a part of the wire, and the cursor after it decides whether the state is left. -/
theorem singleTransferTick : Obligations.SingleTransferTick := by
  intro s hg hi n
  have hle : s.idx.toNat + n ≤ s.cfg.fbLen := by omega
  have hran := State.Ran.sendFbBytes s.idx.toNat n s
  have hframe := State.sendFbBytes_frame s.idx.toNat n s
  have htrace := State.sendFbBytes_trace s.idx.toNat n s
  have hrun : chunk1 s = endChunk1 n (s.sendFbBytes s.idx.toNat n) := if_neg (Nat.not_lt.2 hi)
  generalize s.sendFbBytes s.idx.toNat n = u at hran hframe htrace hrun
  have hidx : (u.advanceIdx n).idx.toNat = s.idx.toNat + n := by
    rw [State.advanceIdx_toNat (by rwa [hran.cfg]) (by rwa [hran.cfg, hran.idx]), hran.idx]
  have hsend : s.cfg.targets = 1 → exec .stateUpdateSendingData s = chunk1 s := fun h1 => if_pos h1
  rw [endChunk1, State.advanceIdx_cfg, hran.cfg, hidx] at hrun
  by_cases hend : s.idx.toNat + n = s.cfg.fbLen
  · rw [if_pos hend] at hrun
    refine ⟨_, hrun, fun h1 => (hsend h1).trans hrun, htrace, hidx, fun _ => ?_, fun h => absurd hend h⟩
    rw [hframe]
    rfl
  · rw [if_neg hend] at hrun
    refine ⟨_, hrun, fun h1 => (hsend h1).trans hrun, htrace, hidx, fun h => absurd h hend, fun _ => ?_⟩
    rw [hframe]
    rfl

/-- A cascade tick sends the next rows of the target's window, then ends as the row cursor after them says. -/
theorem chunk2_eq_endChunk2 {s : State} (hg : s.cfg.geometryOk = true) (hrow : s.row.toNat ≤ s.cfg.height) :
    ∃ u, chunk2 s = endChunk2 u ∧ u = { s.withWire u with row := u.row, col := 0 } ∧
      u.row.toNat = s.row.toNat + s.chunkRowCount ∧
      u.trace = s.trace ++ dataEvents (windowBytes s s.tgt s.row.toNat s.chunkRowCount) := by
  have hle : s.row.toNat + s.chunkRowCount ≤ s.cfg.height := by
    have : s.chunkRowCount ≤ s.cfg.height - s.row.toNat := Nat.min_le_right ..
    omega
  have hrun : chunk2 s = endChunk2 _ := if_neg (Nat.not_lt.2 hrow)
  have hran := State.Ran.sendRows (s.cfg.columns s.tgt).1 (s.cfg.columns s.tgt).2 s.row.toNat s.chunkRowCount s
  have hframe := State.sendRows_frame (s.cfg.columns s.tgt).1 (s.cfg.columns s.tgt).2 s.row.toNat s.chunkRowCount s
  have htrace := State.sendRows_trace (s.cfg.columns s.tgt).1 (s.cfg.columns s.tgt).2 s.row.toNat s.chunkRowCount s
  generalize State.sendRows _ _ _ _ s = u at hrun hran hframe htrace
  refine ⟨u.advanceRow s.chunkRowCount, hrun, ?_, ?_, htrace⟩
  · rw [hframe]
    rfl
  · rw [State.advanceRow_toNat (by rwa [hran.cfg]) (by rwa [hran.cfg, hran.row]), hran.row]

/-- Settles O45: the rows are a part of the wire, and the row cursor and the target after them choose the tick's end. -/
theorem cascadeTransferTick : Obligations.CascadeTransferTick := by
  intro s hg hrow htable r sent
  obtain ⟨u, hrun, hframe, hurow, htrace⟩ := chunk2_eq_endChunk2 hg hrow
  have hcfg : u.cfg = s.cfg := by rw [hframe]; rfl
  have htgt : u.tgt = s.tgt := by rw [hframe]; rfl
  have hsend : s.cfg.targets = 2 → exec .stateUpdateSendingData s = chunk2 s := fun h2 => if_neg (by omega)
  change u.row.toNat = s.row.toNat + r at hurow
  rw [endChunk2, hcfg, hurow, htgt] at hrun
  by_cases hend : s.row.toNat + r = s.cfg.height
  · rw [if_pos hend] at hrun
    cases ht : s.tgt with
    | false =>
      obtain ⟨v, hv, hvtrace, hvframe, -⟩ := runSeq_next (s := u) (tbl := s.cfg.table .secondaryPrepareSeq)
        (by rw [hcfg]) htable
      rw [ht, if_neg Bool.false_ne_true, hv, andThen_next] at hrun
      refine ⟨_, hrun, fun h2 => (hsend h2).trans hrun, fun h => absurd hend h, fun _ _ => ⟨?_, ?_⟩, nofun⟩
      · exact htrace ▸ hvtrace
      · rw [hvframe, hframe]
        rfl
    | true =>
      rw [ht, if_pos rfl] at hrun
      refine ⟨_, hrun, fun h2 => (hsend h2).trans hrun, fun h => absurd hend h, nofun,
        fun _ _ => ⟨htrace, hurow.trans hend, ?_⟩⟩
      rw [hframe]
      rfl
  · rw [if_neg hend] at hrun
    exact ⟨u, hrun, fun h2 => (hsend h2).trans hrun, fun _ => ⟨htrace, hurow, hframe⟩, fun h => absurd h hend,
      fun h => absurd h hend⟩

/-- Settles O46: each tick is O44's or O45's, with a chunk of at least one byte or row. -/
theorem transferProgress : Obligations.TransferProgress := by
  intro s t hv ht
  obtain ⟨hg, -, -, hchunks, -⟩ := (Config.valid_iff s.cfg).1 hv
  obtain ⟨hbytes, hrows⟩ := of_decide_eq_true hchunks
  refine ⟨fun h1 hi => ?_, fun h2 hr => ?_, fun _ _ _ => Config.window_lt_fbLen hg⟩
  · obtain ⟨t', -, hrun, -, hidx, -⟩ := singleTransferTick s hg hi.le
    obtain rfl : t = t' := Host.Outcome.next.inj (ht.symm.trans (hrun h1))
    have hchunk := hbytes h1
    omega
  · obtain ⟨t', -, hrun, hinside, hswitch, hleave⟩ :=
      cascadeTransferTick s hg hr.le (Config.tableOk_of_valid hv _ fun _ => h2)
    obtain rfl : t = t' := Host.Outcome.next.inj (ht.symm.trans (hrun h2))
    have hchunk := hrows h2
    by_cases hend : s.row.toNat + min s.cfg.chunkRows (s.cfg.height - s.row.toNat) = s.cfg.height
    · cases htgt : s.tgt with
      | false =>
        obtain ⟨-, hframe⟩ := hswitch hend htgt
        have hrow : t.row = 0 := by rw [hframe]
        have htgt' : t.tgt = true := by rw [hframe]
        simp only [hrow, htgt', Bool.toNat_false, Bool.toNat_true, BitVec.ofNat_eq_ofNat, BitVec.toNat_ofNat]
        omega
      | true =>
        obtain ⟨-, hrow, hframe⟩ := hleave hend htgt
        have htgt' : t.tgt = true := by rw [hframe]; exact htgt
        rw [hrow, htgt', Bool.toNat_true]
        omega
    · obtain ⟨-, hrow, hframe⟩ := hinside hend
      have htgt : t.tgt = s.tgt := by rw [hframe]; rfl
      have hwindow : s.tgt.toNat * s.cfg.height ≤ 1 * s.cfg.height := Nat.mul_le_mul_right _ s.tgt.toNat_le
      rw [hrow, htgt]
      omega

/-! ### A whole transfer, tick by tick (44_data_transfer.md R175, R179) -/

/-- What holds before the first of `n` ticks and is handed on by each of them holds after the last. -/
theorem sendTicks_induction {P : Nat → State → Prop} {n : Nat}
    (hstep : ∀ k u, k < n → P k u → ∃ v, exec .stateUpdateSendingData u = .next v ∧ P (k + 1) v) {s : State} (h0 : P 0 s) :
    ∃ t, sendTicks n s = .next t ∧ P n t := by
  induction n generalizing P s with
  | zero => exact ⟨s, rfl, h0⟩
  | succ n ih =>
    obtain ⟨v, hv, h1⟩ := hstep 0 s n.succ_pos h0
    obtain ⟨t, ht, hP⟩ := ih (P := fun k => P (k + 1)) (fun k u hk => hstep (k + 1) u (by omega)) h1
    exact ⟨t, by rw [sendTicks, hv, andThen_next, ht], hP⟩

theorem sendTicks_add (m n : Nat) (s : State) : sendTicks (m + n) s = andThen (sendTicks m s) (sendTicks n) := by
  induction m generalizing s with
  | zero => rw [Nat.zero_add, sendTicks, andThen_next]
  | succ m ih =>
    rw [Nat.succ_add, sendTicks, sendTicks, andThen_assoc]
    exact andThen_congr fun u _ => ih u

theorem sendTicks_succ_of_next {m : Nat} {s u t : State} (hu : sendTicks m s = .next u)
    (ht : exec .stateUpdateSendingData u = .next t) : sendTicks (m + 1) s = .next t := by
  rw [sendTicks_add, hu, andThen_next, sendTicks, ht, andThen_next, sendTicks]

/-- `ceil(total / chunk)` ticks: all but the last leave something to send, and the last reaches the end. -/
theorem ceil_eq_succ {total chunk : Nat} (ht : 0 < total) (hc : 0 < chunk) :
    ∃ m, (total + chunk - 1) / chunk = m + 1 ∧ m * chunk < total ∧ total ≤ m * chunk + chunk := by
  refine ⟨(total - 1) / chunk, ?_, ?_, ?_⟩
  · rw [show total + chunk - 1 = total - 1 + chunk by omega, Nat.add_div_right _ hc]
  · have := Nat.div_mul_le_self (total - 1) chunk
    omega
  · have := Nat.lt_div_mul_add hc (a := total - 1)
    omega

theorem fbBytes_length (s : State) (a n : Nat) : (fbBytes s a n).length = n := by
  rw [fbBytes, List.length_map, List.length_range']

theorem fbBytes_append (s : State) (a m n : Nat) : fbBytes s a (m + n) = fbBytes s a m ++ fbBytes s (a + m) n := by
  rw [fbBytes, fbBytes, fbBytes, ← List.map_append, List.range'_append_1]

theorem fbBytes_congr {s u : State} (hfb : u.fb = s.fb) (a n : Nat) : fbBytes u a n = fbBytes s a n := by
  rw [fbBytes, fbBytes, hfb]

theorem windowBytes_length (s : State) (tgt : Bool) (row r : Nat) :
    (windowBytes s tgt row r).length = r * ((s.cfg.columns tgt).2 - (s.cfg.columns tgt).1) := by
  simp [windowBytes, List.length_flatMap, fbBytes_length]

theorem windowBytes_append (s : State) (tgt : Bool) (row m n : Nat) :
    windowBytes s tgt row (m + n) = windowBytes s tgt row m ++ windowBytes s tgt (row + m) n := by
  rw [windowBytes, windowBytes, windowBytes, ← List.flatMap_append, List.range'_append_1]

theorem windowBytes_congr {s u : State} (hfb : u.fb = s.fb) (hcfg : u.cfg = s.cfg) (tgt : Bool) (row r : Nat) :
    windowBytes u tgt row r = windowBytes s tgt row r := by
  simp only [windowBytes, hcfg, fbBytes_congr hfb]

/-- `u` comes from `s`, at the start of a single-controller transfer, by sending the first `n` bytes of the image. -/
def State.SentBytes (s : State) (n : Nat) (u : State) : Prop :=
  u = { s.withWire u with idx := u.idx } ∧ u.idx.toNat = n ∧ u.trace = s.trace ++ dataEvents (fbBytes s 0 n)

theorem State.sentBytes_zero {s : State} (h0 : s.idx = 0) : s.SentBytes 0 s :=
  ⟨rfl, by rw [h0]; rfl, by simp [fbBytes, dataEvents]⟩

/-- One more tick of a single-controller transfer: the next chunk of the image, and the end of the state with its last. -/
theorem State.SentBytes.tick {s u : State} {n : Nat} (hu : s.SentBytes n u) (hg : s.cfg.geometryOk = true)
    (h1 : s.cfg.targets = 1) (hn : n ≤ s.cfg.fbLen) :
    let n' := n + min s.cfg.chunkBytes (s.cfg.fbLen - n)
    ∃ v, exec .stateUpdateSendingData u = .next v ∧ v.trace = s.trace ++ dataEvents (fbBytes s 0 n') ∧
      (n' = s.cfg.fbLen → v.st = .updateRefresh) ∧ (n' ≠ s.cfg.fbLen → s.SentBytes n' v) := by
  intro n'
  obtain ⟨hframe, hidx, htrace⟩ := hu
  have hcfg : u.cfg = s.cfg := by rw [hframe]; rfl
  have hfb : u.fb = s.fb := by rw [hframe]; rfl
  obtain ⟨v, -, hrun, hvtrace, hvidx, hend, hinside⟩ := singleTransferTick u (by rwa [hcfg]) (by rwa [hcfg, hidx])
  rw [hcfg, hidx] at hvtrace hvidx hend hinside
  have hsent : v.trace = s.trace ++ dataEvents (fbBytes s 0 n') := by
    rw [hvtrace, htrace, fbBytes_congr hfb, fbBytes_append, dataEvents_append, Nat.zero_add, List.append_assoc]
  refine ⟨v, hrun (by rwa [hcfg]), hsent, fun h => ?_, fun h => ⟨?_, hvidx, hsent⟩⟩
  · rw [hend h]
    rfl
  · rw [hinside h, hframe]
    rfl

/-- The ticks of a single-controller transfer that leave something to send. -/
theorem sendTicks_sentBytes {s : State} (hg : s.cfg.geometryOk = true) (h1 : s.cfg.targets = 1) (h0 : s.idx = 0) {m : Nat}
    (hm : m * s.cfg.chunkBytes < s.cfg.fbLen) :
    ∃ u, sendTicks m s = .next u ∧ s.SentBytes (m * s.cfg.chunkBytes) u := by
  refine sendTicks_induction (P := fun k => s.SentBytes (k * s.cfg.chunkBytes)) (fun k u hk hu => ?_)
    ((Nat.zero_mul _).symm ▸ State.sentBytes_zero h0)
  have hnext : (k + 1) * s.cfg.chunkBytes < s.cfg.fbLen := (Nat.mul_le_mul_right _ hk).trans_lt hm
  rw [Nat.succ_mul] at hnext ⊢
  obtain ⟨v, hv, -, -, hinside⟩ := hu.tick hg h1 (by omega)
  rw [Nat.min_eq_left (by omega)] at hinside
  exact ⟨v, hv, hinside hnext.ne⟩

/-- Settles O47: the ticks before the last send whole chunks, and the last sends what is left. -/
theorem wholeSingleTransfer : Obligations.WholeSingleTransfer := by
  intro s hv h1 hst h0 n
  obtain ⟨hg, -, -, hchunk, -⟩ := (Config.valid_iff s.cfg).1 hv
  obtain ⟨m, hn, hm, hlast⟩ := ceil_eq_succ (Config.fbLen_pos hg) ((of_decide_eq_true hchunk).1 h1)
  change n = m + 1 at hn
  rw [hn]
  refine ⟨fbBytes_length .., ?_, fun k hk => ?_⟩
  · obtain ⟨u, hu, hsent⟩ := sendTicks_sentBytes hg h1 h0 hm
    obtain ⟨t, ht, htrace, hend, -⟩ := hsent.tick hg h1 hm.le
    rw [Nat.min_eq_right (by omega), Nat.add_sub_of_le hm.le] at htrace hend
    exact ⟨t, sendTicks_succ_of_next hu ht, htrace, hend rfl⟩
  · have hk' : k * s.cfg.chunkBytes < s.cfg.fbLen := (Nat.mul_le_mul_right _ (Nat.le_of_lt_succ hk)).trans_lt hm
    obtain ⟨u, hu, hframe, -, htrace⟩ := sendTicks_sentBytes hg h1 h0 hk'
    exact ⟨u, hu, by rw [hframe]; exact hst, htrace⟩

/-- `u` comes from `s`, at the first row of a window, by sending the window's first `n` rows. -/
def State.SentRows (s : State) (n : Nat) (u : State) : Prop :=
  u = { s.withWire u with row := u.row, col := u.col } ∧ u.row.toNat = n ∧
    u.trace = s.trace ++ dataEvents (windowBytes s s.tgt 0 n)

theorem State.sentRows_zero {s : State} (h0 : s.row = 0) : s.SentRows 0 s :=
  ⟨rfl, by rw [h0]; rfl, by simp [windowBytes, dataEvents]⟩

/-- One more tick of a window: its next rows, and with its last the switch table or the end of the state. -/
theorem State.SentRows.tick {s u : State} {n : Nat} (hu : s.SentRows n u) (hv : s.cfg.valid = true)
    (h2 : s.cfg.targets = 2) (hn : n ≤ s.cfg.height) :
    let n' := n + min s.cfg.chunkRows (s.cfg.height - n)
    let sent := s.trace ++ dataEvents (windowBytes s s.tgt 0 n')
    ∃ v, exec .stateUpdateSendingData u = .next v ∧ (n' ≠ s.cfg.height → s.SentRows n' v) ∧
      (n' = s.cfg.height → s.tgt = false → v.trace = sent ++ tableEvents (s.cfg.table .secondaryPrepareSeq) ∧
        v = { s.withRun v with row := 0, col := 0, tgt := true }) ∧
      (n' = s.cfg.height → s.tgt = true → v.trace = sent ∧ v.st = .updateRefresh) := by
  intro n' sent
  obtain ⟨hframe, hrow, htrace⟩ := hu
  have hcfg : u.cfg = s.cfg := by rw [hframe]; rfl
  have hfb : u.fb = s.fb := by rw [hframe]; rfl
  have htgt : u.tgt = s.tgt := by rw [hframe]; rfl
  obtain ⟨v, -, hrun, hinside, hswitch, hleave⟩ := cascadeTransferTick u
    (by rw [hcfg]; exact ((Config.valid_iff s.cfg).1 hv).1) (by rwa [hcfg, hrow])
    (by rw [hcfg]; exact Config.tableOk_of_valid hv _ fun _ => h2)
  have hsent : u.trace ++ dataEvents (windowBytes u s.tgt n (min s.cfg.chunkRows (s.cfg.height - n))) = sent := by
    simp only [sent, n', htrace, windowBytes_congr hfb hcfg, windowBytes_append, dataEvents_append, Nat.zero_add,
      List.append_assoc]
  rw [hcfg, hrow, htgt, hsent] at hinside hswitch hleave
  refine ⟨v, hrun (by rwa [hcfg]), fun h => ?_, fun h hprimary => ?_, fun h hsecondary => ?_⟩
  · obtain ⟨hvtrace, hvrow, hvframe⟩ := hinside h
    refine ⟨?_, hvrow, hvtrace⟩
    rw [hvframe, hframe]
    rfl
  · obtain ⟨hvtrace, hvframe⟩ := hswitch h hprimary
    refine ⟨hvtrace, ?_⟩
    rw [hvframe, hframe]
    rfl
  · obtain ⟨hvtrace, -, hvframe⟩ := hleave h hsecondary
    refine ⟨hvtrace, ?_⟩
    rw [hvframe]
    rfl

/-- The ticks of a window that leave rows of it to send. -/
theorem sendTicks_sentRows {s : State} (hv : s.cfg.valid = true) (h2 : s.cfg.targets = 2) (h0 : s.row = 0) {m : Nat}
    (hm : m * s.cfg.chunkRows < s.cfg.height) :
    ∃ u, sendTicks m s = .next u ∧ s.SentRows (m * s.cfg.chunkRows) u := by
  refine sendTicks_induction (P := fun k => s.SentRows (k * s.cfg.chunkRows)) (fun k u hk hu => ?_)
    ((Nat.zero_mul _).symm ▸ State.sentRows_zero h0)
  have hnext : (k + 1) * s.cfg.chunkRows < s.cfg.height := (Nat.mul_le_mul_right _ hk).trans_lt hm
  rw [Nat.succ_mul] at hnext ⊢
  obtain ⟨v, hv', hinside, -⟩ := hu.tick hv h2 (by omega)
  rw [Nat.min_eq_left (by omega)] at hinside
  exact ⟨v, hv', hinside hnext.ne⟩

/-- A whole window: its last tick runs the switch table, or leaves the state (44_data_transfer.md R178). -/
theorem sendTicks_window {s : State} (hv : s.cfg.valid = true) (h2 : s.cfg.targets = 2) (h0 : s.row = 0) {m : Nat}
    (hm : m * s.cfg.chunkRows < s.cfg.height) (hlast : s.cfg.height ≤ m * s.cfg.chunkRows + s.cfg.chunkRows) :
    let sent := s.trace ++ dataEvents (windowBytes s s.tgt 0 s.cfg.height)
    ∃ t, sendTicks (m + 1) s = .next t ∧
      (s.tgt = false → t.trace = sent ++ tableEvents (s.cfg.table .secondaryPrepareSeq) ∧
        t = { s.withRun t with row := 0, col := 0, tgt := true }) ∧
      (s.tgt = true → t.trace = sent ∧ t.st = .updateRefresh) := by
  obtain ⟨u, hu, hsent⟩ := sendTicks_sentRows hv h2 h0 hm
  obtain ⟨t, ht, -, hswitch, hleave⟩ := hsent.tick hv h2 hm.le
  rw [Nat.min_eq_right (by omega), Nat.add_sub_of_le hm.le] at hswitch hleave
  exact ⟨t, sendTicks_succ_of_next hu ht, hswitch rfl, hleave rfl⟩

/-- Settles O48: the primary's window and the switch, then the secondary's window from its first row. -/
theorem wholeCascadeTransfer : Obligations.WholeCascadeTransfer := by
  intro s hv h2 hst h0 htgt n
  obtain ⟨hg, -, -, hchunk, -⟩ := (Config.valid_iff s.cfg).1 hv
  obtain ⟨m, hm1, hm, hlast⟩ := ceil_eq_succ (Config.geometry_of_ok hg).2.2.1 ((of_decide_eq_true hchunk).2 h2)
  have hn : n = (m + 1) + (m + 1) := by
    change 2 * _ = _
    rw [hm1, Nat.two_mul]
  obtain ⟨u, hu, hprimary, -⟩ := sendTicks_window hv h2 h0 hm hlast
  obtain ⟨hutrace, huframe⟩ := hprimary htgt
  have hcfg : u.cfg = s.cfg := by rw [huframe]; rfl
  have hfb : u.fb = s.fb := by rw [huframe]; rfl
  have hutgt : u.tgt = true := by rw [huframe]
  have hurow : u.row = 0 := by rw [huframe]
  have hust : u.st = .updateSendingData := by rw [huframe]; exact hst
  obtain ⟨t, ht, -, hsecondary⟩ := sendTicks_window (s := u) (m := m) (by rwa [hcfg]) (by rwa [hcfg]) hurow
    (by rwa [hcfg]) (by rwa [hcfg])
  obtain ⟨httrace, htst⟩ := hsecondary hutgt
  rw [htgt] at hutrace
  rw [hutgt, windowBytes_congr hfb hcfg, hcfg, hutrace] at httrace
  refine ⟨windowBytes_length .., windowBytes_length .., Config.windows_overlap _, Config.windows_meet _,
    ⟨t, by rw [hn, sendTicks_add, hu, andThen_next, ht], htst, httrace⟩, fun k hk => ?_⟩
  by_cases hfirst : k < m + 1
  · obtain ⟨v, hv', hframe, -⟩ := sendTicks_sentRows hv h2 h0
      ((Nat.mul_le_mul_right _ (Nat.le_of_lt_succ hfirst)).trans_lt hm)
    exact ⟨v, hv', by rw [hframe]; exact hst⟩
  · obtain ⟨j, rfl⟩ := Nat.exists_eq_add_of_le (Nat.le_of_not_lt hfirst)
    obtain ⟨v, hv', hframe, -⟩ := sendTicks_sentRows (s := u) (m := j) (by rwa [hcfg]) (by rwa [hcfg]) hurow
      (by rw [hcfg]; exact (Nat.mul_le_mul_right _ (by omega)).trans_lt hm)
    exact ⟨v, by rw [sendTicks_add, hu, andThen_next, hv'], by rw [hframe]; exact hust⟩

end Sys2Proof.Machine

namespace Sys2Proof

/-! ### The conditions of 60_exceptions.md R188 as propositions -/

theorem tableOk_iff (t : List Byte) : tableOk t = true ↔ wfTable t = true ∧ t.length ≤ 65535 := by
  rw [tableOk, Bool.and_eq_true, decide_eq_true_eq]

/-- A secondary table that is not given counts as the empty one, which has no end marker (R188.6). -/
theorem tableOk_secondary_iff (c : Config) :
    tableOk (c.table .secondaryPrepareSeq) = true ↔ ∃ t, c.secondaryPrepareSeq = some t ∧ tableOk t = true := by
  cases h : c.secondaryPrepareSeq with
  | none =>
    have hempty : tableOk (c.table .secondaryPrepareSeq) = false := by
      rw [Config.table, h]
      rfl
    simp [hempty]
  | some t => simp [Config.table, h]

/-- R188.6: the tables of every panel, and the secondary one of a cascade panel. -/
theorem Config.tablesOk_iff (c : Config) :
    c.tablesOk = true ↔
      (∀ t ∈ [c.initSeq, c.prepareSeq, c.fullRefreshSeq, c.partialRefreshSeq, c.sleepSeq], tableOk t = true) ∧
        (c.targets = 2 → ∃ t, c.secondaryPrepareSeq = some t ∧ tableOk t = true) := by
  simp [Config.tablesOk, ← tableOk_secondary_iff, imp_iff_not_or (a := c.targets = 2), and_assoc]

/-- R188.7. -/
theorem Config.levelsOk_iff (c : Config) :
    c.levelsOk = true ↔ (c.busyActiveLevel = 0 ∨ c.busyActiveLevel = 1) ∧ c.csActiveLevel = 0 := by
  simp [Config.levelsOk, Nat.le_one_iff_eq_zero_or_eq_one]

end Sys2Proof

namespace Sys2Proof.Machine

/-! ### What an accepted configuration can still be refused for (42_sequence_interpreter.md R121, R127) -/

/-- The outcome is no refusal but that of an ill-formed table. -/
def OnlyIllFormed (o : Host.Outcome State Fault Refusal) : Prop := ∀ r, o = .refused r → r = .illFormedSequence

theorem OnlyIllFormed.next (s : State) : OnlyIllFormed (.next s) := fun _ h => nomatch h

theorem OnlyIllFormed.fault (r : Fault) : OnlyIllFormed (.fault r) := fun _ h => nomatch h

theorem OnlyIllFormed.illFormed : OnlyIllFormed (.refused .illFormedSequence) := fun _ h =>
  (Host.Outcome.refused.inj h).symm

theorem OnlyIllFormed.andThen {o : Host.Outcome State Fault Refusal} {f : State → Host.Outcome State Fault Refusal}
    (ho : OnlyIllFormed o) (hf : ∀ s, OnlyIllFormed (f s)) : OnlyIllFormed (andThen o f) := by
  cases o with
  | next s => exact hf s
  | fault r => exact .fault r
  | refused r => exact ho

/-! #### Runs of a table and state actions -/

theorem runSteps_onlyIllFormed (n : Nat) (s : State) : OnlyIllFormed (runSteps n s) := by
  induction n generalizing s with
  | zero => exact .illFormed
  | succ n ih =>
    unfold runSteps
    split
    · exact .illFormed
    · split
      · exact .next s
      · exact .illFormed
      · exact .andThen (.next _) ih
      · exact .andThen (.next _) ih

theorem runSeq_onlyIllFormed (sel : TableSel) (s : State) : OnlyIllFormed (runSeq sel s) := runSteps_onlyIllFormed _ _

theorem endChunk2_onlyIllFormed (s : State) : OnlyIllFormed (endChunk2 s) := by
  unfold endChunk2
  split
  · split
    · exact .next _
    · exact (runSeq_onlyIllFormed _ s).andThen fun _ => .next _
  · exact .next s

theorem execStateUpdateSendingData_onlyIllFormed (s : State) : OnlyIllFormed (execStateUpdateSendingData s) := by
  unfold execStateUpdateSendingData chunk1 chunk2
  split <;> split
  · exact .fault _
  · exact .next _
  · exact .fault _
  · exact endChunk2_onlyIllFormed _

theorem tickAction_onlyIllFormed (s : State) : OnlyIllFormed (tickAction s) := by
  unfold tickAction
  generalize s.st = d
  cases d with
  | initSendCommands | updatePrepare | updateRefresh => exact (runSeq_onlyIllFormed _ _).andThen fun _ => .next _
  | updateSendingData => exact execStateUpdateSendingData_onlyIllFormed s
  | deepSleep =>
    change OnlyIllFormed (execStateDeepSleep s)
    unfold execStateDeepSleep
    split
    · exact .next s
    · exact (runSeq_onlyIllFormed _ s).andThen fun _ => .next _
  | initStart | initReset | initWaitReset | initWaitResetLow | initWaitResetHigh | initWaitBusy | initDone | idle
  | updateStart | updateWaitBusy | updateWaitRefresh | updateDone => exact .next _

/-! #### Port operations -/

theorem exec_port_onlyIllFormed {hiv : BitVec 5} {x y : Coord} {black : Bool} {i : Instr}
    (hi : i ∈ decodeHiv hiv x y black) (s : State) : OnlyIllFormed (exec i s) := by
  obtain ⟨rfl, -⟩ | ⟨rfl, -⟩ | ⟨rfl, -⟩ | ⟨rfl, -⟩ | ⟨rfl, -⟩ := mem_decodeHiv hi
  · exact .next _
  · exact .next _
  · exact .next _
  · exact .next _
  · change OnlyIllFormed (execHostTick s)
    unfold execHostTick
    split
    · exact (tickAction_onlyIllFormed _).andThen fun _ => .next _
    · exact .next s

theorem execAll_onlyIllFormed {is : List Instr} (his : ∀ i ∈ is, ∀ s, OnlyIllFormed (exec i s)) (s : State) :
    OnlyIllFormed (execAll is s) := by
  induction is generalizing s with
  | nil => exact .next s
  | cons i is ih =>
    exact (his i List.mem_cons_self s).andThen (ih fun j hj => his j (List.mem_cons_of_mem i hj))

/-! #### The rest of a tick at the transaction level -/

theorem readDelay_onlyIllFormed (s : State) : OnlyIllFormed (readDelay s) := by
  unfold readDelay
  split
  · exact .next _
  · exact .illFormed

theorem sendRestArgs_onlyIllFormed (s : State) : OnlyIllFormed (sendRestArgs s) := by
  unfold sendRestArgs
  split
  · exact .next _
  · exact .illFormed

theorem performTask_onlyIllFormed (t : Task) (s : State) : OnlyIllFormed (performTask t s) := by
  cases t with
  | action => exact tickAction_onlyIllFormed s
  | run sel => exact runSeq_onlyIllFormed sel s
  | seqHead => exact runSteps_onlyIllFormed _ _
  | seqDelay => exact readDelay_onlyIllFormed s
  | seqArgs => exact sendRestArgs_onlyIllFormed s
  | endChunk2 => exact endChunk2_onlyIllFormed s
  | seqTake left | seqHold | argSent | frame | sendFb a n | endChunk1 n | rows r | colSent | switchTarget | window
  | sleepDone | goto d => exact .next _

theorem drainTasks_onlyIllFormed (ts : List Task) (s : State) : OnlyIllFormed (drainTasks ts s) := by
  induction ts generalizing s with
  | nil => exact .next _
  | cons t ts ih =>
    refine (performTask_onlyIllFormed t _).andThen fun u => ?_
    split
    · exact ih u
    · exact .next _

/-! #### The control actions of a clock edge -/

theorem beginAction_onlyIllFormed (s : State) : OnlyIllFormed (beginAction s) := by
  cases hq : s.st.sends with
  | false =>
    rw [beginAction_of_not_sends hq]
    exact tickAction_onlyIllFormed s
  | true =>
    unfold beginAction
    generalize s.st = d at hq
    cases d with
    | initSendCommands | updatePrepare | updateRefresh | deepSleep => exact .next _
    | updateSendingData =>
      change OnlyIllFormed (beginTransfer s)
      unfold beginTransfer
      split <;> split
      · exact .fault _
      · exact .next _
      · exact .fault _
      · exact .next _
    | initStart | initReset | initWaitReset | initWaitResetLow | initWaitResetHigh | initWaitBusy | initDone | idle
    | updateStart | updateWaitBusy | updateWaitRefresh | updateDone => cases hq

theorem beginStep_onlyIllFormed (s : State) : OnlyIllFormed (beginStep s) := by
  unfold beginStep
  split
  · exact .illFormed
  · split
    · exact .next s
    · exact .illFormed
    · exact .next _
    · exact .next _

theorem beginDelay_onlyIllFormed (s : State) : OnlyIllFormed (beginDelay s) := by
  unfold beginDelay
  split
  · exact .illFormed
  · exact .next _

theorem beginArg_onlyIllFormed (s : State) : OnlyIllFormed (beginArg s) := by
  unfold beginArg
  split
  · exact .next s
  · split
    · exact .illFormed
    · exact .next _

theorem taskAction_onlyIllFormed (t : Task) (s : State) : OnlyIllFormed (taskAction t s) := by
  cases t with
  | action => exact beginAction_onlyIllFormed s
  | seqHead => exact beginStep_onlyIllFormed s
  | seqDelay => exact beginDelay_onlyIllFormed s
  | seqArgs => exact beginArg_onlyIllFormed s
  | run sel | seqTake left | seqHold | argSent | frame | sendFb a n | endChunk1 n | rows r | colSent | endChunk2
  | switchTarget | window | sleepDone | goto d => exact .next _

theorem controlAction_onlyIllFormed (s : State) : OnlyIllFormed (controlAction s) := by
  unfold controlAction
  split
  · exact .next s
  · exact taskAction_onlyIllFormed _ _

theorem controlActions_onlyIllFormed (n : Nat) (s : State) : OnlyIllFormed (controlActions n s) := by
  induction n generalizing s with
  | zero => exact .next s
  | succ n ih => exact (controlAction_onlyIllFormed s).andThen ih

theorem clockControl_onlyIllFormed (n : Nat) (s : State) : OnlyIllFormed (clockControl n s) := by
  unfold clockControl controlEdge
  split
  · exact .next _
  · split
    · exact .next _
    · exact controlActions_onlyIllFormed n _

/-! #### Inputs and steps -/

theorem takeInput_onlyIllFormed (i : Input) (s : State) : OnlyIllFormed (takeInput i s) := by
  cases i with
  | reset fb => exact .next _
  | edge p d =>
    have hports := execAll_onlyIllFormed (is := s.portOps p) fun _ => exec_port_onlyIllFormed
    exact ((hports _).andThen fun t => drainTasks_onlyIllFormed t.work t).andThen fun _ => .next _
  | clock p n =>
    have hstrobes := execAll_onlyIllFormed (is := s.strobeOps p) fun _ => exec_port_onlyIllFormed
    rw [takeInput, clockEdge_eq]
    exact ((clockControl_onlyIllFormed n _).andThen hstrobes).andThen fun _ => .next _

/-- In a valid configuration a step takes its input or stops; the check of the configuration refuses nothing. -/
theorem step_onlyIllFormed {s : State} (hv : s.cfg.valid = true) : OnlyIllFormed (step s) := by
  rw [step, (Config.check_eq_none _).2 hv]
  cases s.inputs with
  | nil => exact .fault _
  | cons i is => exact takeInput_onlyIllFormed i _

/-- A configuration that is not valid is refused by the name of a condition it breaks. -/
theorem step_of_not_valid {s : State} (hv : ¬ s.cfg.valid = true) : ∃ e, step s = .refused (.configuration e) := by
  obtain ⟨e, he⟩ := Option.ne_none_iff_exists'.1 (mt (Config.check_eq_none s.cfg).1 hv)
  exact ⟨e, by rw [step, he]⟩

/-- Settles O12: the conditions are those of the configuration check, and past the check a step refuses nothing but an
ill-formed table. -/
theorem configurationRefused : Obligations.ConfigurationRefused := by
  intro s c ok
  have hok : s.cfg.valid = true ↔ ok := by
    simp only [Config.valid_iff, Config.geometryOk, Config.targetsOk, Config.cadenceOk, Config.chunkOk,
      Config.tablesOk_iff, tableOk_iff, Config.levelsOk_iff, Config.encoderOk, decide_eq_true_eq, and_assoc, ok, c]
  rw [← hok]
  exact ⟨step_of_not_valid, fun hv e he => nomatch step_onlyIllFormed hv _ he⟩

end Sys2Proof.Machine

namespace Sys2Proof.Machine

/-! ### The panel's reset pulse, task by task (43_display_controller.md R138 to R141) -/

namespace State.pulseOk

variable {s u : State}

theorem of_high (h : u.panelRst = true) : u.pulseOk := fun hlow => by simp [h] at hlow

/-- Outside INIT_WAIT_RESET_LOW the line is high. -/
theorem high (h : s.pulseOk) (hst : s.st ≠ .initWaitResetLow) : s.panelRst = true :=
  Bool.not_eq_false _ ▸ mt h hst

theorem of_same (h : s.pulseOk) (hr : u.panelRst = s.panelRst) (hst : u.st = s.st) : u.pulseOk := fun hlow =>
  hst.trans (h (hr.symm.trans hlow))

end State.pulseOk

theorem State.Ran.panelRst {s u : State} (h : s.Ran u) : u.panelRst = s.panelRst := by rw [h.1]; rfl

theorem waitBusy_panelRst (timeout : Word32) (exit : DState) (s : State) :
    (waitBusy timeout exit s).panelRst = s.panelRst := by
  have hsample : s.sampleBusy.panelRst = s.panelRst := by
    unfold State.sampleBusy
    split <;> rfl
  unfold waitBusy
  split <;> exact hsample

/-- An action without frames pulls the line low only where it enters INIT_WAIT_RESET_LOW, and lets it go where it leaves
(R139, R140). -/
theorem tickAction_pulseOk {s u : State} (hs : s.st.sends = false) (hp : s.pulseOk) (h : tickAction s = .next u) :
    u.pulseOk := by
  have hhigh : s.st ≠ .initWaitResetLow → u.panelRst = s.panelRst → u.pulseOk := fun hst hr =>
    .of_high (hr.trans (hp.high hst))
  unfold tickAction at h
  cases hst : s.st with
  | initWaitReset =>
    rw [hst] at h
    cases h
    split
    · exact fun _ => rfl
    · exact hp
  | initWaitResetLow =>
    rw [hst] at h
    cases h
    split
    · exact .of_high rfl
    · exact hp
  | initReset =>
    rw [hst] at h
    cases h
    split
    · exact .of_high rfl
    · exact .of_high (hp.high (by simp [hst]))
  | initStart | initWaitResetHigh | initDone | idle | updateDone =>
    rw [hst] at h
    refine hhigh (by simp [hst]) ?_
    cases h
    repeat' split
    all_goals rfl
  | initWaitBusy | updateWaitBusy | updateWaitRefresh =>
    rw [hst] at h
    refine hhigh (by simp [hst]) ?_
    cases h
    exact waitBusy_panelRst ..
  | updateStart =>
    rw [hst] at h
    refine hhigh (by simp [hst]) ?_
    obtain ⟨_, _, _, -, rfl⟩ | ⟨_, _, rfl⟩ := execStateUpdateStart_cases h <;> rfl
  | initSendCommands | updatePrepare | updateSendingData | updateRefresh | deepSleep =>
    rw [hst] at hs
    cases hs

theorem beginAction_pulseOk {s u : State} (hp : s.pulseOk) (h : beginAction s = .next u) : u.pulseOk := by
  cases beginAction_cases h with
  | quiet hs => exact tickAction_pulseOk hs hp (beginAction_of_not_sends hs ▸ h)
  | leave hst => exact .of_high (hp.high (by simp [hst]))
  | openWindow | run | prepare | asleep | chunk1 => exact hp
  | chunk2 =>
    unfold State.startRow
    split <;> exact hp

/-- No task but the state action drives the panel's reset line, as a control action. -/
theorem taskAction_panelRst {t : Task} {s u : State} (ha : t ≠ .action) (h : taskAction t s = .next u) :
    u.panelRst = s.panelRst := by
  cases t with
  | action => exact absurd rfl ha
  | seqHead | seqDelay | seqArgs =>
    simp only [taskAction, beginStep, beginDelay, beginArg] at h
    repeat' split at h
    all_goals cases h
    all_goals rfl
  | sendFb a n =>
    cases h
    cases n <;> rfl
  | rows r =>
    cases h
    unfold beginRowByte State.startRow
    repeat' split
    all_goals rfl
  | endChunk2 =>
    cases h
    unfold beginEndChunk2
    repeat' split
    all_goals rfl
  | seqHold | frame | window | endChunk1 =>
    cases h
    split <;> rfl
  | run | seqTake | argSent | colSent | switchTarget | sleepDone | goto =>
    cases h
    rfl

/-- Carried out at once. -/
theorem performTask_panelRst {t : Task} {s u : State} (ha : t ≠ .action) (h : performTask t s = .next u) :
    u.panelRst = s.panelRst := by
  cases t with
  | action => exact absurd rfl ha
  | run sel => exact (runSeq_ran h).panelRst
  | seqHead => exact (runRest_ran h).panelRst
  | seqDelay => exact (readDelay_ran h).panelRst
  | seqArgs => exact (sendRestArgs_ran h).panelRst
  | seqHold =>
    cases h
    exact (State.Ran.finishHold s).panelRst
  | frame =>
    cases h
    exact (State.Ran.finishFrame s).1.panelRst
  | sendFb a n =>
    cases h
    exact (State.Ran.sendFbBytes a n s).panelRst
  | rows r =>
    cases h
    obtain ⟨v, hv, hr⟩ := State.finishRows_ran r s
    rw [hr]
    exact hv.panelRst
  | endChunk2 =>
    simp only [performTask, endChunk2] at h
    split at h
    · split at h
      · cases h
        rfl
      · obtain ⟨v, hv, h⟩ := andThen_eq_next.1 h
        cases h
        exact (runSeq_ran hv).panelRst
    · cases h
      rfl
  | window | endChunk1 =>
    cases h
    split <;> rfl
  | seqTake | argSent | colSent | switchTarget | sleepDone | goto =>
    cases h
    rfl

/-! ### The states before INIT_SEND_COMMANDS -/

/-- The states before INIT_SEND_COMMANDS, which a reset goes through first. -/
def DState.beforeCommands : DState → Bool
  | .initStart | .initReset | .initWaitReset | .initWaitResetLow | .initWaitResetHigh => true
  | .initSendCommands | .initWaitBusy | .initDone | .idle | .updateStart | .updateWaitBusy | .updatePrepare
  | .updateSendingData | .updateRefresh | .updateWaitRefresh | .updateDone | .deepSleep => false

theorem DState.beforeCommands_iff (d : DState) :
    d.beforeCommands = true ↔
      d = .initStart ∨ d = .initReset ∨ d = .initWaitReset ∨ d = .initWaitResetLow ∨ d = .initWaitResetHigh := by
  cases d <;> simp [DState.beforeCommands]

theorem DState.not_sends_of_beforeCommands {d : DState} (h : d.beforeCommands = true) : d.sends = false := by
  obtain rfl | rfl | rfl | rfl | rfl := (DState.beforeCommands_iff d).1 h <;> rfl

/-- Before INIT_SEND_COMMANDS a tick in progress has nothing to do but its state action. -/
theorem eq_action_of_beforeCommands {c : Config} {d : DState} {t : Task} (hd : d.beforeCommands = true)
    (ht : taskFits c d t = true) : t = .action := by
  obtain rfl | rfl | rfl | rfl | rfl := (DState.beforeCommands_iff d).1 hd <;>
    cases t with
    | action => rfl
    | _ => cases ht

/-- No frame is in progress before INIT_SEND_COMMANDS: its task would be in hand. -/
theorem State.encBusy_of_beforeCommands {s : State} (hc : s.controlOk = true) (hst : s.st.beforeCommands = true) :
    s.encBusy = false := by
  obtain ⟨-, -, -, hframe⟩ := (State.controlOk_iff s).1 hc
  refine Bool.eq_false_iff.2 fun hb => ?_
  obtain ⟨ts, hw⟩ := List.head?_eq_some_iff.1 (hframe hb)
  cases eq_action_of_beforeCommands hst (State.controlOk_cons hw hc).1

theorem State.busEvents_of_bus {s u : State} (h : u.bus = s.bus) :
    u.trace.filter isBusEvent = s.trace.filter isBusEvent := by
  simp only [State.bus, Prod.mk.injEq] at h
  obtain ⟨-, -, -, -, hevents⟩ := h
  exact hevents

theorem State.endTick_bus (s : State) : s.endTick.bus = s.bus := by
  unfold State.endTick
  split <;> rfl

/-- A tick found before INIT_SEND_COMMANDS sends no frame. -/
theorem drain_bus_of_beforeCommands {s u : State} (hc : s.controlOk = true) (hst : s.st.beforeCommands = true)
    (h : drain s = .next u) : u.bus = s.bus := by
  cases hw : s.work with
  | nil =>
    cases (drain_nil hw).symm.trans h
    rfl
  | cons t ts =>
    obtain ⟨hfit, -, hend, -⟩ := State.controlOk_cons hw hc
    obtain rfl := eq_action_of_beforeCommands hst hfit
    obtain rfl := hend rfl
    rw [drain_cons hw] at h
    obtain ⟨v, hv, h⟩ := andThen_eq_next.1 h
    cases (resume_nil v).symm.trans h
    exact v.endTick_bus.trans
      (tickAction_bus (s := { s with work := [] }) (DState.not_sends_of_beforeCommands hst) hv)

/-- R155: INIT_SEND_COMMANDS is entered at the end of the pulse, or from INIT_RESET where there is no reset pin. -/
theorem transition_initSendCommands {c : Config} {d : DState} (h : transition c d .initSendCommands = true) :
    d = .initWaitResetHigh ∨ d = .initReset ∧ c.hasResetPin = false := by
  cases d with
  | initWaitResetHigh => exact .inl rfl
  | initReset => exact .inr ⟨rfl, by simpa [transition] using h⟩
  | _ => cases h

/-! ### The reset line and the frames of a step (70_reset_and_hazards.md R207) -/

/-- A consistent state whose reset line is low only in the pulse. -/
structure State.Pulsed (s : State) : Prop where
  stands : s.Stands False
  pulseOk : s.pulseOk

namespace State.Pulsed

variable {s u : State}

/-- A task other than the state action is in hand only after the pulse, and leaves the line high. -/
theorem after_task {t : Task} {ts : List Task} (h : s.Pulsed) (ha : t ≠ .action) (hw : s.work = t :: ts)
    (hs : u.Stands False) (hr : u.panelRst = s.panelRst) : u.Pulsed := by
  obtain ⟨hfit, -⟩ := State.controlOk_cons hw h.stands.2.1
  have hst : s.st ≠ .initWaitResetLow := fun hst => ha (eq_action_of_beforeCommands (by rw [hst]; rfl) hfit)
  exact ⟨hs, .of_high (hr.trans (h.pulseOk.high hst))⟩

theorem after_controlAction (h : s.Pulsed) (hu : controlAction s = .next u) : u.Pulsed := by
  have hs := h.stands.after_controlAction hu
  unfold controlAction at hu
  split at hu
  · cases hu
    exact h
  · rename_i t ts hw
    by_cases ha : t = .action
    · subst ha
      exact ⟨hs, beginAction_pulseOk (s := { s with work := ts }) h.pulseOk hu⟩
    · exact h.after_task ha hw hs (taskAction_panelRst (s := { s with work := ts }) ha hu)

theorem after_performTask {t : Task} {ts : List Task} (h : s.Pulsed) (ha : t ≠ .action) (hw : s.work = t :: ts)
    (hu : performTask t { s with work := [] } = .next u) : ({ u with work := u.work ++ ts } : State).Pulsed :=
  h.after_task ha hw (h.stands.after_performTask ha hw hu) (performTask_panelRst (s := { s with work := [] }) (u := u) ha hu)

theorem after_drain (h : s.Pulsed) (hu : drain s = .next u) : u.Pulsed :=
  drain_keeps (P := State.Pulsed) State.Pulsed.stands (fun hs hw => ⟨hs.stands.after_setReady hw, hs.pulseOk⟩)
    State.Pulsed.after_performTask State.Pulsed.after_controlAction h hu

theorem after_clockControl {n : Nat} (h : s.Pulsed) (hu : clockControl n s = .next u) : u.Pulsed := by
  refine ⟨h.stands.after_clockControl hu, ?_⟩
  unfold clockControl controlEdge at hu
  split at hu
  · cases hu
    have hwire := s.encoderEdge_cases.frame.1
    exact h.pulseOk.of_same (by rw [hwire]; rfl) (by rw [hwire]; rfl)
  · split at hu
    · cases hu
      exact h.pulseOk
    · have hhold : s.endHold.Pulsed := by
        obtain he | he := s.endHold_cases
        · rwa [he]
        · exact h.after_controlAction he
      exact (controlActions_keeps (P := State.Pulsed) State.Pulsed.after_controlAction hhold hu).pulseOk

end State.Pulsed

/-- The strobes of a transaction edge write neither the reset line nor the bus. -/
theorem State.edgeStart_pulse (p : Ports) (s : State) :
    (s.edgeStart p).panelRst = s.panelRst ∧ (s.edgeStart p).st = s.st ∧ (s.edgeStart p).bus = s.bus := by
  obtain ⟨_, _, _, _, hs⟩ := s.edgeStart_frame p
  rw [hs]
  exact ⟨rfl, rfl, rfl⟩

/-- A transaction edge keeps the line in its pulse, and sends no frame before INIT_SEND_COMMANDS. -/
theorem transactionEdge_pulse {p : Ports} {d : Draws} {s t : State} (h : s.Pulsed) (ht : transactionEdge p d s = .next t) :
    t.pulseOk ∧ (s.st.beforeCommands = true → t.bus = s.bus) := by
  obtain ⟨-, hready, -⟩ := (State.controlOk_iff s).1 h.stands.2.1
  rw [transactionEdge_eq_drain fun hr => (hready hr).1] at ht
  obtain ⟨u, hu, ht⟩ := andThen_eq_next.1 ht
  cases ht
  obtain ⟨hr, hst, hbus⟩ := (s.sample p d).edgeStart_pulse p
  have hstart : ((s.sample p d).edgeStart p).Pulsed :=
    ⟨(h.stands.after_sample p d).after_edgeStart p, h.pulseOk.of_same hr hst⟩
  exact ⟨(hstart.after_drain hu).pulseOk, fun hearly =>
    (drain_bus_of_beforeCommands hstart.stands.2.1 (by rw [hst]; exact hearly) hu).trans hbus⟩

/-- A clock edge too. -/
theorem clockEdge_pulse {p : Ports} {n : Nat} {s t : State} (h : s.Pulsed) (ht : clockEdge p n s = .next t) :
    t.pulseOk ∧ (s.st.beforeCommands = true → t.bus = s.bus) := by
  obtain ⟨u, hu, _, _, _, _, _, rfl⟩ := clockEdge_inv ht
  have hstart : (s.sample p { lapses := [], window := none }).Pulsed := ⟨h.stands.after_sample p _, h.pulseOk⟩
  refine ⟨(hstart.after_clockControl hu).pulseOk, fun hearly => ?_⟩
  have hbus := clockControl_bus hu
  rw [State.encoderEdge_of_idle (State.encBusy_of_beforeCommands hstart.stands.2.1 hearly)] at hbus
  exact hbus

/-- Every step keeps the line in its pulse; a reset lets it go (70_reset_and_hazards.md R200), and sends nothing either. -/
theorem step_pulse {s t : State} (hc : s.controlOk = true) (hp : s.pulseOk) (h : step s = .next t) :
    t.pulseOk ∧ (s.st.beforeCommands = true → t.trace.filter isBusEvent = s.trace.filter isBusEvent) := by
  obtain ⟨hv, i, is, -, h⟩ := step_next h
  have hs : State.Pulsed { s with inputs := is } := ⟨⟨hv, hc, False.elim⟩, hp⟩
  cases i with
  | reset fb =>
    cases h
    exact ⟨.of_high rfl, fun _ => rfl⟩
  | edge p d => exact (transactionEdge_pulse hs h).imp_right fun hbus hst => State.busEvents_of_bus (hbus hst)
  | clock p n => exact (clockEdge_pulse hs h).imp_right fun hbus hst => State.busEvents_of_bus (hbus hst)

/-- Settles O56: only the state action drives the reset line, and before INIT_SEND_COMMANDS, where the pulse is, a tick has
nothing but its state action to do, which sends no frame; the state is left along the transition table. -/
theorem noFrameInResetPulse : Obligations.NoFrameInResetPulse := by
  intro s t hc hp h
  obtain ⟨hpulse, hsilent⟩ := step_pulse hc hp h
  refine ⟨hpulse, fun hlow => hsilent (by rw [hp hlow]; rfl), fun hst => hsilent ((DState.beforeCommands_iff _).2 hst),
    fun hto hfrom => ?_⟩
  obtain hst | htr | ⟨hst, -⟩ := stepFollowsTransitions s t hc h
  · exact absurd (hst.symm.trans hto) hfrom
  · exact transition_initSendCommands (hto ▸ htr)
  · cases hto.symm.trans hst

end Sys2Proof.Machine

namespace Sys2Proof.Machine

/-! ### Where something stands to be read, it is read (42_sequence_interpreter.md R122, R127) -/

/-- Before the end marker there is a byte at the pointer. -/
theorem State.romByte_of_headAfter {s : State} {n : Nat} (h : s.headAfter n = true) : ∃ b, s.romByte? = some b := by
  have hlt := State.headAfter_lt h
  cases hb : s.seqBytes with
  | nil => simp [hb] at hlt
  | cons b bytes => exact ⟨b, State.romByte_of_seqBytes hb⟩

/-- The rest of a well-formed table is run to its end. -/
theorem runRest_completes {s : State} (hp : s.headAfter 0 = true) (hlen : s.seqTable.length ≤ 65535) :
    ∃ u, runRest s = .next u := by
  have hwf : wfWalk (s.seqTable.length + 1) (s.boundDraws (tableOps s.seqBytes)).seqBytes = true := by
    rw [State.boundDraws_seqBytes, wfWalk_eq_wfTable s.length_seqBytes_lt]
    exact hp
  obtain ⟨u, hu, -⟩ := runSteps_complete hwf hlen
  exact ⟨u, hu⟩

theorem readDelay_completes {s : State} {n : Nat} (hp : s.headAfter n = true) : ∃ u, readDelay s = .next u := by
  obtain ⟨d, hd⟩ := State.romByte_of_headAfter hp
  exact ⟨_, by rw [readDelay, hd]⟩

theorem sendRestArgs_completes {s : State} (hp : s.headAfter s.seqLeft.toNat = true) : ∃ u, sendRestArgs s = .next u :=
  ⟨_, sendRestArgs_eq (List.take_append_drop s.seqLeft.toNat s.seqBytes).symm
    (List.length_take_of_le (State.headAfter_lt hp).le)⟩

theorem beginStep_completes {s : State} (hp : s.headAfter 0 = true) : ∃ u, beginStep s = .next u := by
  have hwf : wfWalk (s.seqBytes.length + 1) s.seqBytes = true := hp
  unfold beginStep
  obtain ⟨_, hd⟩ | ⟨_, _, _, hd, -⟩ | ⟨_, _, _, _, hd, -⟩ := wfWalk_decode hwf <;> rw [hd] <;> exact ⟨_, rfl⟩

theorem beginDelay_completes {s : State} {n : Nat} (hp : s.headAfter n = true) : ∃ u, beginDelay s = .next u := by
  obtain ⟨d, hd⟩ := State.romByte_of_headAfter hp
  exact ⟨_, beginDelay_eq hd⟩

theorem beginArg_completes {s : State} {n : Nat} (hp : s.headAfter n = true) : ∃ u, beginArg s = .next u := by
  obtain ⟨b, hb⟩ := State.romByte_of_headAfter hp
  unfold beginArg
  rw [hb]
  split <;> exact ⟨_, rfl⟩

/-! ### Every part of a tick in its place is answered (44_data_transfer.md R181, 60_exceptions.md R185) -/

theorem beginTransfer_completes {s : State} (hv : s.cfg.valid = true) (hr : s.InRange) :
    ∃ u, beginTransfer s = .next u := by
  obtain ⟨-, htargets, -⟩ := (Config.valid_iff s.cfg).1 hv
  obtain ⟨hidx, hrow, -⟩ := hr
  unfold beginTransfer
  split
  · rename_i h1
    rw [if_neg (Nat.not_lt.2 (hidx h1))]
    exact ⟨_, rfl⟩
  · rename_i h1
    rw [if_neg (Nat.not_lt.2 (hrow ((of_decide_eq_true htargets).resolve_left h1)))]
    exact ⟨_, rfl⟩

theorem beginAction_completes {s : State} (hv : s.cfg.valid = true) (hr : s.InRange) : ∃ u, beginAction s = .next u := by
  cases hq : s.st.sends with
  | false =>
    obtain ⟨hidx, hrow, -⟩ := hr
    rw [beginAction_of_not_sends hq]
    exact tickAction_next hv hidx hrow
  | true =>
    unfold beginAction
    generalize s.st = d at hq
    cases d with
    | updateSendingData => exact beginTransfer_completes hv hr
    | initSendCommands | updatePrepare | updateRefresh | deepSleep => exact ⟨_, rfl⟩
    | initStart | initReset | initWaitReset | initWaitResetLow | initWaitResetHigh | initWaitBusy | initDone | idle
    | updateStart | updateWaitBusy | updateWaitRefresh | updateDone => cases hq

/-- As a control action. -/
theorem taskAction_completes {s : State} {t : Task} {ts : List Task} (hv : s.cfg.valid = true) (hr : s.InRange)
    (hp : s.Placed (t :: ts)) : ∃ u, taskAction t { s with work := ts } = .next u := by
  cases hp with
  | action => exact beginAction_completes (s := { s with work := [] }) hv hr
  | seqHead ha hp => exact beginStep_completes (s := { s with work := _ }) hp
  | seqDelay ha hp => exact beginDelay_completes (s := { s with work := _ }) hp
  | seqArgs ha hp => exact beginArg_completes (s := { s with work := _ }) hp
  | frame | run | seqTake | seqTakeDelay | seqHold | argSent | sendFb | endChunk1 | rows | colSent | endChunk2 | goto
  | switchTarget | sleepDone | window => exact ⟨_, rfl⟩

/-- Carried out at once. -/
theorem performTask_completes {s : State} {t : Task} {ts : List Task} (hv : s.cfg.valid = true) (hr : s.InRange)
    (hp : s.Placed (t :: ts)) : ∃ u, performTask t { s with work := [] } = .next u := by
  cases hp with
  | action => exact tickAction_next (s := { s with work := [] }) hv hr.1 hr.2.1
  | run ha ht =>
    obtain ⟨u, hu, -⟩ := runSeq_next (s := { s with work := [] }) rfl ht
    exact ⟨u, hu⟩
  | seqHead ha hp => exact runRest_completes (s := { s with work := [] }) hp hr.2.2.2.2
  | seqDelay ha hp => exact readDelay_completes (s := { s with work := [] }) hp
  | seqArgs ha hp => exact sendRestArgs_completes (s := { s with work := [] }) hp
  | endChunk2 h2 => exact endChunk2_next (s := { s with work := [] }) hv h2
  | frame | seqTake | seqTakeDelay | seqHold | argSent | sendFb | endChunk1 | rows | colSent | goto | switchTarget
  | sleepDone | window => exact ⟨_, rfl⟩

/-! ### Every edge is answered -/

namespace State.Stands

variable {s : State}

theorem controlAction_completes (h : s.Stands True) : ∃ u, controlAction s = .next u := by
  obtain ⟨hplace, hrange⟩ := (State.placesOk_iff s).1 (h.2.2 trivial)
  unfold controlAction
  split
  · exact ⟨s, rfl⟩
  · rename_i t ts hw
    exact taskAction_completes h.1 hrange (hw ▸ hplace)

theorem controlActions_complete (n : Nat) (h : s.Stands True) : ∃ u, controlActions n s = .next u := by
  induction n generalizing s with
  | zero => exact ⟨s, rfl⟩
  | succ n ih =>
    obtain ⟨v, hv⟩ := h.controlAction_completes
    obtain ⟨u, hu⟩ := ih (h.after_controlAction hv)
    exact ⟨u, andThen_eq_next.2 ⟨v, hv, hu⟩⟩

theorem clockControl_completes (n : Nat) (h : s.Stands True) : ∃ u, clockControl n s = .next u := by
  unfold clockControl controlEdge
  split
  · exact ⟨_, rfl⟩
  · split
    · exact ⟨_, rfl⟩
    · exact h.after_endHold.controlActions_complete n

theorem clockEdge_completes (p : Ports) (n : Nat) (h : s.Stands True) : ∃ t, clockEdge p n s = .next t := by
  obtain ⟨u, hu⟩ := (h.after_sample p { lapses := [], window := none }).clockControl_completes n
  exact ⟨_, by rw [clockEdge_eq_served, hu, andThen_next]⟩

/-- The rest of a tick is carried to its end, task by task, or to its open drawing window. -/
theorem drain_completes {ts : List Task} (h : s.Stands True) (hw : s.work = ts) : ∃ u, drain s = .next u := by
  induction ts generalizing s with
  | nil => exact ⟨_, drain_nil hw⟩
  | cons t ts ih =>
    obtain ⟨hplace, hrange⟩ := (State.placesOk_iff s).1 (h.2.2 trivial)
    obtain ⟨-, -, hend, -⟩ := State.controlOk_cons hw h.2.1
    obtain ⟨v, hv⟩ := performTask_completes h.1 hrange (hw ▸ hplace)
    rw [drain_cons hw, hv, andThen_next]
    by_cases ha : t = .action
    · subst ha
      obtain rfl := hend rfl
      exact ⟨_, resume_nil v⟩
    · have hrest := h.after_performTask ha hw hv
      unfold resume
      split
      · rename_i hnil
        rw [hnil] at hrest
        exact ih hrest rfl
      · exact ⟨_, rfl⟩

theorem transactionEdge_completes (p : Ports) (d : Draws) (h : s.Stands True) :
    ∃ t, transactionEdge p d s = .next t := by
  obtain ⟨-, hready, -⟩ := (State.controlOk_iff s).1 h.2.1
  obtain ⟨u, hu⟩ := ((h.after_sample p d).after_edgeStart p).drain_completes rfl
  exact ⟨_, by rw [transactionEdge_eq_drain (fun hr => (hready hr).1), hu, andThen_next]⟩

/-- No input finds a consistent state stuck: an edge of either level, or a reset (70_reset_and_hazards.md R200). -/
theorem takeInput_completes (i : Input) (h : s.Stands True) : ∃ t, takeInput i s = .next t := by
  cases i with
  | reset fb => exact ⟨_, rfl⟩
  | edge p d => exact h.transactionEdge_completes p d
  | clock p n => exact h.clockEdge_completes p n

end State.Stands

/-- With no further input the step names what the block waits for (70_reset_and_hazards.md R212, R213). -/
theorem step_of_no_input {s : State} (hv : s.cfg.valid = true) (hi : s.inputs = []) :
    step s = .fault (noInputFault s) := by
  rw [step, (Config.check_eq_none _).2 hv, hi]

/-- Settles O13: what stands in its place can go on, so every input is answered; the faults are the empty list of inputs and a
transfer cursor past its end. -/
theorem silentEnvironmentStops : Obligations.SilentEnvironmentStops := by
  intro s
  refine ⟨fun hv hc hp i rest hi => ?_, step_of_no_input, fun hidx => if_pos hidx, fun hrow => if_pos hrow⟩
  have hs : State.Stands True { s with inputs := rest } :=
    State.Stands.of_same (s := s) ⟨hv, hc, fun _ => hp⟩ ⟨rfl, rfl, rfl, rfl, rfl, rfl⟩
      ⟨rfl, rfl, rfl, rfl, rfl, rfl, rfl, rfl, rfl, rfl, rfl⟩
  rw [step_of_valid hv hi]
  exact hs.takeInput_completes i

end Sys2Proof.Machine
